-- ==== Sys2Proof/Word.lean ====
section
/-! DEFINITION. The word types of the L960: 64-bit scalar registers (R51), bytes and 16-bit halfwords of
instruction lines (R72), and the register names an encoding carries (R6, R83). -/

namespace Sys2Proof

/-- A 64-bit scalar value (R51). -/
abbrev Word := BitVec 64
/-- A byte of memory, of a vector register or of a tile (R2). -/
abbrev Byte := BitVec 8
/-- A halfword of an instruction line (R72). -/
abbrev Half := BitVec 16

/-- x0 to x31 (R51). -/
abbrev XName := BitVec 5
/-- v0 to v31 (R52). -/
abbrev VName := BitVec 5
/-- m0 to m7 (R56). -/
abbrev MName := BitVec 3
/-- g0 to g7 (R57); 0 in an instruction means no gate. -/
abbrev GName := BitVec 3
/-- A tile field, 0 to 31; 24 to 31 trap (R58). -/
abbrev TName := BitVec 5
/-- a0 to a63 (R59). -/
abbrev AName := BitVec 6

end Sys2Proof
end

