-- ==== Sys2Proof/Syntax.lean ====
section
/-! DEFINITION. The abstract syntax: one constructor of `Instr` for each row of spec/opcode_table.json.
Rows with a head and a tail (R73, R81) are instructions; the later rows are the operations and events of
file 95, which have no encoding and act on the package from outside the focused hart. -/

namespace Sys2Proof

/-- Neighbour mode of operand a (R82). -/
inductive Nb where
  | none | l | r
deriving DecidableEq, Repr

/-- Edge policy of a neighbour operand (R82, R127). -/
inductive Edge where
  | ez | er | ew
deriving DecidableEq, Repr

/-- Mask and gate of an instruction that takes both optionally (R82). -/
structure Gov where
  me : Bool
  m  : MName
  g  : GName
deriving DecidableEq, Repr

/-- Mask that the major requires (me = 1), with a gate (R82, R124). -/
structure Sel where
  m : MName
  g : GName
deriving DecidableEq, Repr

/-- Mask, gate, neighbour and edge of the element-wise mould (R82, R376). -/
structure Ctrl where
  gov  : Gov
  nb   : Nb
  edge : Edge
deriving DecidableEq, Repr

/-- TB target: signed line offset and slot (R78, R81). -/
structure Target where
  line : BitVec 11
  slot : BitVec 5
deriving DecidableEq, Repr

/-- TJ target (R78, R81). -/
structure TargetJ where
  line : BitVec 27
  slot : BitVec 5
deriving DecidableEq, Repr

/-- Size code of LD and ST (R85). -/
inductive Size where
  | b | h | w | d
deriving DecidableEq, Repr

/-- Size of AMO and CAS (R85). -/
inductive ASize where
  | w | d
deriving DecidableEq, Repr

/-- Operation of AMO and VAMO (R85). -/
inductive AmoOp where
  | add | and | or | xor | min | max | minu | maxu | swap
deriving DecidableEq, Repr

/-- Integer condition of B and VCMP (R85). -/
inductive Cond where
  | eq | ne | lt | ge | ltu | geu
deriving DecidableEq, Repr

/-- Float condition of VFCMP (R85). -/
inductive FCond where
  | eq | ne | lt | le | gt | ge | un
deriving DecidableEq, Repr

/-- Rounding code: dynamic or static (R85). -/
inductive Rm where
  | dyn | rne | rz | ru | rd
deriving DecidableEq, Repr

/-- Format code of R84. -/
inductive Fmt where
  | i8 | ui8 | b8p1 | b8p2 | b8p3 | b8p4 | b8p5 | b8p6 | b8p7 | ub8p3 | ub8p4 | b16 | bf16 | b32 | b64
deriving DecidableEq, Repr

/-- Element width code of cr.vcfg (R66). -/
inductive Ew where
  | e8 | e16 | e32 | e64
deriving DecidableEq, Repr

/-- Span code of cr.vcfg (R66). -/
inductive Span where
  | s1 | s2 | s4 | s8
deriving DecidableEq, Repr

/-- Negation form of VFMA (R85). -/
inductive Neg where
  | plain | n | s | ns
deriving DecidableEq, Repr

/-- The reductions R85 lists for VRED. -/
inductive Red where
  | sum | max (u : Bool) | min (u : Bool) | and | or | fsum (ord : Bool) | fmax | fmin
deriving DecidableEq, Repr

/-- Form of FENCE (R181). -/
inductive FenceForm where
  | sv | vs | eng | key | pod | all
deriving DecidableEq, Repr

/-- Kind of BAR (R330). -/
inductive BarKind where
  | arrive | wait | full
deriving DecidableEq, Repr

/-- Scope of BAR (R17). -/
inductive Scope where
  | core | quad | die | pkg | pod
deriving DecidableEq, Repr

/-- Part of an accumulator row that MROWA reads (R143). -/
inductive Part where
  | none | lo | hi | q0 | q1 | q2 | q3
deriving DecidableEq, Repr

/-- Form of ASCALE with the operands the form uses (R119). -/
inductive ScaleForm where
  | row (a : XName) | col (b : VName) | both (a : XName) (b : VName)
deriving DecidableEq, Repr

/-- A register store whose granules carry ECC (R61, R148). -/
inductive StoreKind where
  | vector | tile | acc
deriving DecidableEq, Repr

/-- A flight of a launch on this package (R37). -/
structure FlightId where
  launch : Nat
  stage  : Nat
  index  : Nat
deriving DecidableEq, Repr

/-- A hart by its flight and its core within the quad; it keeps this name wherever it runs. -/
structure HartId where
  flight : FlightId
  k      : Nat
deriving DecidableEq, Repr

/-- The header of a received packet: full, with the ordered-flag counts when of is 1 (R268, R263), or
compact (R269). -/
inductive FlitHeader where
  | full (bits : BitVec 192) (counts : List (BitVec 16))
  | compact (ctx : BitVec 6) (len : BitVec 8) (delta : Fin 0xFFFF)
  | escape (bits : BitVec 192) (counts : List (BitVec 16))
deriving DecidableEq, Repr

/-- The flits of one packet at a link receiver, from the first that the receiver has not accepted (R264): the sequence number of
that flit, how many of them precede the first with a bad check code when there is one, the colour beside them, the packet.
`launch` is the pod-wide tag of the launch the packet belongs to, and `plane` the plane it was first issued on (R274). `group` is 0
for an engine's write; a store or PFADD of a hart has there the number of the count of R263 that it counts in, `before` are the
numbers of the 16 counts that an ordered flag carries, `hart` is the sending hart, and `merged` are the other adds that a combined
PFADD stands for, each with its hart, the plane it was first issued on and the number of its count (log 20). -/
structure Flit where
  seq     : BitVec 16
  bad     : Option Nat
  colour  : Bool
  plane   : BitVec 4
  group   : Nat
  before  : List Nat
  hart    : HartId
  merged  : List (HartId × Nat × Nat)
  launch  : Nat
  header  : FlitHeader
  payload : List Byte
deriving DecidableEq, Repr

/-- A version that an S stream of a core holds (R173): that of the firmware context or of the user hart, the line, and the version's
write stamp. -/
structure HeldVersion where
  fw   : Bool
  line : Nat
  wts  : Nat
deriving DecidableEq, Repr

/-- An LMS public key of the parameters of R316: the identifier of its tree and the root. -/
structure LmsKey where
  id   : List Byte
  root : List Byte
deriving DecidableEq, Repr, Inhabited

/-- An LMS signature: the leaf, the randomiser, the 67 one-time values, the 15 nodes of the path. -/
structure LmsSignature where
  leaf : Nat
  rand : List Byte
  vals : List (List Byte)
  path : List (List Byte)
deriving DecidableEq, Repr, Inhabited

/-- A two-level HSS signature (R316): the upper tree signs the lower one's key, which signs the message. -/
structure HssSignature where
  upper : LmsSignature
  key   : LmsKey
  lower : LmsSignature
deriving DecidableEq, Repr, Inhabited

/-- What the boot fetch brought: the image's bytes, its security version, the root key and its HSS signature (R316). -/
structure BootImage where
  bytes     : List Byte
  version   : Nat
  key       : LmsKey
  signature : HssSignature
deriving DecidableEq, Repr

/-- One constructor for each row of the opcode table. -/
inductive Instr where
  -- scalar integer, 0x00 to 0x16
  | nop
  | add (d a b : XName)
  | sub (d a b : XName)
  | and (d a b : XName)
  | or (d a b : XName)
  | xor (d a b : XName)
  | sll (d a b : XName) (n : BitVec 6)
  | srl (d a b : XName) (n : BitVec 6)
  | sra (d a b : XName) (n : BitVec 6)
  | slt (d a b : XName) (u : Bool)
  | mul (d a b : XName)
  | mulh (d a b : XName)
  | div (d a b : XName) (u : Bool)
  | rem (d a b : XName) (u : Bool)
  | min (d a b : XName)
  | max (d a b : XName)
  | clz (d a : XName)
  | popc (d a : XName)
  | addi (d a : XName) (imm : BitVec 32)
  | andi (d a : XName) (imm : BitVec 32)
  | ori (d a : XName) (imm : BitVec 32)
  | xori (d a : XName) (imm : BitVec 32)
  | li (d : XName) (imm : BitVec 32)
  -- scalar memory and atomics
  | ld (d a : XName) (imm : BitVec 32) (sz : Size) (sx : Bool)
  | st (src a : XName) (imm : BitVec 32) (sz : Size) (flag : Bool)
  | ldslot (d : XName) (slot : BitVec 8)
  | amo (d a b : XName) (op : AmoOp) (sz : ASize)
  | cas (d a b c : XName) (sz : ASize)
  -- control flow
  | b (a b : XName) (cond : Cond) (t : Target)
  | j (t : Target)
  | jal (d : XName) (t : TargetJ)
  | jalr (d a : XName) (imm : BitVec 32)
  | loop (a : XName) (stages : BitVec 3) (t : Target)
  | setvlb (d a : XName) (ew : Ew) (span : Span) (t : Target)
  | setvl (d a : XName) (ew : Ew) (span : Span)
  | join (mask : BitVec 4) (id : BitVec 8)
  | detach
  | exit
  -- system and cache
  | crrd (d : XName) (num : BitVec 12)
  | crwr (a : XName) (num : BitVec 12)
  | eret
  | trap (imm : BitVec 32)
  | livePackages
  | clearDeferredIntegrity
  | cwb (a b : XName)
  | cinv (a b : XName)
  | iinv (a b : XName)
  | ifence
  | fence (form : FenceForm)
  | sleep (a : XName)
  | wswitch (a : XName)
  | wrel (a : XName)
  -- synchronisation, queues, handles and harvest
  | bar (kind : BarKind) (scope : Scope)
  | safe
  | qsend (a : XName) (b : VName)
  | qrecv (d : VName) (a : XName)
  | qstat (d a : XName)
  | hnew (d a : XName) (stage : BitVec 4) (exp : BitVec 6) (t : TargetJ)
  | hcopy (d a : XName)
  | hdrop (a : XName)
  | hbase (d a : XName)
  | snap (a : XName)
  -- vector arithmetic
  | vadd (d a b : VName) (vx : Bool) (c : Ctrl)
  | vsub (d a b : VName) (vx : Bool) (c : Ctrl)
  | vmul (d a b : VName) (vx : Bool) (c : Ctrl)
  | vmulh (d a b : VName) (vx u : Bool) (c : Ctrl)
  | vmacc (d a b : VName) (vx : Bool) (c : Ctrl)
  | vmin (d a b : VName) (vx u : Bool) (c : Ctrl)
  | vmax (d a b : VName) (vx u : Bool) (c : Ctrl)
  | vand (d a b : VName) (vx : Bool) (c : Ctrl)
  | vor (d a b : VName) (vx : Bool) (c : Ctrl)
  | vxor (d a b : VName) (vx : Bool) (c : Ctrl)
  | vsll (d a b : VName) (vx : Bool) (c : Ctrl)
  | vsrl (d a b : VName) (vx : Bool) (c : Ctrl)
  | vsra (d a b : VName) (vx : Bool) (c : Ctrl)
  | vfadd (d a b : VName) (vx : Bool) (rm : Rm) (c : Ctrl)
  | vfsub (d a b : VName) (vx : Bool) (rm : Rm) (c : Ctrl)
  | vfmul (d a b : VName) (vx : Bool) (rm : Rm) (c : Ctrl)
  | vfdiv (d a b : VName) (vx : Bool) (rm : Rm) (c : Ctrl)
  | vfma (d a b e : VName) (vx : Bool) (rm : Rm) (neg : Neg) (c : Ctrl)
  | vfmin (d a b : VName) (vx : Bool) (c : Ctrl)
  | vfmax (d a b : VName) (vx : Bool) (c : Ctrl)
  | vfsqrt (d a : VName) (rm : Rm) (c : Ctrl)
  | vfrcp (d a : VName) (rm : Rm) (c : Ctrl)
  | vfrsq (d a : VName) (rm : Rm) (c : Ctrl)
  | vfexp2 (d a : VName) (rm : Rm) (c : Ctrl)
  | vflog2 (d a : VName) (rm : Rm) (c : Ctrl)
  | vcmp (d : MName) (a b : VName) (vx : Bool) (cond : Cond) (c : Ctrl)
  | vfcmp (d : MName) (a b : VName) (vx : Bool) (cond : FCond) (c : Ctrl)
  | vcvt (d a : VName) (fs fd : Fmt) (rm : Rm) (inf ovf : Bool) (gov : Gov)
  | vmerge (d a b : VName) (vx : Bool) (sel : Sel) (nb : Nb) (edge : Edge)
  | vmv (d a : VName) (c : Ctrl)
  | vsplat (d : VName) (a : XName) (gov : Gov)
  | vred (d a : VName) (op : Red) (gov : Gov)
  -- mask and permutation
  | vslide (d a : VName) (b : XName) (dn : Bool) (gov : Gov)
  | vgather (d a b : VName) (gov : Gov)
  | vcompress (d a : VName) (cnt : XName) (sel : Sel)
  | vreshape (d a : VName) (b : XName) (gov : Gov)
  | viota (d : VName) (sel : Sel)
  | vid (d : VName) (gov : Gov)
  | mand (d a b : MName)
  | mandn (d a b : MName)
  | mor (d a b : MName)
  | mxor (d a b : MName)
  | mnot (d a : MName)
  | mcount (d : XName) (a : MName)
  | mfirst (d : XName) (a : MName)
  -- vector memory
  | vld (d : VName) (a : XName) (off : BitVec 16) (gov : Gov)
  | vlds (d : VName) (a b : XName) (off : BitVec 16) (gov : Gov)
  | vldx (d : VName) (a : XName) (b : VName) (off : BitVec 16) (gov : Gov)
  | vldr (d : VName) (a : XName) (off : BitVec 16) (gov : Gov)
  | vst (src : VName) (a : XName) (off : BitVec 16) (gov : Gov)
  | vsts (src : VName) (a b : XName) (off : BitVec 16) (gov : Gov)
  | vstx (src : VName) (a : XName) (b : VName) (off : BitVec 16) (gov : Gov)
  | vstr (src : VName) (a : XName) (off : BitVec 16) (flag : Bool) (gov : Gov)
  | vamo (d : VName) (a : XName) (b : VName) (off : BitVec 16) (op : AmoOp) (gov : Gov)
  -- matrix
  | mrow (ad : AName) (vs : VName) (t : TName) (fa fb : Fmt) (cb rep : BitVec 5) (rv inf : Bool)
  | mrowa (ad as : AName) (t : TName) (fa fb : Fmt) (cb rep : BitVec 5) (rv inf ovf : Bool) (part : Part)
      (shift : BitVec 5)
  | aclr (d : AName) (cnt : BitVec 6)
  | ard (d : VName) (row : AName)
  | awr (d : AName) (a : VName) (int : Bool)
  | ascale (ad as : AName) (form : ScaleForm) (clr : Bool)
  | tld (t : TName) (a : XName) (imm : BitVec 32)
  | tfill (t : TName) (a : VName) (hi : Bool)
  -- engines and fabric
  | eissue (md : MName) (a b : VName) (m : MName)
  | ewait (a : VName) (m : MName)
  | pfadd (d a b : XName) (imm : BitVec 32)
  -- waits that end
  | joinTimeout (quad : Nat) (pc : Word)
  | sleepWake (core : Nat)
  | ewaitWake (core : Nat)
  | qrecvWake (core : Nat)
  | heldVersionDrop (core : Nat) (version : HeldVersion)
  -- engine commands, one piece of the command a step
  | copy (core : Nat) (serial : BitVec 16) (piece : Nat)
  | fill (core : Nat) (serial : BitVec 16) (piece : Nat)
  | stage (core : Nat) (serial : BitVec 16) (piece : Nat)
  | tload (core : Nat) (serial : BitVec 16)
  | aload (core : Nat) (serial : BitVec 16) (row : Nat)
  | engineCommandComplete (core : Nat) (serial : BitVec 16)
  -- the ingress stream, replies and posts; k is the packet's place among the arrived packets
  | remoteStorePerform (k : Nat)
  | pfaddPerform (k : Nat)
  | pfaddCombine (i j : Nat)
  | pfaddReply (k : Nat)
  | vldrRequestPerform (k : Nat)
  | vldrReply (k : Nat)
  | ballastPostIssue (core : Nat)
  | ballastPost (k : Nat)
  | finaliserStart (k quad : Nat)
  -- queues, stages, flights
  | queuePlace (core k : Nat)
  | qsendResend (core queue : Nat)
  | queueUnmap (launch queue : Nat)
  | queueRemap (launch queue : Nat)
  | stageRetire (launch stage : Nat)
  | launchComplete (launch : Nat)
  | schedulerRound (place : List Nat)
  | flightStart (f : FlightId) (quad : Nat)
  | flightPark (f : FlightId)
  | flightResume (f : FlightId) (quad : Nat)
  | flightRestore (f : FlightId) (quad : Nat)
  | bandwidthRefill (die : Nat)
  -- the ladder and context saves
  | preemptRequest (launch : Nat) (flights : List FlightId)
  | preemptRung2 (k : Nat)
  | preemptRung3 (k : Nat)
  | contextSave (core : Nat)
  -- moves and keys
  | moveStart (old new len : Nat)
  | movePark (core : Nat)
  | moveRelease (old : Nat)
  | keyRevoke (key : BitVec 6)
  | keyRevokeComplete (key : BitVec 6)
  -- harvests, rollback, migration
  | markerArrival (k : Nat)
  | sealedExtentWrite (ext : Nat)
  | sealedExtentCopy (ext : Nat)
  | harvestComplete (launch : Nat)
  | rollback (launch : Nat) (place : List Nat)
  | migrationStart (launch target : Nat)
  | migrationStop (launch : Nat)
  | migrationRelease (launch : Nat)
  -- links and time
  | flitReceive (link : Nat) (flit : Flit)
  | laneFail (link : Nat) (lanes : Nat)
  | linkRetrainComplete (link : Nat)
  | linkDown (link : Nat)
  | linkRetrain (link lanes : Nat)
  | timeSync (ahead : Bool)
  | packageLost (pkg : BitVec 12)
  | packageCutOff
  -- the host port
  | ctailDoorbell (v : BitVec 32)
  | sheadDoorbell (v : BitVec 32)
  | ctlWrite (v : BitVec 32)
  | registerWrite (off : Nat) (v : BitVec 64)
  | sessionRekey (key : List Byte)
  | launch (seq addr len : Word) (sha : BitVec 256)
  | admissionMessage (pkg : BitVec 12) (tag : Word) (admits : Bool)
  | admissionTimeout (tag : Word)
  | endLaunch (seq : Word) (launch : Nat)
  | resumeHart (seq : Word) (launch core : Nat)
  | preEmpt (seq : Word) (launch : Nat)
  | acceptFeatures (seq : Word) (bits : BitVec 256)
  | closeHostFedQueue (seq : Word) (launch queue : Nat)
  | setPowerCap (seq : Word) (watts : Nat)
  | queueSend (seq : Word) (launch queue : Nat) (entry : List Byte)
  | queueTake (seq : Word) (launch queue : Nat) (addr : Word) (most : Nat)
  | unknownCommand (seq : Word)
  -- boot, power, physical events
  | packageReset (tries : List (Option BootImage))
  | attestationReport (nonce : BitVec 256)
  | islandClockChange (island mhz : Nat)
  | thermalThrottle (island : Nat)
  | thermalRecover (island : Nat)
  | thermalStop
  | acknowledgement (k : Nat)
  | configurationRequest
  | softError (core : Nat) (store : StoreKind) (granule : Nat) (uncorrectable : Bool)
deriving DecidableEq, Repr

end Sys2Proof
end

