-- ==== Sys2Proof/WellFormed.lean ====
section
/-! DEFINITION. Which terms of `Instr` are instructions of the L960: the operand combinations that pass
checks 1 to 4 of R86 (the fields of R82 to R85, R194, R243, R353, R387, R406). What depends on the state
(group alignment, overlap, types) is checked when the instruction executes. -/

namespace Sys2Proof

namespace Fmt

/-- The binary8 family (R104, R114). -/
def isB8 : Fmt → Bool
  | .b8p1 | .b8p2 | .b8p3 | .b8p4 | .b8p5 | .b8p6 | .b8p7 | .ub8p3 | .ub8p4 => true
  | _ => false

/-- The integer formats (R101). -/
def isInt : Fmt → Bool
  | .i8 | .ui8 => true
  | _ => false

/-- Width in bytes (R84). -/
def bytes : Fmt → Nat
  | .b16 | .bf16 => 2
  | .b32 => 4
  | .b64 => 8
  | _ => 1

/-- The format pairs of a row step (R114). -/
def pairOk (fa fb : Fmt) : Bool :=
  (fa.isB8 && fb.isB8) || (fa.isInt && fb.isInt) ||
    ((fa == .b16 || fa == .bf16 || fa == .b32) && fa == fb)

end Fmt

/-- When me is 0, m must be 0 (R82). -/
def Gov.wf (g : Gov) : Bool := g.me || g.m == 0

/-- When nb is 00, edge must be 00 (R82). -/
def nbWf (nb : Nb) (edge : Edge) : Bool := nb != .none || edge == .ez

def Ctrl.wf (c : Ctrl) : Bool := c.gov.wf && nbWf c.nb c.edge

/-- The part field that fa requires (R143, R353). -/
def partOk (fa : Fmt) (part : Part) : Bool :=
  match fa with
  | .b16 | .bf16 => part == .lo || part == .hi
  | .b32 => part == .q0 || part == .q1 || part == .q2 || part == .q3
  | _ => part == .none

/-- Field limits that MROW and MROWA share (R141, R353). -/
def rowStepWf (fa fb : Fmt) (cb rep : BitVec 5) (inf : Bool) : Bool :=
  Fmt.pairOk fa fb && cb.toNat ≤ 23 && 1 ≤ rep.toNat && rep.toNat ≤ 24 && (!inf || !fa.isInt)

/-- A shift by register has no immediate amount (R85, R367). -/
def shiftWf (b : XName) (n : BitVec 6) : Bool := b == 0 || n == 0

/-- The well-formed instructions. An event carries no encoding; of the host's queue entries only the
64-byte length is a form (R215). -/
def Instr.wf : Instr → Bool
  | .sll _ _ rb n | .srl _ _ rb n | .sra _ _ rb n => shiftWf rb n
  | .ld _ _ _ sz sx => !(sx && sz == .d)
  | .trap im => im != 0x80000021 && im != 0x80000022
  | .hnew _ _ _ exp _ => 2 ≤ exp.toNat && exp.toNat ≤ 32
  | .vadd _ _ _ _ c | .vsub _ _ _ _ c | .vmul _ _ _ _ c | .vmacc _ _ _ _ c | .vand _ _ _ _ c
  | .vor _ _ _ _ c | .vxor _ _ _ _ c | .vsll _ _ _ _ c | .vsrl _ _ _ _ c | .vsra _ _ _ _ c
  | .vfmin _ _ _ _ c | .vfmax _ _ _ _ c => c.wf
  | .vmulh _ _ _ _ _ c | .vmin _ _ _ _ _ c | .vmax _ _ _ _ _ c => c.wf
  | .vfadd _ _ _ _ _ c | .vfsub _ _ _ _ _ c | .vfmul _ _ _ _ _ c | .vfdiv _ _ _ _ _ c => c.wf
  | .vfma _ _ _ _ _ _ _ c => c.wf
  | .vfsqrt _ _ _ c | .vfrcp _ _ _ c | .vfrsq _ _ _ c | .vfexp2 _ _ _ c | .vflog2 _ _ _ c => c.wf
  | .vcmp _ _ _ _ _ c | .vfcmp _ _ _ _ _ c => c.wf
  | .vcvt _ _ fs fd _ inf ovf gov =>
      gov.wf && !(fd.isInt && (inf || ovf)) && (!inf || fs.isB8 || fd.isB8)
  | .vmerge _ _ _ _ _ nb edge => nbWf nb edge
  | .vmv _ _ c => c.wf
  | .vsplat _ _ gov | .vred _ _ _ gov | .vslide _ _ _ _ gov | .vgather _ _ _ gov | .vreshape _ _ _ gov
  | .vid _ gov | .vld _ _ _ gov | .vlds _ _ _ _ gov | .vldx _ _ _ _ gov | .vldr _ _ _ gov
  | .vst _ _ _ gov | .vsts _ _ _ _ gov | .vstx _ _ _ _ gov | .vstr _ _ _ _ gov
  | .vamo _ _ _ _ _ gov => gov.wf
  | .mrow _ _ _ fa fb cb rep _ inf => rowStepWf fa fb cb rep inf
  | .mrowa _ _ _ fa fb cb rep _ inf ovf part shift =>
      rowStepWf fa fb cb rep inf && partOk fa part && (fa.isInt || shift == 0) && !(ovf && fa.isInt)
  | .aclr d cnt => d.toNat + cnt.toNat ≤ 63
  | .eissue _ ra rb _ => ra.toNat % 8 == 0 && rb.toNat % 2 == 0
  | .ewait ra _ => ra.toNat % 2 == 0
  | .queueSend _ _ _ entry => entry.length == 64
  | _ => true

end Sys2Proof
end

