-- ==== Sys2Proof/Decode.lean ====
section
/-! DEFINITION. Encodings (R72 to R90): the fields of a head and its tail, the decoder, which refuses by
the first failing check of R86, and the encoder written from the same tables. -/

namespace Sys2Proof

/-- Why a head and tail are no instruction: checks 1 to 4 of R86, in that order. -/
inductive Bad where
  /-- check 1: the major is unassigned or 0xFF -/
  | major
  /-- check 2: L differs from the length the major requires -/
  | length
  /-- check 3: f holds a value R85 does not list -/
  | func
  /-- check 4: a reserved bit or field value -/
  | field
deriving DecidableEq, Repr

/-- Sub-cause of the illegal-instruction trap (R86). -/
def Bad.sub : Bad → BitVec 8
  | .major => 0x01
  | .length => 0x02
  | .func => 0x03
  | .field => 0x04

/-- A head (L, major, d; R73) and the tail value cut as R81 cuts it; `hi` is tail [47:16]. -/
structure Fields where
  len   : BitVec 2
  major : BitVec 8
  d     : BitVec 6
  a     : BitVec 5
  b     : BitVec 5
  f     : BitVec 6
  hi    : BitVec 32
deriving DecidableEq, Repr

/-- The fields of a head and a tail value (R73, R74, R81). -/
def Fields.ofBits (head : BitVec 16) (tail : BitVec 48) : Fields :=
  { len := head.extractLsb' 14 2, major := head.extractLsb' 6 8, d := head.extractLsb' 0 6,
    a := tail.extractLsb' 11 5, b := tail.extractLsb' 6 5, f := tail.extractLsb' 0 6,
    hi := tail.extractLsb' 16 32 }

/-- The head of R73. -/
def Fields.head (q : Fields) : BitVec 16 := q.len ++ q.major ++ q.d

/-- The tail value of R74 and R81. -/
def Fields.tail (q : Fields) : BitVec 48 := q.hi ++ (q.a ++ q.b ++ q.f)

/-- The control halfword of R82. -/
structure CtrlBits where
  me   : BitVec 1
  m    : BitVec 3
  g    : BitVec 3
  nb   : BitVec 2
  edge : BitVec 2
  c    : BitVec 5
deriving DecidableEq, Repr

def CtrlBits.ofBits (h : BitVec 16) : CtrlBits :=
  { me := h.extractLsb' 15 1, m := h.extractLsb' 12 3, g := h.extractLsb' 9 3, nb := h.extractLsb' 7 2,
    edge := h.extractLsb' 5 2, c := h.extractLsb' 0 5 }

def CtrlBits.bits (c : CtrlBits) : BitVec 16 := c.me ++ c.m ++ c.g ++ c.nb ++ c.edge ++ c.c

/-- The control halfword of a T2 tail. -/
def Fields.ctrl2 (q : Fields) : CtrlBits := .ofBits (q.hi.extractLsb' 0 16)
/-- The control halfword of a T3c tail. -/
def Fields.ctrl3 (q : Fields) : CtrlBits := .ofBits (q.hi.extractLsb' 16 16)
/-- The off field of a T3c tail. -/
def Fields.off (q : Fields) : BitVec 16 := q.hi.extractLsb' 0 16

/-! Codes of the modifier fields. -/

def Nb.ofCode (c : BitVec 2) : Option Nb :=
  if c = 0 then some .none else if c = 1 then some .l else if c = 2 then some .r else Option.none
def Nb.code : Nb → BitVec 2
  | .none => 0 | .l => 1 | .r => 2
def Edge.ofCode (c : BitVec 2) : Option Edge :=
  if c = 0 then some .ez else if c = 1 then some .er else if c = 2 then some .ew else none
def Edge.code : Edge → BitVec 2
  | .ez => 0 | .er => 1 | .ew => 2
def Size.ofCode (c : BitVec 2) : Size :=
  if c = 0 then .b else if c = 1 then .h else if c = 2 then .w else .d
def Size.code : Size → BitVec 2
  | .b => 0 | .h => 1 | .w => 2 | .d => 3
def ASize.ofBit (c : Bool) : ASize := if c then .d else .w
def ASize.bit : ASize → Bool
  | .w => false | .d => true
def Ew.ofCode (c : BitVec 2) : Ew :=
  if c = 0 then .e8 else if c = 1 then .e16 else if c = 2 then .e32 else .e64
def Ew.code : Ew → BitVec 2
  | .e8 => 0 | .e16 => 1 | .e32 => 2 | .e64 => 3
def Span.ofCode (c : BitVec 2) : Span :=
  if c = 0 then .s1 else if c = 1 then .s2 else if c = 2 then .s4 else .s8
def Span.code : Span → BitVec 2
  | .s1 => 0 | .s2 => 1 | .s4 => 2 | .s8 => 3
def AmoOp.ofCode (c : BitVec 4) : Option AmoOp :=
  match c.toNat with
  | 0 => some .add | 1 => some .and | 2 => some .or | 3 => some .xor | 4 => some .min | 5 => some .max
  | 6 => some .minu | 7 => some .maxu | 8 => some .swap | _ => none
def AmoOp.code : AmoOp → BitVec 4
  | .add => 0 | .and => 1 | .or => 2 | .xor => 3 | .min => 4 | .max => 5 | .minu => 6 | .maxu => 7 | .swap => 8
def Cond.ofCode (c : BitVec 3) : Option Cond :=
  match c.toNat with
  | 0 => some .eq | 1 => some .ne | 2 => some .lt | 3 => some .ge | 4 => some .ltu | 5 => some .geu | _ => none
def Cond.code : Cond → BitVec 3
  | .eq => 0 | .ne => 1 | .lt => 2 | .ge => 3 | .ltu => 4 | .geu => 5
def FCond.ofCode (c : BitVec 3) : Option FCond :=
  match c.toNat with
  | 0 => some .eq | 1 => some .ne | 2 => some .lt | 3 => some .le | 4 => some .gt | 5 => some .ge
  | 6 => some .un | _ => none
def FCond.code : FCond → BitVec 3
  | .eq => 0 | .ne => 1 | .lt => 2 | .le => 3 | .gt => 4 | .ge => 5 | .un => 6
def Rm.ofCode (c : BitVec 3) : Option Rm :=
  match c.toNat with
  | 0 => some .dyn | 1 => some .rne | 2 => some .rz | 3 => some .ru | 4 => some .rd | _ => none
def Rm.code : Rm → BitVec 3
  | .dyn => 0 | .rne => 1 | .rz => 2 | .ru => 3 | .rd => 4
/-- R84; code 0xF is reserved. -/
def Fmt.ofCode (c : BitVec 4) : Option Fmt :=
  match c.toNat with
  | 0 => some .i8 | 1 => some .ui8 | 2 => some .b8p1 | 3 => some .b8p2 | 4 => some .b8p3 | 5 => some .b8p4
  | 6 => some .b8p5 | 7 => some .b8p6 | 8 => some .b8p7 | 9 => some .ub8p3 | 10 => some .ub8p4
  | 11 => some .b16 | 12 => some .bf16 | 13 => some .b32 | 14 => some .b64 | _ => none
def Fmt.code : Fmt → BitVec 4
  | .i8 => 0 | .ui8 => 1 | .b8p1 => 2 | .b8p2 => 3 | .b8p3 => 4 | .b8p4 => 5 | .b8p5 => 6 | .b8p6 => 7
  | .b8p7 => 8 | .ub8p3 => 9 | .ub8p4 => 10 | .b16 => 11 | .bf16 => 12 | .b32 => 13 | .b64 => 14
def Neg.ofCode (c : BitVec 2) : Neg :=
  if c = 0 then .plain else if c = 1 then .n else if c = 2 then .s else .ns
def Neg.code : Neg → BitVec 2
  | .plain => 0 | .n => 1 | .s => 2 | .ns => 3
/-- f of VRED: [5] .u, [4] .ord, [3] .f, [2:0] op (R85, R406). -/
def Red.ofCode (c : BitVec 6) : Option Red :=
  match c.toNat with
  | 0 => some .sum | 1 => some (.max false) | 2 => some (.min false) | 3 => some .and | 4 => some .or
  | 8 => some (.fsum false) | 9 => some .fmax | 10 => some .fmin | 24 => some (.fsum true)
  | 33 => some (.max true) | 34 => some (.min true) | _ => none
def Red.code : Red → BitVec 6
  | .sum => 0 | .max u => if u then 33 else 1 | .min u => if u then 34 else 2 | .and => 3 | .or => 4
  | .fsum ord => if ord then 24 else 8 | .fmax => 9 | .fmin => 10
def FenceForm.ofCode (c : BitVec 6) : Option FenceForm :=
  match c.toNat with
  | 0 => some .sv | 1 => some .vs | 2 => some .eng | 3 => some .key | 4 => some .pod | 5 => some .all | _ => none
def FenceForm.code : FenceForm → BitVec 6
  | .sv => 0 | .vs => 1 | .eng => 2 | .key => 3 | .pod => 4 | .all => 5
def BarKind.ofCode (c : BitVec 2) : Option BarKind :=
  match c.toNat with
  | 0 => some .arrive | 1 => some .wait | 2 => some .full | _ => none
def BarKind.code : BarKind → BitVec 2
  | .arrive => 0 | .wait => 1 | .full => 2
def Scope.ofCode (c : BitVec 3) : Option Scope :=
  match c.toNat with
  | 0 => some .core | 1 => some .quad | 2 => some .die | 3 => some .pkg | 4 => some .pod | _ => none
def Scope.code : Scope → BitVec 3
  | .core => 0 | .quad => 1 | .die => 2 | .pkg => 3 | .pod => 4
/-- imm [26:24] of MROWA (R85). -/
def Part.ofCode (c : BitVec 3) : Option Part :=
  match c.toNat with
  | 0 => some .none | 1 => some .lo | 2 => some .hi | 4 => some .q0 | 5 => some .q1 | 6 => some .q2
  | 7 => some .q3 | _ => Option.none
def Part.code : Part → BitVec 3
  | .none => 0 | .lo => 1 | .hi => 2 | .q0 => 4 | .q1 => 5 | .q2 => 6 | .q3 => 7

/-! Field readers and the order of the checks: length, then f, then the other fields. -/

/-- d as an x, v or data register: d[5] must be 0 (R83). -/
def Fields.d5 (q : Fields) : BitVec 5 := q.d.setWidth 5
def Fields.d5ok (q : Fields) : Bool := q.d.toNat < 32
/-- d as a mask register, 0 to 7 (R83). -/
def Fields.d3 (q : Fields) : BitVec 3 := q.d.setWidth 3
def Fields.d3ok (q : Fields) : Bool := q.d.toNat < 8
def Fields.a3 (q : Fields) : BitVec 3 := q.a.setWidth 3
def Fields.a3ok (q : Fields) : Bool := q.a.toNat < 8
def Fields.b3 (q : Fields) : BitVec 3 := q.b.setWidth 3
def Fields.b3ok (q : Fields) : Bool := q.b.toNat < 8
def Fields.f0 (q : Fields) : Bool := q.f.getLsbD 0
def Fields.f1 (q : Fields) : Bool := q.f.getLsbD 1
def Fields.f2 (q : Fields) : Bool := q.f.getLsbD 2
def Fields.f3 (q : Fields) : Bool := q.f.getLsbD 3
def Fields.f4 (q : Fields) : Bool := q.f.getLsbD 4
/-- The rounding code of the vector floating majors, f[3:1] (R85). -/
def Fields.rm (q : Fields) : BitVec 3 := q.f.extractLsb' 1 3

def CtrlBits.govOf (c : CtrlBits) : Gov := { me := c.me == 1, m := c.m, g := c.g }
/-- Mask optional, no neighbour, no third register (R82). -/
def CtrlBits.gov (c : CtrlBits) : Option Gov :=
  if c.nb = 0 ∧ c.edge = 0 ∧ c.c = 0 ∧ c.govOf.wf then some c.govOf else none
/-- The element-wise mould's control halfword, without its third register. -/
def CtrlBits.ctrlOf (c : CtrlBits) : Option Ctrl :=
  match Nb.ofCode c.nb, Edge.ofCode c.edge with
  | some nb, some edge => let r : Ctrl := { gov := c.govOf, nb := nb, edge := edge }
                          if r.wf then some r else none
  | _, _ => none
/-- The element-wise mould's control halfword; no third register. -/
def CtrlBits.ctrl (c : CtrlBits) : Option Ctrl := if c.c = 0 then c.ctrlOf else none
/-- The mask is required; no neighbour. -/
def CtrlBits.selOf (c : CtrlBits) : Option Sel :=
  if c.me = 1 ∧ c.nb = 0 ∧ c.edge = 0 then some { m := c.m, g := c.g } else none

def Gov.bits (g : Gov) : CtrlBits := { me := .ofBool g.me, m := g.m, g := g.g, nb := 0, edge := 0, c := 0 }
def Ctrl.bits (c : Ctrl) : CtrlBits :=
  { me := .ofBool c.gov.me, m := c.gov.m, g := c.gov.g, nb := c.nb.code, edge := c.edge.code, c := 0 }
def Sel.bits (s : Sel) : CtrlBits := { me := 1, m := s.m, g := s.g, nb := 0, edge := 0, c := 0 }

def Target.ofHi (q : Fields) : Target := { line := q.hi.extractLsb' 5 11, slot := q.hi.extractLsb' 0 5 }
def Target.hi (t : Target) : BitVec 32 := 0#16 ++ (t.line ++ t.slot)
def TargetJ.ofHi (q : Fields) : TargetJ := { line := q.hi.extractLsb' 5 27, slot := q.hi.extractLsb' 0 5 }
def TargetJ.hi (t : TargetJ) : BitVec 32 := t.line ++ t.slot
/-- A control halfword in the place of a T2 tail. -/
def CtrlBits.hi2 (c : CtrlBits) : BitVec 32 := 0#16 ++ c.bits
/-- A control halfword and off in the places of a T3c tail. -/
def CtrlBits.hi3 (c : CtrlBits) (off : BitVec 16) : BitVec 32 := c.bits ++ off

/-- One row's checks in the order of R86: L, then f, then the other fields, which also give the
instruction. -/
def row (q : Fields) (len : BitVec 2) (f : Bool) (body : Option Instr) : Except Bad Instr :=
  if q.len ≠ len then .error .length
  else if !f then .error .func
  else match body with
    | none => .error .field
    | some i => .ok i

/-- `some i` when the fields hold, else none. -/
def keep (c : Bool) (i : Instr) : Option Instr := if c then some i else none

/-- One bit in f[0]. -/
def bit (c : Bool) : BitVec 6 := 0#5 ++ BitVec.ofBool c

def CtrlBits.withC (c : CtrlBits) (e : BitVec 5) : CtrlBits := { c with c := e }
def CtrlBits.withNb (c : CtrlBits) (nb : Nb) (edge : Edge) : CtrlBits := { c with nb := nb.code, edge := edge.code }

/-- A mould member with an element-wise control halfword and no third register. -/
def withCtrl (q : Fields) (k : Ctrl → Option Instr) : Option Instr :=
  match q.ctrl2.ctrl with
  | some c => k c
  | none => none
/-- A mould member with a third register. -/
def withCtrl3 (q : Fields) (k : Ctrl → BitVec 5 → Option Instr) : Option Instr :=
  match q.ctrl2.ctrlOf with
  | some c => k c q.ctrl2.c
  | none => none
def withGov2 (q : Fields) (k : Gov → Option Instr) : Option Instr :=
  match q.ctrl2.gov with
  | some g => k g
  | none => none
def withGov3 (q : Fields) (k : Gov → Option Instr) : Option Instr :=
  match q.ctrl3.gov with
  | some g => k g
  | none => none
def withSelC (q : Fields) (k : Sel → BitVec 5 → Option Instr) : Option Instr :=
  match q.ctrl2.selOf with
  | some s => k s q.ctrl2.c
  | none => none

/-- The words TRAP 0x8000_0021 and TRAP 0x8000_0022 are the rows of their services (R290, R303, R375). -/
def trapWord (imm : BitVec 32) : Instr :=
  if imm = 0x80000021 then .livePackages else if imm = 0x80000022 then .clearDeferredIntegrity else .trap imm

/-- VCVT's fields after f[5:4] (R85, R387). -/
def vcvtBody (q : Fields) : Option Instr :=
  let c := q.ctrl2
  match Fmt.ofCode (q.b.setWidth 4), Fmt.ofCode (q.f.setWidth 4), Rm.ofCode (c.c.setWidth 3) with
  | some fs, some fd, some rm =>
    let i : Instr := .vcvt q.d5 q.a fs fd rm (c.c.getLsbD 3) (c.c.getLsbD 4) c.govOf
    keep (q.d5ok && q.b.toNat < 16 && c.nb == 0 && c.edge == 0 && i.wf) i
  | _, _, _ => none

/-- VMERGE: mask required, neighbour allowed (R402). -/
def vmergeBody (q : Fields) : Option Instr :=
  let c := q.ctrl2
  match Nb.ofCode c.nb, Edge.ofCode c.edge with
  | some nb, some edge =>
    keep (q.d5ok && c.me == 1 && c.c == 0 && nbWf nb edge)
      (.vmerge q.d5 q.a q.b q.f0 { m := c.m, g := c.g } nb edge)
  | _, _ => none

/-- MROW's immediate (R85, R353). -/
def mrowBody (q : Fields) : Option Instr :=
  match Fmt.ofCode (q.hi.setWidth 4), Fmt.ofCode (q.hi.extractLsb' 4 4) with
  | some fa, some fb =>
    let i : Instr := .mrow q.d q.a q.b fa fb (q.hi.extractLsb' 8 5) (q.hi.extractLsb' 13 5) q.f0 q.f1
    keep (q.hi.toNat < 2 ^ 18 && i.wf) i
  | _, _ => none

/-- MROWA's immediate (R85, R353). -/
def mrowaBody (q : Fields) : Option Instr :=
  match Fmt.ofCode (q.hi.setWidth 4), Fmt.ofCode (q.hi.extractLsb' 4 4), Part.ofCode (q.hi.extractLsb' 24 3) with
  | some fa, some fb, some part =>
    let i : Instr := .mrowa q.d (q.hi.extractLsb' 18 6) q.b fa fb (q.hi.extractLsb' 8 5)
      (q.hi.extractLsb' 13 5) q.f0 q.f1 q.f2 part (q.hi.extractLsb' 27 5)
    keep (q.a == 0 && i.wf) i
  | _, _, _ => none

def ScaleForm.aField : ScaleForm → BitVec 5
  | .row a => a | .col _ => 0 | .both a _ => a
def ScaleForm.bField : ScaleForm → BitVec 5
  | .row _ => 0 | .col r => r | .both _ r => r
def ScaleForm.code : ScaleForm → BitVec 2
  | .row _ => 0 | .col _ => 1 | .both _ _ => 2

/-- ASCALE: under .row b is zero, under .col a is zero (file 24, ASCALE). -/
def ascaleBody (q : Fields) : Option Instr :=
  let as := q.hi.setWidth 6
  let imm := decide (q.hi.toNat < 64)
  if q.f.setWidth 2 = 0#2 then keep (imm && q.b == 0) (.ascale q.d as (.row q.a) q.f2)
  else if q.f.setWidth 2 = 1#2 then keep (imm && q.a == 0) (.ascale q.d as (.col q.b) q.f2)
  else keep imm (.ascale q.d as (.both q.a q.b) q.f2)

/-- EISSUE: groups aligned as field limits, mask required, nothing else in the halfword (R194). -/
def eissueBody (q : Fields) : Option Instr :=
  match q.ctrl2.selOf with
  | some s =>
    let i : Instr := .eissue q.d3 q.a q.b s.m
    keep (q.d3ok && s.g == 0 && q.ctrl2.c == 0 && i.wf) i
  | none => none

/-- EWAIT (R199). -/
def ewaitBody (q : Fields) : Option Instr :=
  match q.ctrl2.selOf with
  | some s =>
    let i : Instr := .ewait q.a s.m
    keep (q.d == 0 && q.b == 0 && s.g == 0 && q.ctrl2.c == 0 && i.wf) i
  | none => none

/-- The opcode map of R85: the major decides the row, the row's checks decide the rest (R86). A SNAP whose f is not 0 fails R86's
check of f; a VCOMPRESS whose f is not 0 raises 0x04, as R385 says (log 62). -/
def decodeFields (q : Fields) : Except Bad Instr :=
  match q.major.toNat with
  | 0x00 => row q 0 true (keep (q.d == 0) .nop)
  | 0x01 => row q 1 (q.f == 0) (keep q.d5ok (.add q.d5 q.a q.b))
  | 0x02 => row q 1 (q.f == 0) (keep q.d5ok (.sub q.d5 q.a q.b))
  | 0x03 => row q 1 (q.f == 0) (keep q.d5ok (.and q.d5 q.a q.b))
  | 0x04 => row q 1 (q.f == 0) (keep q.d5ok (.or q.d5 q.a q.b))
  | 0x05 => row q 1 (q.f == 0) (keep q.d5ok (.xor q.d5 q.a q.b))
  | 0x06 => row q 1 (shiftWf q.b q.f) (keep q.d5ok (.sll q.d5 q.a q.b q.f))
  | 0x07 => row q 1 (shiftWf q.b q.f) (keep q.d5ok (.srl q.d5 q.a q.b q.f))
  | 0x08 => row q 1 (shiftWf q.b q.f) (keep q.d5ok (.sra q.d5 q.a q.b q.f))
  | 0x09 => row q 1 (q.f.toNat < 2) (keep q.d5ok (.slt q.d5 q.a q.b q.f0))
  | 0x0A => row q 1 (q.f == 0) (keep q.d5ok (.mul q.d5 q.a q.b))
  | 0x0B => row q 1 (q.f == 0) (keep q.d5ok (.mulh q.d5 q.a q.b))
  | 0x0C => row q 1 (q.f.toNat < 2) (keep q.d5ok (.div q.d5 q.a q.b q.f0))
  | 0x0D => row q 1 (q.f.toNat < 2) (keep q.d5ok (.rem q.d5 q.a q.b q.f0))
  | 0x0E => row q 1 (q.f == 0) (keep q.d5ok (.min q.d5 q.a q.b))
  | 0x0F => row q 1 (q.f == 0) (keep q.d5ok (.max q.d5 q.a q.b))
  | 0x10 => row q 1 (q.f == 0) (keep (q.d5ok && q.b == 0) (.clz q.d5 q.a))
  | 0x11 => row q 1 (q.f == 0) (keep (q.d5ok && q.b == 0) (.popc q.d5 q.a))
  | 0x12 => row q 3 (q.f == 0) (keep (q.d5ok && q.b == 0) (.addi q.d5 q.a q.hi))
  | 0x13 => row q 3 (q.f == 0) (keep (q.d5ok && q.b == 0) (.andi q.d5 q.a q.hi))
  | 0x14 => row q 3 (q.f == 0) (keep (q.d5ok && q.b == 0) (.ori q.d5 q.a q.hi))
  | 0x15 => row q 3 (q.f == 0) (keep (q.d5ok && q.b == 0) (.xori q.d5 q.a q.hi))
  | 0x16 => row q 3 (q.f == 0) (keep (q.d5ok && q.a == 0 && q.b == 0) (.li q.d5 q.hi))
  | 0x20 => row q 3 (q.f.toNat < 7) (keep (q.d5ok && q.b == 0) (.ld q.d5 q.a q.hi (.ofCode (q.f.setWidth 2)) q.f2))
  | 0x21 => row q 3 (q.f.toNat < 16 && !q.f2) (keep (q.d5ok && q.b == 0) (.st q.d5 q.a q.hi (.ofCode (q.f.setWidth 2)) q.f3))
  | 0x22 => row q 3 (q.f == 0) (keep (q.d5ok && q.a == 0 && q.b == 0 && q.hi.toNat < 256) (.ldslot q.d5 (q.hi.setWidth 8)))
  | 0x23 => match AmoOp.ofCode (q.f.setWidth 4) with
    | some op => row q 1 (q.f.toNat < 32) (keep q.d5ok (.amo q.d5 q.a q.b op (.ofBit q.f4)))
    | none => row q 1 false none
  | 0x24 => row q 2 (q.f.toNat < 2) (keep (q.d5ok && q.hi.toNat < 32) (.cas q.d5 q.a q.b (q.hi.setWidth 5) (.ofBit q.f0)))
  | 0x30 => match Cond.ofCode (q.f.setWidth 3) with
    | some cond => row q 2 (q.f.toNat < 8) (keep (q.d == 0) (.b q.a q.b cond (.ofHi q)))
    | none => row q 2 false none
  | 0x31 => row q 2 (q.f == 0) (keep (q.d == 0 && q.a == 0 && q.b == 0) (.j (.ofHi q)))
  | 0x32 => row q 3 (q.f == 0) (keep (q.d5ok && q.a == 0 && q.b == 0) (.jal q.d5 (.ofHi q)))
  | 0x33 => row q 3 (q.f == 0) (keep (q.d5ok && q.b == 0) (.jalr q.d5 q.a q.hi))
  | 0x34 => row q 2 (q.f.toNat < 8) (keep (q.d == 0 && q.b == 0) (.loop q.a (q.f.setWidth 3) (.ofHi q)))
  | 0x35 => row q 2 (q.f.toNat < 16) (keep (q.d5ok && q.b == 0) (.setvlb q.d5 q.a (.ofCode (q.f.setWidth 2)) (.ofCode (q.f.extractLsb' 2 2)) (.ofHi q)))
  | 0x36 => row q 3 (q.f == 0) (keep (q.d == 0 && q.a == 0 && q.b == 0 && q.hi.toNat < 4096) (.join (q.hi.setWidth 4) (q.hi.extractLsb' 4 8)))
  | 0x37 => row q 0 true (keep (q.d == 0) .detach)
  | 0x38 => row q 0 true (keep (q.d == 0) .exit)
  | 0x40 => row q 3 (q.f == 0) (keep (q.d5ok && q.a == 0 && q.b == 0 && q.hi.toNat < 4096) (.crrd q.d5 (q.hi.setWidth 12)))
  | 0x41 => row q 3 (q.f == 0) (keep (q.d == 0 && q.b == 0 && q.hi.toNat < 4096) (.crwr q.a (q.hi.setWidth 12)))
  | 0x42 => row q 0 true (keep (q.d == 0) .eret)
  | 0x43 => row q 3 (q.f == 0) (keep (q.d == 0 && q.a == 0 && q.b == 0) (trapWord q.hi))
  | 0x44 => row q 1 (q.f == 0) (keep (q.d == 0) (.cwb q.a q.b))
  | 0x45 => row q 1 (q.f == 0) (keep (q.d == 0) (.cinv q.a q.b))
  | 0x46 => row q 1 (q.f == 0) (keep (q.d == 0) (.iinv q.a q.b))
  | 0x47 => row q 0 true (keep (q.d == 0) .ifence)
  | 0x48 => match FenceForm.ofCode q.f with
    | some form => row q 1 true (keep (q.d == 0 && q.a == 0 && q.b == 0) (.fence form))
    | none => row q 1 false none
  | 0x49 => row q 1 (q.f == 0) (keep (q.d == 0 && q.b == 0) (.sleep q.a))
  | 0x4A => row q 1 (q.f == 0) (keep (q.d == 0 && q.b == 0) (.wswitch q.a))
  | 0x4B => row q 1 (q.f == 0) (keep (q.d == 0 && q.b == 0) (.wrel q.a))
  | 0x4C => row q 1 (q.f.toNat < 16) (keep (q.d5ok && q.b == 0) (.setvl q.d5 q.a (.ofCode (q.f.setWidth 2)) (.ofCode (q.f.extractLsb' 2 2))))
  | 0x50 => match BarKind.ofCode (q.f.setWidth 2), Scope.ofCode (q.f.extractLsb' 2 3) with
    | some kind, some sc => row q 1 (q.f.toNat < 32) (keep (q.d == 0 && q.a == 0 && q.b == 0) (.bar kind sc))
    | _, _ => row q 1 false none
  | 0x51 => row q 0 true (keep (q.d == 0) .safe)
  | 0x52 => row q 1 (q.f == 0) (keep (q.d == 0) (.qsend q.a q.b))
  | 0x53 => row q 1 (q.f == 0) (keep (q.d5ok && q.b == 0) (.qrecv q.d5 q.a))
  | 0x54 => row q 1 (q.f == 0) (keep (q.d5ok && q.b == 0) (.qstat q.d5 q.a))
  | 0x55 => row q 3 (2 ≤ q.f.toNat && q.f.toNat ≤ 32) (keep (q.d5ok && q.b.toNat < 16) (.hnew q.d5 q.a (q.b.setWidth 4) q.f (.ofHi q)))
  | 0x56 => row q 1 (q.f == 0) (keep (q.d5ok && q.b == 0) (.hcopy q.d5 q.a))
  | 0x57 => row q 1 (q.f == 0) (keep (q.d == 0 && q.b == 0) (.hdrop q.a))
  | 0x58 => row q 1 (q.f == 0) (keep (q.d5ok && q.b == 0) (.hbase q.d5 q.a))
  | 0x59 => row q 1 (q.f == 0) (keep (q.d == 0 && q.b == 0) (.snap q.a))
  | 0x60 => row q 2 (q.f.toNat < 2) (withCtrl q fun c => keep q.d5ok (.vadd q.d5 q.a q.b q.f0 c))
  | 0x61 => row q 2 (q.f.toNat < 2) (withCtrl q fun c => keep q.d5ok (.vsub q.d5 q.a q.b q.f0 c))
  | 0x62 => row q 2 (q.f.toNat < 2) (withCtrl q fun c => keep q.d5ok (.vmul q.d5 q.a q.b q.f0 c))
  | 0x63 => row q 2 (q.f.toNat < 4) (withCtrl q fun c => keep q.d5ok (.vmulh q.d5 q.a q.b q.f0 q.f1 c))
  | 0x64 => row q 2 (q.f.toNat < 2) (withCtrl q fun c => keep q.d5ok (.vmacc q.d5 q.a q.b q.f0 c))
  | 0x65 => row q 2 (q.f.toNat < 4) (withCtrl q fun c => keep q.d5ok (.vmin q.d5 q.a q.b q.f0 q.f1 c))
  | 0x66 => row q 2 (q.f.toNat < 4) (withCtrl q fun c => keep q.d5ok (.vmax q.d5 q.a q.b q.f0 q.f1 c))
  | 0x67 => row q 2 (q.f.toNat < 2) (withCtrl q fun c => keep q.d5ok (.vand q.d5 q.a q.b q.f0 c))
  | 0x68 => row q 2 (q.f.toNat < 2) (withCtrl q fun c => keep q.d5ok (.vor q.d5 q.a q.b q.f0 c))
  | 0x69 => row q 2 (q.f.toNat < 2) (withCtrl q fun c => keep q.d5ok (.vxor q.d5 q.a q.b q.f0 c))
  | 0x6A => row q 2 (q.f.toNat < 2) (withCtrl q fun c => keep q.d5ok (.vsll q.d5 q.a q.b q.f0 c))
  | 0x6B => row q 2 (q.f.toNat < 2) (withCtrl q fun c => keep q.d5ok (.vsrl q.d5 q.a q.b q.f0 c))
  | 0x6C => row q 2 (q.f.toNat < 2) (withCtrl q fun c => keep q.d5ok (.vsra q.d5 q.a q.b q.f0 c))
  | 0x70 => match Rm.ofCode q.rm with
    | some rm => row q 2 (q.f.toNat < 16) (withCtrl q fun c => keep q.d5ok (.vfadd q.d5 q.a q.b q.f0 rm c))
    | none => row q 2 false none
  | 0x71 => match Rm.ofCode q.rm with
    | some rm => row q 2 (q.f.toNat < 16) (withCtrl q fun c => keep q.d5ok (.vfsub q.d5 q.a q.b q.f0 rm c))
    | none => row q 2 false none
  | 0x72 => match Rm.ofCode q.rm with
    | some rm => row q 2 (q.f.toNat < 16) (withCtrl q fun c => keep q.d5ok (.vfmul q.d5 q.a q.b q.f0 rm c))
    | none => row q 2 false none
  | 0x73 => match Rm.ofCode q.rm with
    | some rm => row q 2 (q.f.toNat < 16) (withCtrl q fun c => keep q.d5ok (.vfdiv q.d5 q.a q.b q.f0 rm c))
    | none => row q 2 false none
  | 0x74 => match Rm.ofCode q.rm with
    | some rm => row q 2 true (withCtrl3 q fun c e => keep q.d5ok (.vfma q.d5 q.a q.b e q.f0 rm (.ofCode (q.f.extractLsb' 4 2)) c))
    | none => row q 2 false none
  | 0x75 => row q 2 (q.f.toNat < 2) (withCtrl q fun c => keep q.d5ok (.vfmin q.d5 q.a q.b q.f0 c))
  | 0x76 => row q 2 (q.f.toNat < 2) (withCtrl q fun c => keep q.d5ok (.vfmax q.d5 q.a q.b q.f0 c))
  | 0x77 => match Rm.ofCode q.rm with
    | some rm => row q 2 (q.f.toNat < 16 && !q.f0) (withCtrl q fun c => keep (q.d5ok && q.b == 0) (.vfsqrt q.d5 q.a rm c))
    | none => row q 2 false none
  | 0x78 => match Rm.ofCode q.rm with
    | some rm => row q 2 (q.f.toNat < 16 && !q.f0) (withCtrl q fun c => keep (q.d5ok && q.b == 0) (.vfrcp q.d5 q.a rm c))
    | none => row q 2 false none
  | 0x79 => match Rm.ofCode q.rm with
    | some rm => row q 2 (q.f.toNat < 16 && !q.f0) (withCtrl q fun c => keep (q.d5ok && q.b == 0) (.vfrsq q.d5 q.a rm c))
    | none => row q 2 false none
  | 0x7A => match Rm.ofCode q.rm with
    | some rm => row q 2 (q.f.toNat < 16 && !q.f0) (withCtrl q fun c => keep (q.d5ok && q.b == 0) (.vfexp2 q.d5 q.a rm c))
    | none => row q 2 false none
  | 0x7B => match Rm.ofCode q.rm with
    | some rm => row q 2 (q.f.toNat < 16 && !q.f0) (withCtrl q fun c => keep (q.d5ok && q.b == 0) (.vflog2 q.d5 q.a rm c))
    | none => row q 2 false none
  | 0x80 => match Cond.ofCode q.rm with
    | some cond => row q 2 (q.f.toNat < 16) (withCtrl q fun c => keep q.d3ok (.vcmp q.d3 q.a q.b q.f0 cond c))
    | none => row q 2 false none
  | 0x81 => match FCond.ofCode q.rm with
    | some cond => row q 2 (q.f.toNat < 16) (withCtrl q fun c => keep q.d3ok (.vfcmp q.d3 q.a q.b q.f0 cond c))
    | none => row q 2 false none
  | 0x82 => row q 2 (q.f.toNat < 16) (vcvtBody q)
  | 0x83 => row q 2 (q.f.toNat < 2) (vmergeBody q)
  | 0x84 => row q 2 (q.f == 0) (withCtrl q fun c => keep (q.d5ok && q.b == 0) (.vmv q.d5 q.a c))
  | 0x85 => row q 2 (q.f == 0) (withGov2 q fun g => keep (q.d5ok && q.b == 0) (.vsplat q.d5 q.a g))
  | 0x86 => match Red.ofCode q.f with
    | some op => row q 2 true (withGov2 q fun g => keep (q.d5ok && q.b == 0) (.vred q.d5 q.a op g))
    | none => row q 2 false none
  | 0xA0 => row q 1 (q.f == 0) (keep (q.d3ok && q.a3ok && q.b3ok) (.mand q.d3 q.a3 q.b3))
  | 0xA1 => row q 1 (q.f == 0) (keep (q.d3ok && q.a3ok && q.b3ok) (.mandn q.d3 q.a3 q.b3))
  | 0xA2 => row q 1 (q.f == 0) (keep (q.d3ok && q.a3ok && q.b3ok) (.mor q.d3 q.a3 q.b3))
  | 0xA3 => row q 1 (q.f == 0) (keep (q.d3ok && q.a3ok && q.b3ok) (.mxor q.d3 q.a3 q.b3))
  | 0xA4 => row q 1 (q.f == 0) (keep (q.d3ok && q.a3ok && q.b == 0) (.mnot q.d3 q.a3))
  | 0xA5 => row q 1 (q.f == 0) (keep (q.d5ok && q.a3ok && q.b == 0) (.mcount q.d5 q.a3))
  | 0xA6 => row q 1 (q.f == 0) (keep (q.d5ok && q.a3ok && q.b == 0) (.mfirst q.d5 q.a3))
  | 0xA7 => row q 2 (q.f.toNat < 2) (withGov2 q fun g => keep q.d5ok (.vslide q.d5 q.a q.b q.f0 g))
  | 0xA8 => row q 2 (q.f == 0) (withGov2 q fun g => keep q.d5ok (.vgather q.d5 q.a q.b g))
  | 0xA9 => row q 2 true (withSelC q fun s cn => keep (q.d5ok && q.b == 0 && q.f == 0) (.vcompress q.d5 q.a cn s))
  | 0xAA => row q 2 (q.f == 0) (withGov2 q fun g => keep q.d5ok (.vreshape q.d5 q.a q.b g))
  | 0xAB => row q 2 (q.f == 0) (withSelC q fun s cn => keep (q.d5ok && q.a == 0 && q.b == 0 && cn == 0) (.viota q.d5 s))
  | 0xAC => row q 2 (q.f == 0) (withGov2 q fun g => keep (q.d5ok && q.a == 0 && q.b == 0) (.vid q.d5 g))
  | 0xB0 => row q 3 (q.f == 0) (withGov3 q fun g => keep (q.d5ok && q.b == 0) (.vld q.d5 q.a q.off g))
  | 0xB1 => row q 3 (q.f == 0) (withGov3 q fun g => keep q.d5ok (.vlds q.d5 q.a q.b q.off g))
  | 0xB2 => row q 3 (q.f == 0) (withGov3 q fun g => keep q.d5ok (.vldx q.d5 q.a q.b q.off g))
  | 0xB3 => row q 3 (q.f == 0) (withGov3 q fun g => keep (q.d5ok && q.b == 0) (.vldr q.d5 q.a q.off g))
  | 0xB4 => row q 3 (q.f == 0) (withGov3 q fun g => keep (q.d5ok && q.b == 0) (.vst q.d5 q.a q.off g))
  | 0xB5 => row q 3 (q.f == 0) (withGov3 q fun g => keep q.d5ok (.vsts q.d5 q.a q.b q.off g))
  | 0xB6 => row q 3 (q.f == 0) (withGov3 q fun g => keep q.d5ok (.vstx q.d5 q.a q.b q.off g))
  | 0xB7 => row q 3 (q.f.toNat < 2) (withGov3 q fun g => keep (q.d5ok && q.b == 0) (.vstr q.d5 q.a q.off q.f0 g))
  | 0xB8 => match AmoOp.ofCode (q.f.setWidth 4) with
    | some op => row q 3 (q.f.toNat < 16) (withGov3 q fun g => keep q.d5ok (.vamo q.d5 q.a q.b q.off op g))
    | none => row q 3 false none
  | 0xC0 => row q 3 (q.f.toNat < 4) (mrowBody q)
  | 0xC1 => row q 3 (q.f.toNat < 8) (mrowaBody q)
  | 0xC2 => row q 1 true (keep (q.a == 0 && q.b == 0 && decide (q.d.toNat + q.f.toNat ≤ 63)) (.aclr q.d q.f))
  | 0xC3 => row q 1 true (keep (q.d5ok && q.a == 0 && q.b == 0) (.ard q.d5 q.f))
  | 0xC4 => row q 1 (q.f.toNat < 2) (keep (q.b == 0) (.awr q.d q.a q.f0))
  | 0xC5 => row q 3 (q.f.toNat < 8 && q.f.toNat % 4 != 3) (ascaleBody q)
  | 0xC6 => row q 3 (q.f == 0) (keep (q.d5ok && q.b == 0) (.tld q.d5 q.a q.hi))
  | 0xC7 => row q 1 (q.f.toNat < 2) (keep (q.d5ok && q.b == 0) (.tfill q.d5 q.a q.f0))
  | 0xD0 => row q 2 (q.f == 0) (eissueBody q)
  | 0xD1 => row q 2 (q.f == 0) (ewaitBody q)
  | 0xD2 => row q 3 (q.f == 0) (keep q.d5ok (.pfadd q.d5 q.a q.b q.hi))
  | _ => .error .major

/-- The fields of an instruction's encoding, from the tables of R81 to R85 and its reference entry; none for
the rows that are events. -/
def Instr.fields : Instr → Option Fields
  | .nop => some { len := 0, major := 0x00, d := 0, a := 0, b := 0, f := 0, hi := 0 }
  | .add d a r => some { len := 1, major := 0x01, d := d.setWidth 6, a := a, b := r, f := 0, hi := 0 }
  | .sub d a r => some { len := 1, major := 0x02, d := d.setWidth 6, a := a, b := r, f := 0, hi := 0 }
  | .and d a r => some { len := 1, major := 0x03, d := d.setWidth 6, a := a, b := r, f := 0, hi := 0 }
  | .or d a r => some { len := 1, major := 0x04, d := d.setWidth 6, a := a, b := r, f := 0, hi := 0 }
  | .xor d a r => some { len := 1, major := 0x05, d := d.setWidth 6, a := a, b := r, f := 0, hi := 0 }
  | .sll d a r n => some { len := 1, major := 0x06, d := d.setWidth 6, a := a, b := r, f := n, hi := 0 }
  | .srl d a r n => some { len := 1, major := 0x07, d := d.setWidth 6, a := a, b := r, f := n, hi := 0 }
  | .sra d a r n => some { len := 1, major := 0x08, d := d.setWidth 6, a := a, b := r, f := n, hi := 0 }
  | .slt d a r u => some { len := 1, major := 0x09, d := d.setWidth 6, a := a, b := r, f := bit u, hi := 0 }
  | .mul d a r => some { len := 1, major := 0x0A, d := d.setWidth 6, a := a, b := r, f := 0, hi := 0 }
  | .mulh d a r => some { len := 1, major := 0x0B, d := d.setWidth 6, a := a, b := r, f := 0, hi := 0 }
  | .div d a r u => some { len := 1, major := 0x0C, d := d.setWidth 6, a := a, b := r, f := bit u, hi := 0 }
  | .rem d a r u => some { len := 1, major := 0x0D, d := d.setWidth 6, a := a, b := r, f := bit u, hi := 0 }
  | .min d a r => some { len := 1, major := 0x0E, d := d.setWidth 6, a := a, b := r, f := 0, hi := 0 }
  | .max d a r => some { len := 1, major := 0x0F, d := d.setWidth 6, a := a, b := r, f := 0, hi := 0 }
  | .clz d a => some { len := 1, major := 0x10, d := d.setWidth 6, a := a, b := 0, f := 0, hi := 0 }
  | .popc d a => some { len := 1, major := 0x11, d := d.setWidth 6, a := a, b := 0, f := 0, hi := 0 }
  | .addi d a im => some { len := 3, major := 0x12, d := d.setWidth 6, a := a, b := 0, f := 0, hi := im }
  | .andi d a im => some { len := 3, major := 0x13, d := d.setWidth 6, a := a, b := 0, f := 0, hi := im }
  | .ori d a im => some { len := 3, major := 0x14, d := d.setWidth 6, a := a, b := 0, f := 0, hi := im }
  | .xori d a im => some { len := 3, major := 0x15, d := d.setWidth 6, a := a, b := 0, f := 0, hi := im }
  | .li d im => some { len := 3, major := 0x16, d := d.setWidth 6, a := 0, b := 0, f := 0, hi := im }
  | .ld d a im sz sx => some { len := 3, major := 0x20, d := d.setWidth 6, a := a, b := 0, f := 0#3 ++ BitVec.ofBool sx ++ sz.code, hi := im }
  | .st r a im sz fl => some { len := 3, major := 0x21, d := r.setWidth 6, a := a, b := 0, f := 0#2 ++ BitVec.ofBool fl ++ 0#1 ++ sz.code, hi := im }
  | .ldslot d slot => some { len := 3, major := 0x22, d := d.setWidth 6, a := 0, b := 0, f := 0, hi := slot.setWidth 32 }
  | .amo d a r op sz => some { len := 1, major := 0x23, d := d.setWidth 6, a := a, b := r, f := 0#1 ++ BitVec.ofBool sz.bit ++ op.code, hi := 0 }
  | .cas d a r e sz => some { len := 2, major := 0x24, d := d.setWidth 6, a := a, b := r, f := bit sz.bit, hi := e.setWidth 32 }
  | .b a r cond t => some { len := 2, major := 0x30, d := 0, a := a, b := r, f := cond.code.setWidth 6, hi := t.hi }
  | .j t => some { len := 2, major := 0x31, d := 0, a := 0, b := 0, f := 0, hi := t.hi }
  | .jal d t => some { len := 3, major := 0x32, d := d.setWidth 6, a := 0, b := 0, f := 0, hi := t.hi }
  | .jalr d a im => some { len := 3, major := 0x33, d := d.setWidth 6, a := a, b := 0, f := 0, hi := im }
  | .loop a stg t => some { len := 2, major := 0x34, d := 0, a := a, b := 0, f := stg.setWidth 6, hi := t.hi }
  | .setvlb d a ew sp t => some { len := 2, major := 0x35, d := d.setWidth 6, a := a, b := 0, f := 0#2 ++ sp.code ++ ew.code, hi := t.hi }
  | .join mk id => some { len := 3, major := 0x36, d := 0, a := 0, b := 0, f := 0, hi := 0#20 ++ (id ++ mk) }
  | .detach => some { len := 0, major := 0x37, d := 0, a := 0, b := 0, f := 0, hi := 0 }
  | .exit => some { len := 0, major := 0x38, d := 0, a := 0, b := 0, f := 0, hi := 0 }
  | .crrd d num => some { len := 3, major := 0x40, d := d.setWidth 6, a := 0, b := 0, f := 0, hi := num.setWidth 32 }
  | .crwr a num => some { len := 3, major := 0x41, d := 0, a := a, b := 0, f := 0, hi := num.setWidth 32 }
  | .eret => some { len := 0, major := 0x42, d := 0, a := 0, b := 0, f := 0, hi := 0 }
  | .trap im => some { len := 3, major := 0x43, d := 0, a := 0, b := 0, f := 0, hi := im }
  | .livePackages => some { len := 3, major := 0x43, d := 0, a := 0, b := 0, f := 0, hi := 0x80000021 }
  | .clearDeferredIntegrity => some { len := 3, major := 0x43, d := 0, a := 0, b := 0, f := 0, hi := 0x80000022 }
  | .cwb a r => some { len := 1, major := 0x44, d := 0, a := a, b := r, f := 0, hi := 0 }
  | .cinv a r => some { len := 1, major := 0x45, d := 0, a := a, b := r, f := 0, hi := 0 }
  | .iinv a r => some { len := 1, major := 0x46, d := 0, a := a, b := r, f := 0, hi := 0 }
  | .ifence => some { len := 0, major := 0x47, d := 0, a := 0, b := 0, f := 0, hi := 0 }
  | .fence form => some { len := 1, major := 0x48, d := 0, a := 0, b := 0, f := form.code, hi := 0 }
  | .sleep a => some { len := 1, major := 0x49, d := 0, a := a, b := 0, f := 0, hi := 0 }
  | .wswitch a => some { len := 1, major := 0x4A, d := 0, a := a, b := 0, f := 0, hi := 0 }
  | .wrel a => some { len := 1, major := 0x4B, d := 0, a := a, b := 0, f := 0, hi := 0 }
  | .setvl d a ew sp => some { len := 1, major := 0x4C, d := d.setWidth 6, a := a, b := 0, f := 0#2 ++ sp.code ++ ew.code, hi := 0 }
  | .bar kind sc => some { len := 1, major := 0x50, d := 0, a := 0, b := 0, f := 0#1 ++ sc.code ++ kind.code, hi := 0 }
  | .safe => some { len := 0, major := 0x51, d := 0, a := 0, b := 0, f := 0, hi := 0 }
  | .qsend a r => some { len := 1, major := 0x52, d := 0, a := a, b := r, f := 0, hi := 0 }
  | .qrecv d a => some { len := 1, major := 0x53, d := d.setWidth 6, a := a, b := 0, f := 0, hi := 0 }
  | .qstat d a => some { len := 1, major := 0x54, d := d.setWidth 6, a := a, b := 0, f := 0, hi := 0 }
  | .hnew d a sg ex t => some { len := 3, major := 0x55, d := d.setWidth 6, a := a, b := sg.setWidth 5, f := ex, hi := t.hi }
  | .hcopy d a => some { len := 1, major := 0x56, d := d.setWidth 6, a := a, b := 0, f := 0, hi := 0 }
  | .hdrop a => some { len := 1, major := 0x57, d := 0, a := a, b := 0, f := 0, hi := 0 }
  | .hbase d a => some { len := 1, major := 0x58, d := d.setWidth 6, a := a, b := 0, f := 0, hi := 0 }
  | .snap a => some { len := 1, major := 0x59, d := 0, a := a, b := 0, f := 0, hi := 0 }
  | .vadd d a r vx c => some { len := 2, major := 0x60, d := d.setWidth 6, a := a, b := r, f := bit vx, hi := c.bits.hi2 }
  | .vsub d a r vx c => some { len := 2, major := 0x61, d := d.setWidth 6, a := a, b := r, f := bit vx, hi := c.bits.hi2 }
  | .vmul d a r vx c => some { len := 2, major := 0x62, d := d.setWidth 6, a := a, b := r, f := bit vx, hi := c.bits.hi2 }
  | .vmulh d a r vx u c => some { len := 2, major := 0x63, d := d.setWidth 6, a := a, b := r, f := 0#4 ++ BitVec.ofBool u ++ BitVec.ofBool vx, hi := c.bits.hi2 }
  | .vmacc d a r vx c => some { len := 2, major := 0x64, d := d.setWidth 6, a := a, b := r, f := bit vx, hi := c.bits.hi2 }
  | .vmin d a r vx u c => some { len := 2, major := 0x65, d := d.setWidth 6, a := a, b := r, f := 0#4 ++ BitVec.ofBool u ++ BitVec.ofBool vx, hi := c.bits.hi2 }
  | .vmax d a r vx u c => some { len := 2, major := 0x66, d := d.setWidth 6, a := a, b := r, f := 0#4 ++ BitVec.ofBool u ++ BitVec.ofBool vx, hi := c.bits.hi2 }
  | .vand d a r vx c => some { len := 2, major := 0x67, d := d.setWidth 6, a := a, b := r, f := bit vx, hi := c.bits.hi2 }
  | .vor d a r vx c => some { len := 2, major := 0x68, d := d.setWidth 6, a := a, b := r, f := bit vx, hi := c.bits.hi2 }
  | .vxor d a r vx c => some { len := 2, major := 0x69, d := d.setWidth 6, a := a, b := r, f := bit vx, hi := c.bits.hi2 }
  | .vsll d a r vx c => some { len := 2, major := 0x6A, d := d.setWidth 6, a := a, b := r, f := bit vx, hi := c.bits.hi2 }
  | .vsrl d a r vx c => some { len := 2, major := 0x6B, d := d.setWidth 6, a := a, b := r, f := bit vx, hi := c.bits.hi2 }
  | .vsra d a r vx c => some { len := 2, major := 0x6C, d := d.setWidth 6, a := a, b := r, f := bit vx, hi := c.bits.hi2 }
  | .vfadd d a r vx rm c => some { len := 2, major := 0x70, d := d.setWidth 6, a := a, b := r, f := 0#2 ++ rm.code ++ BitVec.ofBool vx, hi := c.bits.hi2 }
  | .vfsub d a r vx rm c => some { len := 2, major := 0x71, d := d.setWidth 6, a := a, b := r, f := 0#2 ++ rm.code ++ BitVec.ofBool vx, hi := c.bits.hi2 }
  | .vfmul d a r vx rm c => some { len := 2, major := 0x72, d := d.setWidth 6, a := a, b := r, f := 0#2 ++ rm.code ++ BitVec.ofBool vx, hi := c.bits.hi2 }
  | .vfdiv d a r vx rm c => some { len := 2, major := 0x73, d := d.setWidth 6, a := a, b := r, f := 0#2 ++ rm.code ++ BitVec.ofBool vx, hi := c.bits.hi2 }
  | .vfma d a r e vx rm ng c => some { len := 2, major := 0x74, d := d.setWidth 6, a := a, b := r, f := ng.code ++ rm.code ++ BitVec.ofBool vx, hi := (c.bits.withC e).hi2 }
  | .vfmin d a r vx c => some { len := 2, major := 0x75, d := d.setWidth 6, a := a, b := r, f := bit vx, hi := c.bits.hi2 }
  | .vfmax d a r vx c => some { len := 2, major := 0x76, d := d.setWidth 6, a := a, b := r, f := bit vx, hi := c.bits.hi2 }
  | .vfsqrt d a rm c => some { len := 2, major := 0x77, d := d.setWidth 6, a := a, b := 0, f := 0#2 ++ rm.code ++ 0#1, hi := c.bits.hi2 }
  | .vfrcp d a rm c => some { len := 2, major := 0x78, d := d.setWidth 6, a := a, b := 0, f := 0#2 ++ rm.code ++ 0#1, hi := c.bits.hi2 }
  | .vfrsq d a rm c => some { len := 2, major := 0x79, d := d.setWidth 6, a := a, b := 0, f := 0#2 ++ rm.code ++ 0#1, hi := c.bits.hi2 }
  | .vfexp2 d a rm c => some { len := 2, major := 0x7A, d := d.setWidth 6, a := a, b := 0, f := 0#2 ++ rm.code ++ 0#1, hi := c.bits.hi2 }
  | .vflog2 d a rm c => some { len := 2, major := 0x7B, d := d.setWidth 6, a := a, b := 0, f := 0#2 ++ rm.code ++ 0#1, hi := c.bits.hi2 }
  | .vcmp d a r vx cond c => some { len := 2, major := 0x80, d := d.setWidth 6, a := a, b := r, f := 0#2 ++ cond.code ++ BitVec.ofBool vx, hi := c.bits.hi2 }
  | .vfcmp d a r vx cond c => some { len := 2, major := 0x81, d := d.setWidth 6, a := a, b := r, f := 0#2 ++ cond.code ++ BitVec.ofBool vx, hi := c.bits.hi2 }
  | .vcvt d a fs fd rm inf ovf gov => some { len := 2, major := 0x82, d := d.setWidth 6, a := a, b := fs.code.setWidth 5, f := fd.code.setWidth 6, hi := (gov.bits.withC (BitVec.ofBool ovf ++ BitVec.ofBool inf ++ rm.code)).hi2 }
  | .vmerge d a r vx sel nb ed => some { len := 2, major := 0x83, d := d.setWidth 6, a := a, b := r, f := bit vx, hi := (sel.bits.withNb nb ed).hi2 }
  | .vmv d a c => some { len := 2, major := 0x84, d := d.setWidth 6, a := a, b := 0, f := 0, hi := c.bits.hi2 }
  | .vsplat d a gov => some { len := 2, major := 0x85, d := d.setWidth 6, a := a, b := 0, f := 0, hi := gov.bits.hi2 }
  | .vred d a op gov => some { len := 2, major := 0x86, d := d.setWidth 6, a := a, b := 0, f := op.code, hi := gov.bits.hi2 }
  | .mand d a r => some { len := 1, major := 0xA0, d := d.setWidth 6, a := a.setWidth 5, b := r.setWidth 5, f := 0, hi := 0 }
  | .mandn d a r => some { len := 1, major := 0xA1, d := d.setWidth 6, a := a.setWidth 5, b := r.setWidth 5, f := 0, hi := 0 }
  | .mor d a r => some { len := 1, major := 0xA2, d := d.setWidth 6, a := a.setWidth 5, b := r.setWidth 5, f := 0, hi := 0 }
  | .mxor d a r => some { len := 1, major := 0xA3, d := d.setWidth 6, a := a.setWidth 5, b := r.setWidth 5, f := 0, hi := 0 }
  | .mnot d a => some { len := 1, major := 0xA4, d := d.setWidth 6, a := a.setWidth 5, b := 0, f := 0, hi := 0 }
  | .mcount d a => some { len := 1, major := 0xA5, d := d.setWidth 6, a := a.setWidth 5, b := 0, f := 0, hi := 0 }
  | .mfirst d a => some { len := 1, major := 0xA6, d := d.setWidth 6, a := a.setWidth 5, b := 0, f := 0, hi := 0 }
  | .vslide d a r dn gov => some { len := 2, major := 0xA7, d := d.setWidth 6, a := a, b := r, f := bit dn, hi := gov.bits.hi2 }
  | .vgather d a r gov => some { len := 2, major := 0xA8, d := d.setWidth 6, a := a, b := r, f := 0, hi := gov.bits.hi2 }
  | .vcompress d a cn sel => some { len := 2, major := 0xA9, d := d.setWidth 6, a := a, b := 0, f := 0, hi := (sel.bits.withC cn).hi2 }
  | .vreshape d a r gov => some { len := 2, major := 0xAA, d := d.setWidth 6, a := a, b := r, f := 0, hi := gov.bits.hi2 }
  | .viota d sel => some { len := 2, major := 0xAB, d := d.setWidth 6, a := 0, b := 0, f := 0, hi := sel.bits.hi2 }
  | .vid d gov => some { len := 2, major := 0xAC, d := d.setWidth 6, a := 0, b := 0, f := 0, hi := gov.bits.hi2 }
  | .vld d a off gov => some { len := 3, major := 0xB0, d := d.setWidth 6, a := a, b := 0, f := 0, hi := gov.bits.hi3 off }
  | .vlds d a r off gov => some { len := 3, major := 0xB1, d := d.setWidth 6, a := a, b := r, f := 0, hi := gov.bits.hi3 off }
  | .vldx d a r off gov => some { len := 3, major := 0xB2, d := d.setWidth 6, a := a, b := r, f := 0, hi := gov.bits.hi3 off }
  | .vldr d a off gov => some { len := 3, major := 0xB3, d := d.setWidth 6, a := a, b := 0, f := 0, hi := gov.bits.hi3 off }
  | .vst d a off gov => some { len := 3, major := 0xB4, d := d.setWidth 6, a := a, b := 0, f := 0, hi := gov.bits.hi3 off }
  | .vsts d a r off gov => some { len := 3, major := 0xB5, d := d.setWidth 6, a := a, b := r, f := 0, hi := gov.bits.hi3 off }
  | .vstx d a r off gov => some { len := 3, major := 0xB6, d := d.setWidth 6, a := a, b := r, f := 0, hi := gov.bits.hi3 off }
  | .vstr d a off fl gov => some { len := 3, major := 0xB7, d := d.setWidth 6, a := a, b := 0, f := bit fl, hi := gov.bits.hi3 off }
  | .vamo d a r off op gov => some { len := 3, major := 0xB8, d := d.setWidth 6, a := a, b := r, f := op.code.setWidth 6, hi := gov.bits.hi3 off }
  | .mrow ad vs t fa fb cb rep rv inf => some { len := 3, major := 0xC0, d := ad, a := vs, b := t, f := 0#4 ++ BitVec.ofBool inf ++ BitVec.ofBool rv, hi := 0#14 ++ (rep ++ cb ++ fb.code ++ fa.code) }
  | .mrowa ad as t fa fb cb rep rv inf ovf part sh => some { len := 3, major := 0xC1, d := ad, a := 0, b := t, f := 0#3 ++ BitVec.ofBool ovf ++ BitVec.ofBool inf ++ BitVec.ofBool rv, hi := sh ++ part.code ++ as ++ (rep ++ cb ++ fb.code ++ fa.code) }
  | .aclr d cn => some { len := 1, major := 0xC2, d := d, a := 0, b := 0, f := cn, hi := 0 }
  | .ard d rw => some { len := 1, major := 0xC3, d := d.setWidth 6, a := 0, b := 0, f := rw, hi := 0 }
  | .awr d a it => some { len := 1, major := 0xC4, d := d, a := a, b := 0, f := bit it, hi := 0 }
  | .ascale ad as form clr => some { len := 3, major := 0xC5, d := ad, a := form.aField, b := form.bField, f := 0#3 ++ BitVec.ofBool clr ++ form.code, hi := as.setWidth 32 }
  | .tld t a im => some { len := 3, major := 0xC6, d := t.setWidth 6, a := a, b := 0, f := 0, hi := im }
  | .tfill t a h => some { len := 1, major := 0xC7, d := t.setWidth 6, a := a, b := 0, f := bit h, hi := 0 }
  | .eissue md a r m => some { len := 2, major := 0xD0, d := md.setWidth 6, a := a, b := r, f := 0, hi := (Sel.bits { m := m, g := 0 }).hi2 }
  | .ewait a m => some { len := 2, major := 0xD1, d := 0, a := a, b := 0, f := 0, hi := (Sel.bits { m := m, g := 0 }).hi2 }
  | .pfadd d a r im => some { len := 3, major := 0xD2, d := d.setWidth 6, a := a, b := r, f := 0, hi := im }
  | _ => none

/-- The head of an instruction (R73); 0 for an event, which has no encoding. -/
def Instr.head (i : Instr) : BitVec 16 :=
  match i.fields with
  | some q => q.head
  | none => 0

/-- The tail value of an instruction (R74), zero above its L halfwords. -/
def Instr.tail (i : Instr) : BitVec 48 :=
  match i.fields with
  | some q => q.tail
  | none => 0

/-- The words of an instruction: its head and its tail value. -/
def encode (i : Instr) : Option (BitVec 16 × BitVec 48) := i.fields.map fun q => (q.head, q.tail)

/-- The decoder: total on any head and tail value. -/
def decode (head : BitVec 16) (tail : BitVec 48) : Except Bad Instr := decodeFields (.ofBits head tail)

/-! Instruction lines (R72 to R75, R80). A line is its 32 halfwords. -/

/-- Halfword k of a line; 0 beyond it. -/
def lineHalf (line : List Half) (k : Nat) : Half := line.getD k 0

/-- Head count n of the header (R72). -/
def lineHeads (line : List Half) : Nat := ((lineHalf line 0).extractLsb' 11 5).toNat

/-- S(i): the tail halfwords of heads 1 to i (R74). -/
def tailSum (line : List Half) : Nat → Nat
  | 0 => 0
  | i + 1 => tailSum line i + ((lineHalf line (i + 1)).extractLsb' 14 2).toNat

/-- The head at slot i. -/
def lineHead (line : List Half) (i : Nat) : BitVec 16 := lineHalf line i

/-- The tail value of head i (R74). -/
def lineTail (line : List Half) (i : Nat) : BitVec 48 :=
  let lo := 32 - tailSum line i
  let len := ((lineHalf line i).extractLsb' 14 2).toNat
  let h (k : Nat) : BitVec 16 := if k < len then lineHalf line (lo + k) else 0
  h 2 ++ h 1 ++ h 0

/-- The gap halfwords from h[n+1] to h[31 - S(n)] are zero (R75). -/
def gapZero (line : List Half) : Bool :=
  let n := lineHeads line
  (List.range 32).all fun k => !(n < k && k ≤ 31 - tailSum line n) || lineHalf line k == 0

/-- The first condition of R80 that applies to a line and a target PC, as its sub-cause. -/
def lineFault (line : List Half) (pc : Word) : Option (BitVec 8) :=
  let n := lineHeads line
  let slot := (pc.extractLsb' 1 5).toNat
  if (lineHalf line 0).extractLsb' 0 11 ≠ 0 then some 0x01
  else if n = 0 then some 0x02
  else if 1 + n + tailSum line n > 32 then some 0x03
  else if !gapZero line then some 0x04
  else if pc.getLsbD 0 ∨ slot = 0 ∨ slot > n then some 0x05
  else none

/-- A line of one head in slot 1 and its tail at the top (R73 to R75), zero elsewhere. -/
def oneHeadLine (head : BitVec 16) (tail : BitVec 48) : List Half :=
  let len := (head.extractLsb' 14 2).toNat
  (List.range 32).map fun k =>
    if k = 0 then 0x0800
    else if k = 1 then head
    else if 32 - len ≤ k then tail.extractLsb' (16 * (k - (32 - len))) 16
    else 0

/-- Head and tail of a word numbered as spec/opcode_table.json numbers its rows, whose match and mask
values hold the head in the uppermost halfword and the tail's first halfword below it (log 24). -/
def tableHead (nbits w : Nat) : BitVec 16 := BitVec.ofNat 16 (w / 2 ^ (nbits - 16))
def tableTail (nbits w : Nat) : BitVec 48 := BitVec.ofNat 48 (w % 2 ^ (nbits - 16))

/-- What the decoder reads from an instruction whose bits are w, numbered as the opcode table numbers them.
The head and tail are laid into a line and read back from it, as the reel does. -/
def decodeTableWord (nbits w : Nat) : Option Instr :=
  let line := oneHeadLine (tableHead nbits w) (tableTail nbits w)
  match lineFault line 2 with
  | some _ => none
  | none =>
    match decode (lineHead line 1) (lineTail line 1) with
    | .ok i => some i
    | .error _ => none

end Sys2Proof
end

