-- ==== Sys2Proof/Config.lean ====
section
/-! DEFINITION. The numbers of the package (R9 to R17, R150) and the free values: constants without a body,
one for each value the spec leaves to the machine, the environment or the implementation. Each is applied to
the counter `State.free` or to the operands the value may depend on (log 7). -/

namespace Sys2Proof.Config

/-- VBYTES (R6, R52). -/
def vbytes : Nat := 384
/-- Cores of a package (R11). -/
def cores : Nat := 1024
/-- Bytes of one tile image (R58). -/
def tileBytes : Nat := 6144
/-- Bytes of one accumulator row (R59). -/
def rowBytes : Nat := 1536
/-- Bytes of a line of the ordering machine (R172). -/
def lineBytes : Nat := 128
/-- Bytes of an instruction line (R72). -/
def codeLine : Nat := 64
/-- Bytes of an extent (R159). -/
def extentBytes : Nat := 65536
/-- DRAM of one die (R150). -/
def dieBytes : Nat := 0x2000000000
/-- The part of a die's DRAM below firmware's top 16 MiB (R150). -/
def dieUser : Nat := 0x2000000000 - 0x1000000
/-- First scratchpad (R150). -/
def scratchBase : Nat := 0x100000000000
/-- Bytes of one scratchpad (R150). -/
def scratchBytes : Nat := 0x200000
/-- The control window (R150). -/
def controlBase : Nat := 0xF00000000000
def controlEnd : Nat := 0xF00100000000
/-- The tether of R24. -/
def tether : Nat := 64
/-- Capacity of the copy engine and of the tile-stage engine (R191). -/
def copyRoom : Nat := 64
def stageRoom : Nat := 32
/-- Bytes of a staged block with its trailer (R193). -/
def blockBytes : Nat := 6208
/-- Places of a send window (R209). -/
def windowPlaces : Nat := 8
/-- Ticks between scheduler rounds (R218). -/
def roundTicks : Nat := 100000
/-- Ticks between bandwidth refills, and the bytes of one die's budget (R221). -/
def refillTicks : Nat := 512
def dieBudget : Nat := 8192000
/-- Ids of ballast records run to 2^20 - 1 (R240, R252). -/
def lastRecord : Nat := 1048575
/-- Ticks without contact after which a package is lost, and without a live link after which a package
cuts itself off (R271, R424). -/
def lossTicks : Nat := 1000000
/-- Ticks a link may retrain (R265). -/
def retrainTicks : Nat := 50000
/-- Ticks an admission may take (R313). -/
def admissionTicks : Nat := 1000000000
/-- Flits of a replay buffer (R264). -/
def replayFlits : Nat := 4096

/-- Ticks of cr.time that pass before a step (log 8). -/
opaque elapsed : Nat → Nat
/-- The lease of LoadCurrent; used modulo 65,536 (R174, log 9). -/
opaque lease : Nat → Nat
/-- How far above its lower bound a sampled drift stands; used modulo the room left (R24, log 10). -/
opaque driftChoice : Nat → Nat
/-- The source line that a TLOAD loads next; used modulo the number left (R183, log 27). -/
opaque engineLine : Nat → Nat
/-- How far after acceptance a promise lies (R198, log 11). -/
opaque promise : Nat → Nat
/-- Contents called unspecified (R38, R42, R232, R300): offset and byte, by counter (log 12). -/
opaque freeCells : Nat → List (Nat × Byte)
/-- A value the spec does not state: by counter (log 7). -/
opaque freeWord : Nat → BitVec 64
/-- Mask contents called unspecified (R38, log 12). -/
opaque freeMask : Nat → Nat → BitVec 384
/-- The firmware's own trap entry point (R224, log 16). -/
opaque fwHandler : Word
/-- What the records of other packages give for a handle: one on the way has died, the tensor's package, slot and offset, or a
parent handle that names a record of this package (R248). -/
inductive FarRecord where
  | dead
  | tensor (pkg : BitVec 12) (slot : BitVec 8) (off : BitVec 64)
  | parent (handle : BitVec 64)
deriving Inhabited, DecidableEq, Repr
/-- The answer of the other packages for a handle (R248, log 20). By counter, since their records change. -/
opaque farRecord : Nat → BitVec 64 → FarRecord
/-- The requester of a recorded request still waits for it after the rollback, as its capture on its package says (R286, log 39). By
counter. -/
opaque stillPending : Nat → Bool
/-- The plane a sender or a switch takes; used modulo 16 (R257, log 20). -/
opaque plane : Nat → Nat
/-- The code point that stands in firmware DRAM for a save or a copy (R234, R236, log 19). -/
opaque firmwareArea : Nat → Nat
/-- The unselected bank that firmware spills; used modulo 3 (R297, log 21). -/
opaque spill : Nat → Nat
/-- The device key's trees: the upper one, 0, and those under its leaves. Their identifiers, and the secret from which a chain of a leaf
begins, by tree, leaf and chain (R317, log 13). -/
opaque deviceTree : Nat → BitVec 128
opaque deviceSecret : Nat → Nat → Nat → BitVec 256
/-- The leaves of the upper and the lower tree that sign a report, used modulo 2^15, and the randomisers, by counter (R317, log 13). -/
opaque signingLeaf : Nat → Nat × Nat
opaque signingSalt : Nat → BitVec 256 × BitVec 256

end Sys2Proof.Config
end

