-- ==== Sys2Proof/Machine/State.lean ====
section
/-! DEFINITION. The state of one package: its cores, quads, memory, ordering machine, engines, queues,
launches, records, links and host port. Everything the spec lets an instruction or an event read or write
stands here as plain data; INVENTORY.md lists each field with its rule and reset value. -/

namespace Sys2Proof.Machine

/-- Why the machine stops. -/
inductive Fault where
  /-- Raised by an access or a fetch at an address that no region of R150 holds. The checks of R153 and R157
  keep a launched user hart from it. Safe: the machine stops where hardware's behaviour is not given. -/
  | unmapped
deriving DecidableEq, Repr

/-- Why the model gives no next state. -/
inductive Refusal where
  /-- Raised by an arm of `exec` whose instruction has no meaning yet. Safe. -/
  | notModelled (mnemonic : String)
  /-- Raised by an access inside the control window, whose registers the spec does not give (R150). Safe. -/
  | controlWindow
deriving DecidableEq, Repr

/-- Sparse bytes in ascending order of address, zero bytes left out (log 2). -/
abbrev Mem := List Host.Cell

/-- An x register with its slot tag: [8] tv, [7:0] slot (R51). -/
structure XReg where
  val : Word
  tag : BitVec 9
deriving DecidableEq, Repr

/-- A line entry: the halfwords fetched when control entered the line (R72, R79). -/
structure LineEntry where
  base   : Word
  halves : List Half
deriving DecidableEq, Repr

/-- Loop state (R136); `stages` is S - 1. -/
structure LoopState where
  active : Bool
  start  : Word
  stop   : Word
  j      : Word
  n      : Word
  trip   : Word
  stages : BitVec 3
deriving DecidableEq, Repr

/-- Type of an accumulator row (R59). -/
inductive RowType where
  | none | f32 | i32
deriving DecidableEq, Repr

/-- A granule with an error: 64-bit granule number in its store; poisoned, or with a correctable bit (R61). -/
structure EccError where
  store    : StoreKind
  granule  : Nat
  poisoned : Bool
deriving DecidableEq, Repr

/-- The waits of R40. A barrier wait is for generation `gen`; `again` marks the two waits of R330 after which
the BAR is carried out afresh. An engine wait keeps the receipts of its EWAIT, a queue wait the register of its
QRECV. A hart in `trap` takes a join-timeout trap once its vector queue has drained (R29, R33). -/
inductive Wait where
  | barrier (scope : Scope) (inst gen : Nat) (again : Bool)
  | sleep (until_ : Word)
  | engine (until_ : Word) (a : VName) (m : MName)
  | queue (q : Nat) (d : VName)
  | join (id : BitVec 8)
  | trap (sub : BitVec 8) (val : Word)
deriving DecidableEq, Repr

/-- What the hart does: it runs, waits (R40), is stopped at a safe point for a move or a pre-emption (R166, R230,
R231; with the wait it was in), stands stopped at a trap that will park it once its save is made, is parked by a double
trap or by firmware (R224, R228), or has exited (R45). -/
inductive Run where
  | idle | running | waiting (w : Wait) | stopped (w : Option Wait) | parking | parked | exited
deriving DecidableEq, Repr

/-- A trap's record (R223, R224, R228). -/
structure TrapRecord where
  cause : BitVec 8
  sub   : BitVec 8
  el    : BitVec 12
  val   : Word
  pc    : Word
deriving DecidableEq, Repr

/-- A slot entry (R152). -/
structure SlotEntry where
  gen   : BitVec 16
  key   : BitVec 6
  world : BitVec 10
  pkg   : BitVec 12
  mov   : Bool
  rem   : Bool
  eng   : Bool
  at_   : Bool
  w     : Bool
  r     : Bool
  v     : Bool
  limit : BitVec 48
  base  : BitVec 48
deriving DecidableEq, Repr

/-- A version that an S stream holds, named by its line and write time (R173). -/
structure HeldRef where
  line : Nat
  wts  : Nat
deriving DecidableEq, Repr

/-- A stream: clock, held versions, and the lines it tracks with their load counts, latest first
(R172, R173, R49). -/
structure Stream where
  pts   : Nat
  held  : List HeldRef
  track : List (Nat × Nat)
deriving DecidableEq, Repr

/-- Where the reply to a remote request goes (R259, R360). A group's bytes are given as offsets of the reply
and cells of the vector banks. -/
inductive AwaitTo where
  | xreg (fw : Bool) (d : XName)
  | group (reg g : Nat) (cells : List (Nat × Nat))
deriving DecidableEq, Repr

/-- A request whose reply has not come (R188, R259, R360). -/
structure Await where
  rtag : Nat
  pkg  : BitVec 12
  dest : AwaitTo
deriving DecidableEq, Repr

/-- A remote access of the hart that is not acknowledged (R181, R263); `maps` of a PFADD are the planes that each hash plane
toward its package has stood for since it was issued, and 16 for one that has been remapped since (R257, R258). -/
structure RemoteRef where
  serial : Nat
  pkg    : BitVec 12
  plane  : Nat
  stamp  : Nat
  maps   : List Nat
deriving DecidableEq, Repr

/-- The counts of R263 toward one package, one per plane, since the last ordered flag to it, with the numbers that the model
gives them (log 20). -/
structure PlaneCounts where
  pkg     : BitVec 12
  counts  : List Nat
  numbers : List Nat
deriving DecidableEq, Repr

/-- An entry of a send window (R209): queue, data, the larger clock of the sender, its place in program
order, and the cycle before which the window does not offer it again. -/
structure WindowEntry where
  queue : Nat
  data  : List Byte
  clock : Nat
  stamp : Nat
  hold  : Nat
deriving DecidableEq, Repr

/-- A handle's post that has not left the hart (R245). One for another package that a cut finds waiting keeps the old
colour, on the plane that its marker counts it on (R279, R281). -/
structure PostEntry where
  handle : Word
  stamp  : Nat
  old    : Option Nat
deriving DecidableEq, Repr

/-- An accepted engine command (R191 to R202). `src` and `dst` are the addresses resolved at acceptance,
`order` its place in the order of acceptance, `done` the destination lines stored, `read` the source lines loaded with their
bytes in `got` by source offset, `checked` and `bad` the blocks whose version tag was compared. -/
structure Command where
  serial  : BitVec 16
  bits    : BitVec 512
  stage   : Bool
  src     : Nat
  dst     : Nat
  dstPkg  : Option (BitVec 12)
  due     : Word
  pts     : Nat
  pc      : Word
  stamp   : Nat
  order   : Nat
  done    : List Nat
  read    : List Nat
  got     : List (Nat × Byte)
  checked : Nat
  bad     : Option Nat
deriving DecidableEq, Repr

/-- Control registers of the user hart (R62 to R71, R294). -/
structure Ctl where
  pcnt      : BitVec 16
  intrap    : Bool
  cecc      : Bool
  rm        : BitVec 2
  flags     : BitVec 6
  fx        : List Word
  vl        : BitVec 12
  span      : Span
  ew        : Ew
  estart    : BitVec 12
  rot       : BitVec 4
  gates     : BitVec 8
  epoch     : BitVec 32
  stage     : BitVec 4
  count     : BitVec 9
  index     : BitVec 8
  resid     : Word
  bank      : BitVec 2
  world     : BitVec 10
  integPc   : BitVec 48
  integ     : BitVec 16
  tsub      : BitVec 8
  tcause    : BitVec 8
  tpc       : Word
  tel       : BitVec 12
  tval      : Word
  thandler  : Word
  fwshare   : BitVec 5
  qbackoff  : BitVec 16
  jointime  : BitVec 32
  rb        : Bool
  rbFrom    : BitVec 32
  wbind     : Word
deriving DecidableEq, Repr

/-- A vector instruction that the scalar path has gone past while it waits in the vector queue (R33): its PC, and the scalar and
control registers as they were when it was reached. -/
structure LateOp where
  instr : Instr
  pc    : Word
  x     : Vector XReg 32
  ctl   : Ctl
deriving DecidableEq, Repr

/-- One piece of an access (R178), or an instruction that waits in the vector queue. Loads name their destination: an x register, or pairs of a memory address
and a cell of the vector banks or tiles. -/
inductive AccOp where
  | loadX (d : XName) (addr size : Nat) (sx : Bool)
  | store (bytes : List (Nat × Byte))
  | amoX (d : XName) (addr size : Nat) (op : AmoOp) (b : Word)
  | casX (d : XName) (addr size : Nat) (old new : Word)
  | loadV (cells : List (Nat × Nat))
  | loadT (cells : List (Nat × Nat))
  | amoV (addr size cell : Nat) (op : AmoOp) (b : Word)
  | late (l : LateOp)
deriving DecidableEq, Repr

/-- A piece that has not been performed: its place in the hart's program order, whether it holds a sluice (R31), and what
it does. -/
structure Acc where
  stamp  : Nat
  sluice : Bool
  op     : AccOp
deriving DecidableEq, Repr

/-- One core: its user hart, its firmware context, its stores and its engines. -/
structure Core where
  /-- Package-wide core number (R11). -/
  num     : Nat
  /-- What the user hart does (R40). -/
  run     : Run
  /-- The firmware context is the one in focus (R34). -/
  fw      : Bool
  /-- The flight whose hart the core runs (R37). -/
  flight  : Option FlightId
  /-- Scalar registers of the user hart (R51). -/
  x       : Vector XReg 32
  /-- Scalar registers of the firmware context (R51). -/
  fwX     : Vector XReg 32
  /-- PC of the user hart (R76). -/
  pc      : Word
  /-- PC of the firmware context. -/
  fwPc    : Word
  /-- Line entry of the user hart (R79). -/
  line    : Option LineEntry
  /-- Line entry of the firmware context (R79). -/
  fwLine  : Option LineEntry
  /-- Control registers (R62 to R71, R294). -/
  ctl     : Ctl
  /-- The rotating loop (R136 to R138). -/
  loop    : LoopState
  /-- Mask registers (R56). -/
  m       : Vector (BitVec 384) 8
  /-- The four vector banks, 384 bytes a register (R52). -/
  vec     : Mem
  /-- The tile store (R58). -/
  tiles   : Mem
  /-- The accumulator rows (R59). -/
  acc     : Mem
  /-- Types of the accumulator rows (R59). -/
  rowType : Vector RowType 64
  /-- Granules with an error (R61). -/
  ecc     : List EccError
  /-- Slot table of the running image (R152). -/
  slots   : List (Nat × SlotEntry)
  -- the ordering machine's streams and what they have not performed
  /-- S stream of the user hart (R172). -/
  sS      : Stream
  /-- V stream (R172). -/
  sV      : Stream
  /-- S stream of the firmware context (R172). -/
  sF      : Stream
  /-- S accesses of the user hart not yet performed (R177). -/
  sq      : List Acc
  /-- S accesses of the firmware context not yet performed (R177). -/
  fq      : List Acc
  /-- V accesses not yet performed (R177). -/
  vq      : List Acc
  /-- Place of the next access in program order. -/
  stamp   : Nat
  /-- Requests whose reply has not come (R259, R360). -/
  waits   : List Await
  /-- Remote accesses not yet acknowledged (R181, R263). -/
  remote  : List RemoteRef
  /-- Counts toward each package (R263). -/
  planes  : List PlaneCounts
  /-- Counts that a VSTR.of has taken and some of whose pieces have still to go, by its PC (R416). -/
  flags   : List (Word × List (Nat × Nat))
  /-- Lines that the V stream has loaded ahead of the instruction, with their bytes (R180). -/
  ahead   : List (Nat × List Byte)
  /-- Send window (R209). -/
  window  : List WindowEntry
  /-- Handle posts that have not left (R245). -/
  posts   : List PostEntry
  -- the reel's view of the core
  /-- Heads issued (R24). -/
  heads   : Nat
  /-- The hart stops at this element of the instruction it has begun, or at its end (R22, R231). -/
  stopAt  : Option Nat
  /-- The deferred-integrity test of the head at the PC has passed (R302). -/
  tested  : Bool
  /-- Which of the latest issue slots, the latest first, the firmware context took from the user hart (R34). -/
  taken   : List Bool
  -- engines
  /-- Engines that refused a command of an EISSUE begun at a PC and not ended (R195). -/
  shut    : List (Word × Bool)
  /-- Serial of the next engine command (R197). -/
  serial  : BitVec 16
  /-- Accepted engine commands that have not ended (R191 to R202). -/
  cmds    : List Command
  /-- Aborted commands that a restore reissues (R232). -/
  owed    : List Command
  /-- Clocks of ended commands by serial (R185). -/
  ended   : List (BitVec 16 × Nat)
  /-- Serials that ended with a version-tag mismatch, with the hart that issued the command (R200). -/
  mismatch : List (BitVec 16 × HartId)
  /-- Serials refused at a restore (R232). -/
  refused : List (BitVec 16)
  -- firmware's records
  /-- The record that firmware received last (R224, R225). -/
  fwTrap  : Option TrapRecord
  /-- The inner trap of a parked hart (R228, R229). -/
  inner   : Option TrapRecord
  /-- The hart parked by a double trap (R228). -/
  doubleTrap : Bool
  /-- Generation of the last arrival at each scope (R330). -/
  barriers : List (Scope × Nat × Nat)
  /-- The hart takes a rollback notice before its first instruction (R227). -/
  notice  : Bool
  /-- A WSWITCH or WREL of the firmware context has been issued and is not complete (R181, R296, R420). -/
  switching : Bool
  /-- The hart of each world that last ran on the core (R297). -/
  ran     : List (BitVec 10 × HartId)
deriving DecidableEq, Repr

/-- An open JOIN of a quad (R28 to R30); `late` are cores that op 0x0003 resumed after its first arrival (R228). -/
structure JoinState where
  pc       : Word
  arrived  : List (Nat × BitVec 8)
  members  : BitVec 4
  limit    : Option Nat
  started  : Nat
  late     : BitVec 4
deriving DecidableEq, Repr

/-- What the reel has issued since its cores were attached (R24, R25, R79): the number of heads the pilot has issued, its
control transfers that some attached core may still have to execute (the number of the head, the PC after it), and the
lines it has entered that some attached core is in or may still have to enter, oldest first, each with the number of heads
issued before the entry. `forks` are the attached cores, within the quad, that have executed a control transfer which the
pilot has not reached, each with the PC that sequential flow would have reached there. -/
structure Reel where
  led   : Nat
  path  : List (Nat × Word)
  lines : List (Nat × LineEntry)
  forks : List (Nat × Word)
deriving DecidableEq, Repr

/-- A quad (R24 to R28): the attached set, the reel, and the open JOINs. -/
structure Quad where
  num      : Nat
  attached : BitVec 4
  reel     : Reel
  joins    : List JoinState
deriving DecidableEq, Repr

/-- Bytes a code line held before a store to it, which an entry may still fetch (R170), and the core whose hart or engine
stored; `back` once what was stored has reached the shared cache, by a CWB of the line in that core's L1 or because a core of another
L1 stored to the line (log 18). -/
structure CodeLine where
  base  : Nat
  bytes : List Byte
  core  : Option Nat
  back  : Bool
deriving DecidableEq, Repr

/-- Clocks of the current version of a line of package memory (R172). -/
structure LineClock where
  line : Nat
  wts  : Nat
  rts  : Nat
deriving DecidableEq, Repr

/-- A version that is no longer current and that a stream holds (R172, R174). -/
structure OldVersion where
  line  : Nat
  wts   : Nat
  rts   : Nat
  bytes : List Byte
deriving DecidableEq, Repr

/-- An extent-table entry (R159), with its number; extents not listed are all zero. -/
structure Extent where
  num   : Nat
  world : BitVec 10
  key   : BitVec 6
  trace : BitVec 4
  sealed : Bool
  pin   : Bool
deriving DecidableEq, Repr

/-- A generation of a barrier in which someone has arrived: participants, arrivals, largest clock (R43, R44). -/
structure OpenGen where
  members : List HartId
  arrived : List HartId
  clock   : Nat
  remote  : Bool
deriving DecidableEq, Repr

/-- A barrier instance of a stage at a scope (R330). `clocks` holds C of each completed generation. -/
structure Barrier where
  launch : Nat
  stage  : Nat
  scope  : Scope
  inst   : Nat
  gen    : Nat
  opened : Option OpenGen
  clocks : List Nat
deriving DecidableEq, Repr

/-- An entry placed in a queue: data, clock, sending core (R187, R210). -/
structure QueueEntry where
  data  : List Byte
  clock : Nat
deriving DecidableEq, Repr

/-- An entry of the holding area with the flight and the core number within it that sent it (R211), its place in the
sender's program order, and the remote accesses before it that were not acknowledged (R187). -/
structure HeldEntry where
  flight : FlightId
  core   : Nat
  entry  : QueueEntry
  stamp  : Nat
  after  : List Nat
deriving DecidableEq, Repr

/-- A queue instance on this package; `none` as an end is the host (R208 to R217). `signal`: an addition to the wake word
has signalled firmware, and the re-map that this prompts is pending (R216, R217). -/
structure Queue where
  sender   : Option Nat
  receiver : Option Nat
  depth    : Nat
  entries  : List QueueEntry
  holding  : List HeldEntry
  closed   : Bool
  unmapped : Bool
  wake     : Word
  signal   : Bool
deriving DecidableEq, Repr

/-- A stage of a launch on this package (R35, R312). -/
structure StageInfo where
  image   : Nat
  fused   : Bool
  pinned  : Bool
  least   : Nat
  most    : Nat
  started : Nat
  retired : Bool
deriving DecidableEq, Repr

/-- An image of a launch on this package: its entry PC, code slot and slot table (R152, R312). -/
structure Image where
  entry    : Word
  codeSlot : Nat
  codeLen  : Nat
  slots    : List (Nat × SlotEntry)
deriving DecidableEq, Repr

/-- A channel of a harvest: source or destination package, plane, virtual channel (R281). -/
structure Channel where
  pkg   : BitVec 12
  plane : Nat
  vc    : Nat
deriving DecidableEq, Repr

/-- The kinds of packet of R268 with what the receiver needs. A store names the bytes it writes, a VLDR
request its group's active bytes, offset within the group and address, and the bytes read so far; `comb` says that a
switch combined the request (R262). -/
inductive PacketBody where
  | store (bytes : List (Nat × Byte))
  | vldr (rtag g : Nat) (addrs : List (Nat × Nat)) (got : List (Nat × Byte))
  | vldrReply (rtag g : Nat) (data : List Byte)
  | pfadd (rtag addr : Nat) (addend : Word) (comb : Bool)
  | pfaddReply (rtag : Nat) (value : Word)
  | post (handle : Word)
  | marker (harvest : Nat) (count : Nat)
  | ack (serial : Nat)
  | timeSync
deriving DecidableEq, Repr

/-- A packet in the egress queue, in flight or arrived (R188, R256 to R270). `counted` is the plane on which it
was first issued (R274). `interval` of a store or PFADD of a hart is the number of the count that it counts in, and `counts` of an
ordered flag are the 16 counts before it with their numbers (R263, R416). `merged` are the other adds that a combined PFADD stands
for: hart, the plane it was first issued on, and number of the count (R262). `engine` is the place in the order of acceptance of the command whose remote write it is,
and `parts` are the pieces of a store that were performed before the one in `body`. -/
structure Packet where
  serial  : Nat
  src     : BitVec 12
  dst     : BitVec 12
  core    : Nat
  hart    : HartId
  plane   : Nat
  counted : Nat
  vc      : Nat
  colour  : Bool
  launch  : Nat
  interval : Option Nat
  counts  : Option (List (Nat × Nat))
  merged  : List (HartId × Nat × Nat)
  engine  : Option Nat
  parts   : List (Nat × Byte)
  body    : PacketBody
deriving DecidableEq, Repr

/-- What a ballast record holds (R242): a tensor or an indirection. -/
inductive RecordKind where
  | tensor (slot : BitVec 8) (off : Word) (world : BitVec 10) (stage : Nat) (entry : Word) (dead : Bool)
  | indirect (parent : Word)
deriving DecidableEq, Repr

/-- A ballast record (R242), under the id and the home package that its handles name: this package's, or the one a migration
moved it from (R289). -/
structure BallastRecord where
  home   : BitVec 12
  id     : Nat
  launch : Nat
  b      : Nat
  back   : Nat
  kind   : RecordKind
deriving DecidableEq, Repr

/-- A record that has moved to another package, which this one forwards to (R289). -/
structure Forward where
  home   : BitVec 12
  id     : Nat
  launch : Nat
  target : BitVec 12
deriving DecidableEq, Repr

/-- Where a started flight is (R37, R42, R425). -/
inductive Place where
  | quad (q : Nat)
  | parked
  | saved
  | ended
deriving DecidableEq, Repr

/-- A started flight; `order` grows with each start and resumption (R423), and `due` says that a round has come since it was
saved (R425). -/
structure Flight where
  id    : FlightId
  place : Place
  order : Nat
  due   : Bool
deriving DecidableEq, Repr

/-- A context save (R234 to R237): the hart as it stood, the header fields that are not its registers, the
commands owed, its quad with the reel, and the read-only registers as they read then. The 262,144 bytes are the view `Save.byte`. -/
structure Save where
  flight : FlightId
  core   : Core
  pkg    : BitVec 12
  rung   : BitVec 2
  time   : Word
  owed   : List Command
  quad   : Quad
  drift  : Word
  harvest : Word
  feats  : BitVec 256
  fwtag  : Word
  /-- Where the save lies in firmware's DRAM, a multiple of 4,096 (R234, log 19). -/
  addr   : Nat
deriving DecidableEq, Repr

/-- Accesses performed here for a hart of another package that it counted in one count of a plane (R263, R274, R416). -/
structure Performed where
  src    : BitVec 12
  hart   : HartId
  launch : Nat
  plane  : Nat
  number : Nat
  count  : Nat
deriving DecidableEq, Repr

/-- A hart captured by a harvest with its pending replies (R278 to R280). -/
structure Capture where
  save  : Save
  rpend : BitVec 192
  xpend : BitVec 32
deriving DecidableEq, Repr

/-- The pieces of one harvest on this package (R278 to R285). `sent` are the counts that its markers carry, `unsent` the packages
to which they have still to leave (R281). -/
structure Harvest where
  num       : Nat
  captures  : List Capture
  saves     : List Save
  flights   : List Flight
  stages    : List StageInfo
  queues    : List Queue
  records   : List BallastRecord
  finalisers : List (BitVec 12 × Nat)
  barriers  : List Barrier
  manifest  : List Nat
  copies    : List (Nat × Mem)
  performed : List Performed
  channel   : List (Channel × Packet)
  received  : List (Channel × Nat)
  markers   : List (Channel × Nat)
  sent      : List (Channel × Nat)
  unsent    : List (BitVec 12)
  combined  : List (Nat × Nat × Word)
  complete  : Bool
deriving DecidableEq, Repr

/-- Where a launch stands (R36, R47, R288, R310, R313): it waits for the admission of the other packages, with the
seq of its command entry and the tick of the first admission; it runs; it has moved to another package; it is over. -/
inductive LaunchState where
  | waiting (seq : Word) (first : Word)
  | running
  | moved
  | done (status : BitVec 32)
deriving DecidableEq, Repr

/-- A migration in progress (R288). -/
structure Migration where
  target  : BitVec 12
  stopped : Bool
  begun   : Word
deriving DecidableEq, Repr

/-- A launch on this package (R35 to R37, R219, R277 to R285, R288, R311 to R314). `loads` are the code and data that the
loader copies at admission (R99, R312); `copied` are the packages whose loader has finished (R253), `elsewhere` the packages and stages of which
a tensor or a flight there keeps the stage from retiring (R46, R251), `grow` the pressure at which a stage grows (R218),
`blocked` says that some package has not yet abandoned the harvest that this one abandoned (R285), and `halted` that a migration of the
launch from another package is in phase 2 or 3 (R288). -/
structure Launch where
  id       : Nat
  tag      : Word
  world    : BitVec 10
  prio     : Nat
  t1       : Nat
  t2       : Nat
  comp     : Word
  pkgs     : List (BitVec 12)
  admitted : List (BitVec 12)
  uses     : BitVec 32
  loads    : List (Nat × List Byte)
  stages   : List StageInfo
  images   : List Image
  queues   : List Queue
  copied   : List (BitVec 12)
  elsewhere : List (BitVec 12 × Nat)
  blocked  : Bool
  halted   : Bool
  grow     : Rat
  weight   : Nat
  deficit  : Rat
  state    : LaunchState
  colour   : Bool
  busy     : Bool
  last     : BitVec 32
  everywhere : BitVec 32
  harvests : List Harvest
  sent     : List (Channel × Nat)
  received : List (Channel × Nat)
  migration : Option Migration
deriving DecidableEq, Repr

/-- A move in progress (R165 to R167), of this package's memory or of another's. -/
structure MoveRecord where
  pkg   : BitVec 12
  old   : Nat
  new   : Nat
  len   : Nat
  phase : Nat
  begun : Word
deriving DecidableEq, Repr

/-- A pre-emption request (R230): flights still to be saved, t0, rung reached, and the harts saved so far with
their status words, which wait for the rung that the whole set reaches (R229, R230). -/
structure PreemptReq where
  launch  : Nat
  flights : List FlightId
  t0      : Int
  rung    : BitVec 2
  saved   : List (HartId × Word)
deriving DecidableEq, Repr

/-- A quad that a level takes from a victim under R219: it is granted to the launch when the victim's save
completes. -/
structure Grant where
  victim : FlightId
  launch : Nat
deriving DecidableEq, Repr

/-- An admission that another listed package announced (R313): package, launch tag, verdict, tick. -/
structure Heard where
  pkg    : BitVec 12
  tag    : Word
  admits : Bool
  time   : Word
deriving DecidableEq, Repr

/-- Bucket of a world on a die (R221). -/
structure Bucket where
  die    : Nat
  world  : BitVec 10
  tokens : Rat
  active : Bool
deriving DecidableEq, Repr

/-- A receiver context of a link direction (R268, R269): the header last stored and where the last packet
ended. -/
structure LinkCtx where
  ctx  : Nat
  bits : BitVec 192
  next : Nat
deriving DecidableEq, Repr

/-- A fabric link (R264 to R270). `ack` is the sequence number that the receiver last acknowledged on virtual channel 3, and `part`
the number of flits accepted of a packet that is not whole. -/
structure Link where
  num     : Nat
  part    : Nat
  up      : Bool
  lanes   : Nat
  retrain : Option Word
  rxSeq   : BitVec 16
  ack     : Option (BitVec 16)
  replay  : Option (BitVec 16)
  ctxs    : List LinkCtx
deriving DecidableEq, Repr

/-- Registers of the host port (R306). -/
structure HostPort where
  cbase   : Word
  csize   : BitVec 32
  ctail   : BitVec 32
  chead   : BitVec 32
  sbase   : Word
  ssize   : BitVec 32
  stail   : BitVec 32
  shead   : BitVec 32
  offer   : BitVec 256
  en      : Bool
  opened  : Bool
  faulted : Bool
  wrapped : Bool
  alarm   : Bool
  msix    : List (BitVec 6)
  retries : Nat
deriving DecidableEq, Repr

/-- A status entry (R309). -/
structure Status where
  seq    : Word
  status : BitVec 32
  kind   : BitVec 16
  launch : BitVec 32
  count  : BitVec 32
  value  : Word
deriving DecidableEq, Repr

/-- Stages of the boot sequence (R316, R320). -/
inductive BootStage where
  | held | running | recovery | stopped
deriving DecidableEq, Repr

/-- What boot leaves (R316, R317): its stage, the measurement, the fuses (the security version and the hash of the root key),
and the public half of the device key that firmware certified. -/
structure Boot where
  stage   : BootStage
  measure : BitVec 256
  fused   : Nat
  root    : BitVec 256
  certified : Option LmsKey
deriving DecidableEq, Repr

/-- A voltage and frequency island (R12, R318, R320): its clock, the cycle count at the tick it took that clock,
and the clock firmware set, which thermal throttling overrides. -/
structure Island where
  num       : Nat
  mhz       : Nat
  setMhz    : Nat
  throttled : Bool
  baseTick  : Word
  baseCycle : Nat
deriving DecidableEq, Repr

/-- An attestation report (R317). -/
structure Report where
  measure   : BitVec 256
  offer     : BitVec 256
  version   : Nat
  nonce     : BitVec 256
  signature : HssSignature
deriving DecidableEq, Repr

/-- A fault that firmware receives a record of without a position in a hart (R222, R249). -/
structure FaultReport where
  cause : BitVec 8
  sub   : BitVec 8
  val   : Word
deriving DecidableEq, Repr

/-- Choices that the spec leaves to the machine (log 6, log 9, log 61): leave S or V accesses unperformed, let the scalar path go past
vector instructions that wait in the vector queue, load the k-th held version that R174 allows (0: the current one), the element at which a stop of R231 finds a vector instruction, and for
the two sectors of a code line which earlier bytes are fetched (0: the current ones; R170). -/
structure Pick where
  deferS  : Bool
  deferV  : Bool
  late    : Bool
  held    : Nat
  stopAt  : Option Nat
  oldLow  : Nat
  oldHigh : Nat
deriving DecidableEq, Repr

/-- What moves next, when it is not the focused core (log 5): an event, a change of the focused core or
context, a choice, a stream's oldest unperformed piece, what another package tells this one, or what firmware sets. -/
inductive Move where
  | event (i : Instr)
  | focus (core : Nat)
  | context (fw : Bool)
  | choose (p : Pick)
  | performS (core : Nat)
  | performF (core : Nat)
  | performV (core : Nat)
  | readAhead (core line : Nat)
  | podOpens (launch stage : Nat)
  | podArrived (launch stage clock : Nat)
  | copiedBy (launch : Nat) (pkg : BitVec 12)
  | stageElsewhere (launch : Nat) (pkg : BitVec 12) (stage : Nat) (holds : Bool)
  | abandonedEverywhere (launch : Nat)
  | farLink (pkg : BitVec 12) (plane : Nat) (up : Bool)
  | farMove (pkg : BitVec 12) (old new len : Nat)
  | farStop (launch : Nat) (stands : Bool)
  | farMigration (launch : Nat) (source target : BitVec 12)
  | arrival (l : Launch) (flights : List Flight) (saves : List Save) (records : List BallastRecord) (barriers : List Barrier)
      (l720 : Bool) (mem : List (Nat × Mem))
  | setPolicy (launch weight : Nat) (grow : Rat)
  | setShare (world : BitVec 10) (share : Nat)
  | keyWrite (key : BitVec 6) (material : BitVec 512)
  | harvestEverywhere (launch : Nat) (num : BitVec 32)
  | setIntegrity (world : BitVec 10) (l720 : Bool)
  | traffic (core sectors : Nat)
deriving DecidableEq, Repr

/-- The whole package. -/
structure State where
  /-- The core in focus. -/
  core     : Core
  /-- The other cores in use, in ascending order. -/
  others   : List Core
  /-- Package id (R11). -/
  pkg      : BitVec 12
  /-- cr.time (R68). -/
  time     : Word
  /-- The first time-sync has come (R272). -/
  synced   : Bool
  /-- Time of the last correction of the count (R272). -/
  slewed   : Word
  /-- Package memory (R150). -/
  mem      : Mem
  /-- Host memory, as the host port reaches it (R307 to R313). -/
  host     : Mem
  /-- Clocks of the current versions of lines (R172). -/
  lines    : List LineClock
  /-- Superseded versions that a stream holds (R172, R174). -/
  old      : List OldVersion
  /-- S streams of the eight service cores (R15, R172). -/
  services : List Stream
  /-- Clock of the ingress stream (R172). -/
  ptsIn    : Nat
  /-- Extent table (R159). -/
  extents  : List Extent
  /-- Earlier bytes of code lines that an entry may fetch (R170). -/
  code     : List CodeLine
  /-- Quads and their reels (R24 to R28). -/
  quads    : List Quad
  /-- Barrier instances (R43, R330). -/
  barriers : List Barrier
  -- worlds and keys
  /-- Key slots that are live (R299). -/
  live     : BitVec 64
  /-- Key material (R298). -/
  keyMat   : List (BitVec 6 × BitVec 512)
  /-- Key slots under revocation (R300). -/
  revoking : List (BitVec 6)
  /-- Accesses discarded under a revoked key (R300). -/
  discards : List (BitVec 12 × Nat)
  /-- Worlds in L720 integrity mode (R301). -/
  l720     : List (BitVec 10)
  /-- Accepted feature vector (R69, R315). -/
  feats    : BitVec 256
  -- launches and flights
  /-- Launches of this package (R35). -/
  launches : List Launch
  /-- Next launch id (R310). -/
  nextLaunch : Nat
  /-- A launch has been admitted (R315). -/
  admittedOnce : Bool
  /-- Started flights (R37). -/
  flights  : List Flight
  /-- Order of the next start (R423). -/
  nextOrder : Nat
  /-- Context saves (R234). -/
  saves    : List Save
  /-- Pre-emption requests (R230). -/
  preempts : List PreemptReq
  /-- Moves in progress (R165). -/
  moves    : List MoveRecord
  /-- Tick of the next scheduler round (R218). -/
  nextRound : Word
  /-- Quads taken for a launch (R219). -/
  grants   : List Grant
  /-- Refills of each die (R221). -/
  refills  : List (Nat × Nat)
  /-- Buckets of each world and die (R221). -/
  buckets  : List Bucket
  /-- Bandwidth shares of worlds (R221). -/
  shares   : List (BitVec 10 × Nat)
  -- ballast
  /-- Ballast records (R242). -/
  records  : List BallastRecord
  /-- Next ballast id never used (R242). -/
  nextId   : Nat
  /-- Freed ballast ids, oldest first (R252). -/
  freed    : List Nat
  /-- Records whose finaliser waits to start (R247). -/
  finalisers : List (BitVec 12 × Nat)
  /-- Ballast faults that firmware has received a record of (R249). -/
  ballast  : List FaultReport
  /-- Records that moved to another package (R289). -/
  forwards : List Forward
  -- fabric
  /-- Packets not yet acknowledged (R263, R274). -/
  egress   : List Packet
  /-- Arrived packets (R188). -/
  ingress  : List Packet
  /-- Serial of the next packet. -/
  nextPacket : Nat
  /-- Accesses performed for ordered flags (R263). -/
  performed : List Performed
  /-- Requests that a switch combined (R262). -/
  combined : List (Nat × Nat × Word)
  /-- The 16 links (R256, R264). -/
  links    : List Link
  /-- Planes on which the link of another package is down (R258). -/
  farDown  : List (BitVec 12 × Nat)
  /-- Packages declared lost (R271). -/
  lost     : List (BitVec 12)
  /-- Tick at which each package was last reached (R271). -/
  reached  : List (BitVec 12 × Word)
  /-- Since when no link is live (R424). -/
  linkless : Option Word
  -- host, boot, power
  /-- Registers of the host port (R306). -/
  port     : HostPort
  /-- Session key and counter (R308). -/
  session  : Option (List Byte × Word)
  /-- Command entries accepted and not yet carried out (R307). -/
  accepted : List Instr
  /-- Admissions and rejections that this package has announced, by launch tag (R313). -/
  announced : List (Word × Bool)
  /-- Admissions of other packages (R313). -/
  heard    : List Heard
  /-- Status entries that wait for room (R309). -/
  posts    : List Status
  /-- Boot stage and measurements (R316). -/
  boot     : Boot
  /-- Islands that do not run at their boot clock (R12, R318). -/
  islands  : List Island
  /-- Power cap in watts (R319). -/
  powerCap : Nat
  /-- Attestation reports (R317). -/
  reports  : List Report
  -- the model's own
  /-- What moves next (log 5). -/
  agenda   : List Move
  /-- Choices of the machine in force (log 6, log 9). -/
  pick     : Pick
  /-- Counter of the free values (log 7). -/
  free     : Nat
deriving DecidableEq, Repr

def XReg.zero : XReg := { val := 0, tag := 0 }

def Stream.start : Stream := { pts := 0, held := [], track := [] }

def LoopState.inactive : LoopState :=
  { active := false, start := 0, stop := 0, j := 0, n := 0, trip := 0, stages := 0 }

/-- The control registers at package reset: the Reset columns of R64 to R71 and R294 (log 3). -/
def Ctl.reset : Ctl :=
  { pcnt := 0, intrap := false, cecc := false, rm := 0, flags := 0,
    fx := [-1, -1, -1, -1, -1, -1],
    vl := 0, span := .s1, ew := .e8, estart := 0, rot := 0, gates := 1, epoch := 0, stage := 0, count := 0,
    index := 0, resid := 0x40000, bank := 0, world := 0, integPc := 0, integ := 0, tsub := 0, tcause := 0,
    tpc := 0, tel := 0, tval := 0, thandler := 0, fwshare := 4, qbackoff := 0x0100, jointime := 0x01000000,
    rb := false, rbFrom := 0, wbind := 0 }

/-- Core n at package reset: held, with no flight (R316, log 3). -/
def Core.reset (n : Nat) : Core :=
  { num := n, run := .idle, fw := false, flight := none, x := .replicate 32 .zero, fwX := .replicate 32 .zero,
    pc := 0, fwPc := 0, line := none, fwLine := none, ctl := .reset, loop := .inactive, m := .replicate 8 0,
    vec := [], tiles := [], acc := [], rowType := .replicate 64 .none, ecc := [], slots := [],
    sS := .start, sV := .start, sF := .start, sq := [], fq := [], vq := [], stamp := 0, waits := [], remote := [],
    planes := [], flags := [], ahead := [], window := [], posts := [], heads := 0, stopAt := none, tested := false, taken := [],
    shut := [], serial := 0, cmds := [], owed := [], ended := [], mismatch := [], refused := [], fwTrap := none, inner := none, doubleTrap := false, barriers := [],
    notice := false, switching := false, ran := [] }

/-- A reel that has issued nothing. -/
def Reel.start : Reel := { led := 0, path := [], lines := [], forks := [] }

/-- Quad q with all cores attached (R38). -/
def Quad.reset (q : Nat) : Quad := { num := q, attached := 0xF, reel := .start, joins := [] }

/-- A link after training (R316 step 5, log 21). -/
def Link.reset (k : Nat) : Link :=
  { num := k, part := 0, up := true, lanes := 16, retrain := none, rxSeq := 0, ack := none, replay := none,
    ctxs := [] }

/-- A link that is not trained. -/
def Link.down (k : Nat) : Link := { Link.reset k with up := false, lanes := 0 }

def HostPort.reset : HostPort :=
  { cbase := 0, csize := 0, ctail := 0, chead := 0, sbase := 0, ssize := 0, stail := 0, shead := 0, offer := 0,
    en := false, opened := false, faulted := false, wrapped := false, alarm := false, msix := [], retries := 0 }

def Pick.none : Pick :=
  { deferS := false, deferV := false, late := false, held := 0, stopAt := Option.none, oldLow := 0, oldHigh := 0 }

/-- The package right after package reset: the compute dies held in reset, nothing launched (R316). -/
def State.reset : State :=
  { core := .reset 0, others := [], pkg := 0, time := 0, synced := false, slewed := 0, mem := [], host := [],
    lines := [], old := [], services := List.replicate 8 .start, ptsIn := 0, extents := [], code := [], quads := [], barriers := [],
    live := -1, keyMat := [], revoking := [], discards := [], l720 := [], feats := 0,
    launches := [], nextLaunch := 1, admittedOnce := false, flights := [], nextOrder := 0, saves := [],
    preempts := [], moves := [], nextRound := 100000, grants := [], refills := [],
    buckets := [], shares := [],
    records := [], nextId := 1, freed := [], finalisers := [], ballast := [], forwards := [],
    egress := [], ingress := [], nextPacket := 0, performed := [], combined := [],
    links := (List.range 16).map Link.down, farDown := [], lost := [], reached := [], linkless := none,
    port := .reset, session := none, accepted := [], announced := [], heard := [], posts := [],
    boot := { stage := .held, measure := 0, fused := 0, root := 0, certified := none }, islands := [], powerCap := 2600, reports := [],
    agenda := [], pick := .none, free := 0 }

end Sys2Proof.Machine
end

