-- ==== Sys2Proof/Machine/Memory.lean ====
section
/-! DEFINITION. Bytes of a sparse store (log 2): package memory, host memory, vector banks, tiles and
accumulator rows. Little-endian values (R2). -/

namespace Sys2Proof.Machine

/-- The byte at k; 0 where nothing is listed (log 2). -/
def Mem.get : Mem → Nat → Byte
  | [], _ => 0
  | (a, v) :: m, k => if k < a then 0 else if k = a then v else Mem.get m k

/-- Write v at k, keeping the canonical form. -/
def Mem.set : Mem → Nat → Byte → Mem
  | [], k, v => if v = 0 then [] else [(k, v)]
  | (a, w) :: m, k, v =>
    if k < a then (if v = 0 then (a, w) :: m else (k, v) :: (a, w) :: m)
    else if k = a then (if v = 0 then m else (k, v) :: m)
    else (a, w) :: Mem.set m k v

/-- Write a list of bytes, first to last. -/
def Mem.setMany (m : Mem) : List (Nat × Byte) → Mem
  | [] => m
  | (k, v) :: ws => Mem.setMany (m.set k v) ws

/-- Every address is above n, addresses rise, no byte is zero. -/
def Mem.wfAbove : Mem → Nat → Bool
  | [], _ => true
  | (a, v) :: m, n => n ≤ a && v != 0 && Mem.wfAbove m (a + 1)

/-- The canonical form. -/
def Mem.wf (m : Mem) : Bool := m.wfAbove 0

/-- Value of bytes, the first the least significant (R2). -/
def ofBytes : List Byte → Nat
  | [] => 0
  | v :: vs => v.toNat + 256 * ofBytes vs

/-- The n low bytes of w (R2). -/
def toBytes : Nat → Nat → List Byte
  | 0, _ => []
  | n + 1, w => BitVec.ofNat 8 w :: toBytes n (w / 256)

/-- n bytes from k on. -/
def Mem.bytes (m : Mem) (k n : Nat) : List Byte := (List.range n).map fun i => m.get (k + i)

/-- The n-byte little-endian value at k. -/
def Mem.read (m : Mem) (k n : Nat) : Nat := ofBytes (m.bytes k n)

/-- Bytes with their addresses from k on. -/
def place (k : Nat) : List Byte → List (Nat × Byte)
  | [] => []
  | v :: vs => (k, v) :: place (k + 1) vs

/-- The writes of the n-byte value w at k. -/
def cells (k n w : Nat) : List (Nat × Byte) := place k (toBytes n w)

/-- Write zero to all listed bytes of [k, k + n). -/
def Mem.clear (m : Mem) (k n : Nat) : Mem := m.filter fun c => c.1 < k || k + n ≤ c.1

/-- The listed bytes of [k, k + n), moved to start at j. -/
def Mem.slice (m : Mem) (k n j : Nat) : Mem :=
  (m.filter fun c => k ≤ c.1 && c.1 < k + n).map fun c => (c.1 - k + j, c.2)

/-- Replace [k, k + n) by the listed bytes of a store whose addresses lie there. -/
def Mem.paste (m : Mem) (k n : Nat) (src : Mem) : Mem := (m.clear k n).setMany src

end Sys2Proof.Machine
end

