-- ==== Sys2Proof/Machine/Aes.lean ====
section
/-! DEFINITION. AES-256-XTS of one 32-byte sector (R298). The spec names the cipher and gives no algorithm; FIPS 197 and IEEE 1619 do
(PRESUMED, log 30). A byte is a natural number below 256, a block 16 of them, column by column; the substitution table is computed
from what FIPS 197 says it is. -/

namespace Sys2Proof.Machine

/-! The field of 256 elements. -/

/-- Twice a byte. -/
def gfTwice (a : Nat) : Nat := if a < 128 then 2 * a else (2 * a) ^^^ 0x11B

/-- The product of two bytes, over the n low bits of the second. -/
def gfMul (a b : Nat) : Nat → Nat
  | 0 => 0
  | n + 1 => (if b % 2 = 1 then a else 0) ^^^ gfMul (gfTwice a) (b / 2) n

def gfTimes (a b : Nat) : Nat := gfMul a b 8

/-- a to the power 254, which is its inverse: the product of its powers by 2, 4, ..., 128. -/
def gfInverse (a : Nat) : Nat :=
  let square (x : Nat) : Nat := gfTimes x x
  let rec go : Nat → Nat → Nat
    | 0, _ => 1
    | n + 1, x => gfTimes (square x) (go n (square x))
  go 7 a

/-- A byte turned left by n bits. -/
def turnByte (n x : Nat) : Nat := x * 2 ^ n % 256 + x * 2 ^ n / 256

/-- The substitution of a byte, and the table of all of them. -/
def subByte (a : Nat) : Nat :=
  let x := gfInverse a
  x ^^^ turnByte 1 x ^^^ turnByte 2 x ^^^ turnByte 3 x ^^^ turnByte 4 x ^^^ 0x63

def subTable : List Nat := (List.range 256).map subByte
def subst (a : Nat) : Nat := subTable.getD a 0
def substBack (a : Nat) : Nat := subTable.idxOf a

/-! The key schedule: 60 words of four bytes. -/

def xorBytes (a b : List Nat) : List Nat := List.zipWith (· ^^^ ·) a b

/-- The word after the words of the schedule so far, the latest first; n counts them. -/
def scheduleWord (n : Nat) (w : List (List Nat)) : List Nat :=
  let last := w.headD []
  let t := if n % 8 = 0 then
      xorBytes ((last.drop 1 ++ last.take 1).map subst) [2 ^ (n / 8 - 1), 0, 0, 0]
    else if n % 8 = 4 then last.map subst else last
  xorBytes (w.getD 7 []) t

/-- k more words. -/
def scheduleMore : Nat → List (List Nat) → List (List Nat)
  | 0, w => w
  | k + 1, w => scheduleMore k (scheduleWord w.length w :: w)

/-- Consecutive groups of n entries. -/
def groups (n : Nat) : Nat → List Nat → List (List Nat)
  | 0, _ => []
  | k + 1, l => l.take n :: groups n k (l.drop n)

/-- The 15 round keys of a key of 32 bytes. -/
def roundKeys (key : List Nat) : List (List Nat) :=
  groups 16 15 (scheduleMore 52 (groups 4 8 key).reverse).reverse.flatten

/-! Rounds. -/

/-- Row r of the block is turned by r columns, to the left, or back. -/
def shiftRows (b : List Nat) : List Nat := (List.range 16).map fun i => b.getD ((i + 4 * (i % 4)) % 16) 0
def shiftBack (b : List Nat) : List Nat := (List.range 16).map fun i => b.getD ((i + 16 - 4 * (i % 4)) % 16) 0

/-- Each column times a polynomial with the coefficients given, from that of the byte itself on. -/
def mixWith (p : List Nat) (b : List Nat) : List Nat :=
  (List.range 16).map fun i => (List.range 4).foldl
    (fun x j => x ^^^ gfTimes (p.getD j 0) (b.getD (i / 4 * 4 + (i + j) % 4) 0)) 0

/-- One block under the round keys. -/
def aesEncrypt (keys : List (List Nat)) (b : List Nat) : List Nat :=
  let mid := (List.range 13).foldl (fun b k =>
    xorBytes (mixWith [2, 3, 1, 1] (shiftRows (b.map subst))) (keys.getD (k + 1) [])) (xorBytes b (keys.getD 0 []))
  xorBytes (shiftRows (mid.map subst)) (keys.getD 14 [])

def aesDecrypt (keys : List (List Nat)) (b : List Nat) : List Nat :=
  let mid := (List.range 13).foldl (fun b k =>
    mixWith [14, 11, 13, 9] (xorBytes ((shiftBack b).map substBack) (keys.getD (13 - k) []))) (xorBytes b (keys.getD 14 []))
  xorBytes ((shiftBack mid).map substBack) (keys.getD 0 [])

/-! XTS of one sector of two blocks. -/

/-- The tweak of the next block. -/
def nextTweak (t : List Nat) : List Nat :=
  let v := t.foldr (fun a v => a + 256 * v) 0
  (toBytes 16 (if v < 2 ^ 127 then 2 * v else (2 * v) ^^^ 0x87)).map fun b => b.toNat

/-- The two blocks of a sector, each between its tweaks, through a cipher. -/
def xtsWith (cipher : List Nat → List Nat) (tweak : List Nat) (l : List Byte) : List Byte :=
  let block (k : Nat) (t : List Nat) : List Nat := xorBytes (cipher (xorBytes (((l.drop k).take 16).map fun b => b.toNat) t)) t
  (block 0 tweak ++ block 16 (nextTweak tweak)).map (BitVec.ofNat 8)

/-- The data key and the tweak key of a key pair, and the tweak of a sector: its number, little-endian. -/
def dataKey (pair : BitVec 512) : List Nat := (toBytes 32 pair.toNat).map fun b => b.toNat
def tweakKey (pair : BitVec 512) : List Nat := dataKey (pair >>> 256)
def sectorTweak (pair : BitVec 512) (sector : Nat) : List Nat :=
  aesEncrypt (roundKeys (tweakKey pair)) ((toBytes 16 sector).map fun b => b.toNat)

/-- The ciphertext of a sector's 32 bytes, and the bytes of a ciphertext (R298). -/
def xtsEncrypt (pair : BitVec 512) (sector : Nat) (l : List Byte) : List Byte :=
  xtsWith (aesEncrypt (roundKeys (dataKey pair))) (sectorTweak pair sector) l
def xtsDecrypt (pair : BitVec 512) (sector : Nat) (l : List Byte) : List Byte :=
  xtsWith (aesDecrypt (roundKeys (dataKey pair))) (sectorTweak pair sector) l

end Sys2Proof.Machine
end

