-- ==== Sys2Proof/Machine/Ops.lean ====
section
/-! DEFINITION. Named operations over the state: cores and registers, the PC and the reel, the ordering machine,
pending accesses, barriers and joins, the status ring, traps. -/

namespace Sys2Proof.Machine

/-- Outcome of a meaning. -/
abbrev Res := Host.Outcome State Fault Refusal

/-! Lists with a key. -/

/-- Replace the entry with a's key, or add a. -/
def upsert (key : α → Nat) (l : List α) (a : α) : List α :=
  if l.any fun b => key b == key a then l.map fun b => if key b == key a then a else b else a :: l

/-- Replace or insert a core, in ascending order of number. -/
def putCore : List Core → Core → List Core
  | [], c => [c]
  | k :: r, c => if k.num = c.num then c :: r else if c.num < k.num then c :: k :: r else k :: putCore r c

/-! Cores, quads, launches. -/

/-- Core n. -/
def State.coreAt (s : State) (n : Nat) : Core :=
  if s.core.num = n then s.core else (s.others.find? fun c => c.num == n).getD (.reset n)

def State.setCore (s : State) (c : Core) : State :=
  if s.core.num = c.num then { s with core := c } else { s with others := putCore s.others c }

def State.updCore (s : State) (n : Nat) (f : Core → Core) : State := s.setCore (f (s.coreAt n))

/-- The cores in use. -/
def State.cores (s : State) : List Core := s.core :: s.others

/-- Focus core n. -/
def State.focus (s : State) (n : Nat) : State :=
  if n = s.core.num ∨ Config.cores ≤ n then s
  else { s with core := s.coreAt n, others := (putCore s.others s.core).filter fun c => c.num != n }

/-- Act on core n's user hart, whichever core and context is in focus. -/
def State.withUser (s : State) (n : Nat) (f : State → State) : State :=
  let me := s.core.num
  let s := s.focus n
  let fw := s.core.fw
  let s := f { s with core := { s.core with fw := false } }
  { s with core := { s.core with fw := fw } }.focus me

/-- As withUser, for an action that may stop. -/
def State.withUserRes (s : State) (n : Nat) (f : State → Res) : Res :=
  let me := s.core.num
  let s := s.focus n
  let fw := s.core.fw
  match f { s with core := { s.core with fw := false } } with
  | .next s => .next ({ s with core := { s.core with fw := fw } }.focus me)
  | r => r

def State.quadAt (s : State) (q : Nat) : Quad := (s.quads.find? fun k => k.num == q).getD (.reset q)

def State.setQuad (s : State) (q : Quad) : State := { s with quads := upsert Quad.num s.quads q }

def State.launchAt (s : State) (id : Nat) : Option Launch := s.launches.find? fun l => l.id == id

def State.setLaunch (s : State) (l : Launch) : State := { s with launches := upsert Launch.id s.launches l }

/-- The launch a core's hart belongs to. -/
def State.launchOf (s : State) (c : Core) : Option Launch :=
  match c.flight with
  | some f => s.launchAt f.launch
  | none => none

/-- The pod-wide tag of the core's launch; 0 without one. -/
def State.tagOf (s : State) (c : Core) : Nat :=
  match s.launchOf c with
  | some l => l.tag.toNat
  | none => 0

/-- The hart on a core, by its flight. -/
def Core.hartId (c : Core) : HartId := { flight := c.flight.getD { launch := 0, stage := 0, index := 0 }, k := c.num % 4 }

/-- Quad and die of a core (R11). -/
def Core.quadNum (c : Core) : Nat := c.num / 4
def Core.die (c : Core) : Nat := c.num / 256

/-! Scalar registers (R51). -/

def Core.file (c : Core) (fw : Bool) : Vector XReg 32 := if fw then c.fwX else c.x

/-- x r of a context; x0 reads zero, untagged. -/
def Core.readXOf (c : Core) (fw : Bool) (r : XName) : XReg :=
  if r = 0 then .zero else (c.file fw)[r.toNat]'(r.isLt)

/-- Write x r of a context; a write to x0 is discarded. -/
def Core.writeXOf (c : Core) (fw : Bool) (r : XName) (v : XReg) : Core :=
  if r = 0 then c
  else if fw then { c with fwX := c.fwX.set r.toNat v r.isLt } else { c with x := c.x.set r.toNat v r.isLt }

/-- x r of the context that runs. -/
def State.x (s : State) (r : XName) : XReg := s.core.readXOf s.core.fw r

def State.setX (s : State) (r : XName) (v : XReg) : State := { s with core := s.core.writeXOf s.core.fw r v }

/-- Write an untagged value (R155). -/
def State.putX (s : State) (r : XName) (v : Word) : State := s.setX r { val := v, tag := 0 }

/-- Tag of a base in slot k (R155). -/
def slotTag (k : BitVec 8) : BitVec 9 := 1#1 ++ k

def XReg.tagged (r : XReg) : Bool := r.tag.getLsbD 8
def XReg.slot (r : XReg) : BitVec 8 := r.tag.extractLsb' 0 8

/-! Time and cycles (R12, R68). -/

/-- Time passes before a step (log 8). -/
def State.tick (s : State) : State :=
  { s with time := s.time + BitVec.ofNat 64 (Config.elapsed s.free), free := s.free + 1 }

/-- The island of a core (R12). -/
def islandOf (core : Nat) : Nat := core / 256 * 32 + core / 4 % 64 / 2

def State.islandAt (s : State) (k : Nat) : Island :=
  (s.islands.find? fun i => i.num == k).getD
    { num := k, mhz := 2000, setMhz := 2000, throttled := false, baseTick := 0, baseCycle := 0 }

/-- Core cycles counted so far on the island of a core. -/
def State.cycle (s : State) (core : Nat) : Nat :=
  let i := s.islandAt (islandOf core)
  i.baseCycle + (s.time - i.baseTick).toNat * i.mhz / 1000

/-! The program counter (R76, R77, R79). -/

def lineBase (pc : Word) : Word := pc &&& ~~~ 0x3F#64
def slotOf (pc : Word) : Nat := (pc.extractLsb' 1 5).toNat

def Core.curPc (c : Core) : Word := if c.fw then c.fwPc else c.pc
def Core.curLine (c : Core) : Option LineEntry := if c.fw then c.fwLine else c.line

/-- Head count of the line control is in. -/
def Core.heads? (c : Core) : Nat :=
  match c.curLine with
  | some e => lineHeads e.halves
  | none => 31

/-- The PC that sequential flow reaches (R77). -/
def Core.seqPc (c : Core) : Word :=
  if slotOf c.curPc < c.heads? then c.curPc + 2 else lineBase c.curPc + 66

/-- Move the PC; `enter` ends the line entry, so that the next head is fetched anew (R79). -/
def Core.goto (c : Core) (pc : Word) (enter : Bool) : Core :=
  if c.fw then { c with fwPc := pc, fwLine := if enter then none else c.fwLine }
  else { c with pc := pc, line := if enter then none else c.line }

/-! The rotating loop (R136 to R138). -/

/-- A head of the active loop's body. -/
def Core.inBody (c : Core) (pc : Word) : Bool :=
  c.loop.active && c.loop.start.toNat ≤ pc.toNat && pc.toNat < c.loop.stop.toNat

/-- Span in registers. -/
def Span.count : Span → Nat
  | .s1 => 1 | .s2 => 2 | .s4 => 4 | .s8 => 8

/-- Element width in bytes. -/
def Ew.bytes : Ew → Nat
  | .e8 => 1 | .e16 => 2 | .e32 => 4 | .e64 => 8

/-- Gates of iteration j (R137): gk is 1 for k up to min(S, 7) when k <= j <= k + trip - 1; g0 is 1. -/
def loopGates (j trip stages : Nat) : BitVec 8 :=
  BitVec.ofNat 8 (((List.range 8).map fun k =>
    if k = 0 ∨ (k ≤ min stages 7 ∧ k ≤ j ∧ j ≤ k + trip - 1) then 2 ^ k else 0).sum)

/-- The end of an iteration (R137): the core afterwards, its PC included. Control comes to the end PC by a taken transfer or by
sequential flow, which enters a line only when it leaves one (R79). -/
def Core.iterationEnd (c : Core) (taken : Bool) : Core :=
  let rot := c.ctl.rot + BitVec.ofNat 4 (Span.count c.ctl.span)
  if c.loop.j = c.loop.n then
    { c with ctl := { c.ctl with rot := rot, gates := 1 }, loop := { c.loop with active := false } }.goto c.loop.stop
      (taken || lineBase c.loop.stop != lineBase c.curPc)
  else
    let j := c.loop.j + 1
    { c with ctl := { c.ctl with rot := rot, gates := loopGates j.toNat c.loop.trip.toNat (c.loop.stages.toNat + 1) },
             loop := { c.loop with j := j } }.goto c.loop.start true

/-- Control reaches pc after a head of the running context. `taken`: by a taken transfer, which enters a line
(R79); sequential flow enters one when it leaves the line. The Bool says that the loop's branch was executed. -/
def Core.arrive (c : Core) (pc : Word) (taken : Bool) : Core × Bool :=
  let c := { c with heads := if c.fw then c.heads else c.heads + 1, tested := if c.fw then c.tested else false }
  if c.loop.active && pc == c.loop.stop && (!taken || c.inBody c.curPc) then (c.iterationEnd taken, true)
  else
    let ends := taken && c.inBody c.curPc && !c.inBody pc
    let c := { c with loop := if ends then { c.loop with active := false } else c.loop }
    (c.goto pc (taken || lineBase pc != lineBase c.curPc), false)

/-! The reel (R24 to R27). -/

def bitAt (k : Nat) : BitVec 4 := BitVec.ofNat 4 (2 ^ k)

/-- The core is attached to its quad's reel. -/
def State.attached (s : State) (n : Nat) : Bool := (s.quadAt (n / 4)).attached.getLsbD (n % 4)

/-- The lowest-numbered attached core within the quad (R25); 0 when none is. -/
def pilotOf (a : BitVec 4) : Nat :=
  if a.getLsbD 0 then 0 else if a.getLsbD 1 then 1 else if a.getLsbD 2 then 2 else if a.getLsbD 3 then 3 else 0

/-- Cores of a quad's attached set, within the package. -/
def Quad.attachedCores (q : Quad) : List Nat :=
  ((List.range 4).filter fun i => q.attached.getLsbD i).map fun i => 4 * q.num + i

/-- The last line that the reel entered at or before a head. -/
def Reel.lineBy (r : Reel) (h : Nat) : Option (Nat × LineEntry) := (r.lines.filter fun e => e.1 ≤ h).getLast?

/-- Forget the transfers that every attached core has executed and the lines that none is in or has still to enter. -/
def State.trimReel (s : State) (q : Nat) : State :=
  let k := s.quadAt q
  let heads := (k.attachedCores.map fun n => (s.coreAt n).heads).foldl min k.reel.led
  s.setQuad { k with reel := { k.reel with
    path := k.reel.path.filter (fun p => heads < p.1),
    lines := (k.reel.lineBy heads).toList ++ k.reel.lines.filter fun e => heads < e.1 } }

/-- The fork of core n: it has executed a transfer that the pilot has not reached. -/
def State.forkOf (s : State) (n : Nat) : Option Word :=
  ((s.quadAt (n / 4)).reel.forks.find? fun f => f.1 == n % 4).map fun f => f.2

/-- Core n stands where the pilot's reel stands. -/
def State.dropFork (s : State) (n : Nat) : State :=
  let q := s.quadAt (n / 4)
  s.setQuad { q with reel := { q.reel with forks := q.reel.forks.filter fun f => f.1 != n % 4 } }

/-- A core leaves the attached set; a transfer it has executed ahead of the pilot is its own. -/
def State.dropAttached (s : State) (n : Nat) : State :=
  let q := s.quadAt (n / 4)
  (s.setQuad { q with attached := q.attached &&& ~~~ bitAt (n % 4) }).dropFork n

/-- What the pilot's head h, its PC afterwards and the PC of sequential flow there mean for another attached core (R25): a
core that has executed that head and stands, or went on, elsewhere is cut loose. A core that took a transfer of its own at
an earlier head, which was none of the pilot's, is cut loose unless it stands where sequential flow leads. -/
def State.compareTo (s : State) (h : Nat) (pc seq : Word) (xfer : Bool) (n : Nat) : State :=
  let d := s.coreAt n
  match s.forkOf n with
  | some own =>
    if h < d.heads then (if xfer && pc != seq then s.dropAttached n else s)
    else if d.pc = (if d.heads = h then pc else own) then s.dropFork n
    else s.dropAttached n
  | none => if h ≤ d.heads ∧ (xfer && pc != seq) then s.dropAttached n else s

/-- The pilot, core n, has issued its head number h: the reel goes on at its PC (R25). What the reel has issued beyond the
head is discarded when the pilot goes on elsewhere. -/
def State.lead (s : State) (n h : Nat) (seq : Word) (xfer : Bool) : State :=
  let q := s.quadAt (n / 4)
  let pc := (s.coreAt n).pc
  let path := if xfer then q.reel.path ++ [(h, pc)] else q.reel.path
  let lines := if xfer && pc != seq then q.reel.lines.filter fun e => e.1 < h else q.reel.lines
  let s := s.setQuad { q with reel := { q.reel with led := h, path := path, lines := lines } }
  (q.attachedCores.filter fun m => m != n).foldl (fun s m => s.compareTo h pc seq xfer m) s

/-- A pilot that stands ahead of what earlier pilots issued leads the reel to where it stands (R27). -/
def State.takeLead (s : State) (q : Nat) : State :=
  let k := s.quadAt q
  let n := 4 * q + pilotOf k.attached
  let c := s.coreAt n
  if k.attached = 0 ∨ c.heads ≤ k.reel.led then s
  else
    let own := s.forkOf n
    (s.dropFork n).lead n c.heads (own.getD c.pc) own.isSome

/-- Take a core off the attached set (R25, R27, R45). -/
def State.cutLoose (s : State) (n : Nat) : State := ((s.dropAttached n).takeLead (n / 4)).trimReel (n / 4)

/-- Core n has issued a head, after which sequential flow reaches `seq`; `xfer`: the head was a control transfer of R25, or
a trap. The pilot leads the reel. An attached core that reaches a head which the pilot has issued is cut loose when its PC
then differs from the pilot's; one that is ahead of the pilot and executes a transfer waits for the pilot there. -/
def State.reelStep (s : State) (n : Nat) (seq : Word) (xfer : Bool) : State :=
  let q := s.quadAt (n / 4)
  let c := s.coreAt n
  if !q.attached.getLsbD (n % 4) then s
  else if c.heads ≤ q.reel.led then
    let there := ((q.reel.path.find? fun p => p.1 == c.heads).map fun p => p.2).getD seq
    if c.pc = there then s.trimReel (n / 4) else s.cutLoose n
  else if n % 4 = pilotOf q.attached then (s.lead n c.heads seq xfer).trimReel (n / 4)
  else if xfer then s.setQuad { q with reel := { q.reel with forks := (n % 4, seq) :: q.reel.forks } }
  else s

/-- The focused core's instruction ends and control reaches pc. `reel`: the instruction is a control transfer
of R25. -/
def State.arrive (s : State) (pc : Word) (taken reel : Bool) : State :=
  let seq := s.core.seqPc
  let r := s.core.arrive pc taken
  let s1 : State := { s with core := r.1 }
  if s.core.fw then s1 else s1.reelStep s.core.num seq (r.2 || reel)

/-- The instruction ends and the next head in sequence follows. -/
def State.advance (s : State) : State := s.arrive s.core.seqPc false false

/-- The instruction ends with a taken control transfer. -/
def State.jump (s : State) (pc : Word) : State := s.arrive pc true true

/-! Regions and extents (R150, R159, R160). -/

inductive Region where
  | dram | table | scratch | control | hole
deriving DecidableEq, Repr

/-- The region of an address; the top 16 MiB of each die hold its extent table. -/
def region (a : Nat) : Region :=
  if a < 4 * Config.dieBytes then (if a % Config.dieBytes < Config.dieUser then .dram else .table)
  else if Config.scratchBase ≤ a ∧ a < Config.scratchBase + Config.cores * Config.scratchBytes then .scratch
  else if Config.controlBase ≤ a ∧ a < Config.controlEnd then .control
  else .hole

/-- Go on when [a, a + n) lies in memory; a data access elsewhere stops (log 17). -/
def guardAddr (a n : Nat) (k : Res) : Res :=
  match region a, region (a + (n - 1)) with
  | .dram, .dram | .dram, .table | .table, .dram | .table, .table => k
  | .scratch, .scratch => k
  | .control, _ => .refused .controlWindow
  | _, .control => .refused .controlWindow
  | _, _ => .fault .unmapped

def State.extentAt (s : State) (e : Nat) : Extent :=
  (s.extents.find? fun x => x.num == e).getD
    { num := e, world := 0, key := 0, trace := 0, sealed := false, pin := false }

def State.setExtent (s : State) (e : Extent) : State := { s with extents := upsert Extent.num s.extents e }

/-- Someone gains write permission to a line at a: all trace bits of its extent are set (R160). -/
def State.touch (s : State) (a : Nat) : State :=
  match region a with
  | .dram | .table => s.setExtent { s.extentAt (a / Config.extentBytes) with trace := 0xF }
  | _ => s

/-! Keys and the extent table in memory (R150, R159, R298). -/

/-- Key material of a key slot; zero until firmware loads some. -/
def State.material (s : State) (key : BitVec 6) : BitVec 512 :=
  ((s.keyMat.find? fun k => k.1 == key).map fun k => k.2).getD 0

/-- The bytes of the sector at a, written under one key, as they read under another (R298, log 14, log 30). -/
def Mem.review (m : Mem) (old new : BitVec 512) (a : Nat) : Mem :=
  m.setMany (place a (xtsDecrypt new (a / 32) (xtsEncrypt old (a / 32) (m.bytes a 32))))

/-- The memory of extent e, written under one key, reads under another from now on. -/
def State.review (s : State) (e : Nat) (old new : BitVec 512) : State :=
  if old = new then s
  else { s with mem := (List.range (Config.extentBytes / 32)).foldl (fun (m : Mem) j =>
    m.review old new (e * Config.extentBytes + 32 * j)) s.mem }

/-- Write an extent's entry: its memory reads under the key that the entry names. -/
def State.markExtent (s : State) (e : Extent) : State :=
  (s.review e.num (s.material (s.extentAt e.num).key) (s.material e.key)).setExtent e

/-- The entry's 64 bits; reserved bits are zero. -/
def Extent.bits (e : Extent) : Word :=
  0#6 ++ e.world ++ e.key ++ e.trace ++ BitVec.ofBool e.sealed ++ BitVec.ofBool e.pin ++ 0#36

/-- The entry with the fields of 64 bits written to it. -/
def Extent.ofBits (num : Nat) (b : Word) : Extent :=
  { num := num, world := b.extractLsb' 48 10, key := b.extractLsb' 42 6, trace := b.extractLsb' 38 4,
    sealed := b.getLsbD 37, pin := b.getLsbD 36 }

/-- Number of the extent whose entry holds a byte of a die's extent table. -/
def entryAt (a : Nat) : Nat :=
  a / Config.dieBytes * (Config.dieBytes / Config.extentBytes) + (a % Config.dieBytes - Config.dieUser) / 8

/-- A byte of package memory, the extent tables included. -/
def State.byteAt (s : State) (a : Nat) : Byte :=
  match region a with
  | .table => (s.extentAt (entryAt a)).bits.extractLsb' (8 * (a % 8)) 8
  | _ => s.mem.get a

/-- The n-byte value at a. -/
def State.readAt (s : State) (a n : Nat) : Nat :=
  match region a, region (a + (n - 1)) with
  | .table, _ | _, .table => ofBytes ((List.range n).map fun k => s.byteAt (a + k))
  | _, _ => s.mem.read a n

/-- Write one byte of an extent table. -/
def State.putEntry (s : State) (w : Nat × Byte) : State :=
  let e := entryAt w.1
  let old := (s.extentAt e).bits
  s.markExtent (Extent.ofBits e ((old &&& ~~~ (0xFF#64 <<< (8 * (w.1 % 8)))) |||
    (w.2.setWidth 64 <<< (8 * (w.1 % 8)))))

/-- Write one byte of package memory. -/
def State.putByte (s : State) (w : Nat × Byte) : State :=
  match region w.1 with
  | .table => s.putEntry w
  | _ => { s with mem := s.mem.set w.1 w.2 }

/-- Write bytes of package memory, first to last. -/
def State.putBytes (s : State) (ws : List (Nat × Byte)) : State :=
  if ws.any fun w => region w.1 == .table then ws.foldl State.putByte s else { s with mem := s.mem.setMany ws }

/-! The ordering machine (R172 to R179). -/

def State.clockAt (s : State) (line : Nat) : LineClock :=
  (s.lines.find? fun l => l.line == line).getD { line := line, wts := 0, rts := 0 }

def State.setClock (s : State) (l : LineClock) : State := { s with lines := upsert LineClock.line s.lines l }

/-- The read lease end of a version (R172); none when the version is gone. -/
def State.versionRts (s : State) (h : HeldRef) : Option Nat :=
  let l := s.clockAt h.line
  if l.wts = h.wts then some l.rts
  else (s.old.find? fun v => v.line == h.line && v.wts == h.wts).map fun v => v.rts

/-- Some S stream holds the version. -/
def State.isHeld (s : State) (h : HeldRef) : Bool :=
  (s.cores.any fun c => c.sS.held.contains h || c.sF.held.contains h) || s.services.any fun st => st.held.contains h

/-- Drop the held versions whose lease ends below the stream's clock (R173). -/
def State.prune (s : State) (st : Stream) : Stream :=
  { st with held := st.held.filter fun h =>
      match s.versionRts h with
      | some r => st.pts ≤ r
      | none => false }

/-- Forget superseded versions that no stream holds. -/
def State.forget (s : State) : State :=
  { s with old := s.old.filter fun v => s.isHeld { line := v.line, wts := v.wts } }

/-- LoadCurrent's clocks (R174): the line's lease grows, and the stream's clock is the Nat. -/
def State.leaseLine (s : State) (pts line : Nat) : State × Nat :=
  let l := s.clockAt line
  let t := max pts l.wts
  ({ s.setClock { l with rts := max l.rts (t + Config.lease s.free % 65536) } with free := s.free + 1 }, t)

/-- Count a load of a tracked line (R49): its count and the tracking set, latest first, four lines. -/
def track (l : List (Nat × Nat)) (line : Nat) : Nat × List (Nat × Nat) :=
  let n := ((l.find? fun e => e.1 == line).map fun e => e.2 + 1).getD 1
  (n, ((line, n) :: l.filter fun e => e.1 != line).take 4)

/-- The bytes of a held version that R174's LoadHeld may return: the k-th version of the line, from 1, that the
stream holds with its clock within the lease. The inner none is the current version. -/
def State.heldAt (s : State) (st : Stream) (line k : Nat) : Option (Option (List Byte)) :=
  let ok := st.held.filter fun h => h.line == line && (match s.versionRts h with
    | some r => st.pts ≤ r
    | none => false)
  match k, ok[k - 1]? with
  | 0, _ => none
  | _, none => none
  | _, some h =>
    if (s.clockAt line).wts = h.wts then some none
    else (s.old.find? fun v => v.line == line && v.wts == h.wts).map fun v => some v.bytes

/-- An S stream's LoadCurrent of a line: it holds the version from then on (R173, R174). -/
def State.holdCurrent (s : State) (st : Stream) (line : Nat) : State × Stream :=
  let (s1, t) := s.leaseLine st.pts line
  let h : HeldRef := { line := line, wts := (s.clockAt line).wts }
  (s1, s1.prune { st with pts := t, held := if st.held.contains h then st.held else h :: st.held })

/-- A load of a line by an S stream (R173, R174, R179): the stream afterwards, and the bytes when they are not
the current version's. -/
def State.loadLine (s : State) (st : Stream) (line : Nat) : State × Stream × Option (List Byte) :=
  let (n, tr) := track st.track line
  let st := { st with track := tr }
  let spin := n % 64 == 0
  let past := match (st.held.filter fun h => h.line == line).filterMap fun h => s.versionRts h with
    | [] => st.pts
    | r :: rs => max st.pts (rs.foldl max r + 1)
  let st := if spin then { st with pts := past } else st
  match (if spin then none else s.heldAt st line s.pick.held) with
  | some bytes => (s, st, bytes)
  | none =>
    let (s1, st) := s.holdCurrent st line
    (s1, st, none)

/-- Bytes of a line of package memory. -/
def State.lineBytes (s : State) (line : Nat) : List Byte := (List.range 128).map fun k => s.byteAt (128 * line + k)

/-- Cores m and n have one L1: they are one core, or m's quad runs a fused stage (R37, R162). -/
def State.oneL1 (s : State) (m n : Nat) : Bool :=
  let c := s.coreAt m
  m == n || (m / 4 == n / 4 && (match s.launchOf c with
    | some l => ((l.stages[c.hartId.flight.stage]?).map fun st => st.fused).getD false
    | none => false))

/-- What was stored over the bytes of a code line is dirty in the L1 of core n, if in any (R161): that of the last core that stored there,
since what an earlier one left dirty has reached the shared cache (`State.takeLine`, the choice of log 18). -/
def State.dirtyIn (s : State) (n : Nat) (l : CodeLine) : Bool := l.core.all fun m => s.oneL1 n m

/-- Bytes that core n's L1 holds of a code line reach the shared cache. -/
def State.cleanLine (s : State) (n : Nat) (l : CodeLine) : CodeLine :=
  if s.dirtyIn n l then { l with back := true } else l

/-- Core n's L1 is written back (R162, R296). -/
def State.cleanL1 (s : State) (n : Nat) : State := { s with code := s.code.map (s.cleanLine n) }

/-- A store by `who` takes a line from every other L1: what is dirty there reaches the shared cache (R161, log 18). -/
def State.takeLine (s : State) (who : Option Nat) (line : Nat) (l : CodeLine) : CodeLine :=
  if l.base / 128 = line ∧ !(who.any fun n => s.dirtyIn n l) then { l with back := true } else l

/-- Keep what a code line held before a store by core `who`, for entries that fetch it without the sequence of R170. -/
def State.snapCode (s : State) (who : Option Nat) (line : Nat) : State :=
  if (s.extentAt (128 * line / Config.extentBytes)).pin && region (128 * line) == .dram then
    { s with code := { base := 128 * line, bytes := s.mem.bytes (128 * line) 64, core := who, back := false } ::
        { base := 128 * line + 64, bytes := s.mem.bytes (128 * line + 64) 64, core := who, back := false } ::
        s.code.map (s.takeLine who line) }
  else s

/-- Store or Atomic (R175) on one line with the writer's clock: a new version, the bytes written, the extent
traced. The Nat is the writer's clock and the new version's write time. `who` is the core whose hart or engine writes. -/
def State.storeLine (s : State) (who : Option Nat) (pts line : Nat) (bytes : List (Nat × Byte)) : State × Nat :=
  let l := s.clockAt line
  let t := max pts (l.rts + 1)
  let s := if s.isHeld { line := line, wts := l.wts } then
      { s with old := { line := line, wts := l.wts, rts := l.rts, bytes := s.lineBytes line } :: s.old }
    else s
  let s := s.snapCode who line
  (((s.setClock { line := line, wts := t, rts := t }).touch (128 * line)).putBytes bytes, t)

/-- Store or Atomic of the bytes at a, which an unaligned access of firmware takes into the next line (R158). -/
def State.storeCells (s : State) (who : Option Nat) (pts a : Nat) (bytes : List (Nat × Byte)) : State × Nat :=
  if bytes.all fun w => w.1 / 128 == a / 128 then s.storeLine who pts (a / 128) bytes
  else
    let r := s.storeLine who pts (a / 128) (bytes.filter fun w => w.1 / 128 == a / 128)
    r.1.storeLine who r.2 (a / 128 + 1) (bytes.filter fun w => w.1 / 128 != a / 128)

/-- A load of n bytes at a by an S stream: the stream afterwards, and the value. -/
def State.loadScalar (s : State) (st : Stream) (a n : Nat) : State × Stream × Nat :=
  let r := s.loadLine st (a / 128)
  if a % 128 + n ≤ 128 then
    (r.1, r.2.1, match r.2.2 with
      | some bytes => ofBytes ((bytes.drop (a % 128)).take n)
      | none => s.readAt a n)
  else
    let q := r.1.loadLine r.2.1 (a / 128 + 1)
    let both := r.2.2.getD (s.lineBytes (a / 128)) ++ q.2.2.getD (s.lineBytes (a / 128 + 1))
    (q.1, q.2.1, ofBytes ((both.drop (a % 128)).take n))

/-- What an S stream holds of a line after it wrote the version (R175). -/
def Stream.wrote (st : Stream) (line t : Nat) : Stream :=
  { st with pts := t, held := { line := line, wts := t } :: st.held.filter fun h => h.line != line }

/-- Change the harvest in progress. -/
def Launch.modHarvest (l : Launch) (f : Harvest → Harvest) : Launch :=
  { l with harvests := l.harvests.modify (l.harvests.length - 1) f }

/-- A sealed extent is copied for the harvests in progress that list it, and its seal clears. -/
def State.unseal (s : State) (e : Nat) : State :=
  let copy (h : Harvest) : Harvest :=
    if h.manifest.contains e && !h.copies.any fun c => c.1 == e then
      { h with copies := (e, s.mem.slice (e * Config.extentBytes) Config.extentBytes 0) :: h.copies }
    else h
  let s1 : State := { s with launches := s.launches.map fun l => if l.busy then l.modHarvest copy else l }
  s1.setExtent { s1.extentAt e with sealed := false }

/-- The extent of a line is copied before firmware or a rollback writes to it (R284). -/
def State.openLine (s : State) (line : Nat) : State :=
  let e := 128 * line / Config.extentBytes
  if region (128 * line) == .dram && (s.extentAt e).sealed then s.unseal e else s

/-- Firmware stores bytes of one line, by the stream of the first service core (R15, R158, R175, log 54). -/
def State.loadLineBytes (s : State) (a : Nat) (bytes : List Byte) : State :=
  let st := s.services.headD .start
  let r := (s.openLine (a / 128)).storeLine none st.pts (a / 128) (place a bytes)
  ({ r.1 with services := r.1.services.set 0 (r.1.prune (st.wrote (a / 128) r.2)) } : State).forget

/-! Engine ownership (R161, R183, R184). -/

def Command.op (c : Command) : BitVec 8 := c.bits.extractLsb' 0 8
def Command.dslot (c : Command) : BitVec 8 := c.bits.extractLsb' 8 8
def Command.sslot (c : Command) : BitVec 8 := c.bits.extractLsb' 16 8
def Command.reg (c : Command) : Nat := (c.bits.extractLsb' 24 6).toNat
def Command.ty (c : Command) : Bool := c.bits.getLsbD 30
def Command.count (c : Command) : Nat := (c.bits.extractLsb' 32 32).toNat
def Command.vtag (c : Command) : Word := c.bits.extractLsb' 256 64
def Command.pat (c : Command) : Word := c.bits.extractLsb' 192 64

/-- Bytes of a COPY or FILL destination; 0 for the others. -/
def Command.span (c : Command) : Nat := if c.op = 1 ∨ c.op = 2 then c.count else 0

/-- The command owns the line: a DRAM line of its destination whose piece it has not stored. -/
def Command.owns (c : Command) (line : Nat) : Bool :=
  c.dstPkg.isNone && region c.dst == .dram && c.dst / 128 ≤ line && 128 * line < c.dst + c.span &&
    !c.done.contains (line - c.dst / 128)

/-- Some command owns the line. -/
def State.owned (s : State) (line : Nat) : Bool := s.cores.any fun c => c.cmds.any fun k => k.owns line

/-! Register stores and their ECC (R61, R149). -/

/-- A write of whole granules clears their poison. -/
def clearEcc (l : List EccError) (store : StoreKind) (ws : List (Nat × Byte)) : List EccError :=
  l.filter fun e => !(e.store == store && (List.range 8).all fun i => ws.any fun w => w.1 == 8 * e.granule + i)

def Core.writeVec (c : Core) (ws : List (Nat × Byte)) : Core :=
  { c with vec := c.vec.setMany ws, ecc := clearEcc c.ecc .vector ws }
def Core.writeTiles (c : Core) (ws : List (Nat × Byte)) : Core :=
  { c with tiles := c.tiles.setMany ws, ecc := clearEcc c.ecc .tile ws }
def Core.writeAcc (c : Core) (ws : List (Nat × Byte)) : Core :=
  { c with acc := c.acc.setMany ws, ecc := clearEcc c.ecc .acc ws }

/-! Accesses (R177, R178). -/

def signExt (n : Nat) (w : Nat) : Word := if w < 2 ^ (8 * n - 1) then BitVec.ofNat 64 w else BitVec.ofInt 64 (w - 2 ^ (8 * n) : Int)

/-- Result of an atomic operation of n bytes (R85, R325). -/
def amoValue (op : AmoOp) (n old b : Nat) : Nat :=
  let m := 2 ^ (8 * n)
  let neg (v : Nat) : Bool := m / 2 ≤ v
  let less (u v : Nat) : Bool := if neg u = neg v then u < v else neg u
  match op with
  | .add => (old + b) % m
  | .and => old &&& b
  | .or => old ||| b
  | .xor => old ^^^ b
  | .min => if less b old then b else old
  | .max => if less old b then b else old
  | .minu => Nat.min old b
  | .maxu => Nat.max old b
  | .swap => b

/-- Entries that touch one line together, in order of the first entry of each line (R178). -/
def byLine {α : Type} : Nat → List (Nat × α) → List (List (Nat × α))
  | 0, _ => []
  | _, [] => []
  | n + 1, (a, v) :: r =>
    ((a, v) :: r.filter fun e => e.1 / 128 == a / 128) :: byLine n (r.filter fun e => e.1 / 128 != a / 128)

def pieces {α : Type} (l : List (Nat × α)) : List (List (Nat × α)) := byLine l.length l

/-- Lines that n bytes touch: one, but for an unaligned access of firmware, which R158 does not check. -/
def linesOf (a n : Nat) : List Nat := if a % 128 + n ≤ 128 then [a / 128] else [a / 128, a / 128 + 1]

/-- The lines that a piece touches. -/
def AccOp.lines : AccOp → List Nat
  | .loadX _ a n _ | .amoX _ a n _ _ | .casX _ a n _ _ | .amoV a n _ _ _ => linesOf a n
  | .store l => (l.map fun w => w.1 / 128).dedup
  | .loadV l | .loadT l => (l.map fun p => p.1 / 128).dedup
  | .late _ => []

/-- An instruction that the scalar path has gone past. -/
def AccOp.late? : AccOp → Option LateOp
  | .late l => some l
  | _ => none

/-- Instructions that wait in a core's vector queue, in order (R33). -/
def Core.lates (c : Core) : List LateOp := c.vq.filterMap fun a => a.op.late?

def AccOp.isLoad : AccOp → Bool
  | .store _ => false
  | _ => true

def AccOp.writes : AccOp → Bool
  | .store _ | .amoX .. | .casX .. | .amoV .. => true
  | _ => false

/-- The piece may not be performed yet: a line of it is owned (R184), or it would write a sealed extent (R284). An instruction that
waits in the queue executes by a step of its own. -/
def State.blocked (s : State) (op : AccOp) : Bool :=
  op.late?.isSome || op.lines.any fun line => s.owned line ||
    (op.writes && (region (128 * line) == .dram) && (s.extentAt (128 * line / Config.extentBytes)).sealed)

def Core.stream (c : Core) (fw : Bool) : Stream := if fw then c.sF else c.sS
def Core.setStream (c : Core) (fw : Bool) (st : Stream) : Core := if fw then { c with sF := st } else { c with sS := st }

/-- The bytes that core c's V stream has loaded ahead for its next piece, when that piece is a load of the line (R180). -/
def Core.aheadFor (c : Core) (line : Nat) : Option (List Byte) :=
  match c.ahead with
  | (l, bytes) :: _ => if l = line then some bytes else none
  | [] => none

/-- What the V stream has loaded ahead is loaded anew. -/
def Core.dropAhead (c : Core) : Core := { c with ahead := [] }
def State.loadAgain (s : State) : State := { s with core := s.core.dropAhead }

/-- A request of a core's world moves sectors of 32 bytes at the core's port, and they are taken from the bucket of the world on the
die; while that is empty the request waits, and its world is active (R221). The wait is timing (log 8). -/
def State.traffic (s : State) (core sectors : Nat) : State :=
  let c := s.coreAt core
  let die := c.die
  let w := c.ctl.world
  let b := (s.buckets.find? fun b => b.die == die && b.world == w).getD { die := die, world := w, tokens := 0, active := false }
  let b1 : Bucket := if b.tokens ≤ 0 then { b with active := true }
    else { b with tokens := max 0 (b.tokens - 32 * sectors), active := false }
  if Config.cores ≤ core then s
  else { s with buckets := b1 :: s.buckets.filter fun b => !(b.die == die && b.world == w) }

/-- A vector access or an engine of core n moves the bytes at some addresses, which no L1 holds (R161): those of DRAM cross the core's
port in whole sectors (R221). -/
def State.spend (s : State) (n : Nat) (addrs : List Nat) : State :=
  match ((addrs.filter fun a => region a == .dram || region a == .table).map fun a => a / 32).dedup with
  | [] => s
  | l => s.traffic n l.length

/-- Perform a piece of core n's V stream that loads a line, from what it has loaded ahead or from the current version (R174);
`write` puts the loaded bytes, by address, into the core. -/
def State.loadVector (s : State) (n line : Nat) (write : Core → (Nat → Byte) → Core) : State :=
  let c := s.coreAt n
  match c.aheadFor line with
  | some bytes => s.setCore (write { c with ahead := c.ahead.tail } fun a => bytes.getD (a % 128) 0)
  | none =>
    let (s1, t) := s.leaseLine c.sV.pts line
    s1.setCore (write { c with sV := { c.sV with pts := t }, ahead := [] } s.byteAt)

/-- Perform one scalar or V piece of core n (R174, R175, R178). -/
def State.perform (s : State) (n : Nat) (fw vector : Bool) (op : AccOp) : State :=
  let c := s.coreAt n
  match op with
  | .loadX d a size sx =>
    let (s1, st, w) := s.loadScalar (c.stream fw) a size
    s1.setCore ((c.setStream fw st).writeXOf fw d { val := if sx then signExt size w else BitVec.ofNat 64 w, tag := 0 })
  | .store [] => s
  | .store ((a, v) :: ws) =>
    let pts := if vector then c.sV.pts else (c.stream fw).pts
    let (s1, t) := (if vector then s.spend n (((a, v) :: ws).map fun w => w.1) else s).storeCells (some n) pts a ((a, v) :: ws)
    if vector then s1.setCore { c with sV := { c.sV with pts := t }, ahead := [] }
    else (s1.setCore (c.setStream fw (s1.prune ((c.stream fw).wrote (a / 128) t)))).forget
  | .amoX d a size op b =>
    let w := s.readAt a size
    let (s1, t) := s.storeCells (some n) (c.stream fw).pts a (cells a size (amoValue op size w (b.toNat % 2 ^ (8 * size))))
    (s1.setCore ((c.setStream fw (s1.prune ((c.stream fw).wrote (a / 128) t))).writeXOf fw d { val := signExt size w, tag := 0 })).forget
  | .casX d a size old new =>
    let w := s.readAt a size
    let v := if w = old.toNat % 2 ^ (8 * size) then new.toNat else w
    let (s1, t) := s.storeCells (some n) (c.stream fw).pts a (cells a size v)
    (s1.setCore ((c.setStream fw (s1.prune ((c.stream fw).wrote (a / 128) t))).writeXOf fw d { val := signExt size w, tag := 0 })).forget
  | .loadV [] => s
  | .loadV ((a, k) :: ws) =>
    (s.spend n (((a, k) :: ws).map fun p => p.1)).loadVector n (a / 128) fun c byte => c.writeVec (((a, k) :: ws).map fun (p : Nat × Nat) => (p.2, byte p.1))
  | .loadT [] => s
  | .loadT ((a, k) :: ws) =>
    s.loadVector n (a / 128) fun c byte => c.writeTiles (((a, k) :: ws).map fun (p : Nat × Nat) => (p.2, byte p.1))
  | .amoV a size k op b =>
    let w := s.readAt a size
    let (s1, t) := (s.spend n [a, a + (size - 1)]).storeCells (some n) c.sV.pts a (cells a size (amoValue op size w (b.toNat % 2 ^ (8 * size))))
    s1.setCore ({ c with sV := { c.sV with pts := t }, ahead := [] }.writeVec (cells k size w))
  | .late _ => s

/-- Perform up to k oldest pieces of core n's S stream, of its firmware's when fw, while none is blocked. -/
def State.runS (s : State) (n : Nat) (fw : Bool) : Nat → State
  | 0 => s
  | k + 1 =>
    let c := s.coreAt n
    match (if fw then c.fq else c.sq) with
    | [] => s
    | a :: rest =>
      if s.blocked a.op then s
      else ((s.setCore (if fw then { c with fq := rest } else { c with sq := rest })).perform n fw false a.op).runS n fw k

/-- A piece would write a group of a register for which a reply has still to come (R60, R259). -/
def Core.awaited (c : Core) : AccOp → Bool
  | .loadV ps => ps.any fun p => c.waits.any fun w => match w.dest with
      | .group r g _ => r == p.2 / 384 && g == p.2 % 384 / 64
      | .xreg .. => false
  | _ => false

/-- Perform up to k oldest pieces of core n's V stream. -/
def State.runV (s : State) (n : Nat) : Nat → State
  | 0 => s
  | k + 1 =>
    let c := s.coreAt n
    match c.vq with
    | [] => s
    | a :: rest =>
      if s.blocked a.op || c.awaited a.op then s
      else ((s.setCore { c with vq := rest }).perform n false true a.op).runV n k

/-- The next place in the hart's program order. -/
def State.bump (s : State) : State := { s with core := { s.core with stamp := s.core.stamp + 1 } }

/-- The line lies under a revoked key (R300). -/
def State.revokedLine (s : State) (line : Nat) : Bool :=
  region (128 * line) == .dram && !s.live.getLsbD (s.extentAt (128 * line / Config.extentBytes)).key.toNat

/-- The V stream of core n loads a line ahead of the instruction that will use it (R180, R276). -/
def State.readAhead (s : State) (n line : Nat) : State :=
  let c := s.coreAt n
  if Config.cores ≤ n ∨ c.run ≠ .running ∨ c.vq ≠ [] ∨ s.owned line ∨ s.revokedLine line then s
  else
    let r := s.leaseLine c.sV.pts line
    r.1.setCore { c with sV := { c.sV with pts := r.2 }, ahead := c.ahead ++ [(line, s.lineBytes line)] }

/-- Issue a scalar access of the running context; it is performed at once unless it is blocked or the machine
leaves it for later. -/
def State.issueS (s : State) (op : AccOp) : State :=
  let a : Acc := { stamp := s.core.stamp, sluice := false, op := op }
  let fw := s.core.fw
  let s := s.bump
  let c := s.core
  let s := { s with core := if fw then { c with fq := c.fq ++ [a] } else { c with sq := c.sq ++ [a] } }
  if s.pick.deferS then s
  else s.runS s.core.num fw (if fw then s.core.fq.length else s.core.sq.length)

/-- Issue the pieces of a vector access, in order; `sluice`: it is a VLD or a VLDS, which holds a sluice (R31). -/
def State.issueV (s : State) (sluice : Bool) (ops : List AccOp) : State :=
  let n := s.core.stamp
  let s := s.bump
  let s := { s with core := { s.core with
    vq := s.core.vq ++ ops.map fun op => { stamp := n, sluice := sluice, op := op } } }
  if s.pick.deferV then s else s.runV s.core.num s.core.vq.length

/-- Number of pieces up to the last one whose data a register waits for. -/
def lastLoad : List Acc → Nat
  | [] => 0
  | a :: r => if a.op.isLoad || lastLoad r != 0 then lastLoad r + 1 else 0

/-- Drain of core n (R33): every earlier vector instruction has executed. -/
def State.drainCore (s : State) (n : Nat) : State := s.runV n (lastLoad (s.coreAt n).vq)
def Core.drained (c : Core) : Bool := lastLoad c.vq == 0

/-- Go on after the drain; while a piece is blocked the instruction waits. -/
def State.afterDrain (s : State) (k : State → Res) : Res :=
  let s := s.drainCore s.core.num
  if s.core.drained then k s else .next s

/-- Perform every access of core n that is not blocked. -/
def State.settleS (s : State) (n : Nat) : State := s.runS n false (s.coreAt n).sq.length
def State.settleV (s : State) (n : Nat) : State := s.runV n (s.coreAt n).vq.length
def State.settle (s : State) (n : Nat) : State := (s.settleS n).settleV n

/-- The running context's S accesses that are not blocked are performed. -/
def State.pushS (s : State) : State :=
  s.runS s.core.num s.core.fw (if s.core.fw then s.core.fq.length else s.core.sq.length)

/-- Every earlier S access of the running context is performed, and every V access of the core. -/
def State.doneS (s : State) : Bool := if s.core.fw then s.core.fq.isEmpty else s.core.sq.isEmpty
def State.doneV (s : State) : Bool := s.core.vq.isEmpty

/-- Raise a stream's clock. -/
def Stream.raise (st : Stream) (t : Nat) : Stream := { st with pts := max st.pts t }

/-- Raise both clocks of core n (R185 to R187). -/
def State.raiseClocks (s : State) (n t : Nat) : State :=
  let c := s.coreAt n
  s.setCore { c with sS := s.prune (c.sS.raise t), sV := c.sV.raise t, ahead := [] }

/-! The status ring (R307, R309). -/

/-- The 32 bytes of a status entry. -/
def Status.bytes (e : Status) : List Byte :=
  toBytes 8 e.seq.toNat ++ toBytes 4 e.status.toNat ++ toBytes 2 e.kind.toNat ++ [0, 0] ++
    toBytes 4 e.launch.toNat ++ toBytes 4 e.count.toNat ++ toBytes 8 e.value.toNat

/-- The ring has room (R307). -/
def HostPort.room (p : HostPort) : Bool :=
  p.en && (p.stail.toNat + 1) % 2 ^ p.ssize.toNat != p.shead.toNat % 2 ^ p.ssize.toNat

/-- Write held posts to the ring while it has room. -/
def State.flushPosts (s : State) : Nat → State
  | 0 => s
  | k + 1 =>
    match s.posts with
    | [] => s
    | e :: rest =>
      if s.port.room then
        { s with posts := rest,
                 host := s.host.setMany (place (s.port.sbase.toNat + 32 * (s.port.stail.toNat % 2 ^ s.port.ssize.toNat)) e.bytes),
                 port := { s.port with stail := BitVec.ofNat 32 ((s.port.stail.toNat + 1) % 2 ^ s.port.ssize.toNat),
                                       msix := s.port.msix ++ [0] } }.flushPosts k
      else s

/-- Post a status entry; it is held while the ring is full or stopped. -/
def State.post (s : State) (e : Status) : State :=
  let s := { s with posts := s.posts ++ [e] }
  s.flushPosts s.posts.length

/-- Firmware posts on a launch's status ring (R309). -/
def State.postLaunch (s : State) (launch : Nat) (kind : BitVec 16) (status : BitVec 32) (value : Word) : State :=
  s.post { seq := 0, status := status, kind := kind, launch := BitVec.ofNat 32 launch, count := 0, value := value }

/-! Barriers (R43, R44, R186, R330). -/

/-- Instance of a scope, within the stage, that a core's hart lies in (R17): a hart and a flight keep theirs
wherever they run. -/
def Core.inst (c : Core) : Scope → Nat
  | .core => 4 * c.hartId.flight.index + c.num % 4
  | .quad => c.hartId.flight.index
  | .die => c.num / 256
  | .pkg => 0
  | .pod => 0

/-- The harts of a flight that are neither exited nor parked, on a quad. -/
def State.hartsOn (s : State) (f : FlightId) (q : Nat) : List HartId :=
  (List.range 4).filterMap fun k =>
    let c := s.coreAt (4 * q + k)
    if c.flight == some f && c.run != .exited && c.run != .parked then some { flight := f, k := k } else none

/-- The harts of a flight that the ladder has saved, those of a die when one is given; they stay participants (R233). -/
def State.hartsSaved (s : State) (f : FlightId) (die : Option Nat) : List HartId :=
  s.saves.filterMap fun v =>
    if v.flight == f && v.core.run != .exited && v.core.run != .parked && (die.all fun d => v.core.die == d) then
      some { flight := f, k := v.core.num % 4 }
    else none

/-- The harts of a stage that are on quads or that the ladder has saved, those of a die when one is given. -/
def State.stageHarts (s : State) (launch stage : Nat) (die : Option Nat) : List HartId :=
  (s.flights.filter fun g => g.id.launch == launch && g.id.stage == stage).flatMap fun g =>
    match g.place with
    | .quad q => if die.all fun d => q / 64 == d then s.hartsOn g.id q ++ s.hartsSaved g.id none else []
    | .saved => s.hartsSaved g.id die
    | _ => []

/-- Participants of a scope for the hart of core c (R43). -/
def State.participants (s : State) (c : Core) (scope : Scope) : List HartId :=
  match c.flight with
  | none => [c.hartId]
  | some f =>
    match scope with
    | .core => [c.hartId]
    | .quad => s.hartsOn f c.quadNum ++ s.hartsSaved f none
    | _ => s.stageHarts f.launch f.stage (if scope == .die then some c.die else none)

def Barrier.is (b : Barrier) (launch stage : Nat) (scope : Scope) (inst : Nat) : Bool :=
  b.launch == launch && b.stage == stage && b.scope == scope && b.inst == inst

/-- A barrier instance of a stage; generation 0 before any arrival (R330). -/
def State.barrierOf (s : State) (launch stage : Nat) (scope : Scope) (inst : Nat) : Barrier :=
  (s.barriers.find? fun b => b.is launch stage scope inst).getD
    { launch := launch, stage := stage, scope := scope, inst := inst, gen := 0, opened := none, clocks := [] }

/-- A barrier instance of the stage of core c. -/
def State.barrierAt (s : State) (c : Core) (scope : Scope) (inst : Nat) : Barrier :=
  s.barrierOf c.hartId.flight.launch c.hartId.flight.stage scope inst

def State.setBarrier (s : State) (b : Barrier) : State :=
  if s.barriers.any fun k => k.is b.launch b.stage b.scope b.inst then
    { s with barriers := s.barriers.map fun k => if k.is b.launch b.stage b.scope b.inst then b else k }
  else { s with barriers := b :: s.barriers }

/-- No other package takes part in the launch (R331); a lost one does until a rollback (R291). -/
def State.alone (s : State) (launch : Nat) : Bool :=
  match s.launchAt launch with
  | some l => l.pkgs.all fun p => p == s.pkg
  | none => true

/-- The open generation completes when every participant has arrived (R43). -/
def State.closeGen (s : State) (b : Barrier) : Barrier :=
  match b.opened with
  | none => b
  | some o =>
    if (o.members.all fun h => o.arrived.contains h) && (b.scope != .pod || o.remote || s.alone b.launch) then
      { b with gen := b.gen + 1, opened := none, clocks := b.clocks ++ [o.clock] }
    else b

/-- A hart leaves every participant set (R43, R45, R228). -/
def State.leaveBarriers (s : State) (h : HartId) : State :=
  { s with barriers := s.barriers.map fun b => s.closeGen { b with opened := b.opened.map fun o =>
      { o with members := o.members.filter fun m => m != h } } }

/-! Joins (R28 to R30, R345). -/

/-- The user hart of core n goes on after its JOIN, attached with no drift, at the head after it. `line` is the reel's. -/
def State.passJoin (s : State) (n : Nat) (line : Option LineEntry) : State :=
  let c := s.coreAt n
  let c1 : Core := { c with run := .running, fw := false, heads := 0,
                            line := if line.isSome then line else c.line }
  let r := c1.arrive c1.seqPc false
  (s.setCore { r.1 with fw := c.fw }).reelStep n c1.seqPc r.2

/-- Members of a JOIN that have not exited. -/
def State.joinMembers (s : State) (q : Nat) (j : JoinState) : List Nat :=
  (List.range 4).filter fun k => j.members.getLsbD k && !j.late.getLsbD k && (s.coreAt (4 * q + k)).run != .exited &&
    (s.coreAt (4 * q + k)).run != .parked

/-- The count of a JOIN has reached its limit (R29). -/
def State.joinOver (s : State) (q : Nat) (j : JoinState) : Bool :=
  match j.limit with
  | some l => j.started + l ≤ s.cycle (4 * q)
  | none => false

/-- Every participant of a JOIN has arrived (R28). -/
def State.joinComplete (s : State) (q : Nat) (j : JoinState) : Bool :=
  (s.joinMembers q j).all fun i => j.arrived.any fun a => a.1 == i

/-- Complete a JOIN: its participants are the attached set, and the reel goes on from the line of its pilot (R28). A core
that was attached and takes no part, since it attached after the first arrival, is attached no longer (log 52). -/
def State.finishJoin (s : State) (q : Nat) (j : JoinState) : State :=
  let k := s.quadAt q
  let ms := s.joinMembers q j
  let att := ms.foldl (fun a i => a ||| bitAt i) 0
  let line := (s.coreAt (4 * q + pilotOf att)).line
  let reel : Reel := { Reel.start with lines := line.toList.map fun e => (0, e) }
  let s := s.setQuad { k with attached := att, reel := reel, joins := k.joins.filter fun i => i.pc != j.pc }
  let s := ms.foldl (fun (s : State) i => s.updCore (4 * q + i) fun c => { c with heads := 0 }) s
  ms.foldl (fun s i => s.passJoin (4 * q + i) line) s

/-- Complete the JOINs of a quad whose participants have all arrived (R28). One whose count has reached its limit stays open for
its time-out (R29). Of several, the one that opened last completes first (log 52). -/
def State.finishJoins (s : State) (q : Nat) : State :=
  ((s.quadAt q).joins.filter fun j => s.joinComplete q j && !s.joinOver q j).foldl (fun s j => s.finishJoin q j) s

/-- A participant stopped or parked: the quad's JOINs lose their arrivals and counts (R345); the harts that still wait
arrive again at their next step. -/
def State.dropJoins (s : State) (q k : Nat) : State :=
  let qd := s.quadAt q
  s.setQuad { qd with joins := qd.joins.filter fun j => !j.members.getLsbD k }

/-! Safe points (R41, R166, R230). -/

def overlaps (a n b m : Nat) : Bool := a < b + m && b < a + n

/-- A slot entry whose region, on the package of the move, the run overlaps (R165). -/
def MoveRecord.dependent (mv : MoveRecord) (own : BitVec 12) (e : SlotEntry) : Bool :=
  e.v && (if e.rem then e.pkg else own) == mv.pkg && overlaps e.base.toNat e.limit.toNat mv.old mv.len

/-- A move or a pre-emption waits for the hart of core c to reach a safe point. -/
def State.mustStop (s : State) (c : Core) : Bool :=
  match c.flight with
  | none => false
  | some f => (s.preempts.any fun p => p.launch == f.launch && p.flights.contains f) ||
      s.moves.any fun mv => 2 ≤ mv.phase && c.slots.any fun e => mv.dependent s.pkg e.2

/-- The hart of core n stops (R166, R230, R231); the JOINs it takes part in lose their arrivals (R345). -/
def State.stopHart (s : State) (n : Nat) (w : Option Wait) : State :=
  (s.updCore n fun c => { c with run := .stopped w, stopAt := none }).dropJoins (n / 4) (n % 4)

/-- A safe point of the focused user hart with the wait it is about to enter. -/
def State.safePoint (s : State) (w : Option Wait) : State :=
  if !s.core.fw && s.mustStop s.core then s.stopHart s.core.num w
  else match w with
    | some w => { s with core := { s.core with run := .waiting w } }
    | none => s

/-! Queues (R208 to R211). -/

/-- The reply fills an x register. -/
def AwaitTo.isX : AwaitTo → Bool
  | .xreg _ _ => true
  | .group _ _ _ => false

/-- Remote accesses of a hart before a place in its program order that are not acknowledged, by serial. -/
def Core.remoteBefore (c : Core) (stamp : Nat) : List Nat :=
  ((c.remote.filter fun r => r.stamp < stamp).map fun r => r.serial) ++
    c.waits.filterMap fun w => match w.dest with
      | .group .. => some w.rtag
      | .xreg .. => none

/-- The holding areas receive a core's window entries, in order (R211). -/
def State.windowToHolding (s : State) (n : Nat) : State :=
  let c := s.coreAt n
  let s := s.setCore { c with window := [] }
  match s.launchOf c, c.flight with
  | some l, some f =>
    let held (e : WindowEntry) : HeldEntry :=
      { flight := f, core := c.num % 4, stamp := e.stamp, after := c.remoteBefore e.stamp,
        entry := { data := e.data, clock := max e.clock (max c.sS.pts c.sV.pts) } }
    s.setLaunch { l with queues := c.window.foldl (fun qs e => qs.modify e.queue fun q =>
      { q with holding := q.holding ++ [held e] }) l.queues }
  | _, _ => s

/-! Parking and retiring a hart (R45, R224, R228). -/

/-- Hart status word (R229). -/
def State.statusWord (s : State) (c : Core) (tr : Option TrapRecord) (fw dt : Bool) (owed : Nat) (rung : BitVec 2) : Word :=
  let f := c.hartId.flight
  s.pkg ++ BitVec.ofNat 10 c.num ++ BitVec.ofNat 4 f.stage ++ BitVec.ofNat 8 f.index ++ 0#6 ++
    (match tr with | some r => r.sub | none => 0#8) ++ (match tr with | some r => r.cause | none => 0#8) ++
    BitVec.ofNat 4 (min owed 15) ++ BitVec.ofBool fw ++ BitVec.ofBool dt ++ rung

/-! Fetching a line. -/

/-- Sector k of a code line: the current bytes, or for o > 0 the o-th earlier ones still to be had (R170). -/
def State.sector (s : State) (base k o : Nat) : List Byte :=
  let old := s.code.filter fun l => l.base == base
  match o, old[o - 1]? with
  | 0, _ => s.mem.bytes (base + 32 * k) 32
  | _, none => s.mem.bytes (base + 32 * k) 32
  | _, some l => (l.bytes.drop (32 * k)).take 32

/-- Halfwords of little-endian bytes. -/
def toHalves : List Byte → List Half
  | a :: b :: r => (b ++ a) :: toHalves r
  | _ => []

/-- The line at an address as an entry fetches it. -/
def State.fetchLine (s : State) (base : Nat) : List Half :=
  toHalves (s.sector base 0 s.pick.oldLow ++ s.sector base 1 s.pick.oldHigh)

/-- Instructions that end with a control transfer of R25. -/
def isTransfer : Instr → Bool
  | .b .. | .j _ | .jal .. | .jalr .. | .setvlb .. | .loop .. | .eret => true
  | _ => false

/-- A JOIN, past which the reel issues nothing until it completes (R28), or a DETACH, after which no core is attached (R335). -/
def holdsReel : Instr → Bool
  | .join .. | .detach => true
  | _ => false

/-- Heads of sequential flow from pc on, up to and including the first that is a control transfer, a JOIN or a DETACH, or ends an
iteration of core c's loop, or does not decode: as far as the reel may go before its pilot executes it (R25, R28). -/
def State.straight (s : State) (c : Core) : Nat → Word → Nat
  | 0, _ => 0
  | fuel + 1, pc =>
    let base := lineBase pc
    let halves := match c.line with
      | some e => if e.base = base then e.halves else s.fetchLine base.toNat
      | none => s.fetchLine base.toNat
    if (lineFault halves pc).isSome then 0
    else
      let next := if slotOf pc < lineHeads halves then pc + 2 else base + 66
      let ends := match decode (lineHead halves (slotOf pc)) (lineTail halves (slotOf pc)) with
        | .ok i => isTransfer i || holdsReel i || (c.loop.active && next == c.loop.stop)
        | .error _ => true
      if ends then 1 else s.straight c fuel next + 1

/-- Heads the reel may have issued beyond those of attached core n. The focused one has just issued the head at its PC, which
may end an iteration of its loop: a transfer, past which the reel goes only when the pilot is the one to execute it (R25). -/
def State.ahead (s : State) (n : Nat) : Nat :=
  let c := s.coreAt n
  if (s.forkOf n).isSome then 0
  else if n = s.core.num then
    let r := c.arrive c.seqPc false
    if r.2 && n % 4 != pilotOf (s.quadAt (n / 4)).attached then 0 else s.straight r.1 Config.tether r.1.pc
  else s.straight c Config.tether c.pc

/-- Drift of the focused core when it issues a head: what the reel has issued to it beyond that head. The reel is at least
as far as the furthest attached core, at most 64 heads beyond the slowest, and past no control transfer that the pilot
has not executed (R24, R25, log 10). -/
def State.drift (s : State) : Nat :=
  let c := s.core
  let q := s.quadAt c.quadNum
  if !q.attached.getLsbD (c.num % 4) ∨ c.flight.isNone then 0
  else
    let mine := c.heads + 1
    let heads (n : Nat) : Nat := if n = c.num then mine else (s.coreAt n).heads
    let far := q.attachedCores.foldl (fun m n => max m (heads n)) mine
    let near := q.attachedCores.foldl (fun m n => min m (heads n)) mine
    let lead := (q.attachedCores.find? fun n => heads n == far).getD c.num
    let room := min (near + Config.tether - far) (s.ahead lead)
    far - mine + Config.driftChoice s.free % (room + 1)

/-- cr.drift (R68). -/
def State.driftReg (s : State) : Word :=
  let q := s.quadAt s.core.quadNum
  let loose := !q.attached.getLsbD (s.core.num % 4)
  (0#48 ++ q.attached ++ BitVec.ofNat 2 (pilotOf q.attached) ++ 0#1 ++ BitVec.ofBool loose ++ 0#1 ++
    BitVec.ofNat 7 s.drift : BitVec 64)

/-- cr.harvest of the hart's launch (R71). -/
def State.harvestReg (s : State) : Word :=
  match s.launchOf s.core with
  | some l => 0#31 ++ BitVec.ofBool l.busy ++ l.last
  | none => 0

/-! Saving a hart (R231 to R237). -/

/-- Contents the spec calls unspecified: any bytes of [k, k + n) (log 12). -/
def Mem.unspecified (m : Mem) (k n free : Nat) : Mem :=
  m.paste k n ((Config.freeCells free).map fun c => (k + c.1 % n, c.2))

/-- Bytes of a save (R234). -/
def saveBytes : Nat := 262144

/-- Addresses of the saves and captures of the package. -/
def State.saveAddrs (s : State) : List Nat :=
  (s.saves.map fun v => v.addr) ++ s.launches.flatMap fun l => l.harvests.flatMap fun h =>
    (h.captures.map fun k => k.save.addr) ++ h.saves.map fun v => v.addr

/-- A save may lie at a: in the DRAM of one die, in extents under key 0, which is firmware's (R298), and apart from those taken. -/
def State.holdsSave (s : State) (taken : List Nat) (a : Nat) : Bool :=
  region a == .dram && region (a + (saveBytes - 1)) == .dram && a / Config.dieBytes == (a + (saveBytes - 1)) / Config.dieBytes &&
    (s.extents.all fun x => x.key == 0 || x.num < a / Config.extentBytes || (a + (saveBytes - 1)) / Config.extentBytes < x.num) &&
    taken.all fun b => a + saveBytes ≤ b || b + saveBytes ≤ a

/-- Where firmware lays a save (R234): a free address in its DRAM (log 19). -/
def State.saveArea (s : State) (taken : List Nat) (free : Nat) : Nat :=
  let a := Config.firmwareArea free * 4096
  if s.holdsSave taken a then a
  else (((List.range (2 * taken.length + s.extents.length + 1)).map (· * saveBytes)).find? (s.holdsSave taken)).getD a

/-- A hart as a save holds it. -/
def State.saveOf (s : State) (c : Core) (rung : BitVec 2) : Save :=
  let at_ : State := { s.focus c.num with core := c }
  { flight := c.hartId.flight, core := c, pkg := s.pkg, rung := rung, time := s.time, owed := c.owed,
    quad := s.quadAt c.quadNum, drift := at_.driftReg, harvest := at_.harvestReg, feats := s.feats,
    fwtag := Config.freeWord s.free, addr := s.saveArea s.saveAddrs s.free }

/-- Bytes of the owed tiles and rows are unspecified in a save (R232). -/
def Core.dropOwed (c : Core) (free : Nat) : Core :=
  c.owed.foldl (fun c k =>
    if k.op = 4 then { c with tiles := c.tiles.unspecified (k.reg * Config.tileBytes) Config.tileBytes free }
    else if k.op = 5 then
      { c with acc := c.acc.unspecified (k.reg * Config.rowBytes) (k.count * Config.rowBytes) (free + 1) }
    else c) c

/-- What a save keeps of the register stores: the selected bank, with the errors that a read corrects corrected and
noted (R61, R234). -/
def Core.stored? (c : Core) : Core :=
  let b := c.ctl.bank.toNat
  let mine (e : EccError) : Bool := e.store != .vector || e.granule / 1536 == b
  { c with vec := c.vec.slice (b * 12288) 12288 (b * 12288),
           ecc := c.ecc.filter fun e => mine e && e.poisoned,
           ctl := { c.ctl with cecc := c.ctl.cecc || c.ecc.any fun e => mine e && !e.poisoned } }

/-- Every reply of the user hart has arrived, but for a lost package's VLDR groups; a PFADD of such a package waits for the
rollback (R261, R360). -/
def State.replied (s : State) (c : Core) : Bool := c.waits.all fun w => match w.dest with
  | .xreg fw _ => fw
  | .group .. => s.lost.contains w.pkg

/-- The hart once every reply that it waits for has arrived; a group whose package is lost is written poisoned (R261, R360), in the
granules of its active elements (log 20). -/
def State.groupsIn (s : State) (c : Core) : Option Core :=
  let open_ := c.waits.filter fun w => !w.dest.isX
  if s.replied c then
    let bad := open_.flatMap fun w => match w.dest with
      | .group _ _ ps => (ps.map fun p => p.2 / 8).dedup
      | .xreg .. => []
    let e (g : Nat) : EccError := { store := .vector, granule := g, poisoned := true }
    some { c with waits := c.waits.filter (fun w => w.dest.isX), ecc := bad.map e ++ c.ecc }
  else none

/-- The save of the parked hart on a core is made: the hart leaves the reel and the barriers, its window passes on, and its
status word is posted (R224, R228, R229). The core keeps the hart (R228), and with it the posts that wait (R245). -/
def State.parkNow (s : State) (c : Core) : State :=
  let n := c.num
  let s := ((s.setCore { c with run := .parked }).windowToHolding n).cutLoose n
  let c := s.coreAt n
  let v := s.saveOf { ((c.dropOwed s.free).stored?) with posts := [] } 0
  let s : State := { s.setCore { c with vq := [] } with saves := s.saves ++ [v], free := s.free + 2 }
  let s := s.leaveBarriers c.hartId
  (s.finishJoins c.quadNum).postLaunch c.hartId.flight.launch 3 0
    (s.statusWord c c.inner (!c.doubleTrap) c.doubleTrap c.owed.length 0)

/-- Nothing that the hart has issued is left to perform but run-ahead loads, which a stop discards and which reissue after the
restore (R231). -/
def Core.performed (c : Core) : Bool := c.sq.isEmpty && c.vq.all fun a => a.sluice

/-- The hart of core n, stopped at a trap that parks it, parks once its accesses are performed, its engine commands have
ended and its replies have arrived (R231, R232, R261, R360). -/
def State.finishPark (s : State) (n : Nat) : State :=
  let s := s.settle n
  let c := s.coreAt n
  if c.run = .parking ∧ c.performed ∧ c.cmds.isEmpty then
    match s.groupsIn c with
    | some c1 => s.parkNow c1
    | none => s
  else s

/-- The hart of core n stops at the trapping position, to park with the trap's record (R224, R228, R231). A line-format
fault cuts it loose as any other: R224 and R228 go before R80 here (log 52). -/
def State.park (s : State) (n : Nat) (tr : TrapRecord) (dt : Bool) : State :=
  let s := s.updCore n fun c => { c with run := .parking, inner := some tr, doubleTrap := dt, stopAt := none, tested := false }
  (s.dropJoins (n / 4) (n % 4)).finishPark n

/-- A pre-emption request is over: the status words and saves of its harts carry the rung that the set reached
(R229, R230). -/
def State.closeRequest (s : State) (p : PreemptReq) : State :=
  let mark (v : Save) : Save := if p.saved.any fun e => e.1 == v.core.hartId then { v with rung := p.rung } else v
  p.saved.foldl (fun s e => s.postLaunch p.launch 3 0 (e.2 ||| p.rung.setWidth 64)) { s with saves := s.saves.map mark }

/-- A flight has left its quad: no request and no grant waits for it any longer. -/
def State.forgetFlight (s : State) (f : FlightId) : State :=
  let ps := s.preempts.map fun p => { p with flights := p.flights.filter fun x => x != f }
  (ps.filter fun p => p.flights.isEmpty).foldl State.closeRequest
    { s with preempts := ps.filter fun p => !p.flights.isEmpty, grants := s.grants.filter fun g => g.victim != f }

/-- When the four harts of a quad's flight have exited, the flight has ended (R45), and a fused L1 is written back (R162). -/
def State.endFlight (s : State) (q : Nat) : State :=
  if (List.range 4).all fun k => (s.coreAt (4 * q + k)).run == .exited then
    match s.flights.find? fun f => f.place == .quad q with
    | some f =>
      let s := if s.oneL1 (4 * q) (4 * q + 1) then s.cleanL1 (4 * q) else s
      ({ s with flights := s.flights.map fun x =>
          if x.place == .quad q then { x with place := .ended } else x } : State).forgetFlight f.id
    | none => s
  else s

/-- A reply to a hart that has exited is discarded when it arrives (R360). -/
def Await.discard (w : Await) : Await :=
  { w with dest := match w.dest with
      | .xreg fw d => .xreg fw (if fw then d else 0)
      | .group r g _ => .group r g [] }

/-- The last four lines of R340: the window passes on, the loop ends, the hart retires. -/
def State.retire (s : State) (n : Nat) : State :=
  let s := s.windowToHolding n
  let s := s.updCore n fun c => { c with
    run := .exited, loop := { c.loop with active := false }, barriers := [],
    waits := c.waits.map Await.discard }
  let s := (s.cutLoose n).leaveBarriers (s.coreAt n).hartId
  (s.finishJoins (n / 4)).endFlight (n / 4)

/-! Traps (R222 to R228). -/

/-- Firmware sets the integrity mode of a world: L720 or native (R301). -/
def State.setIntegrity (s : State) (world : BitVec 10) (l720 : Bool) : State :=
  let rest := s.l720.filter fun w => w != world
  { s with l720 := if l720 then world :: rest else rest }

/-- The world of the core runs in L720 integrity mode (R301). -/
def State.deferred (s : State) : Bool := s.l720.contains s.core.ctl.world

/-- Causes whose route is firmware (R222). -/
def toFirmware (cause : BitVec 8) : Bool := cause == 0x02 || cause == 0x0B || cause == 0x0D || cause == 0x10

/-- A trap with firmware as its route, other than a firmware call (R224). -/
def State.firmwareTrap (s : State) (tr : TrapRecord) : State :=
  let s := { s with core := { s.core with fwTrap := some tr } }
  if tr.cause = 0x0C ∧ tr.sub = 0x03 then
    if s.core.cmds ≠ [] then s
    else if s.deferred ∧ s.core.ctl.integ ≠ 0 then
      s.park s.core.num { cause := 0x07, sub := 0x01, el := 0, val := s.core.ctl.integPc.setWidth 64, pc := tr.pc } false
    else s.retire s.core.num
  else s.park s.core.num tr false

/-- A trap in the firmware context: firmware's own handler receives the record (log 16). -/
def State.ownTrap (s : State) (tr : TrapRecord) : State :=
  { s with core := { s.core with fwTrap := some tr, fwPc := Config.fwHandler, fwLine := none } }

/-- TrapEntry of the user hart (R223), with the routes of R222, R224 and R228. -/
def State.trapEntry (s : State) (cause sub : BitVec 8) (el : BitVec 12) (val : Word) : State :=
  let c := s.core
  let tr : TrapRecord := { cause := cause, sub := sub, el := el, val := val, pc := c.curPc }
  if c.fw then s.ownTrap tr
  else if toFirmware cause then s.firmwareTrap tr
  else if c.ctl.intrap then s.park c.num tr true
  else if c.ctl.thandler = 0 then s.firmwareTrap tr
  else
    let ctl := { c.ctl with tsub := sub, tcause := cause, tpc := c.pc, tel := el, tval := val,
                            intrap := true, estart := 0 }
    let s1 : State := { s with core := { c with ctl := ctl, pc := c.ctl.thandler, line := none, heads := c.heads + 1,
                                                tested := false, run := .running } }
    (s1.reelStep c.num c.seqPc true).safePoint none

/-- A trap after the drain of R33. -/
def State.trap (s : State) (cause sub : BitVec 8) (el : BitVec 12) (val : Word) : Res :=
  s.afterDrain fun s => .next (s.trapEntry cause sub el val)

/-- The illegal-instruction trap of a decoded instruction; tval holds its head and tail (R86, R87). -/
def State.illegal (s : State) (i : Instr) (sub : BitVec 8) : Res := s.trap 0x01 sub 0 (i.tail ++ i.head)

/-- The integrity trap that FENCE, BAR, QSEND and EXIT raise after their drain. The test is made once: a failure that
lands while the instruction waits is left to the next test (R302). -/
def State.checkDeferred (s : State) (k : State → Res) : Res :=
  if s.core.fw || !s.deferred || s.core.tested then k s
  else if s.core.ctl.integ != 0 then .next (s.trapEntry 0x07 0x01 0 (s.core.ctl.integPc.setWidth 64))
  else k { s with core := { s.core with tested := true } }

end Sys2Proof.Machine
end

