-- ==== Sys2Proof/Machine/Scalar.lean ====
section
/-! DEFINITION. The scalar integer instructions: the register mould (R323) and the immediate mould (R324). -/

namespace Sys2Proof.Machine

/-- Tag of a sum or difference: that of a when only a is tagged (R155). -/
def sumTag (a b : XReg) : BitVec 9 := if a.tagged && !b.tagged then a.tag else 0

/-- Write x d, untagged, and go on. -/
def State.finishX (s : State) (d : XName) (v : Word) : Res := .next (s.putX d v).advance

/-- Write x d with a tag and go on. -/
def State.finishTagged (s : State) (d : XName) (v : Word) (tag : BitVec 9) : Res :=
  .next (s.setX d { val := v, tag := tag }).advance

/-- Sign extension of an immediate (R324). -/
def imm64 (imm : BitVec 32) : Word := imm.signExtend 64

/-- Shift amount: the immediate when b is 0, else x b[5:0] (R367). -/
def State.amount (s : State) (b : XName) (n : BitVec 6) : Nat :=
  if b = 0 then n.toNat else (s.x b).val.toNat % 64

/-- Leading zeros of w within k bits. -/
def leadingZeros (w : Word) : Nat → Nat
  | 0 => 0
  | k + 1 => if w.getLsbD k then 0 else leadingZeros w k + 1

/-- Bits of w that are 1 below bit k. -/
def onesBelow (w : Word) : Nat → Nat
  | 0 => 0
  | k + 1 => onesBelow w k + (if w.getLsbD k then 1 else 0)

/-- Quotient of R336. -/
def quotient (a b : Word) (u : Bool) : Word :=
  if b = 0 then -1
  else if u then BitVec.ofNat 64 (a.toNat / b.toNat)
  else BitVec.ofInt 64 (a.toInt.tdiv b.toInt)

/-- Remainder of R363. -/
def remainder (a b : Word) (u : Bool) : Word := if b = 0 then a else a - quotient a b u * b

/-- R357. -/
def execNop (s : State) : Res := .next s.advance
/-- R323. -/
def execAdd (d a b : XName) (s : State) : Res :=
  s.finishTagged d ((s.x a).val + (s.x b).val) (sumTag (s.x a) (s.x b))
/-- R371. -/
def execSub (d a b : XName) (s : State) : Res :=
  s.finishTagged d ((s.x a).val - (s.x b).val) (sumTag (s.x a) (s.x b))
/-- R323. -/
def execAnd (d a b : XName) (s : State) : Res := s.finishX d ((s.x a).val &&& (s.x b).val)
/-- R358. -/
def execOr (d a b : XName) (s : State) : Res := s.finishX d ((s.x a).val ||| (s.x b).val)
/-- R421. -/
def execXor (d a b : XName) (s : State) : Res := s.finishX d ((s.x a).val ^^^ (s.x b).val)
/-- R367. -/
def execSll (d a b : XName) (n : BitVec 6) (s : State) : Res := s.finishX d ((s.x a).val <<< s.amount b n)
/-- R367. -/
def execSrl (d a b : XName) (n : BitVec 6) (s : State) : Res := s.finishX d ((s.x a).val >>> s.amount b n)
/-- R367. -/
def execSra (d a b : XName) (n : BitVec 6) (s : State) : Res := s.finishX d ((s.x a).val.sshiftRight (s.amount b n))
/-- R368. -/
def execSlt (d a b : XName) (u : Bool) (s : State) : Res :=
  s.finishX d (if (if u then (s.x a).val.ult (s.x b).val else (s.x a).val.slt (s.x b).val) then 1 else 0)
/-- R356. -/
def execMul (d a b : XName) (s : State) : Res := s.finishX d ((s.x a).val * (s.x b).val)
/-- R356. -/
def execMulh (d a b : XName) (s : State) : Res :=
  s.finishX d (BitVec.ofInt 64 ((s.x a).val.toInt * (s.x b).val.toInt / 2 ^ 64))
/-- R336. -/
def execDiv (d a b : XName) (u : Bool) (s : State) : Res := s.finishX d (quotient (s.x a).val (s.x b).val u)
/-- R363. -/
def execRem (d a b : XName) (u : Bool) (s : State) : Res := s.finishX d (remainder (s.x a).val (s.x b).val u)
/-- R351. -/
def execMin (d a b : XName) (s : State) : Res :=
  s.finishX d (if (s.x b).val.slt (s.x a).val then (s.x b).val else (s.x a).val)
/-- R351. -/
def execMax (d a b : XName) (s : State) : Res :=
  s.finishX d (if (s.x a).val.slt (s.x b).val then (s.x b).val else (s.x a).val)
/-- R333. -/
def execClz (d a : XName) (s : State) : Res := s.finishX d (BitVec.ofNat 64 (leadingZeros (s.x a).val 64))
/-- R361. -/
def execPopc (d a : XName) (s : State) : Res := s.finishX d (BitVec.ofNat 64 (onesBelow (s.x a).val 64))
/-- R324. -/
def execAddi (d a : XName) (imm : BitVec 32) (s : State) : Res :=
  s.finishTagged d ((s.x a).val + imm64 imm) (if (s.x a).tagged then (s.x a).tag else 0)
/-- R324. -/
def execAndi (d a : XName) (imm : BitVec 32) (s : State) : Res := s.finishX d ((s.x a).val &&& imm64 imm)
/-- R358. -/
def execOri (d a : XName) (imm : BitVec 32) (s : State) : Res := s.finishX d ((s.x a).val ||| imm64 imm)
/-- R421. -/
def execXori (d a : XName) (imm : BitVec 32) (s : State) : Res := s.finishX d ((s.x a).val ^^^ imm64 imm)
/-- R348. -/
def execLi (d : XName) (imm : BitVec 32) (s : State) : Res := s.finishX d (imm64 imm)

end Sys2Proof.Machine
end

