-- ==== Sys2Proof/Machine/Operands.lean ====
section
/-! DEFINITION. Operand forms: vector groups, masks, gates and element classes (R52 to R57, R122 to R128, R135),
poison attribution (R147 to R149), and the access check with its forms of address (R150 to R158, R299). -/

namespace Sys2Proof.Machine

/-! Vector groups (R53 to R55). -/

def Core.eb (c : Core) : Nat := Ew.bytes c.ctl.ew
def Core.spanOf (c : Core) : Nat := Span.count c.ctl.span

/-- VLMAX (R53). -/
def vlmax (span ew : Nat) : Nat := span * 384 / ew

def Core.vlN (c : Core) : Nat := c.ctl.vl.toNat
def Core.estartN (c : Core) : Nat := c.ctl.estart.toNat

/-- Physical register of a name under the rotation in force (R55). -/
def Core.phys (c : Core) (name : Nat) : Nat :=
  if name < 16 then name else 16 + (name + 16 - c.ctl.rot.toNat) % 16

/-- First cell of the register a name stands for, in the selected bank (R52). -/
def Core.regCell (c : Core) (name : Nat) : Nat := (c.ctl.bank.toNat * 32 + c.phys name) * 384

/-- Cell of byte k of the group based at a name (R54). -/
def Core.groupCell (c : Core) (name k : Nat) : Nat := c.regCell (name + k / 384) + k % 384

/-- First cell of element i, w bytes wide, of the group based at a name. -/
def Core.elemCell (c : Core) (name w i : Nat) : Nat := c.groupCell name (i * w)

/-- Element i, w bytes wide. -/
def Core.elem (c : Core) (name w i : Nat) : Nat := c.vec.read (c.elemCell name w i) w

/-- Physical registers of a group of n (R54). -/
def Core.physGroup (c : Core) (name n : Nat) : List Nat := (List.range n).map fun k => c.phys (name + k)

/-- The base is a multiple of the span, and the group ends inside the file. -/
def aligned (name n : Nat) : Bool := name % n == 0

/-- Two groups share a physical register (R135). -/
def share (a b : List Nat) : Bool := a.any fun r => b.contains r

/-- Groups that an element-wise member accepts as destination and source: identical, or apart (R135). -/
def sameOrApart (a b : List Nat) : Bool := a == b || !share a b

/-! Masks and gates (R56, R57). -/

/-- Registers of a mask group (R56). -/
def Core.maskSpan (c : Core) : Nat := max 1 (vlmax c.spanOf c.eb / 384)

/-- Bit that governs element i. -/
def Core.maskBit (c : Core) (m : MName) (i : Nat) : Bool :=
  match c.m[m.toNat + i / 384]? with
  | some v => v.getLsbD (i % 384)
  | none => false

/-- Write the mask bits of some elements. -/
def Core.putMask (c : Core) (m : MName) (bits : List (Nat × Bool)) : Core :=
  { c with m := bits.foldl (fun v e =>
      let k := m.toNat + e.1 / 384
      if h : k < 8 then v.set k ((v[k] &&& ~~~ (1#384 <<< (e.1 % 384))) ||| (if e.2 then 1#384 <<< (e.1 % 384) else 0)) h
      else v) c.m }

/-- The gate field lets elements through. -/
def Core.gateOpen (c : Core) (g : GName) : Bool := g == 0 || c.ctl.gates.getLsbD g.toNat

/-- The mask of a governing pair is aligned (R56). -/
def Core.govAligned (c : Core) (g : Gov) : Bool := !g.me || aligned g.m.toNat c.maskSpan

/-- Element i, between the bounds, is neither masked nor gated off (R122). -/
def Core.passes (c : Core) (g : Gov) (i : Nat) : Bool := c.gateOpen g.g && (!g.me || c.maskBit g.m i)

/-- Where this step ends an instruction of n elements that begins at `cr.estart`: at n, or at the element at which a stop
of R231 finds it (R22). -/
def State.hiOf (s : State) (n : Nat) : Nat :=
  match (if s.core.fw then none else s.core.stopAt) with
  | some e => max s.core.estartN (min e n)
  | none => n

def State.hiElem (s : State) : Nat := s.hiOf s.core.vlN

/-- Indices from lo to hi - 1. -/
def span (lo hi : Nat) : List Nat := (List.range (hi - lo)).map fun k => lo + k

/-- Active elements this step executes (R122). -/
def State.active (s : State) (g : Gov) : List Nat :=
  (span s.core.estartN s.hiElem).filter fun i => s.core.passes g i

/-- Active elements of an instruction that does not stop part-way. -/
def Core.activeAll (c : Core) (g : Gov) : List Nat := (span c.estartN c.vlN).filter fun i => c.passes g i

/-! Poison (R147 to R149). -/

def Core.poisoned (c : Core) (store : StoreKind) (cell : Nat) : Bool :=
  c.ecc.any fun e => e.store == store && e.poisoned && e.granule == cell / 8

/-- The first poisoned granule among the n bytes from a cell. -/
def Core.poisonIn (c : Core) (store : StoreKind) (cell n : Nat) : Option Nat :=
  ((List.range n).find? fun k => c.poisoned store (cell + k)).map fun k => (cell + k) / 8

/-- tval of a register-poison trap (R148). -/
def poisonVal (store : StoreKind) (granule step : Nat) : Word :=
  let per := match store with | .vector => 48 | .tile => 768 | .acc => 192
  let code := match store with | .vector => 0 | .tile => 1 | .acc => 2
  let reg := match store with | .vector => granule / per % 32 | _ => granule / per
  BitVec.ofNat 64 (step * 2 ^ 24 + code * 2 ^ 18 + reg * 2 ^ 10 + granule % per)

/-- A read of the cells that `src` accepts corrects their correctable errors and notes that in cecc (R61). -/
def Core.correct (c : Core) (store : StoreKind) (src : Nat → Bool) : Core :=
  let fixed (e : EccError) : Bool := !e.poisoned && e.store == store && (List.range 8).any fun k => src (8 * e.granule + k)
  { c with ecc := c.ecc.filter fun e => !fixed e, ctl := { c.ctl with cecc := c.ctl.cecc || c.ecc.any fixed } }

/-- A read of the cells that `src` accepts: correctable errors are corrected and noted in cecc (R61); poison
that no active element depends on is counted in pcnt (R149). -/
def Core.noteReads (c : Core) (store : StoreKind) (src : Nat → Bool) : Core :=
  let inSrc (e : EccError) : Bool := e.store == store && (List.range 8).any fun k => src (8 * e.granule + k)
  let bad := (c.ecc.filter fun e => e.poisoned && inSrc e).length
  { c with ctl := { c.ctl with pcnt := BitVec.ofNat 16 (min 0xFFFF (c.ctl.pcnt.toNat + bad)) } }.correct store src

/-- The granule of an error meets one of some ranges of cells: store, first cell, width. -/
def EccError.within (e : EccError) (r : List (StoreKind × Nat × Nat)) : Bool :=
  r.any fun k => k.1 == e.store && k.2.1 < 8 * e.granule + 8 && 8 * e.granule < k.2.1 + k.2.2

/-- The elements that an instruction completes before it stops read the cells `r`, whose correctable errors are corrected and noted
(R61), and `eff` is what these elements write. Poison that they read, that trapped for none of them and that the write clears is
counted here, since the instruction finds it no more when it goes on (R149). -/
def Core.stopPart (c : Core) (r : List (StoreKind × Nat × Nat)) (eff : Core → Core) : Core :=
  let fixed (e : EccError) : Bool := !e.poisoned && e.within r
  let c1 := eff { c with ecc := c.ecc.filter (fun e => !fixed e), ctl := { c.ctl with cecc := c.ctl.cecc || c.ecc.any fixed } }
  let lost := (c.ecc.filter fun e => e.poisoned && e.within r && !c1.ecc.contains e).length
  { c1 with ctl := { c1.ctl with pcnt := BitVec.ofNat 16 (min 0xFFFF (c1.ctl.pcnt.toNat + lost)) } }

/-- The cell lies in one of the physical registers of the selected bank. -/
def Core.inRegs (c : Core) (regs : List Nat) (cell : Nat) : Bool :=
  cell / 384 / 32 == c.ctl.bank.toNat && regs.contains (cell / 384 % 32)

/-! Neighbour operands (R127). -/

/-- Where operand a of element i is read: a position of the source, or the constant 0. -/
def neighbourAt (nb : Nb) (edge : Edge) (vl i : Nat) : Option Nat :=
  match nb with
  | .none => some i
  | .l =>
    if 0 < i then some (i - 1)
    else match edge with
      | .ez => none
      | .er => some 0
      | .ew => some (vl - 1)
  | .r =>
    if i + 1 < vl then some (i + 1)
    else match edge with
      | .ez => none
      | .er => some (vl - 1)
      | .ew => some 0

/-! Ends of vector instructions (R22, R67). -/

def State.setEstart (s : State) (e : Nat) : State :=
  { s with core := { s.core with ctl := { s.core.ctl with estart := BitVec.ofNat 12 e } } }

/-- The elements up to hi are done: the instruction ends, or stops at hi with the PC on it. -/
def State.endVector (s : State) (hi vl : Nat) : State :=
  if hi < vl then s.setEstart hi else (s.setEstart 0).advance

/-- A trap at element e of an instruction that stops part-way (R22). -/
def State.trapAt (s : State) (e : Nat) (cause sub : BitVec 8) (val : Word) : Res :=
  (s.setEstart e).trap cause sub (BitVec.ofNat 12 e) val

/-! Slots and the access check (R152 to R158). -/

/-- Slot 0 of a core (R154). -/
def Core.slotZero (c : Core) : SlotEntry :=
  { gen := 0, key := 0, world := c.ctl.world, pkg := 0, mov := false, rem := false, eng := true, at_ := true,
    w := true, r := true, v := true, limit := 0x200000,
    base := BitVec.ofNat 48 (Config.scratchBase + c.num * Config.scratchBytes) }

def SlotEntry.empty : SlotEntry :=
  { gen := 0, key := 0, world := 0, pkg := 0, mov := false, rem := false, eng := false, at_ := false, w := false,
    r := false, v := false, limit := 0, base := 0 }

/-- Slot k of the running image. -/
def Core.slot (c : Core) (k : BitVec 8) : SlotEntry :=
  if k = 0 then c.slotZero
  else match c.slots.find? fun e => e.1 == k.toNat with
    | some e => e.2
    | none => .empty

/-- The kinds of R157; `base` is HNEW's, local-only and with no right (R243). -/
inductive AccKind where
  | base | load | store | localStore | atomic | remoteLoad | remoteStore | remoteAtomic | tileLoad | maintain
deriving DecidableEq, Repr

def AccKind.reads : AccKind → Bool
  | .load | .remoteLoad | .tileLoad | .maintain => true
  | _ => false
def AccKind.writes : AccKind → Bool
  | .store | .localStore | .remoteStore => true
  | _ => false
def AccKind.isAtomic : AccKind → Bool
  | .atomic | .remoteAtomic => true
  | _ => false
def AccKind.localOnly : AccKind → Bool
  | .base | .load | .localStore | .atomic | .tileLoad | .maintain => true
  | _ => false
def AccKind.remoteOnly : AccKind → Bool
  | .remoteLoad | .remoteStore | .remoteAtomic => true
  | _ => false

/-- A fault of the check: cause, sub-cause, tval. -/
structure AccessFault where
  cause : BitVec 8
  sub   : BitVec 8
  val   : Word
deriving DecidableEq, Repr

/-- Where a checked access lands. -/
structure Landing where
  pkg  : Option (BitVec 12)
  addr : Nat
deriving DecidableEq, Repr

/-- tval of a fault with an address: ea, as a pod address through a remote slot (R157, R151). -/
def eaVal (e : SlotEntry) (ea : Int) : Word :=
  if e.rem then 0#4 ++ (e.pkg ++ BitVec.ofInt 48 ea) else BitVec.ofInt 64 ea

/-- The key test of R299: a local slot of package memory whose key slot is revoked. -/
def State.revoked (s : State) (k : BitVec 8) (e : SlotEntry) : Bool :=
  k != 0 && !e.rem && !s.live.getLsbD e.key.toNat

/-- The access check for the context that runs (R157, R158, R299). `off` is the exact offset. Firmware's untagged base skips every
test, TLD's of R146 included, and its tagged bases are checked as a user's (log 56). -/
def State.check (s : State) (x : XReg) (off : Int) (size align : Nat) (kind : AccKind) : Except AccessFault Landing :=
  let ea : Int := x.val.toNat + off
  let raw : Word := BitVec.ofInt 64 ea
  if s.core.fw && !x.tagged then .ok { pkg := none, addr := raw.toNat }
  else if !x.tagged then .error { cause := 0x03, sub := 0x01, val := raw }
  else
    let e := s.core.slot x.slot
    if !e.v then .error { cause := 0x04, sub := 0x02, val := eaVal e ea }
    else if e.world ≠ s.core.ctl.world ∨ s.revoked x.slot e then .error { cause := 0x0B, sub := 0x01, val := eaVal e ea }
    else if kind.localOnly && e.rem then .error { cause := 0x05, sub := 0x04, val := eaVal e ea }
    else if kind.remoteOnly && !e.rem then .error { cause := 0x05, sub := 0x04, val := eaVal e ea }
    else if kind.reads && !e.r then .error { cause := 0x05, sub := 0x01, val := eaVal e ea }
    else if kind.writes && !e.w then .error { cause := 0x05, sub := 0x02, val := eaVal e ea }
    else if kind.isAtomic && !e.at_ then .error { cause := 0x05, sub := 0x03, val := eaVal e ea }
    else if kind == .tileLoad && x.slot != 0 then .error { cause := 0x05, sub := 0x05, val := eaVal e ea }
    else if ea < e.base.toNat ∨ e.base.toNat + e.limit.toNat < ea + size then
      .error { cause := 0x04, sub := 0x01, val := eaVal e ea }
    else if ea.toNat % align ≠ 0 then .error { cause := 0x06, sub := 0x01, val := eaVal e ea }
    else .ok { pkg := if e.rem then some e.pkg else none, addr := ea.toNat % 2 ^ 48 }

/-- Check a scalar access and go on with its place; a failing check traps. -/
def State.checked (s : State) (x : XReg) (off : Int) (size align : Nat) (kind : AccKind) (k : Landing → Res) : Res :=
  match s.check x off size align kind with
  | .error e => s.trap e.cause e.sub 0 e.val
  | .ok p => if p.pkg.isSome then k p else guardAddr p.addr size (k p)

/-- Sign-extended offsets (R157). -/
def off32 (imm : BitVec 32) : Int := imm.toInt
def off16 (off : BitVec 16) : Int := off.toInt

end Sys2Proof.Machine
end

