-- ==== Sys2Proof/Machine/Fetch.lean ====
section
/-! DEFINITION. The front end: line entries (R72 to R80, R170), decoding (R86), the interlocks that make a head
wait for registers that are still to be filled (R60, R201, R259, R360), the tether and the reel (R24, R25), and
the sluices (R31). -/

namespace Sys2Proof.Machine

/-- Control is in the line. -/
def State.setLine (s : State) (e : LineEntry) : State :=
  if s.core.fw then { s with core := { s.core with fwLine := some e } }
  else { s with core := { s.core with line := some e } }

/-! Which registers an instruction names. -/

/-- x registers, groups of vector registers (first name, number), tiles and accumulator rows. -/
structure Uses where
  x : List XName
  v : List (Nat × Nat)
  t : List Nat
  a : List Nat

def Uses.ofX (x : List XName) : Uses := { x := x, v := [], t := [], a := [] }
def Uses.ofV (v : List (Nat × Nat)) (x : List XName) : Uses := { x := x, v := v, t := [], a := [] }

/-- Operand b of the element-wise mould. -/
def useB (s : Nat) (d a b : VName) (vx : Bool) : Uses :=
  if vx then .ofV [(d.toNat, s), (a.toNat, s)] [b] else .ofV [(d.toNat, s), (a.toNat, s), (b.toNat, s)] []

def useCmp (s : Nat) (a b : VName) (vx : Bool) : Uses :=
  if vx then .ofV [(a.toNat, s)] [b] else .ofV [(a.toNat, s), (b.toNat, s)] []

/-- Registers of an operand of VCVT w bytes wide (R386). -/
def cvtSpan (s eb w : Nat) : Nat := max 1 (s * w / eb)

/-- The registers an instruction reads or writes, under the configuration of core c (R60). -/
def usesOf (c : Core) (i : Instr) : Uses :=
  let s := c.spanOf
  match i with
  | .add d a b | .sub d a b | .and d a b | .or d a b | .xor d a b | .mul d a b | .mulh d a b | .min d a b
  | .max d a b => .ofX [d, a, b]
  | .sll d a b _ | .srl d a b _ | .sra d a b _ | .slt d a b _ | .div d a b _ | .rem d a b _ => .ofX [d, a, b]
  | .clz d a | .popc d a => .ofX [d, a]
  | .addi d a _ | .andi d a _ | .ori d a _ | .xori d a _ => .ofX [d, a]
  | .li d _ | .ldslot d _ | .jal d _ | .crrd d _ => .ofX [d]
  | .ld d a _ _ _ => .ofX [d, a]
  | .st r a _ _ _ => .ofX [r, a]
  | .amo d a b _ _ => .ofX [d, a, b]
  | .cas d a b e _ => .ofX [d, a, b, e]
  | .b a b _ _ => .ofX [a, b]
  | .jalr d a _ => .ofX [d, a]
  | .loop a _ _ | .crwr a _ | .sleep a | .wswitch a | .wrel a | .snap a | .hdrop a => .ofX [a]
  | .setvlb d a _ _ _ | .setvl d a _ _ => .ofX [d, a]
  | .cwb a b | .cinv a b | .iinv a b => .ofX [a, b]
  | .livePackages | .clearDeferredIntegrity => .ofX [10]
  | .trap im => if im.getLsbD 31 then .ofX [10] else .ofX []
  | .qsend a b => .ofV [(b.toNat, 1)] [a]
  | .qrecv d a => .ofV [(d.toNat, 1)] [a]
  | .qstat d a | .hcopy d a | .hbase d a => .ofX [d, a]
  | .hnew d a _ _ _ => .ofX [d, a]
  | .vadd d a b vx _ | .vsub d a b vx _ | .vmul d a b vx _ | .vmacc d a b vx _ | .vand d a b vx _ | .vor d a b vx _
  | .vxor d a b vx _ | .vsll d a b vx _ | .vsrl d a b vx _ | .vsra d a b vx _ | .vfmin d a b vx _
  | .vfmax d a b vx _ => useB s d a b vx
  | .vmulh d a b vx _ _ | .vmin d a b vx _ _ | .vmax d a b vx _ _ => useB s d a b vx
  | .vfadd d a b vx _ _ | .vfsub d a b vx _ _ | .vfmul d a b vx _ _ | .vfdiv d a b vx _ _ => useB s d a b vx
  | .vfma d a b e vx _ _ _ => let u := useB s d a b vx; { u with v := (e.toNat, s) :: u.v }
  | .vfsqrt d a _ _ | .vfrcp d a _ _ | .vfrsq d a _ _ | .vfexp2 d a _ _ | .vflog2 d a _ _ =>
      .ofV [(d.toNat, s), (a.toNat, s)] []
  | .vcmp _ a b vx _ _ | .vfcmp _ a b vx _ _ => useCmp s a b vx
  | .vcvt d a fs fd _ _ _ _ =>
      .ofV [(d.toNat, cvtSpan s c.eb fd.bytes), (a.toNat, cvtSpan s c.eb fs.bytes)] []
  | .vmerge d a b vx _ _ _ => useB s d a b vx
  | .vmv d a _ => .ofV [(d.toNat, s), (a.toNat, s)] []
  | .vsplat d a _ => .ofV [(d.toNat, s)] [a]
  | .vred d a _ _ => .ofV [(d.toNat, s), (a.toNat, s)] []
  | .vslide d a b _ _ | .vreshape d a b _ => .ofV [(d.toNat, s), (a.toNat, s)] [b]
  | .vgather d a b _ => .ofV [(d.toNat, s), (a.toNat, s), (b.toNat, s)] []
  | .vcompress d a cnt _ => .ofV [(d.toNat, s), (a.toNat, s)] [cnt]
  | .viota d _ | .vid d _ => .ofV [(d.toNat, s)] []
  | .mcount d _ | .mfirst d _ => .ofX [d]
  | .vld d a _ _ | .vldr d a _ _ => .ofV [(d.toNat, s)] [a]
  | .vlds d a b _ _ => .ofV [(d.toNat, s)] [a, b]
  | .vldx d a b _ _ | .vamo d a b _ _ _ => .ofV [(d.toNat, s), (b.toNat, s)] [a]
  | .vst r a _ _ | .vstr r a _ _ _ => .ofV [(r.toNat, s)] [a]
  | .vsts r a b _ _ => .ofV [(r.toNat, s)] [a, b]
  | .vstx r a b _ _ => .ofV [(r.toNat, s), (b.toNat, s)] [a]
  | .mrow ad vs t _ _ _ rep rv _ =>
      { x := [], v := [(vs.toNat, if rv then (rep.toNat - 1) * s + 1 else 1)],
        t := (List.range (if rv then 1 else rep.toNat)).map fun k => t.toNat + k,
        a := (List.range (if rv then rep.toNat else 1)).map fun k => ad.toNat + k }
  | .mrowa ad as t _ _ _ rep rv _ _ _ _ =>
      { x := [], v := [],
        t := (List.range (if rv then 1 else rep.toNat)).map fun k => t.toNat + k,
        a := ((List.range (if rv then rep.toNat else 1)).map fun k => ad.toNat + k) ++
             ((List.range (if rv then rep.toNat else 1)).map fun k => as.toNat + k) }
  | .aclr d cnt => { x := [], v := [], t := [], a := (List.range (cnt.toNat + 1)).map fun k => d.toNat + k }
  | .ard d row => { x := [], v := [(d.toNat, 4)], t := [], a := [row.toNat] }
  | .awr d a _ => { x := [], v := [(a.toNat, 4)], t := [], a := [d.toNat] }
  | .ascale ad as form _ =>
      match form with
      | .row x => { x := [x], v := [], t := [], a := [ad.toNat, as.toNat] }
      | .col b => { x := [], v := [(b.toNat, 4)], t := [], a := [ad.toNat, as.toNat] }
      | .both x b => { x := [x], v := [(b.toNat, 4)], t := [], a := [ad.toNat, as.toNat] }
  | .tld t a _ => { x := [a], v := [], t := [t.toNat], a := [] }
  | .tfill t a _ => { x := [], v := [(a.toNat, 8)], t := [t.toNat], a := [] }
  | .eissue _ a b _ => .ofV [(a.toNat, 8), (b.toNat, 2)] []
  | .ewait a _ => .ofV [(a.toNat, 2)] []
  | .pfadd d a b _ => .ofX [d, a, b]
  | _ => .ofX []

/-! What is still to be filled. -/

/-- x registers of a context that a load or a reply has still to write (R360). -/
def Core.pendingX (c : Core) (fw : Bool) : List XName :=
  ((if fw then c.fq else c.sq).filterMap fun a => match a.op with
    | .loadX d _ _ _ | .amoX d _ _ _ _ | .casX d _ _ _ _ => some d
    | _ => none) ++
  c.waits.filterMap fun w => match w.dest with
    | .xreg f d => if f == fw then some d else none
    | _ => none

/-- 64-byte groups of vector registers still to be filled: bank and physical register as one number, group
(R259). -/
def Core.pendingV (c : Core) : List (Nat × Nat) :=
  (c.vq.flatMap fun a => match a.op with
    | .loadV ps => ps.map fun p => (p.2 / 384, p.2 % 384 / 64)
    | .amoV _ _ k _ _ => [(k / 384, k % 384 / 64)]
    | _ => []) ++
  c.waits.filterMap fun w => match w.dest with
    | .group r g _ => some (r, g)
    | _ => none

/-- Tiles that a pending TLD or a command has still to write (R201). -/
def Core.pendingT (c : Core) : List Nat :=
  (c.vq.filterMap fun a => match a.op with
    | .loadT ((_, k) :: _) => some (k / Config.tileBytes)
    | _ => none) ++
  c.cmds.filterMap fun k => if k.op = 4 then some k.reg else none

/-- Accumulator rows that a command has still to write (R201). -/
def Core.pendingA (c : Core) : List Nat :=
  c.cmds.flatMap fun k => if k.op = 5 then (List.range k.count).map fun j => k.reg + j else []

/-- Bytes from the start of its registers that one element reads or writes, of an instruction that the machine may
stop before an element and whose elements depend on no later ones (R22, R260); 0 for the others, which read or write
groups out of element order or never stop part-way (R23). -/
def elementBytes (c : Core) (i : Instr) : Nat :=
  let byNb (k : Ctrl) : Nat := match k.nb with | .none => c.eb | _ => 0
  match i with
  | .vadd _ _ _ _ k | .vsub _ _ _ _ k | .vmul _ _ _ _ k | .vmacc _ _ _ _ k | .vand _ _ _ _ k | .vor _ _ _ _ k
  | .vxor _ _ _ _ k | .vsll _ _ _ _ k | .vsrl _ _ _ _ k | .vsra _ _ _ _ k | .vfmin _ _ _ _ k
  | .vfmax _ _ _ _ k => byNb k
  | .vmulh _ _ _ _ _ k | .vmin _ _ _ _ _ k | .vmax _ _ _ _ _ k => byNb k
  | .vfadd _ _ _ _ _ k | .vfsub _ _ _ _ _ k | .vfmul _ _ _ _ _ k | .vfdiv _ _ _ _ _ k => byNb k
  | .vfma _ _ _ _ _ _ _ k => byNb k
  | .vfsqrt _ _ _ k | .vfrcp _ _ _ k | .vfrsq _ _ _ k | .vfexp2 _ _ _ k | .vflog2 _ _ _ k => byNb k
  | .vcmp _ _ _ _ _ k | .vfcmp _ _ _ _ _ k => byNb k
  | .vcvt _ _ fs fd _ _ _ _ => max c.eb (max fs.bytes fd.bytes)
  | .vmerge _ _ _ _ _ nb _ => match nb with | .none => c.eb | _ => 0
  | .vmv _ _ k => byNb k
  | .vsplat .. | .vid .. | .vld .. | .vlds .. | .vst .. | .vsts .. | .vstr .. => c.eb
  | .ard .. | .awr .. | .ascale .. => 4
  | .tfill .. => 384
  | .eissue .. => 64
  | _ => 0

/-- Bytes of the groups that the elements of this step reach: a vector instruction may stop before a group that is still to
come (R260). An MROW reads up to 16 registers (R142). -/
def State.reach (s : State) (i : Instr) : Nat :=
  match s.core.stopAt, elementBytes s.core i with
  | some e, n + 1 => max s.core.estartN e * (n + 1)
  | _, _ => 16 * 384

/-- A load that the scalar path issues ahead of the vector queue (R31). -/
def runsAhead : Instr → Bool
  | .vld .. | .vlds .. => true
  | _ => false

/-- A register the instruction names is still to be filled (R60). The pieces of a VLD or VLDS wait in the V stream for the register
that they write. -/
def State.interlocked (s : State) (i : Instr) : Bool :=
  let c := s.core
  let u := usesOf c i
  (u.x.any fun r => r != 0 && (c.pendingX c.fw).contains r) ||
  (!runsAhead i && u.v.any fun g => (List.range g.2).any fun k => (List.range 6).any fun j =>
    384 * k + 64 * j < s.reach i && c.pendingV.contains (c.ctl.bank.toNat * 32 + c.phys (g.1 + k), j)) ||
  (u.t.any fun t => c.pendingT.contains t) || (u.a.any fun r => c.pendingA.contains r)

/-- Sluices in use: VLDs and VLDSs whose data no register has taken (R31). -/
def Core.sluices (c : Core) : Nat := ((c.vq.filter fun a => a.sluice).map fun a => a.stamp).dedup.length

/-- Heads that the attached core furthest behind has issued since it was attached. -/
def State.slowest (s : State) (q : Nat) : Nat :=
  let k := s.quadAt q
  ((List.range 4).filterMap fun i => if k.attached.getLsbD i then some (s.coreAt (4 * q + i)).heads else none).foldl
    min (s.core.heads)

/-- The reel has not issued the next head to the focused core: another attached core has a drift of 64 (R24), or the core
has executed a transfer that the pilot has not reached (R25). -/
def State.reelWaits (s : State) : Bool :=
  let c := s.core
  !c.fw && s.attached c.num && (s.slowest c.quadNum + Config.tether ≤ c.heads || (s.forkOf c.num).isSome)

/-! The vector queue (R33, R213). -/

/-- An instruction of the vector queue. -/
def isVector (c : Core) : Instr → Bool
  | .mand .. | .mandn .. | .mor .. | .mxor .. | .mnot .. | .mcount .. | .mfirst .. | .qrecv .. => true
  | i => let u := usesOf c i; u.v != [] || u.t != [] || u.a != []

/-- A mask register is a destination. -/
def writesMask : Instr → Bool
  | .vcmp .. | .vfcmp .. | .mand .. | .mandn .. | .mor .. | .mxor .. | .mnot .. => true
  | _ => false

/-- A CRWR of a register that vector instructions write: cr.status, cr.flags, cr.fx (R33). -/
def writesNotes : Instr → Bool
  | .crwr _ n => n.toNat == 0x000 || n.toNat == 0x001 || (0x008 ≤ n.toNat && n.toNat ≤ 0x00D)
  | _ => false

/-- An access of the S stream (R177, R188). -/
def isScalarAccess : Instr → Bool
  | .ld .. | .st .. | .amo .. | .cas .. | .pfadd .. => true
  | _ => false

/-- The elements' mask of a vector memory instruction is known, since no instruction that waits writes one. -/
def Core.maskKnown (c : Core) (g : Gov) : Bool := !g.me || c.lates.all fun l => !writesMask l.instr

/-- A VLD or VLDS whose operands are known: it issues ahead of the instructions that wait in the queue (R31, log 61). -/
def Core.mayRunAhead (c : Core) : Instr → Bool
  | .vld _ _ _ g | .vlds _ _ _ _ g => c.maskKnown g && c.ecc.isEmpty
  | _ => false

/-- The queue from which a QRECV that waits will take an entry. -/
def LateOp.takes (l : LateOp) : Option Nat :=
  match l.instr with
  | .qrecv _ a => some ({ Core.reset 0 with x := l.x }.readXOf false a).val.toNat
  | _ => none

/-- The head waits behind instructions that wait in the vector queue: it is one of the queue, or writes what they write, or is an access
of the S stream, which a QRECV holds back (R33, R213). -/
def State.behind (s : State) (i : Instr) : Bool :=
  let c := s.core
  !c.lates.isEmpty && ((isVector c i && (c.fw || !c.mayRunAhead i)) || writesNotes i ||
    (!c.fw && isScalarAccess i && c.lates.any fun l => l.takes.isSome))

/-- The head waits before it issues. -/
def State.held (s : State) (i : Instr) : Bool :=
  s.interlocked i || s.behind i || (runsAhead i && 8 ≤ s.core.sluices)

/-! The firmware context's issue slots (R34). -/

/-- The head at place k of a line entry is a vector instruction. -/
def vectorAt (c : Core) (e : LineEntry) (k : Nat) : Bool :=
  match decode (lineHead e.halves k) (lineTail e.halves k) with
  | .ok i => isVector c i
  | .error _ => false

/-- The user hart stands at a line boundary or at a vector-instruction boundary. -/
def Core.atBoundary (c : Core) : Bool :=
  match c.line with
  | none => true
  | some e => e.base != lineBase c.pc || slotOf c.pc ≤ 1 || vectorAt c e (slotOf c.pc) || vectorAt c e (slotOf c.pc - 1)

/-- The user hart of the focused core cannot use an issue slot: it waits, or the reel has no head for it, or its next head
waits. -/
def State.userIdle (s : State) : Bool :=
  let u : State := { s with core := { s.core with fw := false } }
  s.core.run != .running || u.reelWaits || match s.core.line with
    | some e => (match decode (lineHead e.halves (slotOf s.core.pc)) (lineTail e.halves (slotOf s.core.pc)) with
        | .ok i => u.held i
        | .error _ => false)
    | none => false

/-- Slots of the last 63 that firmware took from the user hart. -/
def Core.takenSlots (c : Core) : Nat := (c.taken.filter fun b => b).length

/-- The firmware context may take the next issue slot: one the user hart cannot use, or, at a boundary of the user hart,
one within the cap of `cr.fwshare` in any 64 (R34, log 58). -/
def State.fwMay (s : State) : Bool :=
  s.userIdle || (s.core.atBoundary && s.core.takenSlots < s.core.ctl.fwshare.toNat)

/-- A head issues in the next slot. A slot that the user hart could not use counts toward no cap. -/
def State.noteSlot (s : State) : State :=
  { s with core := { s.core with taken := ((s.core.fw && !s.userIdle) :: s.core.taken).take 63 } }

/-! The front end. -/

/-- What the front end hands on: a step that is complete without an instruction, an instruction that waits, or one that issues. -/
inductive Front where
  | stop (r : Res)
  | hold (i : Instr) (s : State)
  | go (i : Instr) (s : State)

/-- A waiting head issues nothing; the accesses it waits for are performed unless the machine leaves them. -/
def State.waitHead (s : State) : State :=
  let n := s.core.num
  let s := if s.pick.deferS then s else (s.settleS n).runS n true (s.coreAt n).fq.length
  if s.pick.deferV then s else s.settleV n

/-- Decode the head at the PC of a line entry (R86), and wait for its operands. -/
def State.issueHead (s : State) (e : LineEntry) : Front :=
  let k := slotOf s.core.curPc
  match decode (lineHead e.halves k) (lineTail e.halves k) with
  | .error bad => .stop (s.trap 0x01 bad.sub 0 (lineTail e.halves k ++ lineHead e.halves k))
  | .ok i => if s.held i then .hold i s else .go i s

/-- The reel has gone past head h without entering a line there: its pilot's transfer at h was not taken (R25, R79). -/
def State.reelStays (s : State) (q : Quad) (h : Nat) : Bool :=
  let p := s.coreAt (4 * q.num + pilotOf q.attached)
  h < q.reel.led || (h == q.reel.led && p.heads == h && p.line.isSome)

/-- The line that the reel of quad q has for an entry after h heads, when it has fetched it. -/
def State.reelLine (s : State) (q : Quad) (h : Nat) : Option LineEntry :=
  match q.reel.lineBy h with
  | some (k, e) => if k = h ∨ s.reelStays q h then some e else none
  | none => none

/-- The line of the PC as the running context's entry gets it: the reel fetches an entry once for all attached cores; the
firmware context and a core that is cut loose fetch for themselves (R26, R79). An address where memory holds nothing gives
zeros, which name no head (R70, R150, log 53). -/
def State.entryLine (s : State) : State × LineEntry :=
  let base := lineBase s.core.curPc
  let own : LineEntry := { base := base, halves := s.fetchLine base.toNat }
  if s.core.fw || !s.attached s.core.num then (s, own)
  else
    let q := s.quadAt s.core.quadNum
    match s.reelLine q s.core.heads with
    | some e => (s, if e.base = base then e else own)
    | none => (s.setQuad { q with reel := { q.reel with lines := q.reel.lines ++ [(s.core.heads, own)] } }, own)

/-- Enter the line of the PC (R79, R80). -/
def State.enter (s : State) : Front :=
  let (s, e) := s.entryLine
  match lineFault e.halves s.core.curPc with
  | some sub => .stop (s.trap 0x02 sub 0 e.base)
  | none => (s.setLine e).issueHead e

/-- Fetch and decode for the context that runs, once the reel issues the head. -/
def State.front (s : State) : Front :=
  if s.reelWaits then .stop (.next s.waitHead)
  else match s.core.curLine with
    | some e => if e.base = lineBase s.core.curPc then s.issueHead e else s.enter
    | none => s.enter

end Sys2Proof.Machine
end

