-- ==== Sys2Proof/Machine/Waits.lean ====
section
/-! DEFINITION. What ends the waits of R40. -/

namespace Sys2Proof.Machine

/-- C of a completed generation (R186). -/
def Barrier.clockOf (b : Barrier) (gen : Nat) : Nat := b.clocks.getD gen 0

/-- The focused hart waits at a BAR: when the generation has completed it leaves with its clocks raised, or
carries the BAR out afresh (R330). -/
def State.barrierWake (s : State) (scope : Scope) (inst gen : Nat) (again : Bool) : State :=
  let b := s.barrierAt s.core scope inst
  if b.gen ≤ gen then s
  else
    let s := { s with core := { s.core with run := .running } }
    if again then s else (s.raiseClocks s.core.num (b.clockOf gen)).advance

/-- The open JOIN at a PC of a quad. -/
def State.joinAt (s : State) (q : Nat) (pc : Word) : Option JoinState := (s.quadAt q).joins.find? fun j => j.pc == pc

/-- The time-out count of a JOIN has reached its limit (R29). -/
def State.joinExpired (s : State) (q : Nat) (pc : Word) : Bool :=
  match s.joinAt q pc with
  | some { limit := some l, started := t, .. } => t + l ≤ s.cycle (4 * q)
  | _ => false

/-- Queue q of the core's launch. -/
def State.queueOf (s : State) (c : Core) (q : Nat) : Option Queue :=
  match s.launchOf c with
  | some l => l.queues[q]?
  | none => none

/-- Entries of queue q of the core's launch that QRECVs in vector queues of this package will take (R213, log 61). -/
def State.reserved (s : State) (q : Nat) : Nat :=
  ((s.cores.filter fun c => c.flight.map FlightId.launch == s.core.flight.map FlightId.launch).flatMap fun c =>
    c.lates.filter fun l => l.takes == some q).length

/-- The row of the opcode table that ends the focused hart's wait now, when its condition holds (R40, R41). -/
def State.wakeRow (s : State) (w : Wait) : Option Instr :=
  let n := s.core.num
  match w with
  | .sleep t => if t.toNat ≤ s.time.toNat then some (.sleepWake n) else none
  | .engine t _ _ => if t.toNat ≤ s.time.toNat then some (.ewaitWake n) else none
  | .queue q _ =>
    match s.queueOf s.core q with
    | some k => if k.entries ≠ [] ∨ k.closed then some (.qrecvWake n) else none
    | none => none
  | .join _ => if s.joinExpired (n / 4) s.core.pc then some (.joinTimeout (n / 4) s.core.pc) else none
  | .barrier .. | .trap .. => none

/-- A join-timeout trap in the focused user hart, which enters once its vector queue has drained (R33). -/
def State.enterJoinTrap (s : State) (sub : BitVec 8) (val : Word) : State :=
  let s := s.drainCore s.core.num
  if s.core.drained then { s with core := { s.core with run := .running } }.trapEntry 0x0A sub 0 val
  else { s with core := { s.core with run := .waiting (.trap sub val) } }

/-- The focused hart has arrived at the open JOIN of its PC. -/
def State.stillJoins (s : State) : Bool :=
  match s.joinAt s.core.quadNum s.core.pc with
  | some j => j.arrived.any fun a => a.1 == s.core.num % 4
  | none => false

/-- The focused hart in a wait that no row of the table ends. A hart whose JOIN lost its arrivals arrives again (R345). -/
def State.stayWaiting (s : State) (w : Wait) : State :=
  match w with
  | .barrier scope inst gen again => s.barrierWake scope inst gen again
  | .join _ => if s.stillJoins then s else { s with core := { s.core with run := .running } }
  | .trap sub val => s.enterJoinTrap sub val
  | _ => s

/-- A harvest has completed on every package of its launch; firmware posts it (R285). -/
def State.harvestEverywhere (s : State) (launch : Nat) (num : BitVec 32) : State :=
  match s.launchAt launch with
  | some l =>
    if num = l.last ∧ l.everywhere ≠ num then
      (s.setLaunch { l with everywhere := num }).postLaunch launch 5 0 (num.setWidth 64)
    else s
  | none => s

end Sys2Proof.Machine
end

