-- ==== Sys2Proof/Machine/Control.lean ====
section
/-! DEFINITION. Control flow: B, J, JAL, JALR, LOOP, SETVL, SETVLB, JOIN, DETACH, EXIT (R28 to R30, R53, R78, R136,
R329, R335, R340, R344, R345, R349, R364). -/

namespace Sys2Proof.Machine

/-- TB target (R78). -/
def Core.target (c : Core) (t : Target) : Word :=
  lineBase c.curPc + ((t.line.signExtend 64) <<< 6) + (t.slot.setWidth 64 <<< 1)

/-- TJ target (R78). -/
def Core.targetJ (c : Core) (t : TargetJ) : Word :=
  lineBase c.curPc + ((t.line.signExtend 64) <<< 6) + (t.slot.setWidth 64 <<< 1)

/-- The condition of B and VCMP holds (R329). -/
def condHolds (cond : Cond) (a b : Word) : Bool :=
  match cond with
  | .eq => a == b
  | .ne => a != b
  | .lt => a.slt b
  | .ge => !a.slt b
  | .ltu => a.ult b
  | .geu => !a.ult b

/-- R329: a control transfer, taken or not. -/
def execB (a b : XName) (cond : Cond) (t : Target) (s : State) : Res :=
  .next (if condHolds cond (s.x a).val (s.x b).val then s.jump (s.core.target t)
    else s.arrive s.core.seqPc false true)

/-- R344. -/
def execJ (t : Target) (s : State) : Res := .next (s.jump (s.core.target t))

/-- R344; the link is untagged. -/
def execJal (d : XName) (t : TargetJ) (s : State) : Res :=
  .next ((s.putX d s.core.seqPc).jump (s.core.targetJ t))

/-- R344: x a is read before x d is written. -/
def execJalr (d a : XName) (imm : BitVec 32) (s : State) : Res :=
  .next ((s.putX d s.core.seqPc).jump ((s.x a).val + imm64 imm))

/-- R136, R349. -/
def execLoop (a : XName) (stages : BitVec 3) (t : Target) (s : State) : Res :=
  let c := s.core
  let trip := (s.x a).val
  let stop := c.target t
  if c.loop.active ∨ stop.toNat ≤ c.seqPc.toNat ∨ 2 ^ 64 ≤ trip.toNat + stages.toNat then
    s.illegal (.loop a stages t) 0x05
  else if trip = 0 then .next (s.jump stop)
  else
    let loop : LoopState := { active := true, start := c.seqPc, stop := stop, j := 1, n := trip + stages.setWidth 64,
                              trip := trip, stages := stages }
    .next ({ s with core := { c with loop := loop, ctl := { c.ctl with gates := 3 } } }.arrive c.seqPc false true)

/-- min(avl, VLMAX), written to cr.vl with cr.vcfg and to x d (R364). -/
def State.setVector (s : State) (d a : XName) (ew : Ew) (span : Span) : State :=
  let vl := min (s.x a).val.toNat (vlmax (Span.count span) (Ew.bytes ew))
  let s := { s with core := { s.core with ctl := { s.core.ctl with vl := BitVec.ofNat 12 vl, ew := ew, span := span } } }
  s.putX d (BitVec.ofNat 64 vl)

/-- R364. -/
def execSetvl (d a : XName) (ew : Ew) (span : Span) (s : State) : Res := .next (s.setVector d a ew span).advance

/-- R364, R33: a control transfer, taken when vl is 0. -/
def execSetvlb (d a : XName) (ew : Ew) (span : Span) (t : Target) (s : State) : Res :=
  let s1 := s.setVector d a ew span
  .next (if s1.core.ctl.vl = 0 then s1.jump (s1.core.target t) else s1.arrive s1.core.seqPc false true)

/-- The join-timeout trap in every core waiting at a JOIN; tval holds the arrived set and the core's own id
(R29, R30). The JOIN is no longer open. -/
def State.joinTrap (s : State) (q : Nat) (j : JoinState) (sub : BitVec 8) : State :=
  let qd := s.quadAt q
  let set : BitVec 4 := j.arrived.foldl (fun a e => a ||| bitAt e.1) 0
  let s := s.setQuad { qd with joins := qd.joins.filter fun k => k.pc != j.pc }
  j.arrived.foldl (fun s e => s.withUser (4 * q + e.1) fun s => s.enterJoinTrap sub ((set ++ e.2).setWidth 64)) s

/-- An arrival at the JOIN of the PC (R28): participants, id, limit. -/
def JoinState.arrive (j : JoinState) (k : Nat) (mask : BitVec 4) (id : BitVec 8) (limit : BitVec 32) : JoinState :=
  let l := if limit = 0 then j.limit else some (match j.limit with
    | some m => min m limit.toNat
    | none => limit.toNat)
  { j with arrived := j.arrived ++ [(k, id)], members := j.members ||| mask ||| bitAt k, limit := l }

/-- The cores that receive the JOIN with the focused one: every attached core of its quad, since the reel issues it to all of
them; a core that is cut loose has it alone (R28). -/
def State.joiners (s : State) : List Nat :=
  if s.attached s.core.num then (s.quadAt s.core.quadNum).attachedCores else [s.core.num]

/-- Every core that receives the JOIN stands at it. -/
def State.joinIssues (s : State) : Bool := s.joiners.all fun n =>
  let d := s.coreAt n
  n == s.core.num || (d.heads == s.core.heads && d.pc == s.core.pc && d.run == .running)

/-- The cores of the JOIN arrive at the PC of the focused one (R28). An arrival that lowers the limit below the count raises the
time-out at once, and no trap for different ids is raised after the limit (R29, R30). -/
def State.arriveJoin (s : State) (mask : BitVec 4) (id : BitVec 8) : State :=
  let c := s.core
  let q := c.quadNum
  let qd := s.quadAt q
  let open_ := (s.joinAt q c.pc).getD
    { pc := c.pc, arrived := [], members := qd.attached, limit := none, started := s.cycle c.num, late := 0 }
  let j := s.joiners.foldl (fun (j : JoinState) n => j.arrive (n % 4) mask id (s.coreAt n).ctl.jointime) open_
  let s1 := s.setQuad { qd with joins := upsert (fun k => k.pc.toNat) qd.joins j }
  if s1.joinOver q j then s1.joinTrap q j 0x01
  else if open_.arrived.any fun e => e.2 != id then s1.joinTrap q j 0x02
  else (s.joiners.foldl (fun s n => s.withUser n fun s => s.safePoint (some (.join id))) s1).finishJoins q

/-- R28 to R30, R345: an attached core arrives once every attached core has come to the JOIN; cores whose JOIN is over take
their time-out before the arrival. In the firmware context there is no reel to join, and JOIN only advances (log 16). -/
def execJoin (mask : BitVec 4) (id : BitVec 8) (s : State) : Res :=
  if s.core.fw then .next s.advance
  else if !s.joinIssues then .next s
  else
    let q := s.core.quadNum
    match s.joinAt q s.core.pc with
    | some j => if s.joinOver q j then .next (s.joinTrap q j 0x01) else .next (s.arriveJoin mask id)
    | none => .next (s.arriveJoin mask id)

/-- R29. The count of the JOIN at pc of a quad has reached its limit. -/
def execJoinTimeout (quad : Nat) (pc : Word) (s : State) : Res :=
  match s.joinAt quad pc with
  | none => .next s
  | some j => if s.joinExpired quad pc then .next (s.joinTrap quad j 0x01) else .next s

/-- R27, R335: the attached cores, which all received the DETACH, are cut loose with the executing core. -/
def execDetach (s : State) : Res :=
  let q := s.quadAt s.core.quadNum
  let s := if !s.core.fw && q.attached.getLsbD (s.core.num % 4) then s.setQuad { q with attached := 0, reel := .start } else s
  .next s.advance

/-- R340. Firmware's own EXIT has no hart to retire and only advances (log 16). -/
def execExit (s : State) : Res :=
  if s.core.fw then .next s.advance
  else s.afterDrain fun s =>
    if s.core.cmds ≠ [] then .next s else s.checkDeferred fun s => .next (s.retire s.core.num)

end Sys2Proof.Machine
end

