-- ==== Sys2Proof/Machine/Numbers.lean ====
section
/-! DEFINITION. Numbers: formats, values, rounding and conversion (R101 to R110), exact arithmetic on values, and the
functions of R112. A result is exact, or a dyadic number with a sticky last bit that rounds as the exact one does. -/

namespace Sys2Proof.Machine

/-! Flag classes (R64, R120). -/

abbrev FlagSet := BitVec 6

def fNone : FlagSet := 0
def fNv : FlagSet := 0x01
def fDz : FlagSet := 0x02
def fOf : FlagSet := 0x04
def fUf : FlagSet := 0x08
def fNx : FlagSet := 0x10
def fSat : FlagSet := 0x20

/-! Formats. -/

/-- A floating format: width in bits, precision (trailing bits and the hidden one), bias; `ieee` has infinities and
both zeros always, the binary8 family one NaN, one zero and infinities under `.inf` (R102, R104). -/
structure Layout where
  bits   : Nat
  prec   : Nat
  bias   : Nat
  signed : Bool
  ieee   : Bool
deriving DecidableEq, Repr

def Layout.b16 : Layout := { bits := 16, prec := 11, bias := 15, signed := true, ieee := true }
def Layout.bf16 : Layout := { bits := 16, prec := 8, bias := 127, signed := true, ieee := true }
def Layout.b32 : Layout := { bits := 32, prec := 24, bias := 127, signed := true, ieee := true }
def Layout.b64 : Layout := { bits := 64, prec := 53, bias := 1023, signed := true, ieee := true }
def Layout.b8 (p : Nat) : Layout := { bits := 8, prec := p, bias := 2 ^ (7 - p), signed := true, ieee := false }
def Layout.ub8 (p : Nat) : Layout := { bits := 8, prec := p, bias := 2 ^ (8 - p), signed := false, ieee := false }

/-- Layout of a format; none for the integers. -/
def layoutOf : Fmt → Option Layout
  | .i8 | .ui8 => none
  | .b8p1 => some (.b8 1) | .b8p2 => some (.b8 2) | .b8p3 => some (.b8 3) | .b8p4 => some (.b8 4)
  | .b8p5 => some (.b8 5) | .b8p6 => some (.b8 6) | .b8p7 => some (.b8 7)
  | .ub8p3 => some (.ub8 3) | .ub8p4 => some (.ub8 4)
  | .b16 => some .b16 | .bf16 => some .bf16 | .b32 => some .b32 | .b64 => some .b64

/-- The format of vector arithmetic at an element width (R111). -/
def floatOf : Ew → Layout
  | .e8 | .e16 => .b16
  | .e32 => .b32
  | .e64 => .b64

/-- Bits of a magnitude code. -/
def Layout.magBits (f : Layout) : Nat := if f.signed then f.bits - 1 else f.bits
def Layout.signBit (f : Layout) : Nat := if f.signed then 2 ^ (f.bits - 1) else 0
/-- Magnitude code of infinity, where the format has one. -/
def Layout.infCode (f : Layout) (inf : Bool) : Option Nat :=
  if f.ieee then some (2 ^ (f.bits - 1) - 2 ^ (f.prec - 1))
  else if inf then some (if f.signed then 0x7F else 0xFE)
  else none
/-- Largest finite magnitude code (R105, R107). -/
def Layout.maxCode (f : Layout) (inf : Bool) : Nat :=
  match f.infCode inf with
  | some k => k - 1
  | none => if f.signed then 0x7F else 0xFE
/-- The canonical NaN (R102 to R104). -/
def Layout.nan (f : Layout) : Nat :=
  if f.ieee then 2 ^ (f.bits - 1) - 2 ^ (f.prec - 1) + 2 ^ (f.prec - 2)
  else if f.signed then 0x80 else 0xFF
/-- Least exponent of a normal number. -/
def Layout.emin (f : Layout) : Int := 1 - f.bias

/-- A value: NaN, infinity, or a sign with mag * 2^exp. -/
inductive FNum where
  | nan (sig : Bool)
  | inf (neg : Bool)
  | fin (neg : Bool) (mag : Nat) (exp : Int)
deriving DecidableEq, Repr

/-- Value of a magnitude code that is finite (R104). -/
def Layout.finite (f : Layout) (neg : Bool) (m : Nat) : FNum :=
  let e := m / 2 ^ (f.prec - 1)
  let t := m % 2 ^ (f.prec - 1)
  if e = 0 then .fin neg t (f.emin - (f.prec - 1 : Nat))
  else .fin neg (2 ^ (f.prec - 1) + t) (f.emin + (e - 1 : Nat) - (f.prec - 1 : Nat))

/-- Value of a code (R102, R104). -/
def Layout.value (f : Layout) (inf : Bool) (c : Nat) : FNum :=
  let m := c % 2 ^ f.magBits
  let neg := f.signed && 2 ^ (f.bits - 1) ≤ c
  if f.ieee then
    let top := 2 ^ (f.bits - 1) - 2 ^ (f.prec - 1)
    if m = top then .inf neg
    else if top < m then .nan (m < top + 2 ^ (f.prec - 2))
    else f.finite neg m
  else if c = f.nan then .nan false
  else if f.infCode inf = some m then .inf neg
  else f.finite neg m

/-! Rounding (R106, R107). -/

inductive Mode where
  | rne | rz | ru | rd
deriving DecidableEq, Repr

/-- Number of bits of m. -/
def bitLength (m : Nat) : Nat := if m = 0 then 0 else Nat.log2 m + 1

/-- m * 2^x as a multiple of 2^q: whole part, and whether the rest is zero, below, at or above one half. -/
def quantise (m : Nat) (x q : Int) : Nat × Option Ordering :=
  if q ≤ x then (m * 2 ^ (x - q).toNat, none)
  else
    let k := (q - x).toNat
    let r := m % 2 ^ k
    (m / 2 ^ k, if r = 0 then none else some (compare (2 * r) (2 ^ k)))

/-- Whether the mode takes the neighbour of larger magnitude. -/
def roundsUp (mode : Mode) (neg : Bool) (code : Nat) : Option Ordering → Bool
  | none => false
  | some o =>
    match mode with
    | .rne => o == .gt || (o == .eq && code % 2 == 1)
    | .rz => false
    | .ru => !neg
    | .rd => neg

/-- Magnitude code of m * 2^x in an exponent range without an upper bound, and whether it is exact. -/
def Layout.roundMag (f : Layout) (mode : Mode) (neg : Bool) (m : Nat) (x : Int) : Nat × Bool :=
  let e : Int := if m = 0 then f.emin else max f.emin (x + (bitLength m : Int) - 1)
  let r := quantise m x (e - (f.prec - 1 : Nat))
  let code := (e - f.emin).toNat * 2 ^ (f.prec - 1) + r.1
  (if roundsUp mode neg code r.2 then code + 1 else code, r.2.isNone)

/-- A magnitude code with its sign; binary8 has one zero. -/
def Layout.withSign (f : Layout) (neg : Bool) (m : Nat) : Nat :=
  if neg && (f.ieee || m != 0) then f.signBit + m else m

/-- Underflow and inexact of a result that did not overflow (R107). -/
def Layout.tiny (f : Layout) (code : Nat) (exact : Bool) : FlagSet :=
  (if code ≠ 0 ∧ code < 2 ^ (f.prec - 1) ∧ !exact then fUf else fNone) ||| (if exact then fNone else fNx)

/-- The IEEE 754 overflow result by mode, infinity or largest finite (R108). -/
def overflowsToInf (mode : Mode) (neg : Bool) : Bool :=
  match mode with
  | .rne => true
  | .rz => false
  | .ru => !neg
  | .rd => neg

/-- Convert to a floating format (R108). `ovf` is the policy. -/
def Layout.convert (f : Layout) (mode : Mode) (inf ovf : Bool) (x : FNum) : Nat × FlagSet :=
  match x with
  | .nan sig => (f.nan, if sig then fNv else fNone)
  | .inf neg =>
    if neg && !f.signed then (if ovf then (f.nan, fNv) else (0, fSat))
    else match f.infCode inf with
      | some k => (f.withSign neg k, fNone)
      | none => if ovf then (f.nan, fNv) else (f.withSign neg (f.maxCode inf), fSat)
  | .fin neg m e =>
    let (code, exact) := f.roundMag mode neg m e
    if m = 0 then (f.withSign neg 0, fNone)
    else if neg && !f.signed then
      (if code = 0 then (0, f.tiny code exact) else if ovf then (f.nan, fNv) else (0, fSat ||| fNx))
    else if code ≤ f.maxCode inf then (f.withSign neg code, f.tiny code exact)
    else if !ovf then (f.withSign neg (f.maxCode inf), fOf ||| fNx ||| fSat)
    else if overflowsToInf mode neg then
      (match f.infCode inf with
        | some k => f.withSign neg k
        | none => f.nan, fOf ||| fNx)
    else (f.withSign neg (f.maxCode inf), fOf ||| fNx)

/-- The result of an IEEE operation in a format. -/
def Layout.round (f : Layout) (mode : Mode) (x : FNum) : Nat × FlagSet := f.convert mode false true x

/-- An integer rounded from m * 2^x by the mode. -/
def roundInt (mode : Mode) (neg : Bool) (m : Nat) (x : Int) : Int × Bool :=
  let r := quantise m x 0
  let k := if roundsUp mode neg r.1 r.2 then r.1 + 1 else r.1
  (if neg then -(k : Int) else k, r.2.isNone)

/-- Clamp an integer to `i8` or `ui8`. -/
def clampInt (u : Bool) (v : Int) : Int :=
  if u then max 0 (min 255 v) else max (-128) (min 127 v)

/-- Bits of an integer in w bits. -/
def intBits (w : Nat) (v : Int) : Nat := (v % (2 ^ w : Nat)).toNat

/-- Convert to `i8` or `ui8` (R109); an infinity lies outside the range on its side. -/
def convertInt (u : Bool) (mode : Mode) (x : FNum) : Nat × FlagSet :=
  match x with
  | .nan _ => (0, fNv)
  | .inf neg => (intBits 8 (clampInt u (if neg then -1000 else 1000)), fNv ||| fSat)
  | .fin neg m e =>
    let (v, exact) := roundInt mode neg m e
    if clampInt u v = v then (intBits 8 v, if exact then fNone else fNx)
    else (intBits 8 (clampInt u v), fNv ||| fSat)

/-- An integer as a value. -/
def FNum.ofInt (v : Int) : FNum := .fin (v < 0) v.natAbs 0

/-- Two's complement reading of the w low bits. -/
def signedOf (w c : Nat) : Int := if c % 2 ^ w < 2 ^ (w - 1) then (c % 2 ^ w : Nat) else (c % 2 ^ w : Nat) - (2 ^ w : Nat)

/-- Value of an element in any format (R387). -/
def fmtValue (fmt : Fmt) (inf : Bool) (c : Nat) : FNum :=
  match layoutOf fmt with
  | some f => f.value inf c
  | none => match fmt with
    | .i8 => .ofInt (signedOf 8 c)
    | _ => .ofInt (c % 256 : Nat)

/-- Convert to any format (R108 to R110). -/
def fmtConvert (fmt : Fmt) (mode : Mode) (inf ovf : Bool) (x : FNum) : Nat × FlagSet :=
  match layoutOf fmt with
  | some f => f.convert mode inf ovf x
  | none => convertInt (fmt == .ui8) mode x

/-! Exact arithmetic. -/

def FNum.negate : FNum → FNum
  | .nan s => .nan s
  | .inf n => .inf !n
  | .fin n m e => .fin (!n) m e

/-- A NaN is signaling. -/
def FNum.signals : FNum → Bool
  | .nan s => s
  | _ => false

def FNum.isNan : FNum → Bool
  | .nan _ => true
  | _ => false

/-- nv for signaling operands. -/
def sigFlags (l : List FNum) : FlagSet := if l.any FNum.signals then fNv else fNone

/-- A signed dyadic number as an integer multiple of 2^q, for q at or below its exponent. -/
def scaled (neg : Bool) (m : Nat) (e q : Int) : Int :=
  let k : Nat := m * 2 ^ (e - q).toNat
  if neg then -(k : Int) else k

/-- A sum (IEEE 754), with nv for infinities of both signs. -/
def FNum.add (mode : Mode) (a b : FNum) : FNum × FlagSet :=
  match a, b with
  | .nan _, _ => (.nan false, sigFlags [a, b])
  | _, .nan _ => (.nan false, sigFlags [a, b])
  | .inf p, .inf q => if p = q then (.inf p, fNone) else (.nan false, fNv)
  | .inf p, _ => (.inf p, fNone)
  | _, .inf q => (.inf q, fNone)
  | .fin p m e, .fin q n g =>
    let x := min e g
    let v := scaled p m e x + scaled q n g x
    if v = 0 then (.fin (if p = q then p else mode == .rd) 0 x, fNone)
    else (.fin (v < 0) v.natAbs x, fNone)

/-- A product, with nv for an infinity times zero. -/
def FNum.mul (a b : FNum) : FNum × FlagSet :=
  match a, b with
  | .nan _, _ => (.nan false, sigFlags [a, b])
  | _, .nan _ => (.nan false, sigFlags [a, b])
  | .inf p, .inf q => (.inf (p != q), fNone)
  | .inf p, .fin q n _ => if n = 0 then (.nan false, fNv) else (.inf (p != q), fNone)
  | .fin p m _, .inf q => if m = 0 then (.nan false, fNv) else (.inf (p != q), fNone)
  | .fin p m e, .fin q n g => (.fin (p != q) (m * n) (e + g), fNone)

/-- A dyadic number of the value q * 2^x, or just above it when `more`. -/
def sticky (neg : Bool) (q : Nat) (more : Bool) (x : Int) : FNum := .fin neg (2 * q + (if more then 1 else 0)) (x - 1)

/-- A quotient, with nv and dz (R388). -/
def FNum.div (a b : FNum) : FNum × FlagSet :=
  match a, b with
  | .nan _, _ => (.nan false, sigFlags [a, b])
  | _, .nan _ => (.nan false, sigFlags [a, b])
  | .inf _, .inf _ => (.nan false, fNv)
  | .inf p, .fin q _ _ => (.inf (p != q), fNone)
  | .fin p _ _, .inf q => (.fin (p != q) 0 0, fNone)
  | .fin p m e, .fin q n g =>
    if n = 0 then (if m = 0 then (.nan false, fNv) else (.inf (p != q), fDz))
    else
      let w := m * 2 ^ 128
      (sticky (p != q) (w / n) (w % n != 0) (e - g - 128), fNone)

/-- The bits k - 1 to 0 of a root that stands at r. -/
def rootFrom (v : Nat) : Nat → Nat → Nat
  | 0, r => r
  | k + 1, r => rootFrom v k (if (r + 2 ^ k) * (r + 2 ^ k) ≤ v then r + 2 ^ k else r)

/-- The integer square root. -/
def root (v : Nat) : Nat := rootFrom v (bitLength v / 2 + 1) 0

/-- m * 2^e with an even exponent. -/
def evenExp (m : Nat) (e : Int) : Nat × Int := if e % 2 = 0 then (m, e) else (2 * m, e - 1)

/-- √A (R112, R390). -/
def FNum.sqrt (a : FNum) : FNum × FlagSet :=
  match a with
  | .nan _ => (.nan false, sigFlags [a])
  | .inf neg => if neg then (.nan false, fNv) else (.inf false, fNone)
  | .fin neg m e =>
    if m = 0 then (a, fNone)
    else if neg then (.nan false, fNv)
    else
      let (n, g) := evenExp m e
      let w := n * 2 ^ 256
      let r := root w
      (sticky false r (r * r != w) (g / 2 - 128), fNone)

/-- 1 ÷ A (R112). -/
def FNum.rcp (a : FNum) : FNum × FlagSet := FNum.div (.fin false 1 0) a

/-- 1 ÷ √A (R112). -/
def FNum.rsqrt (a : FNum) : FNum × FlagSet :=
  match a with
  | .nan _ => (.nan false, sigFlags [a])
  | .inf neg => if neg then (.nan false, fNv) else (.fin false 0 0, fNone)
  | .fin neg m e =>
    if m = 0 then (.inf neg, fDz)
    else if neg then (.nan false, fNv)
    else
      let (n, g) := evenExp m e
      let w := 2 ^ 512 / n
      let r := root w
      (sticky false r (r * r != w || 2 ^ 512 % n != 0) (-(g / 2) - 256), fNone)

/-! 2^A and log₂ A by series in fixed point with 1,400 fraction bits (log 15). -/

/-- Fraction bits, and a bound on the sum of the truncation errors, in units of the last place. -/
def workBits : Nat := 1400
def slack : Nat := 2 ^ 20

/-- One term of a series z^(2k+1) / (2k+1) for each count. -/
def atanhTerms (z2 : Nat) : Nat → Nat → Nat → Nat → Nat
  | 0, _, _, acc => acc
  | n + 1, k, p, acc => atanhTerms z2 n (k + 2) (p * z2 / 2 ^ workBits) (acc + p / k)

/-- ln of a number from 1 up to 2, n / d, as a fixed-point number a little below it. -/
def lnOf (n d : Nat) : Nat :=
  let z := (n - d) * 2 ^ workBits / (n + d)
  2 * atanhTerms (z * z / 2 ^ workBits) 460 1 z 0

/-- ln 2. -/
def ln2 : Nat := 2 * atanhTerms (2 ^ workBits / 9) 460 1 (2 ^ workBits / 3) 0

/-- The sum of t^k / k!. -/
def expTerms (t : Nat) : Nat → Nat → Nat → Nat → Nat
  | 0, _, _, acc => acc
  | n + 1, k, p, acc => expTerms t n (k + 1) (p * t / 2 ^ workBits / k) (acc + p)

/-- e^t for a fixed-point t below 1. -/
def expOf (t : Nat) : Nat := expTerms t 300 1 (2 ^ workBits) 0

/-- A magnitude that lies within the slack of v / 2^workBits, for rounding. -/
def near (neg : Bool) (v : Nat) (x : Int) : FNum := sticky neg (v / slack - 2) true (x - workBits + 20)

/-- 2^A (R112, R390). From 2^±20000 on every format overflows, or rounds as any smaller number does. -/
def FNum.exp2 (a : FNum) : FNum × FlagSet :=
  match a with
  | .nan _ => (.nan false, sigFlags [a])
  | .inf neg => (if neg then .fin false 0 0 else .inf false, fNone)
  | .fin neg m e =>
    let q := quantise m e 0
    if 20000 < q.1 then (.fin false 1 (if neg then -20000 else 20000), fNone)
    else if q.2.isNone then (.fin false 1 (if neg then -(q.1 : Int) else q.1), fNone)
    else
      -- A = whole + f with 0 < f < 1
      let part := m % 2 ^ (-e).toNat * 2 ^ workBits / 2 ^ (-e).toNat
      let whole : Int := if neg then -(q.1 : Int) - 1 else q.1
      let f := if neg then 2 ^ workBits - part else part
      (near false (expOf (f * ln2 / 2 ^ workBits)) whole, fNone)

/-- log₂ A (R112, R390). -/
def FNum.log2 (a : FNum) : FNum × FlagSet :=
  match a with
  | .nan _ => (.nan false, sigFlags [a])
  | .inf neg => if neg then (.nan false, fNv) else (.inf false, fNone)
  | .fin neg m e =>
    if m = 0 then (.inf true, fDz)
    else if neg then (.nan false, fNv)
    else
      let k := bitLength m - 1
      let x : Int := e + k
      if m = 2 ^ k then (.fin (x < 0) x.natAbs 0, fNone)
      else
        let l := lnOf m (2 ^ k) * 2 ^ workBits / ln2
        if 0 ≤ x then (near false (x.toNat * 2 ^ workBits + l) 0, fNone)
        else (near true (x.natAbs * 2 ^ workBits - l) 0, fNone)

/-! Order (R113). -/

/-- Comparison of two values that are not NaN; -0 and +0 are equal. -/
def FNum.cmp (a b : FNum) : Ordering :=
  match a, b with
  | .inf p, .inf q => if p = q then .eq else if p then .lt else .gt
  | .inf p, _ => if p then .lt else .gt
  | _, .inf q => if q then .gt else .lt
  | .fin p m e, .fin q n g =>
    let x := min e g
    compare (scaled p m e x) (scaled q n g x)
  | _, _ => .eq

/-- The sign bit. -/
def FNum.neg : FNum → Bool
  | .nan _ => false
  | .inf n => n
  | .fin n _ _ => n

/-- a comes before b, -0 before +0. -/
def FNum.below (a b : FNum) : Bool :=
  match a.cmp b with
  | .lt => true
  | .gt => false
  | .eq => a.neg && !b.neg

/-- The larger or the smaller of two elements of a format (R113): the operand's own code, or the canonical NaN. -/
def Layout.extreme (f : Layout) (larger : Bool) (a b : Nat) : Nat × FlagSet :=
  let x := f.value false a
  let y := f.value false b
  let fl := sigFlags [x, y]
  match x.isNan, y.isNan with
  | true, true => (f.nan, fl)
  | true, false => (b, fl)
  | false, true => (a, fl)
  | false, false => (if (if larger then x.below y else y.below x) then b else a, fl)

/-- Truth of a float condition, and nv (R113). -/
def fcond (c : FCond) (x y : FNum) : Bool × FlagSet :=
  let un := x.isNan || y.isNan
  let quiet := sigFlags [x, y]
  let loud : FlagSet := if un then fNv else fNone
  match c with
  | .eq => (!un && x.cmp y == .eq, quiet)
  | .ne => (un || x.cmp y != .eq, quiet)
  | .un => (un, quiet)
  | .lt => (!un && x.cmp y == .lt, loud)
  | .le => (!un && x.cmp y != .gt, loud)
  | .gt => (!un && x.cmp y == .gt, loud)
  | .ge => (!un && x.cmp y != .lt, loud)

/-- An exact sum of many addends with the precedence of R115 and R408: NaN, infinities of both signs (nv), an
infinity, the dyadic sum. `loud`: nv for infinities of both signs beside a NaN too (R115). The sign of an exactly
zero sum is the caller's. -/
def exactSum (loud : Bool) (l : List FNum) : FNum × FlagSet :=
  let sig := sigFlags l
  let pos := l.any fun x => x == .inf false
  let neg := l.any fun x => x == .inf true
  let q := l.foldl (fun q x => match x with | .fin _ _ e => min q e | _ => q) (0 : Int)
  let v := l.foldl (fun v x => match x with | .fin n m e => v + scaled n m e q | _ => v) (0 : Int)
  if l.any FNum.isNan then (.nan false, sig ||| (if loud && pos && neg then fNv else fNone))
  else if pos && neg then (.nan false, fNv)
  else if pos then (.inf false, fNone)
  else if neg then (.inf true, fNone)
  else (.fin (v < 0) v.natAbs q, fNone)

end Sys2Proof.Machine
end

