-- ==== Sys2Proof/Machine/Flags.lean ====
section
/-! DEFINITION. Rounding modes in force and the merge of floating flags into `cr.flags` and its index registers
(R64, R65, R120, R121). -/

namespace Sys2Proof.Machine

/-- A mode by the code of cr.flags.rm (R64). -/
def Mode.ofCode (c : BitVec 2) : Mode :=
  if c = 0 then .rne else if c = 1 then .rz else if c = 2 then .ru else .rd

/-- The mode of an instruction: its static modifier, else cr.flags.rm (R106). -/
def Core.mode (c : Core) : Rm → Mode
  | .dyn => .ofCode c.ctl.rm
  | .rne => .rne
  | .rz => .rz
  | .ru => .ru
  | .rd => .rd

/-- The lowest element that raised class k among (element, flags). -/
def raisedAt (k : Nat) (l : List (Nat × FlagSet)) : Option Nat :=
  (l.filter fun e => e.2.getLsbD k).map (fun e => e.1) |>.min?

/-- An index register after an instruction at pc (R65): written only while it is all ones. -/
def mergeIndex (old pc : Word) (el : Option Nat) : Word :=
  match el with
  | some e => if old = -1 then pc.extractLsb' 0 48 ++ BitVec.ofNat 16 e else old
  | none => old

/-- Merge the flags of an instruction's elements (R65, R121). -/
def Core.mergeFlags (c : Core) (l : List (Nat × FlagSet)) : Core :=
  { c with ctl := { c.ctl with
      flags := l.foldl (fun f e => f ||| e.2) c.ctl.flags,
      fx := c.ctl.fx.mapIdx fun k old => mergeIndex old c.curPc (raisedAt k l) } }

end Sys2Proof.Machine
end

