-- ==== Sys2Proof/Machine/Vector.lean ====
section
/-! DEFINITION. The element-wise mould (R376 to R378) and its integer members, VMERGE, VMV, VSPLAT, VCMP (R381, R384,
R400 to R405, R411, R419). -/

namespace Sys2Proof.Machine

/-! Element-wise instructions. -/

/-- The elements before the first one whose sources hold poison, and that one with the trap's tval. -/
def cut (bad : Nat → Option Word) : List Nat → List Nat × Option (Nat × Word)
  | [] => ([], none)
  | i :: r =>
    match bad i with
    | some w => ([], some (i, w))
    | none => let p := cut bad r; (i :: p.1, p.2)

/-- The first poisoned granule among register bytes, as tval (R147, R148). -/
def Core.badIn (c : Core) (cells : List Nat) (w : Nat) : Option Word :=
  (cells.findSome? fun k => c.poisonIn .vector k w).map fun g => poisonVal .vector g 0

/-- Run an instruction that stops part-way over the elements `act` of this step (R22, R61, R147, R149): `bad` finds poison
in an element's sources, `reads` are the cells that an element reads, `note` is the read of all sources by the instruction that ends,
`eff` acts on the elements that complete. -/
def State.partway (s : State) (act : List Nat) (bad : Nat → Option Word) (reads : Nat → List (StoreKind × Nat × Nat))
    (note : Core → Core) (eff : List Nat → Core → Core) (hi vl : Nat) : Res :=
  let p := cut bad act
  let part := s.core.stopPart (p.1.flatMap reads) (eff p.1)
  match p.2 with
  | some (e, w) => { s with core := part }.trapAt e 0x09 0x01 w
  | none => .next ({ s with core := if hi < vl then part else eff p.1 (note s.core) }.endVector hi vl)

/-- Elements w bytes wide of the vector banks. -/
def vecCells (w : Nat) (l : List Nat) : List (StoreKind × Nat × Nat) := l.map fun k => (.vector, k, w)

/-- As partway, reading the vector registers `regs`; an element reads and depends on what lies at the cells `deps`, w bytes each. -/
def State.elementwise (s : State) (act : List Nat) (deps : Nat → List Nat) (w : Nat) (regs : List Nat)
    (eff : List Nat → Core → Core) (hi vl : Nat) : Res :=
  s.partway act (fun i => s.core.badIn (deps i) w) (fun i => vecCells w (deps i))
    (fun c => c.noteReads .vector (c.inRegs regs)) eff hi vl

/-- Operand b: an x register's value, or a vector group. -/
inductive OperandB where
  | none
  | x (v : Word)
  | v (n : Nat)

/-- b of an instruction with the `.vx` bit (R376). -/
def State.operandB (s : State) (b : VName) (vx : Bool) : OperandB := if vx then .x (s.x b).val else .v b.toNat

def OperandB.group : OperandB → List Nat
  | .v n => [n]
  | _ => []

/-- What a member of the mould names: destination group (none: a mask), operands a, b, c, whether it reads the old
destination, whether it is floating, its control halfword. -/
structure Mould where
  d     : Option Nat
  a     : Nat
  b     : OperandB
  c     : Option Nat
  old   : Bool
  float : Bool
  ctl   : Ctrl

def Mould.sources (m : Mould) : List Nat := m.a :: (m.b.group ++ m.c.toList)

/-- The decode checks of R377 that depend on the state. -/
def Core.mouldOk (c : Core) (m : Mould) : Bool :=
  let s := c.spanOf
  let ds := m.d.toList
  (ds ++ m.sources).all (fun n => aligned n s) && c.govAligned m.ctl.gov && (!m.float || c.ctl.ew != .e8) &&
    (m.ctl.nb == .none || ds.all fun d => !share (c.physGroup d s) (c.physGroup m.a s)) &&
    ds.all fun d => m.sources.all fun n => sameOrApart (c.physGroup d s) (c.physGroup n s)

/-- First cells of the elements that element i depends on. -/
def Core.mouldDeps (c : Core) (m : Mould) (i : Nat) : List Nat :=
  let w := c.eb
  (match neighbourAt m.ctl.nb m.ctl.edge c.vlN i with
    | some j => [c.elemCell m.a w j]
    | none => []) ++
  ((m.b.group ++ m.c.toList ++ (if m.old then m.d.toList else [])).map fun n => c.elemCell n w i)

/-- Operand a of element i, and operands b and c, and the old destination. -/
def Core.opA (c : Core) (m : Mould) (i : Nat) : Nat :=
  match neighbourAt m.ctl.nb m.ctl.edge c.vlN i with
  | some j => c.elem m.a c.eb j
  | none => 0
def Core.opB (c : Core) (m : Mould) (i : Nat) : Nat :=
  match m.b with
  | .none => 0
  | .x v => v.toNat % 2 ^ (8 * c.eb)
  | .v n => c.elem n c.eb i
def Core.opC (c : Core) (m : Mould) (i : Nat) : Nat :=
  match m.c with
  | some n => c.elem n c.eb i
  | none => 0
def Core.opD (c : Core) (m : Mould) (i : Nat) : Nat :=
  match m.d with
  | some n => c.elem n c.eb i
  | none => 0

/-- Registers read whole (R123). -/
def Core.mouldRegs (c : Core) (m : Mould) : List Nat :=
  (m.sources ++ (if m.old then m.d.toList else [])).flatMap fun n => c.physGroup n c.spanOf

/-- Write elements w bytes wide of a group. -/
def Core.putElems (c : Core) (d w : Nat) (l : List (Nat × Nat)) : Core :=
  c.writeVec (l.flatMap fun e => cells (c.elemCell d w e.1) w e.2)

/-- Run the mould with a vector destination: Op(A, B, C, old D) with its flags. -/
def State.mould (s : State) (i : Instr) (m : Mould) (op : Nat → Nat → Nat → Nat → Nat × FlagSet) : Res :=
  let c := s.core
  if !c.mouldOk m then s.illegal i 0x05
  else
    s.elementwise (s.active m.ctl.gov) (c.mouldDeps m) c.eb (c.mouldRegs m)
      (fun l k =>
        let r := l.map fun e => (e, op (c.opA m e) (c.opB m e) (c.opC m e) (c.opD m e))
        (k.putElems (m.d.getD 0) c.eb (r.map fun e => (e.1, e.2.1))).mergeFlags (r.map fun e => (e.1, e.2.2)))
      s.hiElem c.vlN

/-- Run the mould with a mask destination (R384, R389). -/
def State.mouldMask (s : State) (i : Instr) (d : MName) (m : Mould) (op : Nat → Nat → Bool × FlagSet) : Res :=
  let c := s.core
  if !(c.mouldOk m && aligned d.toNat c.maskSpan) then s.illegal i 0x05
  else
    s.elementwise (s.active m.ctl.gov) (c.mouldDeps m) c.eb (c.mouldRegs m)
      (fun l k =>
        let r := l.map fun e => (e, op (c.opA m e) (c.opB m e))
        (k.putMask d (r.map fun e => (e.1, e.2.1))).mergeFlags (r.map fun e => (e.1, e.2.2)))
      s.hiElem c.vlN

/-! Integer members. -/

/-- An integer member with operands a and b. -/
def State.intOp (s : State) (i : Instr) (d a b : VName) (vx : Bool) (ct : Ctrl) (op : Nat → Nat → Nat → Nat) : Res :=
  s.mould i { d := some d.toNat, a := a.toNat, b := s.operandB b vx, c := none, old := false, float := false, ctl := ct }
    fun x y _ _ => (op (8 * s.core.eb) x y, fNone)

/-- The larger or smaller of two elements of w bits (R401). -/
def intExtreme (larger u : Bool) (w x y : Nat) : Nat :=
  let less := if u then x < y else signedOf w x < signedOf w y
  if larger then (if less then y else x) else (if less then x else y)

/-- R381. -/
def execVadd (d a b : VName) (vx : Bool) (c : Ctrl) (s : State) : Res :=
  s.intOp (.vadd d a b vx c) d a b vx c fun w x y => (x + y) % 2 ^ w
/-- R419. -/
def execVsub (d a b : VName) (vx : Bool) (c : Ctrl) (s : State) : Res :=
  s.intOp (.vsub d a b vx c) d a b vx c fun w x y => (x + 2 ^ w - y) % 2 ^ w
/-- R403. -/
def execVmul (d a b : VName) (vx : Bool) (c : Ctrl) (s : State) : Res :=
  s.intOp (.vmul d a b vx c) d a b vx c fun w x y => x * y % 2 ^ w
/-- R403. -/
def execVmulh (d a b : VName) (vx u : Bool) (c : Ctrl) (s : State) : Res :=
  s.intOp (.vmulh d a b vx u c) d a b vx c fun w x y =>
    if u then x * y / 2 ^ w else intBits w (signedOf w x * signedOf w y / (2 ^ w : Nat))
/-- R400. -/
def execVmacc (d a b : VName) (vx : Bool) (c : Ctrl) (s : State) : Res :=
  s.mould (.vmacc d a b vx c)
    { d := some d.toNat, a := a.toNat, b := s.operandB b vx, c := none, old := true, float := false, ctl := c }
    fun x y _ old => ((old + x * y) % 2 ^ (8 * s.core.eb), fNone)
/-- R401. -/
def execVmin (d a b : VName) (vx u : Bool) (c : Ctrl) (s : State) : Res :=
  s.intOp (.vmin d a b vx u c) d a b vx c (intExtreme false u)
/-- R401. -/
def execVmax (d a b : VName) (vx u : Bool) (c : Ctrl) (s : State) : Res :=
  s.intOp (.vmax d a b vx u c) d a b vx c (intExtreme true u)
/-- R381. -/
def execVand (d a b : VName) (vx : Bool) (c : Ctrl) (s : State) : Res :=
  s.intOp (.vand d a b vx c) d a b vx c fun _ x y => x &&& y
/-- R405. -/
def execVor (d a b : VName) (vx : Bool) (c : Ctrl) (s : State) : Res :=
  s.intOp (.vor d a b vx c) d a b vx c fun _ x y => x ||| y
/-- R405. -/
def execVxor (d a b : VName) (vx : Bool) (c : Ctrl) (s : State) : Res :=
  s.intOp (.vxor d a b vx c) d a b vx c fun _ x y => x ^^^ y
/-- R405. -/
def execVsll (d a b : VName) (vx : Bool) (c : Ctrl) (s : State) : Res :=
  s.intOp (.vsll d a b vx c) d a b vx c fun w x y => x * 2 ^ (y % w) % 2 ^ w
/-- R405. -/
def execVsrl (d a b : VName) (vx : Bool) (c : Ctrl) (s : State) : Res :=
  s.intOp (.vsrl d a b vx c) d a b vx c fun w x y => x / 2 ^ (y % w)
/-- R405. -/
def execVsra (d a b : VName) (vx : Bool) (c : Ctrl) (s : State) : Res :=
  s.intOp (.vsra d a b vx c) d a b vx c fun w x y => intBits w (signedOf w x / (2 ^ (y % w) : Nat))
/-- R404. -/
def execVmv (d a : VName) (c : Ctrl) (s : State) : Res :=
  s.mould (.vmv d a c) { d := some d.toNat, a := a.toNat, b := .none, c := none, old := false, float := false, ctl := c }
    fun x _ _ _ => (x, fNone)

/-- The condition of VCMP on elements of w bits (R384). -/
def intCond (cond : Cond) (w x y : Nat) : Bool :=
  match cond with
  | .eq => x == y
  | .ne => x != y
  | .lt => signedOf w x < signedOf w y
  | .ge => signedOf w y ≤ signedOf w x
  | .ltu => x < y
  | .geu => y ≤ x

/-- R384. -/
def execVcmp (d : MName) (a b : VName) (vx : Bool) (cond : Cond) (c : Ctrl) (s : State) : Res :=
  s.mouldMask (.vcmp d a b vx cond c) d
    { d := none, a := a.toNat, b := s.operandB b vx, c := none, old := false, float := false, ctl := c }
    fun x y => (intCond cond (8 * s.core.eb) x y, fNone)

/-- The gate of a mask that is data (R124). -/
def gateGov (sel : Sel) : Gov := { me := false, m := 0, g := sel.g }

/-- R402: an element depends on the operand its mask bit chooses. -/
def execVmerge (d a b : VName) (vx : Bool) (sel : Sel) (nb : Nb) (edge : Edge) (s : State) : Res :=
  let c := s.core
  let m : Mould := { d := some d.toNat, a := a.toNat, b := s.operandB b vx, c := none, old := false, float := false,
                     ctl := { gov := gateGov sel, nb := nb, edge := edge } }
  if !(c.mouldOk m && aligned sel.m.toNat c.maskSpan) then s.illegal (.vmerge d a b vx sel nb edge) 0x05
  else
    let ofB (i : Nat) : List Nat := m.b.group.map fun n => c.elemCell n c.eb i
    let ofA (i : Nat) : List Nat := (neighbourAt nb edge c.vlN i).toList.map fun j => c.elemCell m.a c.eb j
    s.partway (s.active (gateGov sel))
      (fun i => c.badIn (if c.maskBit sel.m i then ofB i else ofA i) c.eb) (fun i => vecCells c.eb (ofA i ++ ofB i))
      (fun k => k.noteReads .vector (c.inRegs (c.mouldRegs m)))
      (fun l k => k.putElems d.toNat c.eb (l.map fun i => (i, if c.maskBit sel.m i then c.opB m i else c.opA m i)))
      s.hiElem c.vlN

/-- R411. -/
def execVsplat (d : VName) (a : XName) (gov : Gov) (s : State) : Res :=
  let c := s.core
  if !(aligned d.toNat c.spanOf && c.govAligned gov) then s.illegal (.vsplat d a gov) 0x05
  else
    s.elementwise (s.active gov) (fun _ => []) c.eb []
      (fun l k => k.putElems d.toNat c.eb (l.map fun i => (i, (s.x a).val.toNat % 2 ^ (8 * c.eb))))
      s.hiElem c.vlN

end Sys2Proof.Machine
end

