-- ==== Sys2Proof/Machine/VFloat.lean ====
section
/-! DEFINITION. Vector floating-point members of the mould, VFCMP, VCVT and VRED (R386 to R392, R406 to R408). -/

namespace Sys2Proof.Machine

/-- The element width's format and the mode of an instruction. -/
def Core.fmt (c : Core) : Layout := floatOf c.ctl.ew

/-- Round an exact result with the flags that produced it. -/
def Layout.deliver (f : Layout) (mode : Mode) (x : FNum × FlagSet) : Nat × FlagSet :=
  let r := f.round mode x.1
  (r.1, r.2 ||| x.2)

/-- A member with operands a and b (R388). -/
def State.floatOp (s : State) (i : Instr) (d a b : VName) (vx : Bool) (rm : Rm) (ct : Ctrl)
    (op : Mode → FNum → FNum → FNum × FlagSet) : Res :=
  let f := s.core.fmt
  let mode := s.core.mode rm
  s.mould i { d := some d.toNat, a := a.toNat, b := s.operandB b vx, c := none, old := false, float := true, ctl := ct }
    fun x y _ _ => f.deliver mode (op mode (f.value false x) (f.value false y))

/-- A unary member (R390). -/
def State.floatUn (s : State) (i : Instr) (d a : VName) (rm : Rm) (ct : Ctrl) (op : FNum → FNum × FlagSet) : Res :=
  let f := s.core.fmt
  s.mould i { d := some d.toNat, a := a.toNat, b := .none, c := none, old := false, float := true, ctl := ct }
    fun x _ _ _ => f.deliver (s.core.mode rm) (op (f.value false x))

/-- R388. -/
def execVfadd (d a b : VName) (vx : Bool) (rm : Rm) (c : Ctrl) (s : State) : Res :=
  s.floatOp (.vfadd d a b vx rm c) d a b vx rm c fun mode x y => x.add mode y
/-- R388. -/
def execVfsub (d a b : VName) (vx : Bool) (rm : Rm) (c : Ctrl) (s : State) : Res :=
  s.floatOp (.vfsub d a b vx rm c) d a b vx rm c fun mode x y => x.add mode y.negate
/-- R388. -/
def execVfmul (d a b : VName) (vx : Bool) (rm : Rm) (c : Ctrl) (s : State) : Res :=
  s.floatOp (.vfmul d a b vx rm c) d a b vx rm c fun _ x y => x.mul y
/-- R388. -/
def execVfdiv (d a b : VName) (vx : Bool) (rm : Rm) (c : Ctrl) (s : State) : Res :=
  s.floatOp (.vfdiv d a b vx rm c) d a b vx rm c fun _ x y => x.div y

/-- A × B + C, exact (R391). -/
def fusedAdd (mode : Mode) (x y z : FNum) : FNum × FlagSet :=
  let p := x.mul y
  let q := p.1.add mode z
  (q.1, q.2 ||| p.2)

/-- R391. -/
def execVfma (d a b e : VName) (vx : Bool) (rm : Rm) (neg : Neg) (c : Ctrl) (s : State) : Res :=
  let f := s.core.fmt
  let mode := s.core.mode rm
  s.mould (.vfma d a b e vx rm neg c)
    { d := some d.toNat, a := a.toNat, b := s.operandB b vx, c := some e.toNat, old := false, float := true, ctl := c }
    fun x y z _ =>
      let x := f.value false x
      let z := f.value false z
      f.deliver mode (fusedAdd mode (if neg == .n || neg == .ns then x.negate else x) (f.value false y)
        (if neg == .s || neg == .ns then z.negate else z))

/-- R392. -/
def State.floatExtreme (s : State) (i : Instr) (larger : Bool) (d a b : VName) (vx : Bool) (ct : Ctrl) : Res :=
  s.mould i { d := some d.toNat, a := a.toNat, b := s.operandB b vx, c := none, old := false, float := true, ctl := ct }
    fun x y _ _ => s.core.fmt.extreme larger x y

/-- R392. -/
def execVfmin (d a b : VName) (vx : Bool) (c : Ctrl) (s : State) : Res :=
  s.floatExtreme (.vfmin d a b vx c) false d a b vx c
/-- R392. -/
def execVfmax (d a b : VName) (vx : Bool) (c : Ctrl) (s : State) : Res :=
  s.floatExtreme (.vfmax d a b vx c) true d a b vx c
/-- R390. -/
def execVfsqrt (d a : VName) (rm : Rm) (c : Ctrl) (s : State) : Res := s.floatUn (.vfsqrt d a rm c) d a rm c FNum.sqrt
/-- R390. -/
def execVfrcp (d a : VName) (rm : Rm) (c : Ctrl) (s : State) : Res := s.floatUn (.vfrcp d a rm c) d a rm c FNum.rcp
/-- R390. -/
def execVfrsq (d a : VName) (rm : Rm) (c : Ctrl) (s : State) : Res := s.floatUn (.vfrsq d a rm c) d a rm c FNum.rsqrt
/-- R390. -/
def execVfexp2 (d a : VName) (rm : Rm) (c : Ctrl) (s : State) : Res := s.floatUn (.vfexp2 d a rm c) d a rm c FNum.exp2
/-- R390. -/
def execVflog2 (d a : VName) (rm : Rm) (c : Ctrl) (s : State) : Res := s.floatUn (.vflog2 d a rm c) d a rm c FNum.log2

/-- R389. -/
def execVfcmp (d : MName) (a b : VName) (vx : Bool) (cond : FCond) (c : Ctrl) (s : State) : Res :=
  let f := s.core.fmt
  s.mouldMask (.vfcmp d a b vx cond c) d
    { d := none, a := a.toNat, b := s.operandB b vx, c := none, old := false, float := true, ctl := c }
    fun x y => fcond cond (f.value false x) (f.value false y)

/-! VCVT. -/

/-- The decode checks of R386 and R387 that depend on the state. -/
def Core.cvtOk (c : Core) (d a : Nat) (fs fd : Fmt) (gov : Gov) : Bool :=
  let n (w : Nat) := cvtSpan c.spanOf c.eb w
  let gd := c.physGroup d (n fd.bytes)
  let ga := c.physGroup a (n fs.bytes)
  c.eb == max fs.bytes fd.bytes && aligned d (n fd.bytes) && aligned a (n fs.bytes) && c.govAligned gov &&
    (if fs.bytes = fd.bytes then sameOrApart gd ga else !share gd ga)

/-- R387. -/
def execVcvt (d a : VName) (fs fd : Fmt) (rm : Rm) (inf ovf : Bool) (gov : Gov) (s : State) : Res :=
  let c := s.core
  if !c.cvtOk d.toNat a.toNat fs fd gov then s.illegal (.vcvt d a fs fd rm inf ovf gov) 0x05
  else
    s.elementwise (s.active gov) (fun i => [c.elemCell a.toNat fs.bytes i]) fs.bytes
      (c.physGroup a.toNat (cvtSpan c.spanOf c.eb fs.bytes))
      (fun l k =>
        let r := l.map fun i => (i, fmtConvert fd (c.mode rm) inf ovf (fmtValue fs inf (c.elem a.toNat fs.bytes i)))
        (k.putElems d.toNat fd.bytes (r.map fun e => (e.1, e.2.1))).mergeFlags (r.map fun e => (e.1, e.2.2)))
      s.hiElem c.vlN

/-! Instructions that never stop part-way (R23). -/

/-- Run an instruction of R23: `ok` is check 5 of R86, then `cr.estart` must be 0. A poisoned granule of an element
traps with nothing written. -/
def State.whole (s : State) (i : Instr) (ok : Bool) (act : List Nat) (bad : Nat → Option Word) (regs : List Nat)
    (eff : State → State) : Res :=
  if !ok then s.illegal i 0x05
  else if s.core.estartN ≠ 0 then s.illegal i 0x06
  else match (cut bad act).2 with
    | some (e, w) => s.trap 0x09 0x01 (BitVec.ofNat 12 e) w
    | none => .next (eff { s with core := s.core.noteReads .vector (s.core.inRegs regs) }).advance

/-! VRED. -/

/-- Result of a reduction over an empty set (R407). -/
def redIdentity (op : Red) (f : Layout) (w : Nat) : Nat :=
  match op with
  | .sum | .or | .fsum _ => 0
  | .and => 2 ^ w - 1
  | .max u => if u then 0 else 2 ^ (w - 1)
  | .min u => if u then 2 ^ w - 1 else 2 ^ (w - 1) - 1
  | .fmax => f.withSign true ((f.infCode false).getD 0)
  | .fmin => f.withSign false ((f.infCode false).getD 0)

/-- The floating extremes, pairwise in ascending order (R113, R407). -/
def redExtreme (f : Layout) (larger : Bool) : List (Nat × Nat) → Nat × List (Nat × FlagSet)
  | [] => (0, [])
  | (i, v) :: r =>
    let x := f.value false v
    let first := (if x.isNan then f.nan else v, [(i, sigFlags [x])])
    r.foldl (fun (acc : Nat × List (Nat × FlagSet)) e =>
      let p := f.extreme larger acc.1 e.2
      (p.1, acc.2 ++ [(e.1, p.2)])) first

/-- The ordered sum (R408). -/
def redOrdered (f : Layout) (mode : Mode) : List (Nat × Nat) → Nat × List (Nat × FlagSet)
  | [] => (0, [])
  | (i, v) :: r =>
    let x := f.value false v
    let first := (if x.isNan then f.nan else v, [(i, sigFlags [x])])
    r.foldl (fun (acc : Nat × List (Nat × FlagSet)) e =>
      let p := f.deliver mode ((f.value false acc.1).add mode (f.value false e.2))
      (p.1, acc.2 ++ [(e.1, p.2)])) first

/-- The unordered sum, rounded once (R408). -/
def redSum (f : Layout) (mode : Mode) (l : List (Nat × Nat)) : Nat × List (Nat × FlagSet) :=
  let xs := l.map fun e => f.value false e.2
  let own := l.map fun e => (e.1, sigFlags [f.value false e.2])
  let least := (l.head?.map fun e => e.1).getD 0
  match l, xs with
  | [(_, v)], [x] => (if x.isNan then f.nan else v, own)
  | _, _ =>
    let p := exactSum false xs
    let p : FNum × FlagSet := match p.1 with
      | .fin n m e => (.fin (if m = 0 then xs.all FNum.neg || mode == .rd else n) m e, p.2)
      | x => (x, if x.isNan && xs.any FNum.isNan then fNone else p.2)
    let r := f.deliver mode p
    (r.1, own ++ [(least, r.2)])

/-- A reduction over elements (index, bits of w) that is not empty (R407). -/
def reduce (op : Red) (f : Layout) (mode : Mode) (w : Nat) (l : List (Nat × Nat)) : Nat × List (Nat × FlagSet) :=
  let vs := l.map fun e => e.2
  match op with
  | .sum => (vs.sum % 2 ^ w, [])
  | .and => (vs.foldl (· &&& ·) (2 ^ w - 1), [])
  | .or => (vs.foldl (· ||| ·) 0, [])
  | .max u => (vs.foldl (intExtreme true u w) (vs.headD 0), [])
  | .min u => (vs.foldl (intExtreme false u w) (vs.headD 0), [])
  | .fmax => redExtreme f true l
  | .fmin => redExtreme f false l
  | .fsum ord => if ord then redOrdered f mode l else redSum f mode l

def Red.isFloat : Red → Bool
  | .fsum _ | .fmax | .fmin => true
  | _ => false

/-- R406 to R408. -/
def execVred (d a : VName) (op : Red) (gov : Gov) (s : State) : Res :=
  let c := s.core
  let n := c.spanOf
  let w := c.eb
  let ok := aligned d.toNat n && aligned a.toNat n && c.govAligned gov && (!Red.isFloat op || c.ctl.ew != .e8) &&
    sameOrApart (c.physGroup d.toNat n) (c.physGroup a.toNat n)
  let act := c.activeAll gov
  s.whole (.vred d a op gov) ok act (fun i => c.badIn [c.elemCell a.toNat w i] w) (c.physGroup a.toNat n) fun s =>
    if c.vlN = 0 || !c.gateOpen gov.g then s
    else
      let l := act.map fun i => (i, c.elem a.toNat w i)
      let r := if l.isEmpty then (redIdentity op c.fmt (8 * w), []) else reduce op c.fmt (c.mode .dyn) (8 * w) l
      { s with core := (s.core.putElems d.toNat w [(0, r.1)]).mergeFlags r.2 }

end Sys2Proof.Machine
end

