-- ==== Sys2Proof/Machine/Permute.lean ====
section
/-! DEFINITION. Permutations, index generation and mask registers (R126, R129 to R134, R385, R393, R394, R409,
R410). -/

namespace Sys2Proof.Machine

/-- A permutation that may stop part-way: element i takes the source position that `from` gives, or 0, and depends
on it and on the cells of `more`. -/
def State.permute (s : State) (i : Instr) (ok : Bool) (d a : Nat) (gov : Gov) (src : Nat → Option Nat)
    (more : Nat → List Nat) (regs : List Nat) : Res :=
  let c := s.core
  if !ok then s.illegal i 0x05
  else
    s.elementwise (s.active gov)
      (fun k => ((src k).toList.map fun j => c.elemCell a c.eb j) ++ more k) c.eb regs
      (fun l k => k.putElems d c.eb (l.map fun e => (e, match src e with
        | some j => c.elem a c.eb j
        | none => 0)))
      s.hiElem c.vlN

/-- Groups of the span that share no register with the destination (R135). -/
def Core.apart (c : Core) (d : Nat) (srcs : List Nat) : Bool :=
  let n := c.spanOf
  (d :: srcs).all (fun g => aligned g n) && srcs.all fun g => !share (c.physGroup d n) (c.physGroup g n)

/-- R130, R410. -/
def execVslide (d a : VName) (b : XName) (dn : Bool) (gov : Gov) (s : State) : Res :=
  let c := s.core
  let n := (s.x b).val.toNat
  s.permute (.vslide d a b dn gov) (c.apart d.toNat [a.toNat] && c.govAligned gov) d.toNat a.toNat gov
    (fun i => if dn then (if i + n < c.vlN then some (i + n) else none) else (if n ≤ i then some (i - n) else none))
    (fun _ => []) (c.physGroup a.toNat c.spanOf)

/-- R131, R393. -/
def execVgather (d a b : VName) (gov : Gov) (s : State) : Res :=
  let c := s.core
  s.permute (.vgather d a b gov) (c.apart d.toNat [a.toNat, b.toNat] && c.govAligned gov) d.toNat a.toNat gov
    (fun i => let j := c.elem b.toNat c.eb i; if j < c.vlN then some j else none)
    (fun i => [c.elemCell b.toNat c.eb i])
    (c.physGroup a.toNat c.spanOf ++ c.physGroup b.toNat c.spanOf)

/-- R133, R385: the trap reports the source index. -/
def execVcompress (d a : VName) (cnt : XName) (sel : Sel) (s : State) : Res :=
  let c := s.core
  let act := (c.activeAll (gateGov sel)).filter fun i => c.maskBit sel.m i
  s.whole (.vcompress d a cnt sel) (c.apart d.toNat [a.toNat] && aligned sel.m.toNat c.maskSpan) act
    (fun i => c.badIn [c.elemCell a.toNat c.eb i] c.eb) (c.physGroup a.toNat c.spanOf) fun s =>
      { s with core := s.core.putElems d.toNat c.eb (act.mapIdx fun k i => (k, c.elem a.toNat c.eb i)) }.putX cnt
        (BitVec.ofNat 64 act.length)

/-- R132, R409: the row-length trap follows every check of R86, cr.estart's included (R321). -/
def execVreshape (d a : VName) (b : XName) (gov : Gov) (s : State) : Res :=
  let c := s.core
  let n := (s.x b).val.toNat
  let rows := c.vlN / n
  let ok := c.apart d.toNat [a.toNat] && c.govAligned gov
  let src (p : Nat) : Nat := p % rows * n + p / rows
  let act := c.activeAll gov
  if ok && c.estartN == 0 && (n == 0 || c.vlN % n != 0) then s.illegal (.vreshape d a b gov) 0x05
  else s.whole (.vreshape d a b gov) ok act (fun p => c.badIn [c.elemCell a.toNat c.eb (src p)] c.eb)
    (c.physGroup a.toNat c.spanOf) fun s =>
      { s with core := s.core.putElems d.toNat c.eb (act.map fun p => (p, c.elem a.toNat c.eb (src p))) }

/-- R134, R394. -/
def execViota (d : VName) (sel : Sel) (s : State) : Res :=
  let c := s.core
  let act := c.activeAll (gateGov sel)
  s.whole (.viota d sel) (aligned d.toNat c.spanOf && aligned sel.m.toNat c.maskSpan) act (fun _ => none) [] fun s =>
    { s with core := s.core.putElems d.toNat c.eb (act.map fun i =>
        (i, (act.filter fun j => j < i && c.maskBit sel.m j).length % 2 ^ (8 * c.eb))) }

/-- R134, R394. -/
def execVid (d : VName) (gov : Gov) (s : State) : Res :=
  let c := s.core
  if !(aligned d.toNat c.spanOf && c.govAligned gov) then s.illegal (.vid d gov) 0x05
  else
    s.elementwise (s.active gov) (fun _ => []) c.eb []
      (fun l k => k.putElems d.toNat c.eb (l.map fun i => (i, i % 2 ^ (8 * c.eb)))) s.hiElem c.vlN

/-! Mask registers (R126). -/

/-- A mask operation on elements `cr.estart` to vl - 1. -/
def State.maskOp (s : State) (i : Instr) (d : MName) (srcs : List MName) (op : Nat → Bool) : Res :=
  let c := s.core
  if !((d :: srcs).all fun m => aligned m.toNat c.maskSpan) then s.illegal i 0x05
  else
    s.elementwise (span c.estartN s.hiElem) (fun _ => []) c.eb []
      (fun l k => k.putMask d (l.map fun e => (e, op e))) s.hiElem c.vlN

/-- R126, R350. -/
def execMand (d a b : MName) (s : State) : Res :=
  s.maskOp (.mand d a b) d [a, b] fun i => s.core.maskBit a i && s.core.maskBit b i
/-- R126, R350. -/
def execMandn (d a b : MName) (s : State) : Res :=
  s.maskOp (.mandn d a b) d [a, b] fun i => s.core.maskBit a i && !s.core.maskBit b i
/-- R126, R350. -/
def execMor (d a b : MName) (s : State) : Res :=
  s.maskOp (.mor d a b) d [a, b] fun i => s.core.maskBit a i || s.core.maskBit b i
/-- R126, R350. -/
def execMxor (d a b : MName) (s : State) : Res :=
  s.maskOp (.mxor d a b) d [a, b] fun i => s.core.maskBit a i != s.core.maskBit b i
/-- R126, R350. -/
def execMnot (d a : MName) (s : State) : Res := s.maskOp (.mnot d a) d [a] fun i => !s.core.maskBit a i

/-- Elements below vl whose mask bit is 1. -/
def Core.setElems (c : Core) (a : MName) : List Nat := (List.range c.vlN).filter fun i => c.maskBit a i

/-- R126: the scalar path waits for the count (R33). -/
def execMcount (d : XName) (a : MName) (s : State) : Res :=
  s.whole (.mcount d a) (aligned a.toNat s.core.maskSpan) [] (fun _ => none) [] fun s =>
    s.putX d (BitVec.ofNat 64 (s.core.setElems a).length)

/-- R126. -/
def execMfirst (d : XName) (a : MName) (s : State) : Res :=
  s.whole (.mfirst d a) (aligned a.toNat s.core.maskSpan) [] (fun _ => none) [] fun s =>
    s.putX d (match (s.core.setElems a).head? with
      | some i => BitVec.ofNat 64 i
      | none => -1)

end Sys2Proof.Machine
end

