-- ==== Sys2Proof/Machine/Matrix.lean ====
section
/-! DEFINITION. Matrix execution: MROW and MROWA (R114 to R118, R139 to R144, R353 to R355), ACLR, ARD, AWR, ASCALE, TLD,
TFILL (R119, R145, R146, R322, R326 to R328, R373, R374). -/

namespace Sys2Proof.Machine

/-! Accumulator rows and tiles. -/

def Core.rowTy (c : Core) (r : Nat) : RowType := c.rowType.toArray.getD r .none

def Core.setRowTy (c : Core) (r : Nat) (t : RowType) : Core :=
  if h : r < 64 then { c with rowType := c.rowType.set r t h } else c

/-- First cell of an accumulator entry. -/
def accCell (r c : Nat) : Nat := Config.rowBytes * r + 4 * c

/-- An entry's 32 bits; a row of type none reads as zeros (R59). -/
def Core.entry (c : Core) (r k : Nat) : Nat := if c.rowTy r = .none then 0 else c.acc.read (accCell r k) 4

/-- First cell of a byte of a tile's column (R58). -/
def tileCell (t col k : Nat) : Nat := Config.tileBytes * t + 384 * col + k

/-- The first poisoned granule among the n bytes from a cell, as tval. -/
def Core.badAt (c : Core) (store : StoreKind) (cell n step : Nat) : Option Word :=
  (c.poisonIn store cell n).map fun g => poisonVal store g step

/-! The row step. -/

/-- One column: K elements of A, K cells of the column, the old entry (R115 to R117). A b32 step of infinity times zero raises nv
beside a quiet NaN too (log 55). -/
def columnSum (fa fb : Fmt) (inf : Bool) (as bs : List Nat) (acc : Nat) : Nat × FlagSet :=
  let pairs := (as.map fun v => fmtValue fa inf v).zip (bs.map fun v => fmtValue fb inf v)
  let old := Layout.b32.value false acc
  if fa.isInt then
    let xs := (as.zip bs).map fun p =>
      (if fa = .i8 then signedOf 8 p.1 else p.1) * (if fb = .i8 then signedOf 8 p.2 else (p.2 : Int))
    let v := signedOf 32 acc + xs.foldl (· + ·) 0
    (intBits 32 v, if v < -2147483648 ∨ 2147483647 < v then fSat else fNone)
  else if fa = .b32 then
    pairs.foldl (fun (s : Nat × FlagSet) p =>
      let r := Layout.b32.round .rne (fusedAdd .rne p.1 p.2 (Layout.b32.value false s.1)).1
      (r.1, s.2 ||| r.2 ||| (fusedAdd .rne p.1 p.2 (Layout.b32.value false s.1)).2)) (acc, fNone)
  else
    let ps := pairs.map fun p => p.1.mul p.2
    let t := exactSum true (old :: ps.map fun p => p.1)
    let r := Layout.b32.round .rne t.1
    (r.1, ps.foldl (fun f p => f ||| p.2) (r.2 ||| t.2))

/-- The operands of one row-times-tile step: destination row, the elements of A, tile, column block. -/
structure RowStep where
  ad   : Nat
  as   : List Nat
  tile : Nat
  cb   : Nat

/-- Element k of a tile's column, w bytes wide. -/
def Core.tileElem (c : Core) (t col w k : Nat) : Nat := c.tiles.read (tileCell t col (k * w)) w

/-- New entries of a step: row, column, value, flags. -/
def Core.stepOf (c : Core) (fa fb : Fmt) (inf : Bool) (st : RowStep) : List (Nat × Nat × Nat × FlagSet) :=
  (List.range 16).map fun j =>
    let bs := (List.range st.as.length).map fun k => c.tileElem st.tile j fa.bytes k
    (st.ad, 16 * st.cb + j, columnSum fa fb inf st.as bs (c.entry st.ad (16 * st.cb + j)))

/-- Poison in what column j of a step reads: the A row's bytes below K (given by `row`), the column's cells below K, the
old entry (R147). -/
def Core.stepBad (c : Core) (row : Option Word) (fa : Fmt) (k : Nat) (st : RowStep) (step j : Nat) : Option Word :=
  row <|> c.badAt .tile (tileCell st.tile j 0) (k * fa.bytes) step <|>
    c.badAt .acc (accCell st.ad (16 * st.cb + j)) 4 step

/-- The first poison by column, then by step; each step with the poison of its A row. Only an `.rv` form reports its step
(R148). -/
def Core.rowPoison (c : Core) (rv : Bool) (fa : Fmt) (k : Nat) (l : List (RowStep × Option Word)) : Option (Nat × Word) :=
  let all := (l.mapIdx fun i st => (List.range 16).filterMap fun j =>
    (c.stepBad st.2 fa k st.1 (if rv then i else 0) j).map fun w => (16 * st.1.cb + j, w)).flatten
  match (all.map fun e => e.1).min? with
  | none => none
  | some col => (all.find? fun e => e.1 == col)

/-- The sources a row step reads whole, noted (R61, R149): registers, tiles, and the entries it adds into. -/
def Core.noteRow (c : Core) (regs : List Nat) (src : Nat → Bool) (l : List RowStep) : Core :=
  ((c.noteReads .vector (c.inRegs regs)).noteReads .tile
    (fun k => l.any fun st => k / Config.tileBytes == st.tile)).noteReads .acc
    (fun k => src k || l.any fun st => k / Config.rowBytes == st.ad && k % Config.rowBytes / 64 == st.cb)

/-- Type that a row step gives its destination rows (R114). -/
def resultTy (fa : Fmt) : RowType := if fa.isInt then .i32 else .f32

/-- A row's type does not stand in the way of T (R59). -/
def Core.tyOk (c : Core) (t : RowType) (r : Nat) : Bool := c.rowTy r == .none || c.rowTy r == t

/-- The effect of a row step with the flags of its conversions. -/
def State.rowSteps (s : State) (fa fb : Fmt) (inf : Bool) (conv : List (Nat × FlagSet)) (regs : List Nat)
    (src : Nat → Bool) (l : List RowStep) : State :=
  let res := l.flatMap fun st => s.core.stepOf fa fb inf st
  let c := s.core.noteRow regs src l
  let c := c.writeAcc (res.flatMap fun e => cells (accCell e.1 e.2.1) 4 e.2.2.1)
  let c := l.foldl (fun c st => c.setRowTy st.ad (resultTy fa)) c
  { s with core := c.mergeFlags (conv ++ res.map fun e => (e.2.1, e.2.2.2)) }

/-- Tile and column limits that both forms share (R58, R141). -/
def stepLimits (rv : Bool) (t cb rep : Nat) : Bool :=
  if rv then t ≤ 23 else t + rep ≤ 24 && cb + rep ≤ 24

/-- K of R139. -/
def Core.depth (c : Core) (e : Nat) : Nat := min c.vlN e

/-- R139 to R142, R354. -/
def execMrow (ad : AName) (vs : VName) (t : TName) (fa fb : Fmt) (cb rep : BitVec 5) (rv inf : Bool) (s : State) : Res :=
  let c := s.core
  let i : Instr := .mrow ad vs t fa fb cb rep rv inf
  let n := rep.toNat
  let sp := c.spanOf
  let last := vs.toNat + (n - 1) * sp
  let ok := stepLimits rv t.toNat cb.toNat n &&
    (!rv || (ad.toNat + n ≤ 64 && last ≤ 31 && aligned vs.toNat sp && (last ≤ 15 || 16 ≤ vs.toNat)))
  if !ok then s.illegal i 0x05
  else if c.estartN ≠ 0 then s.illegal i 0x06
  else
    let k := c.depth (384 / fa.bytes)
    let reg (j : Nat) := if rv then vs.toNat + j * sp else vs.toNat
    let row (j : Nat) : List Nat := (List.range k).map fun e => c.vec.read (c.regCell (reg j) + e * fa.bytes) fa.bytes
    let steps := (List.range n).map fun j =>
      if rv then ({ ad := ad.toNat + j, as := row j, tile := t.toNat, cb := cb.toNat } : RowStep)
      else { ad := ad.toNat, as := row 0, tile := t.toNat + j, cb := cb.toNat + j }
    if !(steps.all fun st => c.tyOk (resultTy fa) st.ad) then s.illegal i 0x08
    else match c.rowPoison rv fa k (steps.mapIdx fun j st =>
        (st, c.badAt .vector (c.regCell (reg j)) (k * fa.bytes) (if rv then j else 0))) with
      | some (col, w) => s.trap 0x09 0x01 (BitVec.ofNat 12 col) w
      | none =>
        .next (s.rowSteps fa fb inf [] ((List.range (if rv then n else 1)).map fun j => c.phys (reg j)) (fun _ => false)
          steps).advance

/-- First entry and number of entries of a part (R143). -/
def Part.base : Part → Nat
  | .none | .lo | .q0 => 0
  | .hi => 192
  | .q1 => 96
  | .q2 => 192
  | .q3 => 288
def partSize (fa : Fmt) : Nat := 384 / fa.bytes

/-- The down-converter on one entry (R118). The integer form raises sat where R118 says, and no nx (log 55). -/
def downConvert (fa : Fmt) (inf ovf : Bool) (shift e : Nat) : Nat × FlagSet :=
  if fa.isInt then
    let v := signedOf 32 e
    let r := (roundInt .rne (v < 0) v.natAbs (-(shift : Int))).1
    (intBits 8 (clampInt (fa == .ui8) r), if clampInt (fa == .ui8) r = r then fNone else fSat)
  else if fa = .b32 then (e, fNone)
  else fmtConvert fa .rne inf ovf (Layout.b32.value false e)

/-- R143, R144, R354. -/
def execMrowa (ad as : AName) (t : TName) (fa fb : Fmt) (cb rep : BitVec 5) (rv inf ovf : Bool) (part : Part)
    (shift : BitVec 5) (s : State) : Res :=
  let c := s.core
  let i : Instr := .mrowa ad as t fa fb cb rep rv inf ovf part shift
  let n := rep.toNat
  let ok := stepLimits rv t.toNat cb.toNat n &&
    (if rv then ad.toNat + n ≤ 64 && as.toNat + n ≤ 64 && (ad.toNat + n ≤ as.toNat || as.toNat + n ≤ ad.toNat)
     else as != ad)
  if !ok then s.illegal i 0x05
  else if c.estartN ≠ 0 then s.illegal i 0x06
  else
    let k := c.depth (partSize fa)
    let base := Part.base part
    let srcRow (j : Nat) := if rv then as.toNat + j else as.toNat
    let conv (j : Nat) : List (Nat × FlagSet) :=
      (List.range k).map fun e => downConvert fa inf ovf shift.toNat (c.entry (srcRow j) (base + e))
    let rows := List.range (if rv then n else 1)
    let steps := (List.range n).map fun j =>
      if rv then ({ ad := ad.toNat + j, as := (conv j).map fun e => e.1, tile := t.toNat, cb := cb.toNat } : RowStep)
      else { ad := ad.toNat, as := (conv 0).map fun e => e.1, tile := t.toNat + j, cb := cb.toNat + j }
    if !(steps.all (fun st => c.tyOk (resultTy fa) st.ad) && rows.all fun j => c.tyOk (resultTy fa) (srcRow j)) then
      s.illegal i 0x08
    else match c.rowPoison rv fa k (steps.mapIdx fun j st =>
        (st, c.badAt .acc (accCell (srcRow j) base) (4 * k) (if rv then j else 0))) with
      | some (col, w) => s.trap 0x09 0x01 (BitVec.ofNat 12 col) w
      | none =>
        .next (s.rowSteps fa fb inf (rows.flatMap fun j => (conv j).mapIdx fun e p => (base + e, p.2)) []
          (fun cell => rows.any fun j => cell / Config.rowBytes == srcRow j && base ≤ cell % Config.rowBytes / 4 &&
            cell % Config.rowBytes / 4 < base + partSize fa)
          steps).advance

/-! Rows and tiles as a whole. -/

/-- R322. -/
def execAclr (d : AName) (cnt : BitVec 6) (s : State) : Res :=
  let n := cnt.toNat + 1
  s.partway (span s.core.estartN (s.hiOf n)) (fun _ => none) (fun _ => []) id
    (fun l c => l.foldl (fun (c : Core) j =>
      let r := d.toNat + j
      { c with acc := c.acc.clear (accCell r 0) Config.rowBytes,
               ecc := c.ecc.filter fun (e : EccError) => !(e.store == StoreKind.acc && e.granule / 192 == r) }.setRowTy r .none) c)
    (s.hiOf n) n

/-- R145, R326. -/
def execArd (d : VName) (row : AName) (s : State) : Res :=
  let c := s.core
  if !aligned d.toNat 4 then s.illegal (.ard d row) 0x05
  else
    s.partway (span c.estartN (s.hiOf 384)) (fun e => c.badAt .acc (accCell row.toNat e) 4 0)
      (fun e => [(.acc, accCell row.toNat e, 4)])
      (fun c => c.noteReads .acc fun k => k / Config.rowBytes == row.toNat)
      (fun l k => k.putElems d.toNat 4 (l.map fun e => (e, c.entry row.toNat e))) (s.hiOf 384) 384

/-- Write entries of a row by AWR: each one is a whole granule write, which clears poison (R61, R328). -/
def Core.writeEntries (c : Core) (r : Nat) (l : List (Nat × Nat)) : Core :=
  let c1 := c.writeAcc (l.flatMap fun e => cells (accCell r e.1) 4 e.2)
  { c1 with ecc := c1.ecc.filter fun k => !(k.store == .acc && l.any fun e => accCell r e.1 / 8 == k.granule) }

/-- R145, R328. -/
def execAwr (d : AName) (a : VName) (int : Bool) (s : State) : Res :=
  let c := s.core
  if !aligned a.toNat 4 then s.illegal (.awr d a int) 0x05
  else
    let s1 : State := if c.estartN < 384 then { s with core := c.setRowTy d.toNat (if int then .i32 else .f32) } else s
    s1.partway (span c.estartN (s.hiOf 384)) (fun e => c.badIn [c.elemCell a.toNat 4 e] 4)
      (fun e => vecCells 4 [c.elemCell a.toNat 4 e])
      (fun k => k.noteReads .vector (c.inRegs (c.physGroup a.toNat 4)))
      (fun l k => k.writeEntries d.toNat (l.map fun e => (e, c.elem a.toNat 4 e))) (s.hiOf 384) 384

/-- The scales of a form: the row scale, and the group of column scales. -/
def ScaleForm.rowScale : ScaleForm → Option XName
  | .row a | .both a _ => some a
  | .col _ => none
def ScaleForm.colScale : ScaleForm → Option VName
  | .row _ => none
  | .col b | .both _ b => some b

/-- A source entry's value: binary32, or an exact integer (R119). -/
def Core.entryValue (c : Core) (r k : Nat) : FNum :=
  if c.rowTy r = .i32 then .ofInt (signedOf 32 (c.entry r k)) else Layout.b32.value false (c.entry r k)

/-- ad[c] after the scaled addition, with its flags (R119). A `.both` product is taken from left to right, so nv depends on what an
infinity meets first, a zero or a NaN (log 55). -/
def State.scaled (s : State) (ad as : Nat) (form : ScaleForm) (e : Nat) : Nat × FlagSet :=
  let c := s.core
  let p := match ScaleForm.rowScale form with
    | some x => (c.entryValue as e).mul (Layout.b32.value false ((s.x x).val.toNat % 2 ^ 32))
    | none => (c.entryValue as e, fNone)
  let q := match ScaleForm.colScale form with
    | some b => let r := p.1.mul (Layout.b32.value false (c.elem b.toNat 4 e)); (r.1, r.2 ||| p.2)
    | none => p
  let t := (Layout.b32.value false (c.entry ad e)).add .rne q.1
  Layout.b32.deliver .rne (t.1, t.2 ||| q.2)

/-- R119, R327. -/
def execAscale (ad as : AName) (form : ScaleForm) (clr : Bool) (s : State) : Res :=
  let c := s.core
  let i : Instr := .ascale ad as form clr
  let group := (ScaleForm.colScale form).toList.map fun b => b.toNat
  if !(group.all fun b => aligned b 4) || (clr && ad == as) then s.illegal i 0x05
  else if c.rowTy ad.toNat = .i32 then s.illegal i 0x08
  else
    let hi := s.hiOf 384
    let s1 : State := if c.estartN < 384 then { s with core := c.setRowTy ad.toNat .f32 } else s
    s1.partway (span c.estartN hi)
      (fun e => c.badAt .acc (accCell as.toNat e) 4 0 <|> c.badIn (group.map fun b => c.elemCell b 4 e) 4 <|>
        c.badAt .acc (accCell ad.toNat e) 4 0)
      (fun e => (.acc, accCell as.toNat e, 4) :: (.acc, accCell ad.toNat e, 4) ::
        vecCells 4 (group.map fun b => c.elemCell b 4 e))
      (fun k => (k.noteReads .vector (c.inRegs (group.flatMap fun b => c.physGroup b 4))).noteReads .acc
        fun cell => cell / Config.rowBytes == as.toNat || cell / Config.rowBytes == ad.toNat)
      (fun l k =>
        let r := l.map fun e => (e, s.scaled ad.toNat as.toNat form e)
        let k := k.writeAcc (r.flatMap fun e => cells (accCell ad.toNat e.1) 4 e.2.1)
        let k := if clr then k.writeAcc (l.flatMap fun e => cells (accCell as.toNat e) 4 0) else k
        let k := if clr ∧ hi = 384 ∧ c.estartN < 384 ∧ l.length = 384 - c.estartN then k.setRowTy as.toNat .none else k
        k.mergeFlags (r.map fun e => (e.1, e.2.2)))
      hi 384

/-- R146, R374: a stop falls at a column, and the rest performs its own pieces. -/
def execTld (t : TName) (a : XName) (imm : BitVec 32) (s : State) : Res :=
  let c := s.core
  if 24 ≤ t.toNat then s.illegal (.tld t a imm) 0x05
  else if 16 ≤ c.estartN then .next (s.endVector 16 16)
  else match s.check (s.x a) (off32 imm) 6144 64 .tileLoad with
    | .error f => s.trapAt c.estartN f.cause f.sub f.val
    | .ok p =>
      guardAddr p.addr 6144 (
        let hi := s.hiOf 16
        let first := 384 * c.estartN
        let ps := (List.range (384 * hi - first)).map fun k => (p.addr + first + k, tileCell t.toNat 0 (first + k))
        let k : Core := { c with ecc := clearEcc c.ecc .tile (ps.map fun (e : Nat × Nat) => (e.2, 0)) }
        let lines := ((ps.map fun (e : Nat × Nat) => e.1 / 128).dedup).map fun l => ps.filter fun e => e.1 / 128 == l
        .next (({ s with core := k }.issueV false (lines.map .loadT)).endVector hi 16))

/-- R146, R373. -/
def execTfill (t : TName) (a : VName) (hi : Bool) (s : State) : Res :=
  let c := s.core
  if 24 ≤ t.toNat || !aligned a.toNat 8 then s.illegal (.tfill t a hi) 0x05
  else
    let first := if hi then 8 else 0
    s.partway ((span c.estartN (s.hiOf 16)).filter fun col => first ≤ col && col < first + 8)
      (fun col => c.badIn [c.regCell (a.toNat + col - first)] 384)
      (fun col => vecCells 384 [c.regCell (a.toNat + col - first)])
      (fun k => k.noteReads .vector (c.inRegs (c.physGroup a.toNat 8)))
      (fun l k => k.writeTiles (l.flatMap fun col =>
        place (tileCell t.toNat col 0) (c.vec.bytes (c.regCell (a.toNat + col - first)) 384)))
      (s.hiOf 16) 16

end Sys2Proof.Machine
end

