-- ==== Sys2Proof/Machine/Remote.lean ====
section
/-! DEFINITION. Sending packets: planes (R256 to R258), virtual channels (R267), colours and counts (R277 to
R283), ordered-flag counts (R263), and the remote accesses of a hart (R188, R273). -/

namespace Sys2Proof.Machine

/-! Links and planes. -/

def State.linkAt (s : State) (k : Nat) : Link := (s.links.find? fun l => l.num == k).getD (.reset k)
def State.setLink (s : State) (l : Link) : State := { s with links := upsert Link.num s.links l }

/-- A plane is live toward a package: the link of neither is down (R258, R265, R266). -/
def State.planeLive (s : State) (pkg : BitVec 12) (k : Nat) : Bool := (s.linkAt k).up && !s.farDown.contains (pkg, k)

/-- The plane itself when it is live, else the next live one in ascending order modulo 16 (R258). -/
def State.remap (s : State) (pkg : BitVec 12) (k : Nat) : Option Nat :=
  ((List.range 16).map fun j => (k + j) % 16).find? (s.planeLive pkg)

/-- A plane a sender may choose: any live one (R257). -/
def State.anyPlane (s : State) (pkg : BitVec 12) : Option Nat := s.remap pkg (Config.plane s.free % 16)

/-- What each hash plane toward a package stands for now (R258). -/
def State.planeMap (s : State) (pkg : BitVec 12) : List Nat := (List.range 16).map fun h => (s.remap pkg h).getD h


/-- Pod address (R151). -/
def podAddr (pkg : BitVec 12) (a : Nat) : Nat := pkg.toNat * 2 ^ 48 + a

/-- Hash plane of a pod address: the XOR of its hexadecimal digits 2 to 14 (R257). -/
def hashPlane (a : Nat) : Nat := (List.range 13).foldl (fun h j => h ^^^ (a / 2 ^ (4 * j + 8) % 16)) 0

/-! Remapping (R258). -/

/-- The plane that a packet would use, before a remap: an add's hash plane, else the one it is on. -/
def Packet.home (p : Packet) : Nat :=
  match p.body with
  | .pfadd _ a _ _ => hashPlane (podAddr p.dst a)
  | _ => p.plane

/-- A hash plane that stands for another plane than when a PFADD was issued has been remapped since. -/
def State.noteRemap (s : State) (r : RemoteRef) : RemoteRef :=
  { r with maps := r.maps.mapIdx fun h k => if (s.planeMap r.pkg).getD h k = k then k else 16 }

/-- After a change of the planes, a packet on a plane that is down goes to the next live one. -/
def State.resend (s : State) : State :=
  let f (c : Core) : Core := { c with remote := c.remote.map s.noteRemap }
  { s with
    egress := s.egress.map fun p =>
      if s.planeLive p.dst p.plane then p else { p with plane := (s.remap p.dst p.home).getD p.plane },
    core := f s.core, others := s.others.map f, saves := s.saves.map fun v => { v with core := f v.core } }

/-! Packets. -/

/-- A reply's tag names a request's (R268: 16 bits). -/
def tagIs (a b : Nat) : Bool := a % 65536 == b % 65536

/-- A packet that a reply or an acknowledgement answers. -/
def PacketBody.answers : PacketBody → Bool
  | .store _ | .vldr .. | .pfadd .. | .post _ => true
  | _ => false

/-- Serials of requests whose reply or acknowledgement has still to come. -/
def State.openSerials (s : State) : List Nat :=
  let f (c : Core) : List Nat := (c.remote.map fun r => r.serial) ++ c.waits.map fun w => w.rtag
  ((s.egress.filter fun p => p.body.answers).map fun p => p.serial) ++ s.cores.flatMap f ++ s.saves.flatMap fun v => f v.core

/-- The serial of the next packet: no request that is still open has its tag (R268). -/
def State.serial (s : State) : Nat :=
  let l := s.openSerials
  (((List.range (l.length + 1)).map fun k => s.nextPacket + k).find? fun n => !l.any (tagIs n)).getD s.nextPacket

def PacketBody.vc : PacketBody → Nat
  | .vldr .. | .pfadd .. => 0
  | .vldrReply .. | .pfaddReply .. => 1
  | .store _ | .post _ => 2
  | .marker .. => 2
  | .ack _ | .timeSync => 3

/-- Packets that markers count and channel state records: kinds 0x01 to 0x06 and 0x08 (R281, R282). -/
def PacketBody.counted : PacketBody → Bool
  | .marker .. | .timeSync => false
  | _ => true

def bumpCount (l : List (Channel × Nat)) (c : Channel) : List (Channel × Nat) :=
  if l.any fun e => e.1 == c then l.map fun e => if e.1 == c then (c, e.2 + 1) else e else (c, 1) :: l

def countOf (l : List (Channel × Nat)) (c : Channel) : Nat := ((l.find? fun e => e.1 == c).map fun e => e.2).getD 0

/-- The launch of a tag that runs here. -/
def State.launchByTag (s : State) (tag : Nat) : Option Launch :=
  s.launches.find? fun l => l.tag.toNat == tag && l.state == .running

/-- Colour of a launch's packets. -/
def State.colourOf (s : State) (tag : Nat) : Bool :=
  match s.launchByTag tag with
  | some l => l.colour
  | none => false

/-- A packet of this package on a plane, with the package's colour for its launch (R268, R278). -/
def State.packet (s : State) (core tag : Nat) (dst : BitVec 12) (plane : Nat) (body : PacketBody) : Packet :=
  { serial := s.serial, src := s.pkg, dst := dst, core := core, hart := (s.coreAt core).hartId, plane := plane, counted := plane, vc := body.vc,
    colour := s.colourOf tag, launch := tag, interval := none, counts := none, merged := [], engine := none, parts := [], body := body }

/-- Put a packet into the egress queue; counted packets count on their channel (R279, R281). -/
def State.enqueue (s : State) (p : Packet) : State :=
  let s1 : State := { s with egress := s.egress ++ [p], nextPacket := p.serial + 1, free := s.free + 1 }
  match s.launchByTag p.launch with
  | some l =>
    if p.body.counted then
      s1.setLaunch { l with sent := bumpCount l.sent { pkg := p.dst, plane := p.counted, vc := p.vc } }
    else s1
  | none => s1

/-- Send a packet. -/
def State.send (s : State) (core tag : Nat) (dst : BitVec 12) (plane : Nat) (body : PacketBody) : State :=
  s.enqueue (s.packet core tag dst plane body)

/-! Remote stores and PFADD of a hart (R263). -/

/-- Counts toward a package that begin: they take the number of the next packet (log 20). -/
def State.freshCounts (s : State) (pkg : BitVec 12) : PlaneCounts :=
  { pkg := pkg, counts := List.replicate 16 0, numbers := List.replicate 16 s.serial }

/-- What core c counts toward a package. -/
def State.toward (s : State) (c : Core) (pkg : BitVec 12) : PlaneCounts :=
  (c.planes.find? fun p => p.pkg == pkg).getD (s.freshCounts pkg)

def Core.setToward (c : Core) (k : PlaneCounts) : Core := { c with planes := upsert (fun p => p.pkg.toNat) c.planes k }

/-- The counts of core c toward a package. -/
def Core.planeCounts (c : Core) (pkg : BitVec 12) : List Nat :=
  ((c.planes.find? fun p => p.pkg == pkg).map fun p => p.counts).getD (List.replicate 16 0)

/-- The packages a hart holds counts for and still waits on (R263). -/
def Core.destinations (c : Core) : List (BitVec 12) := (c.remote.map fun r => r.pkg).dedup

/-- The hart may issue one more remote store or PFADD to a package on a plane: a count that is full waits until its accesses are
acknowledged (R263). -/
def Core.mayCount (c : Core) (pkg : BitVec 12) (plane : Nat) : Bool :=
  ((c.planeCounts pkg).getD plane 0 < 65535 || !(c.remote.any fun r => r.pkg == pkg && r.plane == plane)) &&
    (c.destinations.contains pkg || c.destinations.length < 16)

/-- One more access on a plane. A count that was full begins again, since its accesses are acknowledged (R263). -/
def PlaneCounts.add (k : PlaneCounts) (plane serial : Nat) : PlaneCounts :=
  if k.counts.getD plane 0 < 65535 then { k with counts := k.counts.modify plane (· + 1) }
  else { k with counts := k.counts.set plane 1, numbers := k.numbers.set plane serial }

/-- Issue one remote store piece or PFADD of the focused hart on a plane. `flag`: the counts that an ordered flag carries. -/
def State.issueRemote (s : State) (pkg : BitVec 12) (plane : Nat) (maps : List Nat) (flag : Option (List (Nat × Nat)))
    (body : PacketBody) : State :=
  let c := s.core
  let k := (s.toward c pkg).add plane s.serial
  let p : Packet := { s.packet c.num (s.tagOf c) pkg plane body with interval := k.numbers[plane]?, counts := flag }
  let s1 := s.enqueue p
  { s1 with core := { c.setToward k with
      remote := c.remote ++ [{ serial := s.serial, pkg := pkg, plane := plane, stamp := c.stamp, maps := maps }] } }

/-- An ordered flag toward a package takes the counts, which begin afresh (R263). -/
def State.takeFlag (s : State) (pkg : BitVec 12) (of_ : Bool) : State × Option (List (Nat × Nat)) :=
  if of_ then
    let k := s.toward s.core pkg
    ({ s with core := s.core.setToward (s.freshCounts pkg) }, some (k.numbers.zip k.counts))
  else (s, none)

end Sys2Proof.Machine
end

