-- ==== Sys2Proof/Machine/VectorMemory.lean ====
section
/-! DEFINITION. Vector memory: the load mould (R379, R380, R395 to R399), VAMO (R382), the store mould (R412 to
R418), VLDR (R259, R397) and VSTR (R416). -/

namespace Sys2Proof.Machine

/-- Check the elements in ascending order, poison before memory (R147, R379): those before the first that fails, and
its fault. -/
def checkElems (bad : Nat → Option Word) (chk : Nat → Except AccessFault Landing) :
    List Nat → List (Nat × Landing) × Option (Nat × AccessFault)
  | [] => ([], none)
  | i :: r =>
    match bad i with
    | some w => ([], some (i, { cause := 0x09, sub := 0x01, val := w }))
    | none =>
      match chk i with
      | .error f => ([], some (i, f))
      | .ok p => let q := checkElems bad chk r; ((i, p) :: q.1, q.2)

/-- Go on when every local landing lies in memory. -/
def guardAll (n : Nat) : List (Nat × Landing) → Res → Res
  | [], k => k
  | (_, p) :: r, k => if p.pkg.isSome then guardAll n r k else guardAddr p.addr n (guardAll n r k)

/-- The elements have read their sources, which lie at the cells given: correctable errors are corrected and noted (R61). -/
def State.readSources (s : State) (cells : Nat → List Nat) (l : List (Nat × Landing)) : State :=
  { s with core := s.core.correct .vector fun k => l.any fun e => (cells e.1).any fun a => a ≤ k && k < a + s.core.eb }

/-- A vector memory instruction (R379, R412), whose step ends at element hi: an element reads its sources at the cells `srcs`, in the
registers `regs`, and `issue` makes the accesses of the elements that pass, or answers false while they must wait. -/
def State.vmem (s : State) (hi : Nat) (i : Instr) (ok : Bool) (gov : Gov) (srcs : Nat → List Nat) (regs : List Nat)
    (x : XReg) (off : Nat → Int) (kind : AccKind) (issue : List (Nat × Landing) → State → State × Bool) : Res :=
  let c := s.core
  if !(ok && c.govAligned gov) then s.illegal i 0x05
  else
    let r := checkElems (fun e => c.badIn (srcs e) c.eb) (fun e => s.check x (off e) c.eb c.eb kind)
      ((span c.estartN hi).filter fun e => c.passes gov e)
    guardAll c.eb r.1 (
      match issue r.1 s with
      | (s1, false) => .next s1
      | (s1, true) =>
        match r.2 with
        | some (e, f) => (s1.readSources srcs r.1).trapAt e f.cause f.sub f.val
        | none =>
          let s2 : State := if hi < c.vlN then s1.readSources srcs r.1
            else { s1 with core := s1.core.noteReads .vector (s1.core.inRegs regs) }
          .next (s2.endVector hi c.vlN))

/-- Memory bytes of each element with the cells of a group. -/
def Core.transfer (c : Core) (d : Nat) (l : List (Nat × Landing)) : List (Nat × Nat) :=
  l.flatMap fun e => (List.range c.eb).map fun k => (e.2.addr + k, c.elemCell d c.eb e.1 + k)

/-- Granules that an instruction is about to write whole lose their poison (R61, R380). -/
def Core.willWrite (c : Core) (l : List Nat) : Core :=
  { c with ecc := clearEcc c.ecc .vector (l.map fun k => (k, 0)) }

/-- The bytes an element-wise store writes, in element order. -/
def Core.stored (c : Core) (src : Nat) (l : List (Nat × Landing)) : List (Nat × Byte) :=
  l.flatMap fun e => place e.2.addr (c.vec.bytes (c.elemCell src c.eb e.1) c.eb)

/-- Offsets of the forms (R379, R412). -/
def unitOff (off : BitVec 16) (eb i : Nat) : Int := off16 off + (i * eb : Nat)
def strideOff (off : BitVec 16) (stride : Word) (i : Nat) : Int := off16 off + i * stride.toInt
def Core.indexOff (c : Core) (off : BitVec 16) (b i : Nat) : Int := off16 off + (c.elem b c.eb i : Nat)

/-! Loads. -/

/-- Where this step ends a load whose elements lie at `off` from a base: a stop of R231 splits no line between two steps,
since the elements in one line come from one version of it (R395). -/
def State.loadEnd (s : State) (gov : Gov) (base : Word) (off : Nat → Int) : Nat :=
  let c := s.core
  let line (e : Nat) : Int := (base.toNat + off e) / 128
  let act := (span c.estartN c.vlN).filter fun e => c.passes gov e
  let whole (h : Nat) : Bool := (act.filter fun e => e < h).all fun e => (act.filter fun f => h ≤ f).all fun f => line e != line f
  let hi := s.hiElem
  if hi < c.vlN then ((span c.estartN (hi + 1)).reverse.find? whole).getD c.estartN else hi

/-- Issue a load with one piece for each line; `sluice`: it holds a sluice (R31). -/
def State.issueLoad (s : State) (sluice : Bool) (d : Nat) (l : List (Nat × Landing)) : State × Bool :=
  let ps := s.core.transfer d l
  ({ s with core := s.core.willWrite (ps.map fun (p : Nat × Nat) => p.2) }.issueV sluice ((pieces ps).map .loadV), true)

/-- R395. -/
def execVld (d : VName) (a : XName) (off : BitVec 16) (gov : Gov) (s : State) : Res :=
  s.vmem (s.loadEnd gov (s.x a).val (unitOff off s.core.eb)) (.vld d a off gov) (aligned d.toNat s.core.spanOf) gov
    (fun _ => []) [] (s.x a)
    (unitOff off s.core.eb) .load fun l s => s.issueLoad true d.toNat l

/-- R398. -/
def execVlds (d : VName) (a b : XName) (off : BitVec 16) (gov : Gov) (s : State) : Res :=
  s.vmem (s.loadEnd gov (s.x a).val (strideOff off (s.x b).val)) (.vlds d a b off gov) (aligned d.toNat s.core.spanOf) gov
    (fun _ => []) [] (s.x a)
    (strideOff off (s.x b).val) .load fun l s => s.issueLoad true d.toNat l

/-- R399: one piece for each element. -/
def execVldx (d : VName) (a : XName) (b : VName) (off : BitVec 16) (gov : Gov) (s : State) : Res :=
  let c := s.core
  let n := c.spanOf
  s.vmem s.hiElem (.vldx d a b off gov)
    (aligned d.toNat n && aligned b.toNat n && sameOrApart (c.physGroup d.toNat n) (c.physGroup b.toNat n)) gov
    (fun i => [c.elemCell b.toNat c.eb i]) (c.physGroup b.toNat n) (s.x a) (c.indexOff off b.toNat) .load
    fun l s =>
      let s := s.readSources (fun e => [c.elemCell b.toNat c.eb e]) l
      ({ s with core := s.core.willWrite ((s.core.transfer d.toNat l).map fun (p : Nat × Nat) => p.2) }.issueV false
        (l.flatMap fun e => (pieces (s.core.transfer d.toNat [e])).map .loadV), true)

/-- R382. -/
def execVamo (d : VName) (a : XName) (b : VName) (off : BitVec 16) (op : AmoOp) (gov : Gov) (s : State) : Res :=
  let c := s.core
  let n := c.spanOf
  s.vmem s.hiElem (.vamo d a b off op gov)
    (aligned d.toNat n && aligned b.toNat n && !share (c.physGroup d.toNat n) (c.physGroup b.toNat n) && 4 ≤ c.eb) gov
    (fun i => [c.elemCell b.toNat c.eb i, c.elemCell d.toNat c.eb i])
    (c.physGroup b.toNat n ++ c.physGroup d.toNat n) (s.x a) (c.indexOff off b.toNat) .atomic
    fun l s =>
      ((s.readSources (fun e => [c.elemCell b.toNat c.eb e, c.elemCell d.toNat c.eb e]) l).issueV false (l.map fun e => .amoV e.2.addr c.eb (c.elemCell d.toNat c.eb e.1) op
        (BitVec.ofNat 64 (c.elem d.toNat c.eb e.1))), true)

/-- The 64-byte element groups of a destination that active elements lie in (R259): the group's index, and the address and the
cell of each active byte. -/
def Core.elementGroups (c : Core) (d : Nat) (l : List (Nat × Landing)) : List (Nat × List (Nat × Nat)) :=
  let ps := l.flatMap fun e => (List.range c.eb).map fun k =>
    ((e.1 * c.eb + k) / 64, e.2.addr + k, c.elemCell d c.eb e.1 + k)
  (ps.map fun p => p.1).dedup.map fun g => (g, (ps.filter fun p => p.1 == g).map fun p => p.2)

/-- The group of a register that a cell lies in. -/
def groupOf (cell : Nat) : Nat := cell % 384 / 64

/-- Send the requests of a VLDR; with no plane live they wait. -/
def State.requestGroups (pkg : BitVec 12) : List (Nat × List (Nat × Nat)) → State → State × Bool
  | [], s => (s, true)
  | (g, ps) :: r, s =>
    match s.anyPlane pkg with
    | none => (s, false)
    | some k =>
      let rtag := s.serial
      let cell := (ps.head?.map fun p => p.2).getD 0
      let w : Await := { rtag := rtag, pkg := pkg,
                         dest := .group (cell / 384) (groupOf cell) (ps.map fun p => (p.2 % 64, p.2)) }
      let s1 := s.send s.core.num (s.tagOf s.core) pkg k (.vldr rtag g (ps.map fun p => (p.2 % 64, p.1)) [])
      State.requestGroups pkg r
        { s1 with core := { (s1.core.willWrite (ps.map fun (p : Nat × Nat) => p.2)) with waits := s1.core.waits ++ [w] } }

/-- R259, R397: issued whole, once the earlier V accesses are performed (R188). With an untagged base of firmware it loads from this
package's memory (R158). -/
def execVldr (d : VName) (a : XName) (off : BitVec 16) (gov : Gov) (s : State) : Res :=
  s.vmem s.core.vlN (.vldr d a off gov) (aligned d.toNat s.core.spanOf) gov (fun _ => []) [] (s.x a)
    (unitOff off s.core.eb) .remoteLoad fun l s =>
      let s1 := s.settleV s.core.num
      if s1.core.vq ≠ [] then (s1, false)
      else match l.findSome? fun e => e.2.pkg with
        | none => if l.isEmpty then (s1, true) else s1.issueLoad false d.toNat l
        | some pkg =>
          if s1.anyPlane pkg = none then (s1, false)
          else State.requestGroups pkg (s1.core.elementGroups d.toNat l) s1.bump

/-! Stores. -/

/-- R413, R414. -/
def execVst (src : VName) (a : XName) (off : BitVec 16) (gov : Gov) (s : State) : Res :=
  let c := s.core
  s.vmem s.hiElem (.vst src a off gov) (aligned src.toNat c.spanOf) gov (fun i => [c.elemCell src.toNat c.eb i])
    (c.physGroup src.toNat c.spanOf) (s.x a) (unitOff off c.eb) .localStore
    fun l s => (s.issueV false ((pieces (s.core.stored src.toNat l)).map .store), true)

/-- R417. -/
def execVsts (src : VName) (a b : XName) (off : BitVec 16) (gov : Gov) (s : State) : Res :=
  let c := s.core
  s.vmem s.hiElem (.vsts src a b off gov) (aligned src.toNat c.spanOf) gov
    (fun i => [c.elemCell src.toNat c.eb i])
    (c.physGroup src.toNat c.spanOf) (s.x a) (strideOff off (s.x b).val) .localStore
    fun l s => (s.issueV false ((pieces (s.core.stored src.toNat l)).map .store), true)

/-- R418: one piece for each element. -/
def execVstx (src : VName) (a : XName) (b : VName) (off : BitVec 16) (gov : Gov) (s : State) : Res :=
  let c := s.core
  let n := c.spanOf
  s.vmem s.hiElem (.vstx src a b off gov) (aligned src.toNat n && aligned b.toNat n) gov
    (fun i => [c.elemCell src.toNat c.eb i, c.elemCell b.toNat c.eb i])
    (c.physGroup src.toNat n ++ c.physGroup b.toNat n) (s.x a) (c.indexOff off b.toNat) .localStore
    fun l s => (s.issueV false (l.flatMap fun e => (pieces (s.core.stored src.toNat [e])).map .store), true)

/-- The counts that the pieces of the VSTR at the PC carry: those it took when it began, if it has placed some pieces already
(R416). -/
def State.flagFor (s : State) (pkg : BitVec 12) (flag : Bool) : State × Option (List (Nat × Nat)) :=
  let pc := s.core.curPc
  match (if flag && s.core.estartN != 0 then s.core.flags.find? fun f => f.1 == pc else none) with
  | some f => (s, some f.2)
  | none =>
    let t := s.takeFlag pkg flag
    match t.2 with
    | some counts =>
      ({ t.1 with core := { t.1.core with flags := (pc, counts) :: t.1.core.flags.filter fun f => f.1 != pc } }, some counts)
    | none => t

/-- The VSTR at the PC has placed every piece. -/
def State.endFlag (s : State) : State :=
  { s with core := { s.core with flags := s.core.flags.filter fun f => f.1 != s.core.curPc } }

/-- Place the pieces of a VSTR, each the elements of one line, in the egress queue, as far as a plane is live and the counts of
R263 allow it; `cr.estart` follows. The Bool says that all are placed. -/
def State.sendPieces (src : Nat) (pkg : BitVec 12) (flag : Option (List (Nat × Nat))) :
    List (List (Nat × Landing)) → State → State × Bool
  | [], s => (s, true)
  | p :: r, s =>
    match s.anyPlane pkg with
    | none => (s, false)
    | some k =>
      if s.core.mayCount pkg k then
        State.sendPieces src pkg flag r
          ((s.issueRemote pkg k [] flag (.store (s.core.stored src p))).setEstart ((p.getLast?.map fun e => e.1 + 1).getD 0))
      else (s, false)

/-- R416: it begins once the earlier V accesses are performed (R188), places what it can, and waits for the rest where it is. With an
untagged base of firmware it stores to this package's memory (R158). -/
def execVstr (src : VName) (a : XName) (off : BitVec 16) (flag : Bool) (gov : Gov) (s : State) : Res :=
  let c := s.core
  s.vmem s.hiElem (.vstr src a off flag gov) (aligned src.toNat c.spanOf) gov
    (fun i => [c.elemCell src.toNat c.eb i])
    (c.physGroup src.toNat c.spanOf) (s.x a) (unitOff off c.eb) .remoteStore
    fun l s =>
      let s1 := s.settleV s.core.num
      if s1.core.vq ≠ [] then (s1, false)
      else match l.findSome? fun e => e.2.pkg with
        | none =>
          if l.isEmpty then (s1, true) else (s1.issueV false ((pieces (s1.core.stored src.toNat l)).map .store), true)
        | some pkg =>
          let t := s1.flagFor pkg flag
          let r := State.sendPieces src.toNat pkg t.2 ((pieces (l.map fun e => (e.2.addr, e))).map fun p => p.map fun e => e.2) t.1
          if r.2 then ((if l.length = (s.core.activeAll gov).length then r.1.endFlag else r.1).bump, true)
          else if r.1.core.estartN ≠ s1.core.estartN then (r.1.bump, false)
          else (s1, false)

end Sys2Proof.Machine
end

