-- ==== Sys2Proof/Machine/Engine.lean ====
section
/-! DEFINITION. The engines: EISSUE and its checks (R183, R191 to R198), EWAIT (R185, R199), the pieces of commands
(R183, R184, R193, R200 to R202, R301), their end (R191); PFADD (R359, R360); held versions (R173). -/

namespace Sys2Proof.Machine

/-! CheckCommand (R196). -/

def Command.opN (c : Command) : Nat := c.op.toNat
def Command.soff (c : Command) : Nat := (c.bits.extractLsb' 128 64).toNat
def Command.doff (c : Command) : Nat := (c.bits.extractLsb' 64 64).toNat

/-- A command as its 64 bytes give it. -/
def Command.ofBytes (l : List Byte) : Command :=
  let bits : BitVec 512 := BitVec.ofNat 512 (Sys2Proof.Machine.ofBytes l)
  let op := (bits.extractLsb' 0 8).toNat
  { serial := 0, bits := bits, stage := 3 ≤ op, src := 0, dst := 0, dstPkg := none, due := 0, pts := 0, pc := 0,
    stamp := 0, order := 0, done := [], read := [], got := [], checked := 0, bad := none }

/-- Bytes read and bytes written in memory (R193). -/
def Command.srcBytes (c : Command) : Nat :=
  match c.opN with
  | 1 => c.count
  | 3 | 4 => Config.blockBytes * c.count
  | 5 => Config.rowBytes * c.count
  | _ => 0
def Command.dstBytes (c : Command) : Nat :=
  match c.opN with
  | 1 | 2 => c.count
  | 3 => Config.tileBytes * c.count
  | _ => 0

/-- Fields within their limits, unused fields zero (R193). -/
def Command.formed (c : Command) : Bool :=
  let z := c.bits.extractLsb' 320 192 == 0#192 && !c.bits.getLsbD 31
  let copyLen := 32 ≤ c.count && c.count ≤ 2 ^ 30 && c.count % 32 == 0
  z && match c.opN with
  | 1 => copyLen && c.soff % 32 == 0 && c.doff % 32 == 0 && c.pat == 0 && c.vtag == 0 && c.reg == 0 && !c.ty
  | 2 => copyLen && c.doff % 32 == 0 && c.sslot == 0 && c.soff == 0 && c.vtag == 0 && c.reg == 0 && !c.ty
  | 3 => 1 ≤ c.count && c.count ≤ 64 && c.dslot == 0 && c.soff % 64 == 0 && c.doff % 64 == 0 && c.pat == 0 &&
      c.reg == 0 && !c.ty
  | 4 => c.count == 1 && c.reg ≤ 23 && c.soff % 64 == 0 && c.dslot == 0 && c.doff == 0 && c.pat == 0 && !c.ty
  | 5 => 1 ≤ c.count && c.count ≤ 64 && c.reg + c.count ≤ 64 && c.soff % 64 == 0 && c.dslot == 0 && c.doff == 0 &&
      c.pat == 0 && c.vtag == 0
  | _ => false

/-- The slots that a command names as source and as destination. -/
def Command.srcSlot (c : Command) : List (BitVec 8) := if c.opN = 2 then [] else [c.sslot]
def Command.dstSlot (c : Command) : List (BitVec 8) := if c.opN ≤ 3 then [c.dslot] else []

/-- A range [base + off, + n) leaves the slot's region. -/
def SlotEntry.leaves (e : SlotEntry) (off n : Nat) : Bool := e.limit.toNat < off + n

/-- CheckCommand for core c of the package: the first failing test's cause and sub-cause (R196). -/
def State.checkCommand (s : State) (k : Command) : Option (BitVec 8 × BitVec 8) :=
  let c := s.core
  let src := k.srcSlot.map fun i => (i, c.slot i)
  let dst := k.dstSlot.map fun i => (i, c.slot i)
  let both := src ++ dst
  let pod (e : SlotEntry) : Nat := podAddr (if e.rem then e.pkg else s.pkg) e.base.toNat
  if !k.formed then some (0x01, 0x09)
  else if both.any fun p => !p.2.v then some (0x04, 0x02)
  else if both.any fun p => p.2.world != c.ctl.world || s.revoked p.1 p.2 then some (0x0B, 0x01)
  else if both.any fun p => !p.2.eng then some (0x05, 0x06)
  else if src.any fun p => !p.2.r then some (0x05, 0x01)
  else if dst.any fun p => !p.2.w then some (0x05, 0x02)
  else if (src.any fun p => p.2.rem) || (k.opN == 3 && dst.any fun p => p.2.rem) then some (0x05, 0x04)
  else if (src.any fun p => p.2.leaves k.soff k.srcBytes) || (dst.any fun p => p.2.leaves k.doff k.dstBytes) then
    some (0x04, 0x01)
  else if k.opN == 1 && src.any fun p => dst.any fun q =>
      overlaps (pod p.2 + k.soff) k.count (pod q.2 + k.doff) k.count then some (0x01, 0x09)
  else none

/-! EISSUE. -/

/-- Held(c) of R195. -/
def State.heldCommand (s : State) (k : Command) : Bool :=
  (s.moves.any fun mv => 2 ≤ mv.phase && (k.srcSlot ++ k.dstSlot).any fun i => mv.dependent s.pkg (s.core.slot i)) ||
    (match s.core.flight with
      | some f => s.preempts.any fun p => p.launch == f.launch && p.flights.contains f
      | none => false)

/-- Room in the command's engine (R191). -/
def Core.roomFor (c : Core) (k : Command) : Bool :=
  (c.cmds.filter fun x => x.stage == k.stage).length < (if k.stage then Config.stageRoom else Config.copyRoom)

/-- A promise: any tick from the present one on (R198, log 11). -/
def State.promised (s : State) : Word :=
  BitVec.ofNat 64 (s.time.toNat + Config.promise s.free % (2 ^ 64 - s.time.toNat))

/-- Extents of a local destination in DRAM take all their trace bits (R160). -/
def State.touchRange (s : State) (a n : Nat) : State :=
  (List.range ((a + (n - 1)) / Config.extentBytes + 1 - a / Config.extentBytes)).foldl
    (fun s k => s.touch ((a / Config.extentBytes + k) * Config.extentBytes)) s

/-- The command with its slots resolved (R196). -/
def State.resolve (s : State) (k : Command) : Command :=
  let c := s.core
  let se := c.slot k.sslot
  let de := c.slot k.dslot
  { k with src := se.base.toNat + k.soff, dst := de.base.toNat + k.doff,
           dstPkg := if k.opN ≤ 2 && de.rem then some de.pkg else none }

/-- Accept a command: serial, promise, clock, ownership (R183, R191, R195). An EISSUE of firmware starts its commands at the clocks of
the core's user hart (log 16). -/
def State.accept (s : State) (k : Command) : State × Command :=
  let c := s.core
  let k : Command := { s.resolve k with
    serial := c.serial, due := s.promised, pts := max c.sS.pts c.sV.pts, pc := c.curPc, stamp := c.stamp,
    order := s.free }
  let c1 := { c with serial := c.serial + 1, cmds := c.cmds ++ [k],
                     mismatch := c.mismatch.filter (fun e => e.1 != k.serial), refused := c.refused.filter fun x => x != k.serial }
  let s1 : State := { s with core := c1, free := s.free + 1 }
  (if k.dstPkg.isNone ∧ k.dstBytes ≠ 0 then s1.touchRange k.dst k.dstBytes else s1, k)

/-- The 16 bytes of a receipt (R197). -/
def Command.receipt (k : Command) : List Byte :=
  toBytes 8 k.due.toNat ++ toBytes 2 k.serial.toNat ++ [if k.stage then 1 else 0] ++ List.replicate 5 0

/-- Where a command's memory ranges lie in memory, go on. -/
def Command.guarded (k : Command) (r : Res) : Res :=
  let dst (r : Res) : Res := if k.dstPkg.isNone ∧ k.dstBytes ≠ 0 then guardAddr k.dst k.dstBytes r else r
  if k.srcBytes ≠ 0 then guardAddr k.src k.srcBytes (dst r) else dst r

/-- Write one mask bit; masks here have one register (R194). -/
def Core.putBit (c : Core) (md : MName) (i : Nat) (v : Bool) : Core :=
  let old := c.m[md.toNat]'md.isLt &&& ~~~ (1#384 <<< i)
  { c with m := c.m.set md.toNat (if v then old ||| (1#384 <<< i) else old) md.isLt }

/-- A refused command closes its engine for the rest of the batch (R195). -/
def Core.close (c : Core) (stage : Bool) : Core := { c with shut := (c.curPc, stage) :: c.shut }
def Core.closed (c : Core) (stage : Bool) : Bool := c.shut.contains (c.curPc, stage)
def Core.reopen (c : Core) : Core := { c with shut := c.shut.filter fun e => e.1 != c.curPc }

/-- The batch has been gone through up to command hi (R22, R61, R195). -/
def State.endBatch (s : State) (a : VName) (hi : Nat) : State :=
  let c := s.core
  let s1 : State := if hi < 48 then s
    else { s with core := (c.noteReads .vector (c.inRegs (c.physGroup a.toNat 8))).reopen }
  s1.endVector hi 48

/-- The i-th command of a batch has been read: correctable errors of its bytes are corrected and noted (R61). -/
def State.readCommand (s : State) (a : VName) (i : Nat) : State :=
  let at_ := s.core.groupCell a.toNat (64 * i)
  { s with core := s.core.correct .vector fun k => at_ ≤ k && k < at_ + 64 }

/-- The commands of a batch, in order (R195, R196). -/
def State.issueCommands (s : State) (a b : VName) (md : MName) (hi : Nat) : List Nat → Res
  | [] => .next (s.endBatch a hi)
  | i :: rest =>
    match s.core.badIn ((List.range 8).map fun j => s.core.groupCell a.toNat (64 * i + 8 * j)) 8 with
    | some w => s.trapAt i 0x09 0x01 w
    | none =>
      let s := s.readCommand a i
      let k := Command.ofBytes ((List.range 64).map fun j => s.core.vec.get (s.core.groupCell a.toNat (64 * i + j)))
      match s.checkCommand k with
      | some (cause, sub) => s.trapAt i cause sub (k.bits.extractLsb' 0 64)
      | none =>
        (s.resolve k).guarded (
          if s.core.roomFor k && !s.core.closed k.stage && !s.heldCommand k then
            let r := s.accept k
            let ws := r.2.receipt.mapIdx fun j v => (r.1.core.groupCell b.toNat (16 * i + j), v)
            let s1 : State := { r.1 with core := (r.1.core.writeVec ws).putBit md i true }
            s1.issueCommands a b md hi rest
          else
            { s with core := (s.core.putBit md i false).close k.stage }.issueCommands a b md hi rest)

/-- Bits of a mask register below 48 (R194). -/
def Core.activeBits (c : Core) (m : MName) (lo hi : Nat) : List Nat :=
  (span lo hi).filter fun k => (c.m[m.toNat]'m.isLt).getLsbD k

/-- R183, R195, R337. -/
def execEissue (md : MName) (a b : VName) (m : MName) (s : State) : Res :=
  if share (s.core.physGroup a.toNat 8) (s.core.physGroup b.toNat 2) then s.illegal (.eissue md a b m) 0x05
  else s.afterDrain fun s =>
    let s1 := s.pushS.settleV s.core.num
    if !s1.doneS || !s1.doneV then .next s1
    else
      let hi := s1.hiOf 48
      let s2 := s1.loadAgain.bump
      let s3 : State := if s2.core.estartN = 0 then { s2 with core := s2.core.reopen } else s2
      s3.issueCommands a b md hi (s3.core.activeBits m s3.core.estartN hi)

/-! EWAIT. -/

def Core.outstanding (c : Core) (n : BitVec 16) : Option Command := c.cmds.find? fun k => k.serial == n

/-- The commands of a serial that have not ended, in the order of their acceptance: a command may keep its serial through a save while
the core gives it out anew (R191, R232). -/
def Core.ofSerial (c : Core) (n : BitVec 16) : List Command := c.cmds.filter fun k => k.serial == n

/-- Serials of the active receipts (R197, R199). -/
def Core.serials (c : Core) (a : VName) (m : MName) : List (Nat × BitVec 16) :=
  (c.activeBits m 0 48).map fun k =>
    (k, BitVec.ofNat 16 (ofBytes ((List.range 2).map fun j => c.vec.get (c.groupCell a.toNat (16 * k + 8 + j)))))

/-- T of R199; none when no covered command is outstanding. -/
def Core.latest (c : Core) (l : List (Nat × BitVec 16)) : Option Nat :=
  ((l.filterMap fun e => c.outstanding e.2).map fun k => k.due.toNat).max?

/-- A command with the serial ended with a mismatch that no EWAIT has reported. -/
def Core.mismatched (c : Core) (n : BitVec 16) : Bool := c.mismatch.any fun e => e.1 == n

/-- The end of an EWAIT: its receipts have been read (R61), and the lowest one that has a trap raises it, or the EWAIT is an
acquire (R185, R199). -/
def State.endEwait (s : State) (a : VName) (m : MName) : Res :=
  let s : State := { s with core := s.core.noteReads .vector (s.core.inRegs (s.core.physGroup a.toNat 2)) }
  let c := s.core
  let l := c.serials a m
  let stuck (n : BitVec 16) := (c.outstanding n).isSome || c.refused.contains n || c.mismatched n
  match l.find? fun e => stuck e.2 with
  | some (k, n) =>
    let el := BitVec.ofNat 12 k
    if (c.outstanding n).isSome then s.trap 0x08 0x01 el (n.setWidth 64)
    else if c.refused.contains n then
      { s with core := { c with refused := c.refused.filter fun x => x != n } }.trap 0x08 0x02 el (n.setWidth 64)
    else { s with core := { c with mismatch := c.mismatch.filter fun e => e.1 != n } }.trap 0x07 0x02 el (n.setWidth 64)
  | none =>
    let t := (l.filterMap fun e => (c.ended.find? fun x => x.1 == e.2).map fun x => x.2).foldl max 0
    .next ((s.raiseClocks c.num t).setEstart 0).advance

/-- R199, R339. -/
def execEwait (a : VName) (m : MName) (s : State) : Res :=
  s.afterDrain fun s =>
    let c := s.core
    let l := c.serials a m
    match cut (fun k => c.badIn ((List.range 2).map fun j => c.groupCell a.toNat (16 * k + 8 * j)) 8) (l.map fun e => e.1) with
    | (_, some (k, w)) => s.trap 0x09 0x01 (BitVec.ofNat 12 k) w
    | (_, none) =>
      match c.latest l with
      | some t =>
        if s.time.toNat < t then
          if c.fw then .next s else .next (s.safePoint (some (.engine (BitVec.ofNat 64 t) a m)))
        else s.endEwait a m
      | none => s.endEwait a m

/-- R199: the engine wait of core n ends. -/
def execEwaitWake (core : Nat) (s : State) : Res :=
  match (s.coreAt core).run with
  | .waiting (.engine t a m) =>
    if t.toNat ≤ s.time.toNat ∧ core < Config.cores then
      s.withUserRes core fun s => { s with core := { s.core with run := .running } }.endEwait a m
    else .next s
  | _ => .next s

/-! Pieces of commands. -/

/-- Another command owns the line: one accepted earlier, or, unless the line waits for command k too, a later one (R184, R202). -/
def State.ownedByOther (s : State) (k : Command) (line : Nat) : Bool :=
  s.cores.any fun c => c.cmds.any fun x => x.order != k.order && x.owns line && !(k.owns line && k.order < x.order)

def State.sealedLine (s : State) (line : Nat) : Bool :=
  region (128 * line) == .dram && (s.extentAt (128 * line / Config.extentBytes)).sealed

def State.putCommand (s : State) (n : Nat) (k : Command) : State :=
  s.updCore n fun c => { c with cmds := c.cmds.map fun x => if x.order == k.order then k else x }

/-- The part of a range [dst, dst + n) in its j-th line: offset and length. -/
def linePart (dst n j : Nat) : Nat × Nat :=
  let lo := max dst (128 * (dst / 128 + j))
  let hi := min (dst + n) (128 * (dst / 128 + j + 1))
  (lo - dst, hi - lo)

/-- Number of lines of [dst, dst + n). -/
def lineCount (dst n : Nat) : Nat := if n = 0 then 0 else (dst + (n - 1)) / 128 + 1 - dst / 128

/-- LoadCurrent of the i-th source line by a command's stream, once (R174, R183); it waits for other owners of the line (log 27). -/
def State.readPiece (s : State) (n : Nat) (k : Command) (i : Nat) : State :=
  if lineCount k.src k.srcBytes ≤ i ∨ k.read.contains i ∨ s.ownedByOther k (k.src / 128 + i) then s
  else
    let p := linePart k.src k.srcBytes i
    let r := (s.spend n ((List.range p.2).map fun j => k.src + p.1 + j)).leaseLine k.pts (k.src / 128 + i)
    r.1.putCommand n { k with pts := r.2, read := i :: k.read,
                              got := place p.1 ((List.range p.2).map fun j => s.byteAt (k.src + p.1 + j)) ++ k.got }

/-- The command has loaded the source lines of the n bytes at an offset. -/
def Command.loaded (k : Command) (off n : Nat) : Bool :=
  (List.range (lineCount (k.src + off) n)).all fun j => k.read.contains ((k.src + off) / 128 - k.src / 128 + j)

/-- n bytes it has loaded, from an offset on. -/
def Command.gotBytes (k : Command) (off n : Nat) : List Byte :=
  (List.range n).map fun j => ((k.got.find? fun e => e.1 == off + j).map fun e => e.2).getD 0

/-- The command has still to store to a line of its destination. -/
def Command.pendingLine (k : Command) (line : Nat) : Bool :=
  let open_ (dst n : Nat) (piece : Nat → Nat) : Bool :=
    dst / 128 ≤ line && 128 * line < dst + n && !k.done.contains (piece (line - dst / 128))
  match k.opN with
  | 1 | 2 => open_ k.dst k.count id
  | 3 => (List.range (k.bad.getD k.count)).any fun i =>
      open_ (k.dst + Config.tileBytes * i) Config.tileBytes fun j => 64 * i + j
  | _ => false

/-- The bytes of a packet lie in part on the line. -/
def Packet.storesTo (p : Packet) (line : Nat) : Bool :=
  match p.body with
  | .store bytes => bytes.any fun w => w.1 / 128 == line
  | _ => false

/-- A command accepted earlier has still to write the line, here or on the package of the destination (R202). -/
def State.earlierWrites (s : State) (k : Command) (line : Nat) : Bool :=
  (s.cores.any fun c => c.cmds.any fun x => x.order < k.order && x.dstPkg == k.dstPkg && x.pendingLine line) ||
    s.egress.any fun p => k.dstPkg == some p.dst && (p.engine.any fun e => e < k.order) && p.storesTo line

/-- A destination line may be written now. -/
def State.mayStore (s : State) (k : Command) (line : Nat) : Bool :=
  !s.earlierWrites k line && (k.dstPkg.isSome || (!s.ownedByOther k line && !s.sealedLine line))

/-- Store bytes of one destination line, here or as a remote store (R183, R188); the piece is done. -/
def State.storePiece (s : State) (n : Nat) (k : Command) (piece : Nat) (bytes : List (Nat × Byte)) : State :=
  let k1 := { k with done := piece :: k.done }
  match k.dstPkg, bytes with
  | _, [] => s.putCommand n k1
  | none, (a, v) :: r =>
    let t := (s.spend n (((a, v) :: r).map fun w => w.1)).storeLine (some n) k.pts (a / 128) ((a, v) :: r)
    t.1.putCommand n { k1 with pts := t.2 }
  | some pkg, bs =>
    match s.anyPlane pkg with
    | none => s
    | some plane =>
      (s.enqueue { s.packet n (s.tagOf (s.coreAt n)) pkg plane (.store bs) with engine := some k.order }).putCommand n k1

/-- Act on the outstanding command of core n with the serial and the operation number given: of several, the first that the piece
advances. -/
def State.onCommand (s : State) (n : Nat) (serial : BitVec 16) (op : Nat) (f : Command → State) : Res :=
  let ks := ((s.coreAt n).ofSerial serial).filter fun k => k.opN == op
  match (if n < Config.cores then (ks.find? fun k => f k != s).orElse (fun _ => ks.head?) else none) with
  | some k => .next (f k)
  | none => .next s

/-- R183, R193: piece 2 i loads the i-th line of a COPY's source, piece 2 j + 1 stores the j-th line of its destination. -/
def execCopy (core : Nat) (serial : BitVec 16) (piece : Nat) (s : State) : Res :=
  s.onCommand core serial 1 fun k =>
    let j := piece / 2
    let p := linePart k.dst k.count j
    if piece % 2 = 0 then s.readPiece core k j
    else if lineCount k.dst k.count ≤ j ∨ k.done.contains j ∨ !k.loaded p.1 p.2 ∨ !s.mayStore k (k.dst / 128 + j) then s
    else s.storePiece core k j (place (k.dst + p.1) (k.gotBytes p.1 p.2))

/-- R193: byte j of the destination receives byte j mod 8 of the pattern. -/
def execFill (core : Nat) (serial : BitVec 16) (piece : Nat) (s : State) : Res :=
  s.onCommand core serial 2 fun k =>
    let p := linePart k.dst k.count piece
    if lineCount k.dst k.count ≤ piece ∨ k.done.contains piece ∨ !s.mayStore k (k.dst / 128 + piece) then s
    else
      let byte (j : Nat) : Byte := k.pat.extractLsb' (8 * (j % 8)) 8
      s.storePiece core k piece ((List.range p.2).map fun j => (k.dst + p.1 + j, byte (p.1 + j)))

/-- The loaded version tag of the next block is compared: a match lets the block be written; a mismatch ends the command's
writes (R200), or in L720 mode is counted in `cr.integ` (R301). -/
def State.judge (s : State) (n : Nat) (k : Command) : State :=
  let tag := Config.blockBytes * k.checked + Config.tileBytes
  let c := s.coreAt n
  if k.bad ≠ none ∨ (if k.opN = 4 then 1 else k.count) ≤ k.checked ∨ !k.loaded tag 8 then s
  else if ofBytes (k.gotBytes tag 8) = k.vtag.toNat then s.putCommand n { k with checked := k.checked + 1 }
  else if s.l720.contains c.ctl.world then
    let i := c.ctl.integ
    let c1 := { c with ctl := { c.ctl with
      integ := if i = 0xFFFF then i else i + 1,
      integPc := if i = 0 then k.pc.setWidth 48 else c.ctl.integPc } }
    (s.setCore c1).putCommand n { k with checked := k.checked + 1 }
  else s.putCommand n { k with bad := some k.checked }

/-- R193, R200: piece 3 i loads the i-th source line, piece 3 i + 1 compares the tag of the next block, and piece
3 (64 i + j) + 2 writes the j-th line of block i, whose tag was compared. -/
def execStage (core : Nat) (serial : BitVec 16) (piece : Nat) (s : State) : Res :=
  s.onCommand core serial 3 fun k =>
    let q := piece / 3
    let i := q / 64
    let j := q % 64
    let dst := k.dst + Config.tileBytes * i
    let p := linePart dst Config.tileBytes j
    let src := Config.blockBytes * i + p.1
    if piece % 3 = 0 then s.readPiece core k q
    else if piece % 3 = 1 then s.judge core k
    else if k.checked ≤ i ∨ lineCount dst Config.tileBytes ≤ j ∨ k.done.contains q ∨ !k.loaded src p.2 ∨
        !s.mayStore k (dst / 128 + j) then s
    else s.storePiece core k q (place (dst + p.1) (k.gotBytes src p.2))

/-- An earlier command of the core has still to write the tile, or one of the rows, of a command (R202). -/
def Core.earlierTile (c : Core) (k : Command) : Bool :=
  c.cmds.any fun x => x.order < k.order && x.opN == 4 && x.reg == k.reg
def Core.earlierRow (c : Core) (k : Command) (row : Nat) : Bool :=
  c.cmds.any fun x => x.order < k.order && x.opN == 5 && x.reg ≤ row && row < x.reg + x.count

/-- Source lines that a command has still to load. -/
def Command.unread (k : Command) : List Nat := (List.range (lineCount k.src k.srcBytes)).filter fun i => !k.read.contains i

/-- R193, R201: the next piece: a line of the block that is not loaded, in any order; then the tag; then the tile is written. -/
def execTload (core : Nat) (serial : BitVec 16) (s : State) : Res :=
  s.onCommand core serial 4 fun k =>
    match k.unread with
    | i :: r => ({ s with free := s.free + 1 } : State).readPiece core k
        ((i :: r).getD (Config.engineLine s.free % (r.length + 1)) i)
    | [] =>
      if k.checked = 0 then s.judge core k
      else if k.done ≠ [] ∨ (s.coreAt core).earlierTile k then s
      else (s.updCore core fun c => c.writeTiles (place (tileCell k.reg 0 0) (k.gotBytes 0 Config.tileBytes))).putCommand core
        { k with done := [0] }

/-- R193, R201: piece 2 i loads the i-th source line, piece 2 j + 1 writes row j. -/
def execAload (core : Nat) (serial : BitVec 16) (piece : Nat) (s : State) : Res :=
  s.onCommand core serial 5 fun k =>
    let row := piece / 2
    let off := Config.rowBytes * row
    if piece % 2 = 0 then s.readPiece core k row
    else if k.count ≤ row ∨ k.done.contains row ∨ !k.loaded off Config.rowBytes ∨
        (s.coreAt core).earlierRow k (k.reg + row) then s
    else
      (s.updCore core fun c =>
        (c.writeAcc (place (accCell (k.reg + row) 0) (k.gotBytes off Config.rowBytes))).setRowTy (k.reg + row)
          (if k.ty then .i32 else .f32)).putCommand core { k with done := row :: k.done }

/-- Every store of the command is issued (R191, R200). -/
def Command.allIssued (k : Command) : Bool :=
  match k.opN with
  | 1 | 2 => (List.range (lineCount k.dst k.count)).all fun p => k.done.contains p
  | 3 =>
    (k.bad.isSome || k.checked == k.count) && (List.range k.checked).all fun i =>
      (List.range (lineCount (k.dst + Config.tileBytes * i) Config.tileBytes)).all fun j => k.done.contains (64 * i + j)
  | 4 => k.bad.isSome || k.done != []
  | 5 => (List.range k.count).all fun p => k.done.contains p
  | _ => true

/-- A command leaves its engine; its clock is kept for the acquires (R185). -/
def State.endCommand (s : State) (n : Nat) (k : Command) : State :=
  s.updCore n fun c => { c with
    cmds := c.cmds.filter fun x => x.order != k.order,
    ended := (k.serial, k.pts) :: c.ended,
    mismatch := if k.bad.isSome then (k.serial, c.hartId) :: c.mismatch else c.mismatch }

/-- The last store of a command has been performed at its destination (R191). -/
def State.mayEnd (s : State) (k : Command) : Bool := k.allIssued && !s.egress.any fun p => p.engine == some k.order

/-- R191: of several commands with the serial, the first that is done ends. -/
def execEngineCommandComplete (core : Nat) (serial : BitVec 16) (s : State) : Res :=
  match (if core < Config.cores then ((s.coreAt core).ofSerial serial).find? s.mayEnd else none) with
  | some k => .next (s.endCommand core k)
  | none => .next s

/-! PFADD. -/

/-- A PFADD to another package (R190, R258, R360): issued after the earlier S accesses, on the hash plane of the address; while an add
to the package that was issued before that plane changed is outstanding, it waits (log 34). -/
def State.remotePfadd (s : State) (d b : XName) (pkg : BitVec 12) (p : Landing) : Res :=
  let s := s.pushS
  let h := hashPlane (podAddr pkg p.addr)
  match s.remap pkg h with
  | none => .next s
  | some k =>
    let c := s.core
    let fence := c.remote.any fun r => r.pkg == pkg && r.maps != [] && r.maps.getD h h != k
    if !s.doneS ∨ fence ∨ !c.mayCount pkg k then .next s
    else
      let rtag := s.serial
      let s1 := s.issueRemote pkg k (s.planeMap pkg) none (.pfadd rtag p.addr (s.x b).val false)
      let w : Await := { rtag := rtag, pkg := pkg, dest := .xreg c.fw d }
      .next ({ s1 with core := { s1.core with waits := s1.core.waits ++ [w] } }.bump).advance

/-- R359, R360. With an untagged base of firmware it is an Atomic on this package's memory (R158). -/
def execPfadd (d a b : XName) (imm : BitVec 32) (s : State) : Res :=
  s.checked (s.x a) (off32 imm) 8 8 .remoteAtomic fun p =>
    match p.pkg with
    | some pkg => s.remotePfadd d b pkg p
    | none => .next (s.issueS (.amoX d p.addr 8 .add (s.x b).val)).advance

/-! Held versions. -/

/-- A stream drops a held version. -/
def Stream.drop (st : Stream) (h : HeldRef) : Stream := { st with held := st.held.filter fun x => x != h }

/-- R173: the machine drops one version that an S stream holds: that of a core's user hart or firmware context, or that of a
service core, whose numbers follow those of the cores. -/
def execHeldVersionDrop (core : Nat) (version : HeldVersion) (s : State) : Res :=
  let h : HeldRef := { line := version.line, wts := version.wts }
  if core < Config.cores then
    let c := s.coreAt core
    .next (s.setCore (c.setStream version.fw ((c.stream version.fw).drop h))).forget
  else .next ({ s with services := s.services.modify (core - Config.cores) fun st => st.drop h } : State).forget

end Sys2Proof.Machine
end

