-- ==== Sys2Proof/Machine/Handles.lean ====
section
/-! DEFINITION. Ballast handles and records: HNEW, HCOPY, HDROP, HBASE, posts (R240 to R249, R252, R289, R342). -/

namespace Sys2Proof.Machine

/-! Handles (R240). -/

def hHome (h : Word) : BitVec 12 := h.extractLsb' 52 12
def hId (h : Word) : Nat := (h.extractLsb' 32 20).toNat
def hE (h : Word) : Nat := (h.extractLsb' 26 6).toNat
def hB (h : Word) : Nat := (h.extractLsb' 20 6).toNat

def mkHandle (home : BitVec 12) (id e b : Nat) : Word :=
  home ++ BitVec.ofNat 20 id ++ BitVec.ofNat 6 e ++ BitVec.ofNat 6 b ++ 0#20

/-- Well formed (R240). -/
def hWf (h : Word) : Bool := h != 0 && h.extractLsb' 0 20 == 0#20 && 2 ≤ hB h && hB h ≤ 32 && hE h ≤ hB h

/-- Units of weight (R240). -/
def hWeight (h : Word) : Nat := 2 ^ (hB h - hE h)

/-! Records (R242). -/

/-- What handles name a record by: its home and id. -/
def BallastRecord.key (r : BallastRecord) : BitVec 12 × Nat := (r.home, r.id)
def handleKey (h : Word) : BitVec 12 × Nat := (hHome h, hId h)

def State.recordAt (s : State) (k : BitVec 12 × Nat) : Option BallastRecord := s.records.find? fun r => r.key == k

def State.putRecord (s : State) (r : BallastRecord) : State :=
  { s with records := s.records.map fun x => if x.key == r.key then r else x }

/-- The next free id: the ids never used, ascending, then the freed ones, least recently freed first (R242, R252). -/
def State.freeId (s : State) : Option (Nat × State) :=
  if s.nextId ≤ Config.lastRecord then some (s.nextId, { s with nextId := s.nextId + 1 })
  else match s.freed with
    | id :: r => some (id, { s with freed := r })
    | [] => none

/-- A record is gone, and its id is free at its home. -/
def State.freeRecord (s : State) (k : BitVec 12 × Nat) : State :=
  { s with records := s.records.filter (fun r => r.key != k),
           freed := if k.1 = s.pkg then s.freed ++ [k.2] else s.freed }

/-- A ballast fault: firmware receives its record, and reports it on the launch's ring; no hart stops (R222, R249, R309). -/
def State.ballastFault (s : State) (launch : Nat) (sub : BitVec 8) (handle : Word) : State :=
  ({ s with ballast := s.ballast ++ [{ cause := 0x0D, sub := sub, val := handle }] } : State).postLaunch launch 4 0 handle

/-- Launch id of the focused core; 0 without one. -/
def State.launchId (s : State) : Nat :=
  match s.launchOf s.core with
  | some l => l.id
  | none => 0

/-! The instructions. -/

/-- First address of an image's code region (R312). -/
def Image.codeBase (i : Image) : Option Nat := (i.slots.find? fun e => e.1 == i.codeSlot).map fun e => e.2.base.toNat

/-- The target is a slot of a well-formed line of the stage's image (R243). -/
def State.goodTarget (s : State) (stage : Nat) (pc : Word) : Bool :=
  match s.launchOf s.core with
  | none => false
  | some l =>
    match (l.stages[stage]?).bind fun k => l.images[k.image]? with
    | none => false
    | some im =>
      match im.codeBase with
      | none => false
      | some base =>
        base ≤ (lineBase pc).toNat && (lineBase pc).toNat < base + im.codeLen &&
          (lineFault (toHalves (s.mem.bytes (lineBase pc).toNat 64)) pc).isNone

/-- R243. -/
def execHnew (d a : XName) (stage : BitVec 4) (exp : BitVec 6) (t : TargetJ) (s : State) : Res :=
  let pc := s.core.targetJ t
  if d = 0 ∨ !s.goodTarget stage.toNat pc then s.illegal (.hnew d a stage exp t) 0x05
  else
    let x := s.x a
    match s.check x 0 1 1 .base with
    | .error f => s.trap f.cause f.sub 0 f.val
    | .ok _ =>
      if x.slot = 0 then s.trap 0x05 0x07 0 x.val
      else match s.freeId with
        | none => .next (s.putX d 0).advance
        | some (id, s1) =>
          let off := x.val - (s.core.slot x.slot).base.setWidth 64
          let k : RecordKind := .tensor x.slot off s.core.ctl.world stage.toNat pc false
          let r : BallastRecord := { home := s.pkg, id := id, launch := s.launchId, b := exp.toNat, back := 0, kind := k }
          .next (({ s1 with records := s1.records ++ [r] } : State).putX d (mkHandle s.pkg id 0 exp.toNat)).advance

/-- R244. -/
def execHcopy (d a : XName) (s : State) : Res :=
  if d = 0 ∨ d = a then s.illegal (.hcopy d a) 0x05
  else
    let h := (s.x a).val
    if h = 0 then .next (s.putX d 0).advance
    else if !hWf h then .next (s.ballastFault s.launchId 0x02 h).advance
    else if hE h < hB h then
      let v := mkHandle (hHome h) (hId h) (hE h + 1) (hB h)
      .next ((s.putX a v).putX d v).advance
    else match s.freeId with
      | none => .next (s.putX d 0).advance
      | some (id, s1) =>
        let r : BallastRecord := { home := s.pkg, id := id, launch := s.launchId, b := hB h, back := 0, kind := .indirect h }
        let v := mkHandle s.pkg id 1 (hB h)
        .next ((({ s1 with records := s1.records ++ [r] } : State).putX a v).putX d v).advance

/-- R245: the post waits until it may leave. -/
def execHdrop (a : XName) (s : State) : Res :=
  let h := (s.x a).val
  let s1 := s.putX a 0
  if h = 0 then .next s1.advance
  else if !hWf h then .next (s1.ballastFault s.launchId 0x02 h).advance
  else
    let c := s1.core
    let e : PostEntry := { handle := h, stamp := c.stamp, old := none }
    .next (({ s1 with core := { c with posts := c.posts ++ [e] } } : State).bump).advance

/-- Follow the records from a handle, through at most n steps: the tensor's package, slot and offset. Records of
another package, or ones that moved there, are read there (R248, R289). -/
def State.follow (s : State) (h : Word) : Nat → Option (BitVec 12 × BitVec 8 × Word)
  | 0 => none
  | n + 1 =>
    match s.recordAt (handleKey h) with
    | some r =>
      match r.kind with
      | .indirect parent => s.follow parent n
      | .tensor slot off _ _ _ dead => if dead then none else some (s.pkg, slot, off)
    | none =>
      if hHome h ≠ s.pkg ∨ (s.forwards.any fun f => (f.home, f.id) == handleKey h) then
        match Config.farRecord s.free h with
        | .dead => none
        | .tensor p slot off => some (p, slot, off)
        | .parent k => s.follow k n
      else none

/-- R248. -/
def execHbase (d a : XName) (s : State) : Res :=
  let h := (s.x a).val
  if !hWf h then s.trap 0x04 0x02 0 h
  else match s.follow h (2 * s.records.length + 2) with
    | none => ({ s with free := s.free + 1 } : State).trap 0x04 0x02 0 h
    | some (p, slot, off) =>
      let s : State := { s with free := s.free + 1 }
      let e := s.core.slot slot
      if !e.v then s.trap 0x04 0x02 0 h
      else if e.world ≠ s.core.ctl.world then s.trap 0x0B 0x01 0 h
      else if p = s.pkg ∧ e.rem then s.trap 0x05 0x04 0 h
      else if p ≠ s.pkg ∧ (!e.rem ∨ e.pkg ≠ p) then s.trap 0x05 0x04 0 h
      else .next (s.setX d { val := e.base.setWidth 64 + off, tag := slotTag slot }).advance

/-! Posts. -/

/-- A post for a record here, which needs no link. -/
def State.ownPost (s : State) (core tag : Nat) (handle : Word) : State :=
  { s with ingress := s.ingress ++ [s.packet core tag s.pkg 0 (.post handle)], nextPacket := s.serial + 1 }

/-- A record of this package, or one that moved here, performs the posts to a handle. -/
def State.ownHandle (s : State) (handle : Word) : Bool := hHome handle == s.pkg || (s.recordAt (handleKey handle)).isSome

/-- Send a post to the package of its record (R245, R289); `core` and `tag` are the sender's. -/
def State.sendPost (s : State) (core tag : Nat) (handle : Word) : State :=
  if s.ownHandle handle then s.ownPost core tag handle
  else s.send core tag (hHome handle) ((s.anyPlane (hHome handle)).getD 0) (.post handle)

/-- A post that a cut found waiting leaves with the old colour, and was counted at the cut. -/
def State.sendOld (s : State) (core tag : Nat) (plane : Nat) (handle : Word) : State :=
  let p : Packet := { s.packet core tag (hHome handle) ((s.remap (hHome handle) plane).getD plane) (.post handle) with
    counted := plane, colour := !s.colourOf tag }
  { s with egress := s.egress ++ [p], nextPacket := p.serial + 1 }

/-- The accesses before a post are performed and the commands before it have ended (R245); a command that the ladder has aborted holds it
back until its reissue has ended (log 64). -/
def Core.mayPost (c : Core) (e : PostEntry) : Bool :=
  (c.sq.all fun a => e.stamp < a.stamp) && (c.vq.all fun a => e.stamp < a.stamp) &&
    (c.remote.all fun r => e.stamp < r.stamp) && (c.waits.all fun w => w.dest.isX) &&
    (c.cmds.all fun k => e.stamp < k.stamp) && c.owed.all fun k => e.stamp < k.stamp

/-- The first post of a hart leaves: the state, and the hart without it. -/
def State.issuePost (s : State) (c : Core) : Option (State × Core) :=
  match c.posts with
  | [] => none
  | e :: rest =>
    if c.mayPost e && (s.ownHandle e.handle || (s.anyPlane (hHome e.handle)).isSome) then
      let c1 := { c with posts := rest }
      match e.old with
      | some k => if s.ownHandle e.handle then some (s.ownPost c.num (s.tagOf c) e.handle, c1)
                  else some (s.sendOld c.num (s.tagOf c) k e.handle, c1)
      | none => some (s.sendPost c.num (s.tagOf c) e.handle, c1)
    else none

/-- A record performs a post as one Atomic (R246). -/
def State.performPost (s : State) (core tag : Nat) (handle : Word) : State :=
  let launch := match s.launchByTag tag with | some l => l.id | none => 0
  match s.recordAt (handleKey handle) with
  | none => s.ballastFault launch 0x03 handle
  | some r =>
    let w := r.back + hWeight handle
    match r.kind with
    | .tensor slot off world stage entry dead =>
      if dead then s.ballastFault launch 0x03 handle
      else if 2 ^ r.b < w then s.ballastFault launch 0x01 handle
      else if w = 2 ^ r.b then
        let r1 : BallastRecord := { r with back := w, kind := .tensor slot off world stage entry true }
        { s.putRecord r1 with finalisers := s.finalisers ++ [r.key] }
      else s.putRecord { r with back := w }
    | .indirect parent =>
      if 2 ^ r.b < w then s.ballastFault launch 0x01 handle
      else if w = 2 ^ r.b then (s.sendPost core tag parent).freeRecord r.key
      else s.putRecord { r with back := w }

/-- R246, R289: an arrived post is performed, or forwarded when its record moved. -/
def State.arrivedPost (s : State) (p : Packet) : Option State :=
  match p.body with
  | .post handle =>
    match s.forwards.find? fun f => (f.home, f.id) == handleKey handle with
    | some f => some (s.enqueue { s.packet p.core p.launch f.target ((s.anyPlane f.target).getD 0) (.post handle) with
        colour := p.colour })
    | none => some (s.performPost p.core p.launch handle)
  | _ => none

end Sys2Proof.Machine
end

