-- ==== Sys2Proof/Machine/Cut.lean ====
section
/-! DEFINITION. The cut of a harvest on this package (R165, R278 to R281) and what a packet does to it (R282). -/

namespace Sys2Proof.Machine

/-! A launch on the package. -/

/-- The core holds a hart of the launch. -/
def Core.belongs (c : Core) (launch : Nat) : Bool :=
  match c.flight with
  | some f => f.launch == launch
  | none => false

/-- Extents of a region. -/
def SlotEntry.extents (e : SlotEntry) : List Nat :=
  if e.v && !e.rem && e.limit != 0 then
    span (e.base.toNat / Config.extentBytes) ((e.base.toNat + (e.limit.toNat - 1)) / Config.extentBytes + 1)
  else []

/-- The extents of a launch: those of its valid local slots, in any of its images. -/
def Launch.extents (l : Launch) : List Nat :=
  (l.images.flatMap fun i => i.slots.flatMap fun e => e.2.extents).dedup

/-- Perform the local accesses of the launch's harts that are not blocked (R278 step 2). -/
def State.settleLaunch (s : State) (id : Nat) : State :=
  s.cores.foldl (fun s c => if c.belongs id then s.settle c.num else s) s

/-- Every local access of the launch's harts is performed. -/
def State.settledLaunch (s : State) (id : Nat) : Bool :=
  s.cores.all fun c => !c.belongs id || (c.sq.isEmpty && c.vq.isEmpty)

/-- A SNAP of the launch takes effect only after a release: phase 2 or 3 of a migration is under way, here or elsewhere (R288). -/
def Launch.snapWaits (l : Launch) : Bool := l.halted || match l.migration with
  | some m => m.stopped
  | none => false

/-! Captures (R278 to R280). -/

/-- rpend: group g of physical register p at bit 6p + g (R280). -/
def Core.rpend (c : Core) : BitVec 192 :=
  c.waits.foldl (fun a w => match w.dest with
    | .group r g (_ :: _) => a ||| (1#192 <<< (6 * (r % 32) + g))
    | _ => a) 0

/-- xpend (R280). -/
def Core.xpend (c : Core) : BitVec 32 :=
  c.waits.foldl (fun a w => match w.dest with
    | .xreg false d => if d = 0 then a else a ||| (1#32 <<< d.toNat)
    | _ => a) 0

/-- A capture is a save of the hart that records the outstanding commands as owed; they keep running (R234, R279). -/
def State.captureOf (s : State) (c : Core) : Capture :=
  let k := (Core.dropOwed { c with owed := c.owed ++ c.cmds } s.free).stored?
  { save := s.saveOf { k with posts := [] } 0, rpend := c.rpend, xpend := c.xpend }

/-- Captures made at one cut lie apart in firmware's DRAM (R234). -/
def State.placeCaptures (s : State) (l : List Capture) : List Capture :=
  l.foldl (fun done k => done ++ [{ k with save := { k.save with
    addr := s.saveArea (s.saveAddrs ++ done.map fun c => c.save.addr) (s.free + done.length) } }]) []

/-! Markers (R281). -/

/-- One marker with the count of its channel. A marker of a plane that is down travels on the next live one. -/
def State.sendMarker (s : State) (l : Launch) (h : Harvest) (dst : BitVec 12) (plane vc : Nat) : State :=
  let count := countOf h.sent { pkg := dst, plane := plane, vc := vc }
  let p : Packet := { s.packet 0 l.tag.toNat dst ((s.remap dst plane).getD plane) (.marker h.num count) with
    counted := plane, vc := vc, colour := l.colour }
  { s with egress := s.egress ++ [p], nextPacket := p.serial + 1 }

/-- The other packages of a launch that are not lost. -/
def State.peers (s : State) (l : Launch) : List (BitVec 12) := l.pkgs.filter fun p => p != s.pkg && !s.lost.contains p

/-- The 64 channels toward or from a package. -/
def channels (pkg : BitVec 12) : List Channel :=
  (List.range 64).map fun i => { pkg := pkg, plane := i / 4, vc := i % 4 }

/-- The harts of a launch, on cores and in saves. -/
def State.hartsOf (s : State) (launch : Nat) : List Core :=
  (s.cores ++ s.saves.map fun v => v.core).filter fun c => c.belongs launch

/-- A post of the old colour to a package has still to leave. -/
def State.oldPost (s : State) (launch : Nat) (dst : BitVec 12) : Bool :=
  (s.hartsOf launch).any fun c => c.posts.any fun e => e.old.isSome && hHome e.handle == dst

/-- The markers of a launch's last cut leave for the packages to which every post of the old colour has left. -/
def State.sendDue (s : State) (launch : Nat) : State :=
  match s.launchAt launch with
  | none => s
  | some l =>
    match l.harvests.getLast? with
    | none => s
    | some h =>
      let due := h.unsent.filter fun p => !s.oldPost launch p
      let s1 := s.setLaunch (l.modHarvest fun h => { h with unsent := h.unsent.filter fun p => !due.contains p })
      due.foldl (fun s p => (channels p).foldl (fun s c => s.sendMarker l h p c.plane c.vc) s) s1

/-- R245, R281, R342: the first post of core n's hart leaves, and with the last of the old colour the markers do. A core number
from 1,024 on stands for the hart of the save at place core - 1,024, whose posts no save discards. -/
def execBallastPostIssue (core : Nat) (s : State) : Res :=
  if core < Config.cores then
    match s.issuePost (s.coreAt core) with
    | some (s1, c) => .next ((s1.setCore c).sendDue c.hartId.flight.launch)
    | none => .next s
  else
    match s.saves[core - Config.cores]? with
    | none => .next s
    | some v =>
      match s.issuePost v.core with
      | some (s1, c) =>
        .next (({ s1 with saves := s1.saves.set (core - Config.cores) { v with core := c } } : State).sendDue
          c.hartId.flight.launch)
      | none => .next s

/-! The cut. -/

/-- A post that a cut finds waiting, for a record of another package. -/
def State.waitsAbroad (s : State) (e : PostEntry) : Bool := !s.ownHandle e.handle && e.old.isNone

/-- The plane that a post will leave on. -/
def State.postPlane (s : State) (e : PostEntry) : Nat := (s.anyPlane (hHome e.handle)).getD 0

/-- Posts for other packages that a cut finds waiting get the plane they will leave on (R279). -/
def State.agePosts (s : State) (c : Core) : Core :=
  { c with posts := c.posts.map fun e => if s.waitsAbroad e then { e with old := some (s.postPlane e) } else e }

/-- The posts of a launch that wait when the cut is taken: those for other packages are counted on their channel, and
those for this one, here or arrived, are channel state at once (R250, R279, R281). What a packet of the launch has stored before
the cut is no part of what is recorded of it. -/
def State.ageLaunch (s : State) (l : Launch) : State × Launch × List (Channel × Packet) :=
  let mine (c : Core) : Bool := c.belongs l.id
  let harts := s.hartsOf l.id
  let abroad := harts.flatMap fun c => c.posts.filter s.waitsAbroad
  let l1 := abroad.foldl (fun (l : Launch) e =>
    { l with sent := bumpCount l.sent { pkg := hHome e.handle, plane := s.postPlane e, vc := 2 } }) l
  let held : List Packet := harts.flatMap fun c => (c.posts.filter fun e => s.ownHandle e.handle).map fun e =>
    { s.packet c.num l.tag.toNat s.pkg 0 (.post e.handle) with serial := 0 }
  let own (p : Packet) : Bool := p.src == s.pkg && p.launch == l.tag.toNat
  let f (c : Core) : Core := if mine c then s.agePosts c else c
  let g (p : Packet) : Packet := if own p then { p with colour := !l.colour, parts := [] }
    else if p.launch == l.tag.toNat then { p with parts := [] } else p
  ({ s with free := s.free + 1, core := f s.core, others := s.others.map f,
            saves := s.saves.map (fun v => { v with core := f v.core }), ingress := s.ingress.map g },
    l1, (s.ingress.filter own ++ held).map fun p => (({ pkg := p.src, plane := p.counted, vc := p.vc } : Channel), p))

/-- The pieces of harvest num as the package stands at its cut (R278 steps 3 and 4, R284). Parked and saved harts are taken from
their saves. -/
def State.harvestAt (s : State) (l : Launch) (num : Nat) : Harvest :=
  let live := s.cores.filter fun c => c.belongs l.id && c.run != .parked
  let waiting (rtag : Nat) : Bool := (s.hartsOf l.id).any fun c => c.waits.any fun w => w.rtag == rtag
  { num := num,
    captures := s.placeCaptures (live.map s.captureOf),
    saves := (s.saves.filter fun v => v.flight.launch == l.id).map fun v => { v with core := { v.core with posts := [] } },
    flights := s.flights.filter fun f => f.id.launch == l.id,
    stages := l.stages,
    queues := l.queues,
    records := s.records.filter fun r => r.launch == l.id,
    finalisers := s.finalisers.filter fun k => s.records.any fun r => r.key == k && r.launch == l.id,
    barriers := s.barriers.filter fun b => b.launch == l.id,
    manifest := if num = 1 then l.extents else l.extents.filter fun e => (s.extentAt e).trace.getLsbD 2,
    performed := s.performed.filter fun e => e.launch == l.tag.toNat,
    copies := [], channel := [], received := l.received, markers := [], sent := l.sent, unsent := s.peers l,
    combined := s.combined.filter fun e => waiting e.1 || waiting e.2.1, complete := false }

/-- Seal an extent and clear its t2. -/
def State.sealExtent (s : State) (e : Nat) : State :=
  let x := s.extentAt e
  s.setExtent { x with sealed := true, trace := x.trace &&& 0b1011 }

/-- The package takes the next cut of a launch (R278); none while a move is under way or accesses are pending. A hart is captured
between two instructions (log 9), with busy 1 in its cr.harvest. -/
def State.takeCut (s : State) (id : Nat) : Option State :=
  let s := s.settleLaunch id
  match s.launchAt id with
  | none => none
  | some l =>
    if s.moves.isEmpty && s.settledLaunch id then
      let num := l.last.toNat + 1
      let (s1, l1, own) := s.ageLaunch l
      let h : Harvest := { (s.setLaunch { l with busy := true }).harvestAt l1 num with channel := own }
      let l2 : Launch := { l with colour := !l.colour, busy := true, harvests := l.harvests ++ [h], sent := [],
                                  received := [] }
      some (((l.extents.foldl State.sealExtent s1).setLaunch l2).sendDue id)
    else none

/-! What a packet does to a harvest (R282, R283). -/

/-- Packages of the launch are lost, or have still to abandon a harvest that this one has abandoned (R271, R285, log 37). -/
def State.recovering (s : State) (l : Launch) : Bool := l.blocked || l.pkgs.any fun p => s.lost.contains p

/-- A packet of the new colour makes the package take its cut first; while it cannot, the packet waits. One that was sent after
an abandoned cut waits until the rollback discards it (R285). -/
def State.withCut (s : State) (p : Packet) (k : State → Res) : Res :=
  match s.launchByTag p.launch with
  | some l =>
    if p.colour != l.colour && !l.busy then
      if s.recovering l then .next s
      else match s.takeCut l.id with
      | some s1 => k s1
      | none => .next s
    else k s
  | none => k s

/-- The channel a packet came on: its plane is the one it was first issued on. -/
def Packet.channel (p : Packet) : Channel := { pkg := p.src, plane := p.counted, vc := p.vc }

/-- The packet crosses the cut: it is old and the package has taken it. -/
def State.crosses (s : State) (p : Packet) : Bool :=
  match s.launchByTag p.launch with
  | some l => l.busy && p.colour != l.colour && p.body.counted
  | none => false

/-- A packet as the channel state holds it: what a request has read so far is no part of it. -/
def Packet.recorded (p : Packet) : Packet :=
  { p with body := match p.body with
      | .vldr rtag g addrs _ => .vldr rtag g addrs []
      | b => b }

/-- A packet that is performed after the cut and is old enters the channel state. -/
def State.record (s : State) (p : Packet) : State :=
  if s.crosses p then
    match s.launchByTag p.launch with
    | some l => s.setLaunch (l.modHarvest fun h => { h with channel := h.channel ++ [(p.channel, p.recorded)] })
    | none => s
  else s

/-- The channels that a packet counts on: its own, and that of every add that a combined one stands for (R262, R283). -/
def Packet.channels (p : Packet) : List Channel := p.channel :: p.merged.map fun e => { p.channel with plane := e.2.1 }

/-- A performed packet counts on its channels for the harvest in progress, or for the next one; one that a switch combined counts for
each of its adds (log 20). -/
def State.countIn (s : State) (p : Packet) : State :=
  let add (l : List (Channel × Nat)) : List (Channel × Nat) := p.channels.foldl bumpCount l
  match s.launchByTag p.launch with
  | some l =>
    if !p.body.counted then s
    else if s.crosses p then
      s.setLaunch (l.modHarvest fun h => { h with received := add h.received })
    else s.setLaunch { l with received := add l.received }
  | none => s

end Sys2Proof.Machine
end

