-- ==== Sys2Proof/Machine/Ingress.lean ====
section
/-! DEFINITION. The ingress stream (R188 to R190, R263, R274, R275, R300), replies and acknowledgements (R259, R263,
R360), combining in a switch (R262), and markers (R281 to R283). -/

namespace Sys2Proof.Machine

/-! Arrived packets. -/

/-- The accesses performed here for a hart of a package that it counted in one count of a plane. -/
def State.performedIn (s : State) (p : Packet) (hart : HartId) (plane number : Nat) : Performed :=
  (s.performed.find? fun e => e.src == p.src && e.hart == hart && e.launch == p.launch && e.plane == plane &&
    e.number == number).getD { src := p.src, hart := hart, launch := p.launch, plane := plane, number := number, count := 0 }

/-- The counts that an ordered flag carries are met (R189, R263). -/
def State.flagReady (s : State) (p : Packet) : Bool :=
  match p.counts with
  | none => true
  | some need => (List.range 16).all fun k =>
      let e := need.getD k (0, 0)
      e.2 ≤ (s.performedIn p p.hart k e.1).count

/-- A request that is performed as a step of the ingress stream; the other kinds stand in no path queue. -/
def PacketBody.isAccess : PacketBody → Bool
  | .store _ | .vldr .. | .pfadd .. => true
  | _ => false

/-- A store that no hart counts is a remote write of an engine, which is no access of the hart (R172, R188, R263). -/
def Packet.ofEngine (p : Packet) : Bool :=
  match p.body with
  | .store _ => p.interval.isNone
  | _ => false

/-- The harts whose accesses a request stands for. -/
def Packet.senders (p : Packet) : List HartId := p.hart :: p.merged.map fun e => e.1

/-- Two requests come from one hart, wherever it runs, or from the engines of its commands, on one path (R172). -/
def Packet.samePath (p q : Packet) : Bool :=
  q.body.isAccess && q.src == p.src && (q.senders.any p.senders.contains) && q.launch == p.launch && q.plane == p.plane &&
    q.ofEngine == p.ofEngine

/-- The k-th arrived packet is the head of its path queue: no other request of its hart on its path stands before it. An
ordered flag that waits for its counts stands aside, since what it waits for may have been resent on its path (R188, R274,
log 20). -/
def State.atHead (s : State) (k : Nat) (p : Packet) : Bool :=
  !p.body.isAccess || (s.ingress.take k).all fun q => !p.samePath q || !s.flagReady q

/-- Act on the k-th arrived packet when it may be performed, after the cut that it may force (R282). -/
def State.onArrived (s : State) (k : Nat) (f : Packet → State → Res) : Res :=
  match s.ingress[k]? with
  | none => .next s
  | some p => if s.atHead k p then s.withCut p (f p) else .next s

/-- The k-th arrived packet is done with. -/
def State.take (s : State) (k : Nat) (p : Packet) : State :=
  ({ s with ingress := s.ingress.eraseIdx k } : State).countIn p

/-- A packet sent back to the core that a packet came from, on any live plane (R257), with the package's colour for the launch, or
that of the packet when the launch does not run here (R289). -/
def State.reply (s : State) (p : Packet) (body : PacketBody) : State :=
  let q := s.packet p.core p.launch p.src ((s.anyPlane p.src).getD p.plane) body
  s.enqueue (if (s.launchByTag p.launch).isSome then q else { q with colour := p.colour })

/-- The adds and stores of harts that a packet stands for: hart, plane first issued on, number of the count. -/
def Packet.stands (p : Packet) : List (HartId × Nat × Nat) := (p.interval.toList.map fun n => (p.hart, p.counted, n)) ++ p.merged

/-- Count a performed remote store or PFADD of a hart, and every add that it stands for, each on the plane it was first issued on
(R263, R274). -/
def State.credit (s : State) (p : Packet) : State :=
  p.stands.foldl (fun (s : State) h =>
    let e := s.performedIn p h.1 h.2.1 h.2.2
    { s with performed := { e with count := e.count + 1 } :: s.performed.filter fun x => x != e }) s

/-! Memory as the ingress stream meets it. -/

/-- Firmware's report of a discarded access (R300). -/
def State.discard (s : State) (p : Packet) (a : Nat) : State := { s with discards := s.discards ++ [(p.src, a)] }

/-- The line may be written now (R184, R284). -/
def State.writable (s : State) (line : Nat) : Bool := !s.owned line && !s.sealedLine line

/-- Perform the bytes of one line as Store of the ingress stream (R175). -/
def State.ingressStore (s : State) (line : Nat) (bytes : List (Nat × Byte)) : State :=
  let r := s.storeLine none s.ptsIn line bytes
  { r.1 with ptsIn := r.2 }

/-- The bytes of a store on its first line, and those on its other lines. -/
def firstLine : List (Nat × Byte) → List (Nat × Byte) × List (Nat × Byte)
  | [] => ([], [])
  | (a, v) :: r => ((a, v) :: r.filter fun w => w.1 / 128 == a / 128, r.filter fun w => w.1 / 128 != a / 128)

/-- Perform one line of a store: none while the line may not be written. -/
def State.storeNow (s : State) (p : Packet) (bytes : List (Nat × Byte)) : Option State :=
  match bytes with
  | [] => some s
  | (a, v) :: r =>
    if s.revokedLine (a / 128) then some (s.discard p a)
    else if s.writable (a / 128) then some (s.ingressStore (a / 128) ((a, v) :: r))
    else none

/-- R188, R189, R263, R282: one line of an arrived store; after the last the store is recorded, counted and acknowledged as one
packet. -/
def execRemoteStorePerform (k : Nat) (s : State) : Res :=
  s.onArrived k fun p s =>
    match p.body with
    | .store bytes =>
      let r := firstLine bytes
      if !s.flagReady p then .next s
      else
        guardAddr ((bytes.head?.map fun w => w.1).getD 0) 1 (
          match s.storeNow p r.1 with
          | none => .next s
          | some s1 =>
            let done := p.parts ++ r.1
            if r.2.isEmpty then
              .next ((((s1.record { p with parts := [], body := .store done }).take k p).credit p).reply p (.ack p.serial))
            else .next { s1 with ingress := s1.ingress.modify k fun q => { q with parts := done, body := .store r.2 } })
    | _ => .next s

/-- The k-th arrived add is performed: it is counted and acknowledged, and its reply leaves with the word's value before it
(R263, R359). -/
def State.added (s : State) (k : Nat) (p : Packet) (rtag : Nat) (old : Word) : State :=
  ((((s.record p).take k p).credit p).reply p (.ack p.serial)).reply p (.pfaddReply rtag old)

/-- R190, R282, R300, R359: one Atomic. -/
def execPfaddPerform (k : Nat) (s : State) : Res :=
  s.onArrived k fun p s =>
    match p.body with
    | .pfadd rtag addr addend _ =>
      guardAddr addr 8 (
        if s.revokedLine (addr / 128) then
          .next ((({ s with free := s.free + 1 } : State).discard p addr).added k p rtag (Config.freeWord s.free))
        else if !s.writable (addr / 128) then .next s
        else
          let old := s.readAt addr 8
          let s1 := s.ingressStore (addr / 128) (cells addr 8 ((old + addend.toNat) % 2 ^ 64))
          .next (s1.added k p rtag (BitVec.ofNat 64 old)))
    | _ => .next s

/-- LoadCurrent of one line by the ingress stream (R174). -/
def State.ingressLoad (s : State) (line : Nat) : State :=
  let r := s.leaseLine s.ptsIn line
  { r.1 with ptsIn := r.2 }

/-- The 64 bytes of a reply from the bytes read, offset by offset; bytes that were not asked for are 0. -/
def groupBytes (got : List (Nat × Byte)) : List Byte :=
  (List.range 64).map fun j => ((got.find? fun e => e.1 == j).map fun e => e.2).getD 0

/-- The bytes of a request on one line: those of memory, or free ones under a revoked key (R300). -/
def State.readFor (s : State) (l : List (Nat × Nat)) : State × List (Nat × Byte) :=
  match l with
  | [] => (s, [])
  | (_, a) :: _ =>
    if s.revokedLine (a / 128) then
      ({ s with free := s.free + 1 },
        l.map fun e => (e.1, ((Config.freeWord (s.free + e.1)).extractLsb' 0 8)))
    else (s.ingressLoad (a / 128), l.map fun e => (e.1, s.byteAt e.2))

/-- R188, R397: the lines that a group's active elements touch, one a step in ascending order; after the last the reply
leaves. -/
def execVldrRequestPerform (k : Nat) (s : State) : Res :=
  s.onArrived k fun p s =>
    match p.body with
    | .vldr rtag g addrs got =>
      let left := addrs.filter fun e => !got.any fun b => b.1 == e.1
      let line := (left.map fun e => e.2 / 128).foldl min (((left.head?.map fun e => e.2).getD 0) / 128)
      let now := left.filter fun e => e.2 / 128 == line
      guardAddr (128 * line) 128 (
        if s.owned line then .next s
        else
          let r := s.readFor now
          let s1 := if s.revokedLine line then r.1.discard p (128 * line) else r.1
          let data := got ++ r.2
          if now.length = left.length then
            .next (((s1.record p).take k p).reply p (.vldrReply rtag g (groupBytes data)))
          else .next { s1 with ingress := s1.ingress.modify k fun q => { q with body := .vldr rtag g addrs data } })
    | _ => .next s

/-! Replies. -/

/-- Change the hart a reply or an acknowledgement is for: it runs on a core, or is saved. -/
def State.mapHarts (s : State) (f : Core → Core) : State :=
  { s with core := f s.core, others := s.others.map f,
           saves := s.saves.map fun v => { v with core := f v.core } }

/-- The access with a serial, and every add combined with it, is performed at its destination: it leaves the egress queue and the
hart's list (R181, R262, R263). -/
def State.acknowledge (s : State) (serial : Nat) : State :=
  let l := s.combined.foldr (fun e (l : List Nat) => if l.any (tagIs e.1) then e.2.1 :: l else l) [serial]
  ({ s with egress := s.egress.filter fun q => !(tagIs q.serial serial && q.body.answers) } : State).mapHarts fun c =>
    { c with remote := c.remote.filter fun r => !l.any (tagIs r.serial) }

/-- A PFADD reply reaches the hart that waits for it (R360). -/
def Core.takeValue (c : Core) (rtag : Nat) (v : Word) : Core :=
  match c.waits.find? fun w => tagIs w.rtag rtag && w.dest.isX with
  | some { dest := .xreg fw d, .. } =>
    { (c.writeXOf fw d { val := v, tag := 0 }) with waits := c.waits.filter fun w => !(tagIs w.rtag rtag && w.dest.isX) }
  | _ => c

/-- A VLDR reply fills its group (R259). -/
def Core.takeGroup (c : Core) (rtag : Nat) (data : List Byte) : Core :=
  match c.waits.find? fun w => tagIs w.rtag rtag && !w.dest.isX with
  | some { dest := .group _ _ ps, .. } =>
    { (c.writeVec (ps.map fun (p : Nat × Nat) => (p.2, data.getD p.1 0))) with
      waits := c.waits.filter fun w => !(tagIs w.rtag rtag && !w.dest.isX) }
  | _ => c

/-- Deliver a reply value to a request, and to the requests that a switch combined with it, the latest first (R262). -/
def State.deliver (s : State) (rtag : Nat) (v : Word) : Nat → State
  | 0 => s
  | n + 1 =>
    match s.combined.reverse.find? fun e => tagIs e.1 rtag with
    | some e =>
      let s1 : State := { s with combined := s.combined.filter fun x => x != e }
      (s1.deliver e.2.1 (v + e.2.2) n).deliver rtag v n
    | none => (s.mapHarts fun c => c.takeValue rtag v).acknowledge rtag

/-- R190, R262, R360. -/
def execPfaddReply (k : Nat) (s : State) : Res :=
  s.onArrived k fun p s =>
    match p.body with
    | .pfaddReply rtag v =>
      .next (((s.record p).deliver rtag v (s.combined.length + 1)).take k p)
    | _ => .next s

/-- R259, R282. -/
def execVldrReply (k : Nat) (s : State) : Res :=
  s.onArrived k fun p s =>
    match p.body with
    | .vldrReply rtag _ data =>
      .next ((((s.record p).mapHarts fun c => c.takeGroup rtag data).acknowledge rtag).take k p)
    | _ => .next s

/-- R263: the acknowledgement credits the access it names. -/
def execAcknowledgement (k : Nat) (s : State) : Res :=
  s.onArrived k fun p s =>
    match p.body with
    | .ack serial => .next (((s.record p).acknowledge serial).take k p)
    | _ => .next s

/-! Combining. -/

/-- A reply to the request with a tag has arrived. -/
def State.answered (s : State) (rtag : Nat) : Bool :=
  s.ingress.any fun p => match p.body with
    | .pfaddReply r _ => tagIs r rtag
    | _ => false

/-- A PFADD to an address that waits in the egress queue between places i and j stands for an add of a hart for which a request
stands too. -/
def State.addBetween (s : State) (i j : Nat) (q : Packet) (addr : Nat) : Bool :=
  ((s.egress.take j).drop (i + 1)).any fun p => (p.senders.any q.senders.contains) && p.launch == q.launch && p.dst == q.dst &&
    (match p.body with
    | .pfadd _ a _ _ => a == addr
    | _ => false)

/-- R190, R262: a switch on the way combines the requests at places i and j of the egress queue: the first carries the sum, and
the switch keeps the first addend for the second's reply. The second passes no earlier add of its harts to the address. -/
def execPfaddCombine (i j : Nat) (s : State) : Res :=
  match s.egress[i]?, s.egress[j]? with
  | some p, some q =>
    match p.body, q.body with
    | .pfadd r addr a _, .pfadd r2 addr2 b _ =>
      if i < j ∧ p.dst = q.dst ∧ addr = addr2 ∧ p.plane = q.plane ∧ p.colour = q.colour ∧ p.launch = q.launch ∧
          p.src = s.pkg ∧ q.src = s.pkg ∧ s.answered r = false ∧ s.answered r2 = false ∧
          s.addBetween i j q addr = false then
        .next { s with egress := (s.egress.set i { p with merged := p.merged ++ q.stands,
                                                          body := .pfadd r addr (a + b) true }).eraseIdx j,
                       combined := s.combined ++ [(r, r2, a)] }
      else .next s
    | _, _ => .next s
  | _, _ => .next s

/-! Posts. -/

/-- R246, R263, R282, R289. -/
def execBallastPost (k : Nat) (s : State) : Res :=
  s.onArrived k fun p s =>
    match s.arrivedPost p with
    | none => .next s
    | some s1 =>
      let s2 := (s1.record p).take k p
      .next (if p.src = s.pkg then s2 else s2.reply p (.ack p.serial))

/-! Markers. -/

/-- R281 to R283: a marker forces the cut when it is not taken, and its count is kept for its channel. -/
def execMarkerArrival (k : Nat) (s : State) : Res :=
  s.onArrived k fun p s =>
    match p.body with
    | .marker num count =>
      let s1 : State := { s with ingress := s.ingress.eraseIdx k }
      match s1.launchByTag p.launch with
      | some l =>
        if l.busy ∧ l.last.toNat + 1 = num then
          .next (s1.setLaunch (l.modHarvest fun h => { h with markers := (p.channel, count) :: h.markers }))
        else .next s1
      | none => .next s1
    | _ => .next s

end Sys2Proof.Machine
end

