-- ==== Sys2Proof/Machine/Sync.lean ====
section
/-! DEFINITION. BAR (R43, R44, R186, R330, R331), SAFE (R171), the stage queues: QSEND, QRECV, QSTAT (R208 to R214,
R362), the send window and the queue ports (R209 to R211), unmapping and the wake word (R216). -/

namespace Sys2Proof.Machine

/-! Barriers. -/

/-- The instance and the generation in which core c last arrived at a scope (R330). -/
def Core.lastGen (c : Core) (scope : Scope) : Option (Nat × Nat) :=
  (c.barriers.find? fun e => e.1 == scope).map fun e => e.2

/-- The hart takes part in, or has arrived in, the open generation. -/
def Barrier.has (b : Barrier) (h : HartId) : Bool :=
  match b.opened with
  | some o => o.members.contains h
  | none => true
def Barrier.arrivedAt (b : Barrier) (h : HartId) : Bool :=
  match b.opened with
  | some o => o.arrived.contains h
  | none => false

/-- The focused hart arrives (R44, R186). -/
def State.arriveAt (s : State) (scope : Scope) (inst : Nat) : State :=
  let c := s.core
  let b := s.barrierAt c scope inst
  let o := b.opened.getD { members := s.participants c scope, arrived := [], clock := 0, remote := false }
  let o := { o with arrived := c.hartId :: o.arrived, clock := max o.clock (max c.sS.pts c.sV.pts) }
  let c := { c with barriers := (scope, inst, b.gen) :: c.barriers.filter fun e => e.1 != scope }
  { s with core := c }.setBarrier (s.closeGen { b with opened := some o })

/-- A wait for the open generation. -/
def State.waitBarrier (s : State) (scope : Scope) (inst : Nat) (again : Bool) : Res :=
  .next (s.safePoint (some (.barrier scope inst (s.barrierAt s.core scope inst).gen again)))

/-- The leaving half of BAR.wait and BAR.full (R330), at the instance of the last arrival, which a hart that was saved and restored
on another die keeps (R233). -/
def State.leaveBar (s : State) (scope : Scope) : Res :=
  match s.core.lastGen scope with
  | some (i, g) =>
    let b := s.barrierAt s.core scope i
    if b.arrivedAt s.core.hartId then s.waitBarrier scope i false
    else .next (s.raiseClocks s.core.num (b.clockOf g)).advance
  | none => .next s.advance

/-- An arrival is performed after every earlier access (R186). -/
def State.mayArrive (s : State) (scope : Scope) : Bool :=
  s.core.sq.isEmpty && s.core.vq.isEmpty &&
    (scope != .pod || (s.core.remote.isEmpty && s.core.waits.all fun w => w.dest.isX))

/-- The instance at which the focused hart arrives: that of an open generation which still waits for it, where it was when the
generation began (R233), else that of its place. -/
def State.instOf (s : State) (scope : Scope) : Nat :=
  let h := s.core.hartId
  let waits (b : Barrier) : Bool := b.is h.flight.launch h.flight.stage scope b.inst &&
    b.opened.any fun o => o.members.contains h && !o.arrived.contains h
  ((s.barriers.find? waits).map fun b => b.inst).getD (s.core.inst scope)

/-- R330. Firmware is no participant: its BAR only advances (log 16). -/
def execBar (kind : BarKind) (scope : Scope) (s : State) : Res :=
  if s.core.fw then .next s.advance
  else s.afterDrain fun s => s.checkDeferred fun s =>
    let inst := s.instOf scope
    let b := s.barrierAt s.core scope inst
    let h := s.core.hartId
    if !b.has h then s.waitBarrier scope inst true
    else if kind = .wait then s.leaveBar scope
    else if b.arrivedAt h then s.waitBarrier scope inst true
    else
      let s1 := s.settle s.core.num
      if !s1.mayArrive scope then .next s1
      else
        let s2 := s1.arriveAt scope inst
        if kind = .arrive then .next s2.advance else s2.leaveBar scope

/-- R171. -/
def execSafe (s : State) : Res := .next (s.advance.safePoint none)

/-! Stage queues. -/

/-- The stage that the user hart of the core runs. -/
def Core.stageNum (c : Core) : Nat := c.ctl.stage.toNat

/-- Change queue q of the focused core's launch. -/
def State.modQueue (s : State) (q : Nat) (f : Queue → Queue) : State :=
  match s.launchOf s.core with
  | some l => s.setLaunch { l with queues := l.queues.modify q f }
  | none => s

/-- R212, R302, R362: the entry keeps its place in program order. -/
def execQsend (a : XName) (b : VName) (s : State) : Res :=
  s.afterDrain fun s => s.checkDeferred fun s =>
    let q := (s.x a).val
    let c := s.core
    match s.queueOf c q.toNat with
    | none => s.trap 0x0C 0x01 0 q
    | some k =>
      if k.sender ≠ some c.stageNum then s.trap 0x0C 0x02 0 q
      else match c.poisonIn .vector (c.regCell b.toNat) 64 with
        | some g => s.trap 0x09 0x01 0 (poisonVal .vector g 0)
        | none =>
          if Config.windowPlaces ≤ c.window.length then .next s
          else
            let e : WindowEntry := { queue := q.toNat, data := c.vec.bytes (c.regCell b.toNat) 64,
                                     clock := max c.sS.pts c.sV.pts, stamp := c.stamp, hold := 0 }
            let r := c.noteReads .vector fun k => c.regCell b.toNat ≤ k && k < c.regCell b.toNat + 64
            .next ({ s with core := { r with window := c.window ++ [e] } }.bump).advance

/-- TakeHead and the acquire of R187. -/
def State.takeHead (s : State) (q : Nat) (d : VName) (e : QueueEntry) : State :=
  let s := s.modQueue q fun k => { k with entries := k.entries.drop 1 }
  let s := { s with core := s.core.writeVec (place (s.core.regCell d.toNat) e.data) }
  (s.raiseClocks s.core.num e.clock).advance

/-- What a QRECV does once it has reached the head of the vector queue: the wait, the fault of a closed and empty queue,
or the entry (R213). It looks again while every entry will go to a QRECV that waits in another core's vector queue. -/
def State.receive (s : State) (q : Nat) (d : VName) (k : Queue) : Res :=
  match k.entries with
  | e :: _ => .next (if k.entries.length ≤ s.reserved q then s else s.takeHead q d e)
  | [] =>
    if k.closed then s.trap 0x0C 0x03 0 (BitVec.ofNat 64 q)
    else if s.core.fw then .next s
    else .next (s.safePoint (some (.queue q d)))

/-- R213: it runs at the head of the vector queue, after the earlier V accesses. -/
def execQrecv (d : VName) (a : XName) (s : State) : Res :=
  let q := (s.x a).val
  let s1 := s.settleV s.core.num
  match s1.queueOf s1.core q.toNat with
  | none => s.trap 0x0C 0x01 0 q
  | some k =>
    if k.receiver ≠ some s.core.stageNum then s.trap 0x0C 0x02 0 q
    else if !s1.doneV then .next s1
    else s1.receive q.toNat d k

/-- R213: the queue wait of core n ends, and the QRECV takes its entry or traps. -/
def execQrecvWake (core : Nat) (s : State) : Res :=
  match (s.coreAt core).run with
  | .waiting (.queue q d) =>
    match s.queueOf (s.coreAt core) q with
    | none => .next s
    | some k =>
      if (k.entries ≠ [] ∨ k.closed) ∧ core < Config.cores then
        s.withUserRes core fun s => { s with core := { s.core with run := .running } }.receive q d k
      else .next s
  | _ => .next s

/-- The value of QSTAT (R214). -/
def Queue.status (k : Queue) : Word :=
  BitVec.ofBool k.closed ++ BitVec.ofBool k.unmapped ++ 0#13 ++ BitVec.ofNat 17 k.depth ++ 0#15 ++
    BitVec.ofNat 17 k.entries.length

/-- R214. -/
def execQstat (d a : XName) (s : State) : Res :=
  let q := (s.x a).val
  match s.queueOf s.core q.toNat with
  | none => s.trap 0x0C 0x01 0 q
  | some k => .next (s.putX d k.status).advance

/-! Queue ports. -/

/-- The port places an entry; at an unmapped instance it also adds 1 to the wake word and signals firmware, whose re-map is
pending from then on (R216, R217). -/
def Queue.put (k : Queue) (e : QueueEntry) : Queue :=
  { k with entries := k.entries ++ [e], wake := if k.unmapped then k.wake + 1 else k.wake,
           signal := k.signal || k.unmapped }

def Queue.full (k : Queue) : Bool := k.depth ≤ k.entries.length

/-- Every access that preceded a window entry's QSEND is performed (R187). -/
def Core.released (c : Core) (e : WindowEntry) : Bool :=
  (c.sq.all fun a => e.stamp ≤ a.stamp) && (c.vq.all fun a => e.stamp ≤ a.stamp) &&
    (c.remote.all fun r => e.stamp ≤ r.stamp) && c.waits.all fun w => w.dest.isX

/-- Core n's window offers its k-th entry: it is placed, or refused by a full queue and held with the later ones for
`cr.qbackoff` cycles (R209). An earlier entry of the queue, of the window or of the holding area (R211), goes first. -/
def State.offer (s : State) (n k : Nat) : State :=
  let c := s.coreAt n
  match c.window[k]? with
  | none => s
  | some e =>
    match s.launchOf c with
    | none => s
    | some l =>
      match l.queues[e.queue]? with
      | none => s
      | some q =>
        let h := c.hartId
        if e.hold ≠ 0 ∨ !c.released e ∨ ((c.window.take k).any fun f => f.queue == e.queue) ∨
            (q.holding.any fun f => f.flight == h.flight && f.core == h.k) then s
        else if q.full then
          s.setCore { c with window := c.window.map fun f =>
            if f.queue = e.queue then { f with hold := s.cycle n + max 1 c.ctl.qbackoff.toNat } else f }
        else
          (s.setCore { c with window := c.window.eraseIdx k }).setLaunch
            { l with queues := l.queues.set e.queue (q.put { data := e.data, clock := max e.clock (max c.sS.pts c.sV.pts) }) }

/-- The hart on a core, or in a save, is the one that sent a held entry. -/
def Core.sent (c : Core) (e : HeldEntry) : Bool := c.flight.isSome && c.hartId == { flight := e.flight, k := e.core }

/-- What preceded a held entry is performed: the sender's local accesses, on its core or in its save, and the remote ones
(R187). -/
def State.heldReleased (s : State) (e : HeldEntry) : Bool :=
  let ok (c : Core) : Bool := !c.sent e ||
    ((c.sq.all fun a => e.stamp ≤ a.stamp) && c.vq.all fun a => e.stamp ≤ a.stamp)
  s.cores.all ok && (s.saves.all fun v => ok v.core) && s.egress.all fun p => !e.after.contains p.serial

/-- The larger clock of the sender of a held entry, and the entry's own (R187, log 31). -/
def State.heldClock (s : State) (e : HeldEntry) : Nat :=
  ((s.cores ++ s.saves.map fun v => v.core).filter fun c => c.sent e).foldl (fun m c => max m (max c.sS.pts c.sV.pts)) e.entry.clock

/-- The first entry of a holding area is placed once the port may (R187, R211). -/
def State.placeHeld (s : State) (launch queue : Nat) : State :=
  match s.launchAt launch with
  | none => s
  | some l =>
    match l.queues[queue]? with
    | none => s
    | some q =>
      match q.holding with
      | [] => s
      | e :: rest =>
        if q.full || !s.heldReleased e then s
        else
          let entry : QueueEntry := { e.entry with clock := s.heldClock e }
          s.setLaunch { l with queues := l.queues.set queue { q.put entry with holding := rest } }

/-- R209, R211. A core number from 1,024 on stands for the holding areas of launch core - 1,024, with k the queue. -/
def execQueuePlace (core k : Nat) (s : State) : Res :=
  .next (if core < Config.cores then s.offer core k else s.placeHeld (core - Config.cores) k)

/-- Offer the entries of a queue in their order. -/
def State.offerAll (s : State) (n queue : Nat) : Nat → State
  | 0 => s
  | m + 1 =>
    match (s.coreAt n).window.findIdx? fun e => e.queue == queue && e.hold == 0 with
    | some k => (s.offer n k).offerAll n queue m
    | none => s

/-- R209: the back-off of a queue's entries has passed. -/
def execQsendResend (core queue : Nat) (s : State) : Res :=
  let c := s.coreAt core
  let due := c.window.any fun e => e.queue == queue && e.hold != 0 && e.hold ≤ s.cycle core
  if due ∧ core < Config.cores then
    .next ((s.setCore { c with window := c.window.map fun e => if e.queue = queue then { e with hold := 0 } else e }).offerAll
      core queue Config.windowPlaces)
  else .next s

/-- Every flight that receives from a queue is parked (R216). -/
def State.receiversParked (s : State) (launch : Nat) (q : Queue) : Bool :=
  s.flights.all fun f => f.id.launch != launch || q.receiver != some f.id.stage || f.place == .parked || f.place == .ended

/-- R216: set um, swap the wake word with 0; an entry in the queue re-maps it. -/
def execQueueUnmap (launch queue : Nat) (s : State) : Res :=
  match s.launchAt launch with
  | none => .next s
  | some l =>
    let f (q : Queue) : Queue :=
      if s.receiversParked launch q then { q with unmapped := q.wake == 0 && q.entries.isEmpty, wake := 0, signal := false } else q
    .next (s.setLaunch { l with queues := l.queues.modify queue f })

/-- R216: clear um, swap the wake word with 0. -/
def execQueueRemap (launch queue : Nat) (s : State) : Res :=
  match s.launchAt launch with
  | none => .next s
  | some l =>
    .next (s.setLaunch { l with queues := l.queues.modify queue fun q =>
      { q with unmapped := false, wake := 0, signal := false } })

end Sys2Proof.Machine
end

