-- ==== Sys2Proof/Machine/System.lean ====
section
/-! DEFINITION. System and cache instructions: CRRD, CRWR (R62 to R71, R334), ERET (R338), TRAP and the firmware
services (R225, R290, R303, R375), CWB, CINV, IINV, IFENCE (R169, R343), FENCE (R181, R341), SLEEP (R366), WSWITCH
and WREL (R294 to R297). -/

namespace Sys2Proof.Machine

/-! Control registers. -/

/-- A number that a user hart may name: assigned, below 0x800 and not all F (R62, R334). -/
def userNumber (n : Nat) : Bool :=
  [0x000, 0x001, 0x008, 0x009, 0x00A, 0x00B, 0x00C, 0x00D, 0x010, 0x011, 0x012, 0x013, 0x014, 0x020, 0x021, 0x022,
   0x023, 0x030, 0x031, 0x032, 0x034, 0x035, 0x036, 0x037, 0x040, 0x041, 0x042, 0x043, 0x044, 0x051, 0x052, 0x060,
   0x061].contains n

/-- Registers whose CRRD waits for the drain (R33). -/
def readDrains (n : Nat) : Bool :=
  [0x000, 0x001, 0x008, 0x009, 0x00A, 0x00B, 0x00C, 0x00D, 0x012, 0x013, 0x014, 0x032].contains n

/-- A control register's value (R64 to R71, R294); a number the spec does not describe reads a free value
(log 16). -/
def State.readCr (s : State) (n : Nat) : Word :=
  let k := s.core.ctl
  match n with
  | 0x000 => 0#32 ++ k.pcnt ++ 0#12 ++ BitVec.ofBool k.intrap ++ BitVec.ofBool k.cecc ++ 0#2
  | 0x001 => 0#54 ++ k.rm ++ 0#2 ++ k.flags
  | 0x008 => k.fx.getD 0 0
  | 0x009 => k.fx.getD 1 0
  | 0x00A => k.fx.getD 2 0
  | 0x00B => k.fx.getD 3 0
  | 0x00C => k.fx.getD 4 0
  | 0x00D => k.fx.getD 5 0
  | 0x010 => k.vl.setWidth 64
  | 0x011 => 0#60 ++ k.span.code ++ k.ew.code
  | 0x012 => k.estart.setWidth 64
  | 0x013 => k.rot.setWidth 64
  | 0x014 => k.gates.setWidth 64
  | 0x020 => s.time
  | 0x021 => 0#36 ++ s.pkg ++ 0#6 ++ BitVec.ofNat 10 s.core.num
  | 0x022 => k.epoch ++ 0#8 ++ k.stage ++ 0#3 ++ k.count ++ k.index
  | 0x023 => s.driftReg
  | 0x030 => k.resid
  | 0x031 => 0#46 ++ k.bank ++ 0#6 ++ k.world
  | 0x032 => k.integPc ++ k.integ
  | 0x034 => s.feats.extractLsb' 0 64
  | 0x035 => s.feats.extractLsb' 64 64
  | 0x036 => s.feats.extractLsb' 128 64
  | 0x037 => s.feats.extractLsb' 192 64
  | 0x040 => 0#48 ++ k.tsub ++ k.tcause
  | 0x041 => k.tpc
  | 0x042 => k.tel.setWidth 64
  | 0x043 => k.tval
  | 0x044 => k.thandler
  | 0x050 => k.fwshare.setWidth 64
  | 0x051 => k.qbackoff.setWidth 64
  | 0x052 => k.jointime.setWidth 64
  | 0x060 => s.harvestReg
  | 0x061 => BitVec.ofBool k.rb ++ 0#31 ++ k.rbFrom
  | 0x800 => k.wbind
  | _ => Config.freeWord s.free

/-- The control registers after a CRWR, field by field under the access codes (R5, R63). -/
def Ctl.write (k : Ctl) (n : Nat) (v : Word) : Ctl :=
  match n with
  | 0x000 => { k with pcnt := v.extractLsb' 16 16, cecc := k.cecc && !v.getLsbD 2 }
  | 0x001 => { k with rm := v.extractLsb' 8 2, flags := v.extractLsb' 0 6 }
  | 0x008 => { k with fx := k.fx.set 0 v }
  | 0x009 => { k with fx := k.fx.set 1 v }
  | 0x00A => { k with fx := k.fx.set 2 v }
  | 0x00B => { k with fx := k.fx.set 3 v }
  | 0x00C => { k with fx := k.fx.set 4 v }
  | 0x00D => { k with fx := k.fx.set 5 v }
  | 0x012 => { k with estart := v.extractLsb' 0 12 }
  | 0x013 => { k with rot := v.extractLsb' 0 4 }
  | 0x014 => { k with gates := v.extractLsb' 1 7 ++ 1#1 }
  | 0x030 => { k with resid := v }
  | 0x040 => { k with tsub := v.extractLsb' 8 8, tcause := v.extractLsb' 0 8 }
  | 0x041 => { k with tpc := v }
  | 0x042 => { k with tel := v.extractLsb' 0 12 }
  | 0x043 => { k with tval := v }
  | 0x044 => { k with thandler := v }
  | 0x050 => { k with fwshare := if (v.extractLsb' 0 5).toNat ≤ 16 then v.extractLsb' 0 5 else 16 }
  | 0x051 => { k with qbackoff := v.extractLsb' 0 16 }
  | 0x052 => { k with jointime := v.extractLsb' 0 32 }
  | 0x061 => { k with rb := k.rb && !v.getLsbD 63 }
  | 0x800 => { k with wbind := v &&& 0x83FF83FF83FF83FF }
  | _ => k

/-- R334, R33, R62. -/
def execCrrd (d : XName) (num : BitVec 12) (s : State) : Res :=
  if !s.core.fw && !userNumber num.toNat then s.illegal (.crrd d num) 0x07
  else
    let k (s : State) : Res :=
      .next ({ s with free := s.free + 1 }.putX d (s.readCr num.toNat)).advance
    if readDrains num.toNat then s.afterDrain k else k s

/-- R334, R63. -/
def execCrwr (a : XName) (num : BitVec 12) (s : State) : Res :=
  if !s.core.fw && !userNumber num.toNat then s.illegal (.crwr a num) 0x07
  else .next { s with core := { s.core with ctl := s.core.ctl.write num.toNat (s.x a).val } }.advance

/-! Traps. -/

/-- R338: a control transfer that leaves an active loop as it is (R138). -/
def execEret (s : State) : Res :=
  s.afterDrain fun s =>
    let c := s.core
    let c1 := { c with ctl := { c.ctl with intrap := false, estart := c.ctl.tel },
                       heads := if c.fw then c.heads else c.heads + 1,
                       tested := if c.fw then c.tested else false }.goto c.ctl.tpc true
    let s1 : State := { s with core := c1 }
    .next (if c.fw then s1 else s1.reelStep c.num c.seqPc true)

/-- A firmware call (R225): firmware receives the record, the service acts, and the hart goes on at the next head;
the entry was a safe point (R41, R375). In the firmware context itself the call is firmware's own trap (log 16). -/
def State.firmwareCall (s : State) (imm : BitVec 32) (serve : State → State) : Res :=
  s.afterDrain fun s =>
    let c := s.core
    if c.fw then .next (s.trapEntry 0x10 0x00 0 (imm.setWidth 64))
    else
      let tr : TrapRecord := { cause := 0x10, sub := 0x00, el := 0, val := imm.setWidth 64, pc := c.pc }
      .next ((serve { s with core := { c with fwTrap := some tr } }).advance.safePoint none)

/-- R225: cause 0x0F to the handler, or an unknown firmware service. -/
def execTrap (imm : BitVec 32) (s : State) : Res :=
  if imm.getLsbD 31 then s.firmwareCall imm fun s => s.putX 10 (-1)
  else s.trap 0x0F 0x00 0 (imm.setWidth 64)

/-- The live packages of the hart's launch with ids below 64 (R290). -/
def State.liveSet (s : State) : Word :=
  match s.launchOf s.core with
  | some l => l.pkgs.foldl (fun w p => if p.toNat < 64 ∧ !s.lost.contains p then w ||| (1#64 <<< p.toNat) else w) 0
  | none => 0

/-- R290. -/
def execLivePackages (s : State) : Res := s.firmwareCall 0x80000021 fun s => s.putX 10 s.liveSet

/-- R303. -/
def execClearDeferredIntegrity (s : State) : Res :=
  s.firmwareCall 0x80000022 fun s =>
    let k := s.core.ctl
    { s with core := { s.core with ctl := { k with integPc := 0, integ := 0 } } }.putX 10 (k.integPc ++ k.integ)

/-! Caches. -/

/-- A cache-maintenance range: nothing when the length is 0, else the check of R169, and the effect after the
earlier S accesses. -/
def State.maintain (s : State) (a b : XName) (effect : Nat → Nat → State → State) : Res :=
  let n := (s.x b).val.toNat
  if n = 0 then .next s.advance
  else match s.check (s.x a) 0 n 1 .maintain with
    | .error e => s.trap e.cause e.sub 0 e.val
    | .ok p =>
      let s := s.pushS
      if !s.doneS then .next s else .next (effect p.addr n s).advance

/-- The 128-byte lines that meet a range hold the code line. -/
def inLines (a n base : Nat) : Bool := a / 128 ≤ base / 128 && base / 128 ≤ (a + (n - 1)) / 128

/-- Dirty sectors of the core's L1 reach the shared cache: later entries after an IINV fetch the new bytes (R169, R170). -/
def State.writeBack (a n : Nat) (s : State) : State :=
  { s with code := s.code.map fun l => if inLines a n l.base then s.cleanLine s.core.num l else l }

/-- R169. -/
def execCwb (a b : XName) (s : State) : Res := s.maintain a b State.writeBack
/-- R169: as CWB; the lines are then invalid in an L1 that no program sees (log 18). -/
def execCinv (a b : XName) (s : State) : Res := s.maintain a b State.writeBack
/-- R169, R170. -/
def execIinv (a b : XName) (s : State) : Res :=
  s.maintain a b fun a n s => { s with code := s.code.filter fun l => !(inLines a n l.base && l.back) }
/-- R169, R343: the next head is fetched as a new entry. -/
def execIfence (s : State) : Res :=
  let s := s.advance
  .next (if s.core.fw then { s with core := { s.core with fwLine := none } }
    else { s with core := { s.core with line := none } })

/-! Fences (R181). -/

/-- The clock of the running context's S stream, and both of its clocks raised. -/
def State.ptsS (s : State) : Nat := (s.core.stream s.core.fw).pts
def State.raiseS (s : State) (t : Nat) : State :=
  { s with core := s.core.setStream s.core.fw (s.prune ((s.core.stream s.core.fw).raise t)) }
def State.raiseV (s : State) (t : Nat) : State := { s with core := { s.core with sV := s.core.sV.raise t, ahead := [] } }

/-- The largest clock of the hart's ended commands. -/
def Core.engClock (c : Core) : Nat := c.ended.foldl (fun m e => max m e.2) 0

/-- Every earlier remote access is performed, every VLDR group valid (R181). -/
def Core.doneRemote (c : Core) : Bool := c.remote.isEmpty && c.waits.all fun w => w.dest.isX
/-- Every revocation has completed, and the core's firmware has no switch of worlds under way (R181, R296, R300). -/
def State.doneKeys (s : State) : Bool := s.revoking.isEmpty && !s.core.switching

/-- FENCE.sv: the V stream follows the running context's S stream; firmware's pairs with the user hart's V stream and commands
(log 16). -/
def State.fenceSv (s : State) : State := s.raiseV s.ptsS
def State.fenceVs (s : State) : State := s.raiseS s.core.sV.pts
def State.fenceEng (s : State) : State := (s.raiseS s.core.engClock).raiseV s.core.engClock

/-- R181, R302, R341. While its condition does not hold the FENCE waits. -/
def execFence (form : FenceForm) (s : State) : Res :=
  s.afterDrain fun s => s.checkDeferred fun s =>
    let s1 := s.pushS
    let s2 := s.settleV s.core.num
    let s3 := s1.settleV s.core.num
    match form with
    | .sv => if s1.doneS then .next s1.fenceSv.advance else .next s1
    | .vs => if s2.doneV then .next s2.fenceVs.advance else .next s2
    | .eng => if s.core.cmds.isEmpty then .next s.fenceEng.advance else .next s
    | .key => if s.doneKeys then .next s.loadAgain.advance else .next s
    | .pod => if s.core.doneRemote then .next s.loadAgain.advance else .next s
    | .all =>
      if s3.doneS && s3.doneV && s3.core.cmds.isEmpty && s3.doneKeys && s3.core.doneRemote then
        .next (s3.fenceEng.fenceSv.fenceVs).advance
      else .next s3

/-! Sleep. -/

/-- R366: a safe point, whether it waits or completes at once. -/
def execSleep (a : XName) (s : State) : Res :=
  let t := (s.x a).val
  if t.toNat ≤ s.time.toNat then .next (s.advance.safePoint none)
  else if s.core.fw then .next s
  else .next (s.safePoint (some (.sleep t)))

/-- R366: the wait of core n ends when its tick is reached. -/
def execSleepWake (core : Nat) (s : State) : Res :=
  match (s.coreAt core).run with
  | .waiting (.sleep t) =>
    if t.toNat ≤ s.time.toNat ∧ core < Config.cores then
      .next (s.withUser core fun s => { s with core := { s.core with run := .running } }.advance)
    else .next s
  | _ => .next s

/-! World banks (R294 to R297). -/

def bankOf (x : Word) : Nat := (x.extractLsb' 16 2).toNat
def Ctl.bound (k : Ctl) (bank : Nat) : Bool := k.wbind.getLsbD (16 * bank + 15)
def Ctl.boundWorld (k : Ctl) (bank : Nat) : BitVec 10 := k.wbind.extractLsb' (16 * bank) 10

def Ctl.bind (k : Ctl) (bank : Nat) (w : BitVec 10) : Ctl :=
  { k with wbind := (k.wbind &&& ~~~ (0xFFFF#64 <<< (16 * bank))) ||| ((1#1 ++ 0#5 ++ w).setWidth 64 <<< (16 * bank)) }

/-- What a switch to another world clears, the versions that the invalidated L1 held among it (R173, R296). -/
def Core.clearWorld (c : Core) : Core :=
  { c with ahead := [], sS := { c.sS with held := [] }, sF := { c.sF with held := [] }, x := .replicate 32 .zero, m := .replicate 8 0,
           tiles := [], acc := [], rowType := .replicate 64 .none,
           ecc := c.ecc.filter fun e => e.store == .vector, loop := .inactive,
           ctl := { c.ctl with gates := 1, flags := 0, rm := 0, fx := [-1, -1, -1, -1, -1, -1], vl := 0, span := .s1,
                               ew := .e8, estart := 0, rot := 0, integPc := 0, integ := 0 } }

/-- Select bank k for world w on core n (R296). -/
def State.switchWorld (s : State) (n : Nat) (bank : Nat) (w : BitVec 10) : State :=
  let c := s.coreAt n
  let same := w == c.ctl.world
  let c1 := if same then c else c.clearWorld
  let c2 := { c1 with ctl := { c1.ctl.bind bank w with bank := BitVec.ofNat 2 bank, world := w } }
  let s := s.setCore c2
  if same then s
  else ({ s with mem := s.mem.clear (Config.scratchBase + n * Config.scratchBytes) Config.scratchBytes,
                 code := s.code.map (s.cleanLine n) } : State).forget

/-- A WSWITCH or WREL begins, or is over. -/
def State.switching (s : State) (b : Bool) : State := { s with core := { s.core with switching := b } }

/-- R295, R296: what the user hart has issued is performed before its registers and its scratchpad are cleared. -/
def execWswitch (a : XName) (s : State) : Res :=
  if !s.core.fw then s.illegal (.wswitch a) 0x05
  else (s.switching true).afterDrain fun s =>
    let s := s.settle s.core.num
    if s.core.cmds ≠ [] ∨ s.core.sq ≠ [] ∨ s.core.vq ≠ [] then .next s
    else
      let v := (s.x a).val
      let bank := bankOf v
      let w := v.extractLsb' 0 10
      let s := s.switching false
      if s.core.ctl.bound bank && s.core.ctl.boundWorld bank != w then
        .next ({ s with free := s.free + 1 }.trapEntry 0x0B 0x01 0 (Config.freeWord s.free))
      else .next (s.switchWorld s.core.num bank w).advance

/-- Zero and unbind a bank of the focused core (R297). -/
def State.releaseBank (s : State) (bank : Nat) : State :=
  let c := s.core
  { s with core := { c with
      vec := c.vec.clear (bank * 12288) 12288,
      ecc := c.ecc.filter fun e => !(e.store == .vector && e.granule / 1536 == bank),
      ctl := { c.ctl with wbind := c.ctl.wbind &&& ~~~ (0x8000#64 <<< (16 * bank)) } } }

/-- R297. -/
def execWrel (a : XName) (s : State) : Res :=
  if !s.core.fw then s.illegal (.wrel a) 0x05
  else (s.switching true).afterDrain fun s =>
    let bank := bankOf (s.x a).val
    if bank = s.core.ctl.bank.toNat then
      .next ((s.switching false).trapEntry 0x01 0x05 0 ((Instr.wrel a).tail ++ (Instr.wrel a).head))
    else if s.core.cmds ≠ [] then .next s
    else .next ((s.switching false).releaseBank bank).advance

end Sys2Proof.Machine
end

