-- ==== Sys2Proof/Machine/Places.lean ====
section
/-! DEFINITION. Harts on quads: free quads, world banks (R297), the state of a new hart (R38), saves and their
restoration (R42, R154, R231 to R237, R425), and stops of the ladder (R230). -/

namespace Sys2Proof.Machine

/-! Flights and quads. -/

def State.flightAt (s : State) (f : FlightId) : Option Flight := s.flights.find? fun x => x.id == f

def State.setPlace (s : State) (f : FlightId) (p : Place) : State :=
  { s with flights := s.flights.map fun x => if x.id == f then { x with place := p } else x }

/-- The four cores of a quad. -/
def quadCores (q : Nat) : List Nat := (List.range 4).map fun k => 4 * q + k

/-- The dies run (R316), no flight stands on the quad, and nothing of an earlier one is left to perform, to be answered or to post. -/
def State.quadFree (s : State) (q : Nat) : Bool :=
  q < 256 && s.boot.stage == .running && (s.flights.all fun f => f.place != .quad q) &&
    (quadCores q).all fun n =>
      let c := s.coreAt n
      c.posts.isEmpty && c.sq.isEmpty && c.vq.isEmpty && c.waits.all fun w => s.lost.contains w.pkg || (match w.dest with
        | .xreg fw _ => fw
        | .group .. => false)

def Launch.stage? (l : Launch) (k : Nat) : Option StageInfo := l.stages[k]?

/-- The image of a stage. -/
def Launch.imageOf (l : Launch) (k : Nat) : Option Image := (l.stages[k]?).bind fun x => l.images[x.image]?

/-- A flight takes a quad, with an attached set and what the reel has issued (R37, R42). -/
def State.occupy (s : State) (f : FlightId) (q : Nat) (att : BitVec 4) (reel : Reel) : State :=
  let x : Flight := { id := f, place := .quad q, order := s.nextOrder, due := false }
  { s with flights := (s.flights.filter fun y => y.id != f) ++ [x], nextOrder := s.nextOrder + 1,
           quads := upsert Quad.num s.quads { Quad.reset q with attached := att, reel := reel } }

/-! World banks (R296, R297). -/

/-- The bank bound to a world, or the lowest unbound one. -/
def Ctl.bankFor (k : Ctl) (w : BitVec 10) : Option Nat :=
  match (List.range 4).find? fun b => k.bound b && k.boundWorld b == w with
  | some b => some b
  | none => (List.range 4).find? fun b => !k.bound b

/-- The save of the hart of a world that last ran on core n, when it was made there (R297). -/
def State.lastSave (s : State) (n : Nat) (w : BitVec 10) : Option Save :=
  match (s.coreAt n).ran.find? fun e => e.1 == w with
  | some (_, h) => (s.saves.filter fun v => v.core.num == n && v.core.hartId == h && v.core.ctl.world == w).getLast?
  | none => none

/-- A hart of a world runs on the core from now on. -/
def Core.noteRan (c : Core) (w : BitVec 10) (h : HartId) : Core :=
  { c with ran := (w, h) :: c.ran.filter fun e => e.1 != w }

/-- Firmware spills a bank of core n: its registers go to the save of the hart that last ran there in its world, and it
is zeroed and unbound. -/
def State.spillBank (s : State) (n b : Nat) : State :=
  let c := s.coreAt n
  let s1 : State := match s.lastSave n (c.ctl.boundWorld b) with
    | some v =>
      let at_ := v.core.ctl.bank.toNat * 12288
      let v1 : Save := { v with core := { v.core with
        vec := v.core.vec.paste at_ 12288 (c.vec.slice (b * 12288) 12288 at_) } }
      { s with saves := s.saves.map fun x => if x == v then v1 else x }
    | none => s
  s1.setCore { c with
    vec := c.vec.clear (b * 12288) 12288,
    ecc := c.ecc.filter fun e => !(e.store == .vector && e.granule / 1536 == b),
    ctl := { c.ctl with wbind := c.ctl.wbind &&& ~~~ (0x8000#64 <<< (16 * b)) } }

/-- Firmware selects a bank of core n for a world (R297): the number of the bank, and whether it was bound to it. -/
def State.selectBank (s : State) (n : Nat) (w : BitVec 10) : State × Nat × Bool :=
  let k := (s.coreAt n).ctl
  match k.bankFor w with
  | some b => (s.switchWorld n b w, b, k.bound b)
  | none =>
    let others := (List.range 4).filter fun b => b != k.bank.toNat
    let b := others.getD (Config.spill s.free % 3) 0
    (({ s with free := s.free + 1 }.spillBank n b).switchWorld n b w, b, false)

/-! A new hart (R38). -/

/-- The control registers of a new hart; those of the core stay. -/
def Ctl.fresh (k : Ctl) (f : FlightId) (most : Nat) : Ctl :=
  { Ctl.reset with
    fwshare := k.fwshare, wbind := k.wbind, bank := k.bank, world := k.world,
    stage := BitVec.ofNat 4 f.stage, count := BitVec.ofNat 9 most, index := BitVec.ofNat 8 f.index }

/-- Waits of the firmware context. -/
def Core.fwWaits (c : Core) : List Await := c.waits.filter fun w => match w.dest with
  | .xreg fw _ => fw
  | .group .. => false

/-- The core without a user hart; its firmware context, banks and stores stay, and so do the mismatch records, which wait for an
EWAIT or for their serial (R200). -/
def Core.vacate (c : Core) : Core :=
  { Core.reset c.num with
    fw := c.fw, fwX := c.fwX, fwPc := c.fwPc, fwLine := c.fwLine, sF := c.sF, fq := c.fq, waits := c.fwWaits,
    vec := c.vec, tiles := c.tiles, acc := c.acc, rowType := c.rowType, m := c.m, ecc := c.ecc, fwTrap := c.fwTrap,
    taken := c.taken, serial := c.serial, mismatch := c.mismatch, switching := c.switching, ran := c.ran,
    ctl := { Ctl.reset with fwshare := c.ctl.fwshare, wbind := c.ctl.wbind, bank := c.ctl.bank, world := c.ctl.world } }

/-- The user hart leaves the core for a save, which holds its mismatch records. -/
def Core.leave (c : Core) : Core := { c.vacate with mismatch := c.mismatch.filter fun e => e.2 != c.hartId }

/-- Core n is taken from a hart that has left: what waits in holding areas keeps its larger clock (R187, R211). -/
def State.clockHeld (s : State) (n : Nat) : State :=
  let c := s.coreAt n
  let f (e : HeldEntry) : HeldEntry :=
    if c.sent e then { e with entry := { e.entry with clock := max e.entry.clock (max c.sS.pts c.sV.pts) } } else e
  { s with launches := s.launches.map fun l =>
      { l with queues := l.queues.map fun q => { q with holding := q.holding.map f } } }

/-- Core n runs a new hart from pc (R38). Vector, mask and tile contents are unspecified when the bank, and the core,
last held the same world. -/
def State.newHart (s : State) (n : Nat) (f : FlightId) (l : Launch) (most : Nat) (slots : List (Nat × SlotEntry))
    (pc : Word) : State :=
  let same := (s.coreAt n).ctl.world == l.world
  let (s, b, bound) := (s.clockHeld n).selectBank n l.world
  let c := s.coreAt n
  let i := s.free
  let vec := if bound then c.vec.unspecified (b * 12288) 12288 i else c.vec.clear (b * 12288) 12288
  let c1 : Core := { c.vacate with
    run := .running, flight := some f, pc := pc, ctl := c.ctl.fresh f most, slots := slots, acc := [],
    rowType := .replicate 64 .none,
    vec := vec,
    tiles := if same then Mem.unspecified [] 0 (24 * Config.tileBytes) (i + 1) else [],
    m := if same then Vector.ofFn fun k => Config.freeMask i k.val else .replicate 8 0,
    ecc := c.ecc.filter fun e => e.store != .acc }
  { s.setCore (c1.noteRan l.world c1.hartId) with free := s.free + 2 }

/-- A flight starts on a quad at pc (R37, R38). -/
def State.startFlight (s : State) (l : Launch) (f : FlightId) (q : Nat) (pc : Word) : State :=
  match l.stage? f.stage, l.imageOf f.stage with
  | some st, some im =>
    let s := (quadCores q).foldl (fun s n => s.newHart n f l st.most im.slots pc) s
    let s := s.occupy f q 0xF .start
    match s.launchAt l.id with
    | some l =>
      s.setLaunch { l with stages := l.stages.modify f.stage fun st => { st with started := max st.started (f.index + 1) } }
    | none => s
  | _, _ => s

/-! Saving a hart. -/

/-- The hart of core n is saved and leaves the core; its window passes on (R211, R234). -/
def State.saveHart (s : State) (n : Nat) (rung : BitVec 2) : State :=
  let s := s.windowToHolding n
  let c := s.coreAt n
  let v := s.saveOf ((c.dropOwed s.free).stored?) rung
  { (s.setCore c.leave).cleanL1 n with saves := s.saves ++ [v], free := s.free + 2 }

/-! Restoring a hart. -/

/-- Where a stopped or saved hart goes on: its wait is looked at again, a JOIN and an EWAIT are carried out afresh
(R41, R345). -/
def resumeRun : Run → Run
  | .waiting (.join _) => .running
  | .waiting (.engine ..) => .running
  | .stopped none => .running
  | .stopped (some (.join _)) => .running
  | .stopped (some (.engine ..)) => .running
  | .stopped (some w) => .waiting w
  | r => r

/-- A register tagged with slot 0 follows the scratchpad (R154). -/
def rebaseZero (old new : Nat) (x : XReg) : XReg :=
  let base (n : Nat) : Word := BitVec.ofNat 64 (Config.scratchBase + n * Config.scratchBytes)
  if x.tag = 0x100 then { x with val := x.val + base new - base old } else x

/-- Granules of a restored save: a sector with a poisoned granule poisons all four (R237). -/
def poisonSectors (l : List EccError) : List EccError :=
  (l.flatMap fun e => (List.range 4).map fun k =>
    ({ e with granule := e.granule / 4 * 4 + k } : EccError)).dedup

/-- A saved command runs again: resolved and checked afresh, with a new promise; one that fails the check ends at once, and its
clock counts (R181, R232). For the focused core. -/
def State.reissue (s : State) (k : Command) : State :=
  let c := s.core
  match s.checkCommand k with
  | some _ => { s with core := { c with refused := k.serial :: c.refused, ended := (k.serial, k.pts) :: c.ended } }
  | none =>
    let k1 : Command := { s.resolve k with
      due := s.promised, pts := max c.sS.pts c.sV.pts, order := s.free, done := [], read := [], got := [], checked := 0,
      bad := none }
    let s1 : State := { s with core := { c with cmds := c.cmds ++ [k1] }, free := s.free + 1 }
    if k1.dstPkg.isNone ∧ k1.dstBytes ≠ 0 then s1.touchRange k1.dst k1.dstBytes else s1

/-- Cells of bank b of a save, in bank b1. -/
def moveBank (b b1 k : Nat) : Nat := k + b1 * 12288 - b * 12288

/-- An address in the scratchpad of one core, in that of another (R154). -/
def rebaseScratch (old new a : Nat) : Nat :=
  let base := Config.scratchBase + old * Config.scratchBytes
  if base ≤ a ∧ a < base + Config.scratchBytes then a - base + (Config.scratchBase + new * Config.scratchBytes) else a

/-- A run-ahead load of a save, as it reissues (R231). -/
def Acc.reissued (a : Acc) (old new b b1 : Nat) : Acc :=
  { a with op := match a.op with
      | .loadV ps => .loadV (ps.map fun p => (rebaseScratch old new p.1, moveBank b b1 p.2))
      | op => op }

/-- The line a restored hart stands in is fetched anew, unless it is no longer well formed there (R77, R80). -/
def State.refetch (s : State) (pc : Word) (line : Option LineEntry) : Option LineEntry :=
  match line with
  | none => none
  | some _ =>
    let e : LineEntry := { base := lineBase pc, halves := s.fetchLine (lineBase pc).toNat }
    if (lineFault e.halves pc).isNone then some e else none

/-- A save's hart comes to core n (R42, R154, R232 to R237), with its counts of heads and line entries (log 57). The serials are the
core's (R191). -/
def State.placeHart (s : State) (n : Nat) (v : Save) : State :=
  let (s, b1, _) := (s.clockHeld n).selectBank n v.core.ctl.world
  let t := s.coreAt n
  let k := v.core
  let b := k.ctl.bank.toNat
  let slots := match s.launchAt v.flight.launch with
    | some l => (match l.imageOf v.flight.stage with
      | some im => im.slots
      | none => [])
    | none => []
  let mine (w : Await) : Bool := match w.dest with
    | .xreg fw _ => !fw
    | .group .. => true
  let moved (w : Await) : Await := match w.dest with
    | .group r g ps => { w with dest := .group (r % 32 + 32 * b1) g (ps.map fun p => (p.1, moveBank b b1 p.2)) }
    | .xreg .. => w
  let others (e : EccError) : Bool := e.store == .vector && e.granule / 1536 != b1
  let bad (e : EccError) : EccError :=
    if e.store == .vector then { e with granule := e.granule + b1 * 1536 - b * 1536 } else e
  let c : Core := { k with
    num := n, run := resumeRun k.run, stopAt := none, tested := false,
    fw := t.fw, fwX := t.fwX, fwPc := t.fwPc, fwLine := t.fwLine, sF := t.sF, fq := t.fq, fwTrap := t.fwTrap,
    taken := t.taken, serial := t.serial, switching := t.switching, ran := t.ran, ahead := [],
    mismatch := t.mismatch ++ k.mismatch.filter (fun e => e.2 == k.hartId),
    x := k.x.map (rebaseZero k.num n), line := s.refetch k.pc k.line,
    ctl := { k.ctl with bank := BitVec.ofNat 2 b1, wbind := t.ctl.wbind, epoch := k.ctl.epoch + 1 },
    vec := t.vec.paste (b1 * 12288) 12288 (k.vec.slice (b * 12288) 12288 (b1 * 12288)),
    ecc := t.ecc.filter others ++ (poisonSectors k.ecc).map bad,
    vq := k.vq.map fun a => a.reissued k.num n b b1,
    slots := slots, waits := t.fwWaits ++ (k.waits.filter mine).map moved,
    cmds := [], owed := [], sS := { k.sS with held := [] } }
  s.setCore (c.noteRan k.ctl.world k.hartId)

/-- The commands that a save owes run again, in the order of their acceptance (R232). -/
def State.reissueOwed (s : State) (n : Nat) (v : Save) : State := s.withUser n fun s => v.owed.foldl State.reissue s

/-- As `placeHart`, with the scratchpad zero after another world, else unspecified (R42), and the owed commands reissued; those of a
hart that a trap parked wait for until it resumes (R228, R232). -/
def State.restoreHart (s : State) (n : Nat) (v : Save) : State :=
  let same := (s.coreAt n).ctl.world == v.core.ctl.world
  let s := s.placeHart n v
  let s := if v.core.run = .parked then s else s.reissueOwed n v
  let base := Config.scratchBase + n * Config.scratchBytes
  { s with mem := if same then s.mem.unspecified base Config.scratchBytes s.free else s.mem, free := s.free + 1 }

/-- The saves of a flight. -/
def State.savesOf (s : State) (f : FlightId) : List Save := s.saves.filter fun v => v.flight == f

/-- The rollback notice of R227, before the hart's first instruction. -/
def State.takeNotice (s : State) (n : Nat) : State :=
  let c := s.coreAt n
  if !c.notice then s
  else
    let s := s.setCore { c with notice := false }
    if c.run = .exited ∨ c.run = .parked ∨ c.ctl.thandler = 0 ∨ c.ctl.intrap then s
    else s.withUser n fun s => s.trapEntry 0x0E 0x01 s.core.ctl.estart (s.core.ctl.rbFrom.setWidth 64)

/-- A saved or parked flight comes to a quad, with its attachment state and its reel (R42, R425, log 57). A hart that a trap parked
keeps its save, from which it resumes (R228). -/
def State.restoreFlight (s : State) (f : FlightId) (q : Nat) : State :=
  let vs := s.savesOf f
  let quad := (vs.getLast?.map fun v => v.quad).getD { Quad.reset q with attached := 0 }
  let kept (v : Save) : List Save :=
    if v.flight != f then [v]
    else if v.core.run == .parked then
      [{ v with core := { v.core with posts := [], ctl := { v.core.ctl with epoch := v.core.ctl.epoch + 1 } } }]
    else []
  let s : State := { s with saves := s.saves.flatMap kept }
  let s := vs.foldl (fun s v => s.restoreHart (4 * q + v.core.num % 4) v) s
  let lines := quad.reel.lines.map fun e => (e.1, { e.2 with halves := s.fetchLine e.2.base.toNat })
  (quadCores q).foldl State.takeNotice (s.occupy f q quad.attached { quad.reel with lines := lines })

/-! The ladder (R230). -/

/-- The hart of core n stops (R231): one that waits, where it is; one that runs, at the boundary where it stands, or at an element
of the instruction it has begun. One that is about to take a join-timeout trap stops at its entry (R224). -/
def State.stopNow (s : State) (n : Nat) : State :=
  match (s.coreAt n).run with
  | .running =>
    match s.pick.stopAt with
    | none => s.stopHart n none
    | some e => s.updCore n fun c => { c with stopAt := some e }
  | .waiting (.trap ..) => s
  | .waiting w => s.stopHart n (some w)
  | _ => s

/-- The cores of a set of flights. -/
def State.coresOf (s : State) (fs : List FlightId) : List Nat :=
  (s.cores.filter fun c => match c.flight with
    | some f => fs.contains f
    | none => false).map fun c => c.num

/-- A pre-emption request: harts that wait park at once, the others at their next safe point. -/
def State.preempt (s : State) (launch : Nat) (fs : List FlightId) : State :=
  let fs := fs.filter fun f => f.launch == launch && (s.flights.any fun x => x.id == f && (match x.place with
    | .quad _ => true
    | _ => false)) && !(s.preempts.any fun p => p.flights.contains f)
  if fs.isEmpty then s
  else
    let req : PreemptReq := { launch := launch, flights := fs, t0 := s.time.toNat, rung := 1, saved := [] }
    let s1 : State := { s with preempts := s.preempts ++ [req] }
    (s.coresOf fs).foldl (fun s n => match (s.coreAt n).run with
      | .waiting (.trap ..) => s
      | .waiting w => s.stopHart n (some w)
      | _ => s) s1

/-! Minimums and victims (R423, R425). -/

/-- The flight holds one of its stage's admitted minimums (log 21). -/
def State.isMinimum (s : State) (f : FlightId) : Bool :=
  match (s.launchAt f.launch).bind fun l => l.stage? f.stage with
  | some st => f.index < st.least
  | none => false

/-- Insert by an order. -/
def insertBy {α : Type} (before : α → α → Bool) (a : α) : List α → List α
  | [] => [a]
  | b :: r => if before b a then b :: insertBy before a r else a :: b :: r

def sortBy {α : Type} (before : α → α → Bool) : List α → List α
  | [] => []
  | a :: r => insertBy before a (sortBy before r)

def State.prioOf (s : State) (f : FlightId) : Nat := ((s.launchAt f.launch).map fun l => l.prio).getD 0

/-- The order in which flights are taken (R423). -/
def State.takenBefore (s : State) (a b : Flight) : Bool :=
  let pa := s.prioOf a.id
  let pb := s.prioOf b.id
  if pa ≠ pb then pa < pb
  else if a.order ≠ b.order then b.order < a.order
  else if a.id.index ≠ b.id.index then b.id.index < a.id.index
  else if a.id.stage ≠ b.id.stage then b.id.stage < a.id.stage
  else b.id.launch ≤ a.id.launch

/-- The flights that may be taken, in order: above their minimum, on a quad that `ok` accepts, of a priority below
`level` when it is given. -/
def State.victims (s : State) (level : Option Nat) (ok : Nat → Bool) : List FlightId :=
  (sortBy s.takenBefore (s.flights.filter fun f =>
    (match f.place with
      | .quad q => ok q
      | _ => false) && !s.isMinimum f.id && !(s.preempts.any fun p => p.flights.contains f.id) &&
    (match level with
      | some n => s.prioOf f.id < n
      | none => true))).map fun f => f.id

/-- Free n quads through the ladder (R423). -/
def State.freeQuads (s : State) (n : Nat) : State :=
  ((s.victims none fun _ => true).take n).foldl (fun s f => s.preempt f.launch [f]) s

/-- The free quads. -/
def State.freeList (s : State) : List Nat := (List.range 256).filter s.quadFree

/-- Quads that saves under way will free, but for those taken for a launch under R219. -/
def State.coming (s : State) : Nat :=
  (s.preempts.flatMap fun p => p.flights.filter fun f => !s.grants.any fun g => g.victim == f).length

/-- Every package of a launch has copied what its descriptor names (R253). -/
def Launch.copiedAll (l : Launch) : Bool := l.pkgs.all fun p => l.copied.contains p

/-- Minimum indices of a running launch that have not started (R36). -/
def Launch.unstarted (l : Launch) : List (FlightId) :=
  (List.range l.stages.length).flatMap fun k => match l.stages[k]? with
    | some st => if st.retired then []
        else (span st.started st.least).map fun i => { launch := l.id, stage := k, index := i }
    | none => []

/-- The flights of a launch stand still for a migration (R288 phases 2 and 3). -/
def Launch.still (l : Launch) : Bool :=
  match l.migration with
  | some m => m.stopped
  | none => false

def State.standsStill (s : State) (launch : Nat) : Bool := (s.launchAt launch).any Launch.still

/-- Minimum flights saved before the last round (R425). -/
def State.savedMinimums (s : State) : List FlightId :=
  (s.flights.filter fun f => f.place == .saved && f.due && s.isMinimum f.id && !s.standsStill f.id.launch).map fun f => f.id

/-- Minimum flights of running launches that have not started; `ready`: only those that may start now (R253). -/
def State.unstarted (s : State) (ready : Bool) : List FlightId :=
  (s.launches.filter fun l => l.state == .running && !l.still && (l.copiedAll || !ready)).flatMap Launch.unstarted

/-- Minimum flights that have no quad and may take one (R423, R425); the saved ones first, the others by launch, stage and index
(log 21). -/
def State.homeless (s : State) : List FlightId := s.savedMinimums ++ s.unstarted true

/-- Quads are freed for the minimum flights that find none, from their admission on (R423). -/
def State.freeForMinimums (s : State) : State :=
  s.freeQuads ((s.savedMinimums ++ s.unstarted false).length - s.freeList.length - s.coming)

/-! Putting a freed quad to use (R219, R425). -/

/-- Pressure of a stage: the largest count ÷ depth over its input queues (R218). -/
def Launch.pressure (l : Launch) (stage : Nat) : Option Rat :=
  ((l.queues.filter fun q => q.receiver == some stage).map fun q => (q.entries.length : Rat) / q.depth).max?

/-- Flights of a stage that live. -/
def State.living (s : State) (l : Launch) (stage : Nat) : Nat :=
  (s.flights.filter fun f => f.id.launch == l.id && f.id.stage == stage && f.place != .ended).length

/-- The stage wants one more flight (R218). An index whose flight has ended is not started again by the policy (log 21). -/
def State.wantsFlight (s : State) (l : Launch) (k : Nat) : Bool :=
  match l.stage? k with
  | some st =>
    l.copiedAll && !l.still && !st.retired && s.living l k < st.most && st.started < st.most &&
      (match l.pressure k with
        | some p => l.grow ≤ p
        | none => false)
  | none => false

/-- A want of a launch (R219): a stage's for one more flight, or a saved flight's for its restoration. -/
inductive Want where
  | saved (f : FlightId)
  | stage (launch k : Nat)
deriving DecidableEq, Repr

/-- Saved flights of a launch outside its minimums that await restoration: a round has come since their save (R425). Of several, the
one that started or resumed first comes first (log 21). -/
def State.savedOf (s : State) (l : Launch) : List FlightId :=
  if l.still then []
  else (s.flights.filter fun f => f.id.launch == l.id && f.place == .saved && f.due && !s.isMinimum f.id).map fun f => f.id

/-- The stages of a launch that want a flight, the highest pressure first. -/
def State.wanting (s : State) (l : Launch) : List Nat :=
  let p (k : Nat) : Rat := (l.pressure k).getD 0
  sortBy (fun a b => p b < p a || (p a == p b && a < b))
    ((List.range l.stages.length).filter fun k => s.wantsFlight l k)

/-- The wants of a launch, in the order in which quads serve them (R219, R425). -/
def State.wants (s : State) (l : Launch) : List Want :=
  (s.savedOf l).map Want.saved ++ (s.wanting l).map (Want.stage l.id)

/-- Serve a want with quad q: a saved flight comes back, or the stage's next index starts. -/
def State.serve (s : State) (q : Nat) : Want → State
  | .saved f => s.restoreFlight f q
  | .stage launch k =>
    match s.launchAt launch with
    | none => s
    | some l =>
      match l.stage? k, l.imageOf k with
      | some st, some im => s.startFlight l { launch := launch, stage := k, index := st.started } q im.entry
      | _, _ => s

/-- Charge a launch one quad. -/
def State.charge (s : State) (launch : Nat) : State :=
  match s.launchAt launch with
  | some l => s.setLaunch { l with deficit := l.deficit - 1 }
  | none => s

/-- A quad granted to a launch serves its first want that is not served, and is charged: the want. -/
def State.grantQuad (s : State) (launch q : Nat) (served : List Want) : State × Option Want :=
  match s.launchAt launch with
  | none => (s, none)
  | some l =>
    match (s.wants l).find? fun w => !served.contains w with
    | some w => ((s.serve q w).charge launch, some w)
    | none => (s, none)

/-- A minimum flight takes a quad (R423). -/
def State.placeMinimum (s : State) (f : FlightId) (q : Nat) : State :=
  if s.flights.any fun x => x.id == f && x.place == .saved then s.restoreFlight f q
  else s.serve q (.stage f.launch f.stage)

/-- The quads that a grant of R219 waits for go to another victim that leaves for nobody yet. -/
def State.regrant (s : State) (launch : Nat) : State :=
  match (s.preempts.flatMap fun p => p.flights).find? fun f => !s.grants.any fun g => g.victim == f with
  | some f => { s with grants := s.grants ++ [{ victim := f, launch := launch }] }
  | none => s

/-- A flight has left its quad: it is saved, and its request forgets it. The quad goes to a saved minimum flight (R425), else to the
launch it was taken for (R219), else to a minimum flight that has none (R423). -/
def State.flightSaved (s : State) (f : FlightId) (q : Nat) : State :=
  let g := s.grants.find? fun g => g.victim == f
  let flights := s.flights.map fun x => if x.id == f then { x with place := .saved, due := false } else x
  let s := ({ s with flights := flights, quads := upsert Quad.num s.quads (Quad.reset q) } : State).forgetFlight f
  if !s.quadFree q then s
  else match s.savedMinimums, g, s.homeless with
    | m :: _, some g, _ => (s.placeMinimum m q).regrant g.launch
    | [], some g, _ => (s.grantQuad g.launch q []).1
    | _, none, m :: _ => s.placeMinimum m q
    | _, none, [] => s

/-- A hart that a trap parked leaves its core: its save is made, and takes the posts that wait (R228, R245). -/
def State.leaveParked (s : State) (n : Nat) : State :=
  let c := s.coreAt n
  let f (v : Save) : Save :=
    if v.core.hartId == c.hartId && v.core.run == .parked then { v with core := { v.core with posts := c.posts } } else v
  { (s.setCore c.leave).cleanL1 n with saves := s.saves.map f }

/-- When the last hart of a flight on quad q is saved, the exited and parked ones go with it, and the flight has left. -/
def State.closeSave (s : State) (f : FlightId) (q : Nat) : State :=
  let here := (quadCores q).filter fun n => (s.coreAt n).flight == some f
  if here.all fun n => (s.coreAt n).run == .exited || (s.coreAt n).run == .parked then
    (here.foldl (fun s n => if (s.coreAt n).run == .parked then s.leaveParked n else s.saveHart n 0) s).flightSaved f q
  else s

/-- The ladder saves the hart of core n; its status word waits until the set is saved (R229, R230). -/
def State.ladderSave (s : State) (n : Nat) (rung : BitVec 2) : State :=
  let c := s.coreAt n
  let f := c.hartId.flight
  let w := s.statusWord c none false false c.owed.length 0
  let keep (p : PreemptReq) : PreemptReq := if p.flights.contains f then { p with saved := p.saved ++ [(c.hartId, w)] } else p
  ((({ s with preempts := s.preempts.map keep } : State)).saveHart n rung).closeSave f c.quadNum

end Sys2Proof.Machine
end

