-- ==== Sys2Proof/Machine/Flights.lean ====
section
/-! DEFINITION. Stages and flights: FLIGHT_START, FINALISER_START, FLIGHT_PARK, FLIGHT_RESUME, FLIGHT_RESTORE, STAGE_RETIRE,
LAUNCH_COMPLETE, the scheduler's round, bandwidth shares, the ladder and context saves (R37 to R47, R218 to R221, R230 to
R234, R247, R251, R314, R423, R425). -/

namespace Sys2Proof.Machine

/-! Starting flights. -/

/-- R36 to R38, R253, R423: the next index of a stage, one of its minimums, starts on a free quad, once every package has copied what
the descriptor names and no saved minimum flight waits. An index above the minimum starts on a quad that is granted or passed
(R219, R220). -/
def execFlightStart (f : FlightId) (quad : Nat) (s : State) : Res :=
  match s.launchAt f.launch with
  | none => .next s
  | some l =>
    match l.stage? f.stage, l.imageOf f.stage with
    | some st, some im =>
      if l.state = .running ∧ l.copiedAll ∧ !l.still ∧ !st.retired ∧ f.index = st.started ∧ f.index < st.least ∧
          s.savedMinimums = [] ∧ s.quadFree quad then
        .next (s.startFlight l f quad im.entry)
      else .next s
    | _, _ => .next s

/-- Lowest index of a stage that no living flight has (R247). -/
def State.freeIndex (s : State) (l : Launch) (stage most : Nat) : Option Nat :=
  (List.range most).find? fun i => s.flights.all fun f =>
    !(f.id.launch == l.id && f.id.stage == stage && f.id.index == i) || f.place == .ended

/-- Clocks of a core's streams and commands. -/
def Core.clocks (c : Core) : List Nat := [c.sS.pts, c.sV.pts, c.sF.pts] ++ c.cmds.map fun k => k.pts

/-- Above every clock of the package: its lines, its streams, its harts in saves (R247). -/
def State.topClock (s : State) : Nat :=
  ((s.lines.flatMap fun c => [c.wts, c.rts]) ++ (s.cores.flatMap Core.clocks) ++ (s.saves.flatMap fun v => v.core.clocks) ++
    (s.services.map fun st => st.pts) ++ [s.ptsIn]).foldl max 0 + 1

/-- x10, x11 and the clocks of a finaliser's hart (R247). -/
def State.primeFinaliser (s : State) (n : Nat) (r : BallastRecord) (slot : BitVec 8) (off : Word) : State :=
  let t := s.topClock
  s.updCore n fun c =>
    let c := c.writeXOf false 10 { val := mkHandle r.home r.id 0 r.b, tag := 0 }
    let c := c.writeXOf false 11 { val := (c.slot slot).base.setWidth 64 + off, tag := slotTag slot }
    { c with sS := c.sS.raise t, sV := c.sV.raise t }

/-- R247: the first queued finaliser starts as a flight of its stage, at the bound PC. A saved minimum flight goes first (R425). -/
def execFinaliserStart (k quad : Nat) (s : State) : Res :=
  match s.finalisers[k]? with
  | none => .next s
  | some key =>
    match s.recordAt key with
    | none => .next s
    | some r =>
      match r.kind, s.launchAt r.launch with
      | .tensor slot off _ stage entry _, some l =>
        match (l.stage? stage).bind fun st => s.freeIndex l stage st.most with
        | none => .next s
        | some i =>
          if k = 0 ∧ l.state = .running ∧ !l.still ∧ s.savedMinimums = [] ∧ s.quadFree quad then
            let s1 := s.startFlight l { launch := l.id, stage := stage, index := i } quad entry
            let s2 := (quadCores quad).foldl (fun s n => s.primeFinaliser n r slot off) s1
            .next (({ s2 with finalisers := s2.finalisers.drop 1 } : State).freeRecord key)
          else .next s
      | _, _ => .next s

/-! Parking and resuming. -/

/-- Every hart of the quad that has not exited waits in a queue wait, and one does (R42). -/
def State.idle (s : State) (q : Nat) : Bool :=
  let live := (quadCores q).filter fun n => (s.coreAt n).run != .exited
  !live.isEmpty && live.all fun n => match (s.coreAt n).run with
    | .waiting (.queue ..) => true
    | _ => false

/-- Flights of a stage that run on the package. -/
def State.runningOf (s : State) (launch stage : Nat) : Nat :=
  (s.flights.filter fun f => f.id.launch == launch && f.id.stage == stage && (match f.place with
    | .quad _ => true
    | _ => false)).length

/-- No barrier of scope `.die`, `.pkg` or `.pod` of the stage is open. -/
def State.noOpenBarrier (s : State) (launch stage : Nat) : Bool :=
  s.barriers.all fun b => !(b.launch == launch && b.stage == stage && b.opened.isSome &&
    (b.scope == .die || b.scope == .pkg || b.scope == .pod))

/-- Nothing of the quad's harts is under way that a save waits for (R232, R261, R360). -/
def State.quiet (s : State) (q : Nat) : Bool :=
  (quadCores q).all fun n => let c := s.coreAt n
    c.cmds.isEmpty && c.performed && s.replied c

/-- Perform what the quad's harts have issued. -/
def State.settleQuad (s : State) (q : Nat) : State := (quadCores q).foldl State.settle s

/-- VLDR groups of the quad's harts that a lost package owes are poisoned (R261). -/
def State.poisonGroups (s : State) (q : Nat) : State :=
  (quadCores q).foldl (fun s n => s.setCore ((s.groupsIn (s.coreAt n)).getD (s.coreAt n))) s

/-- The stage of a launch that takes the quad of a flight parked for it serves a saved flight of its own first (R220). -/
def State.passQuad (s : State) (l : Launch) (k q : Nat) : State :=
  match (s.savedOf l).find? fun f => f.stage == k with
  | some f => s.serve q (.saved f)
  | none => s.serve q (.stage l.id k)

/-- The stages of a launch that want a flight on the package: those of its saved flights, then those of R218 by pressure; the first
of them takes the quad of an idle flight (R218, R425, log 21). -/
def State.wantingStages (s : State) (l : Launch) : List Nat := ((s.savedOf l).map fun f => f.stage) ++ s.wanting l

/-- R42, R220: an idle flight is parked when a stage of its launch wants a flight, which takes the quad at once. -/
def execFlightPark (f : FlightId) (s : State) : Res :=
  match s.flightAt f, s.launchAt f.launch with
  | some { place := .quad q, .. }, some l =>
    match l.stage? f.stage, s.wantingStages l with
    | some st, k :: _ =>
      let s := s.settleQuad q
      if s.idle q ∧ !st.pinned ∧ st.least < s.runningOf f.launch f.stage ∧ s.noOpenBarrier f.launch f.stage ∧
          s.quiet q then
        let s1 := (quadCores q).foldl (fun s n => s.saveHart n 0) (s.poisonGroups q)
        let s2 : State := { s1.setPlace f .parked with quads := upsert Quad.num s1.quads (Quad.reset q) }
        .next (s2.passQuad l k q)
      else .next s
    | _, _ => .next s
  | _, _ => .next s

/-- The queue that a parked flight waits on is mapped and has an entry, or is closed (R42, R46, R216). -/
def State.mayResume (s : State) (f : FlightId) : Bool :=
  match s.launchAt f.launch with
  | none => false
  | some l => (s.savesOf f).any fun v => match v.core.run with
    | .waiting (.queue q _) => match l.queues[q]? with
      | some k => (!k.entries.isEmpty && !k.unmapped) || k.closed
      | none => false
    | _ => false

/-- R39, R42, R154; a saved minimum flight goes first (R425). -/
def execFlightResume (f : FlightId) (quad : Nat) (s : State) : Res :=
  match s.flightAt f with
  | some x =>
    if x.place = .parked ∧ s.mayResume f ∧ !s.standsStill f.launch ∧ s.savedMinimums = [] ∧ s.quadFree quad then .next (s.restoreFlight f quad) else .next s
  | none => .next s

/-- R232, R233, R425: a saved minimum flight comes back once a round has come since its save. When no quad of the package is free,
one is freed (R423). Any other saved flight comes back on a quad that is granted or passed to it (R219, R220). -/
def execFlightRestore (f : FlightId) (quad : Nat) (s : State) : Res :=
  if s.savedMinimums.contains f then
    .next (if s.quadFree quad then s.restoreFlight f quad else s.freeForMinimums)
  else .next s

/-! Retirement. -/

/-- Nothing keeps the stage, here or on another package of the launch: its started flights have ended, its input queues are empty
and closed, no tensor's finaliser is to run on it, and its output has left the holding areas (R46, R211, R251). -/
def State.stageDone (s : State) (l : Launch) (k : Nat) (st : StageInfo) : Bool :=
  st.least ≤ st.started && !(l.elsewhere.any fun e => e.2 == k) &&
  (s.flights.all fun f => !(f.id.launch == l.id && f.id.stage == k) || f.place == .ended) &&
  (l.queues.all fun q => q.receiver != some k || (q.closed && q.entries.isEmpty && q.holding.isEmpty)) &&
  (l.queues.all fun q => q.sender != some k || q.holding.isEmpty) &&
  s.records.all fun r => match r.kind with
    | .tensor _ _ _ stage _ _ => !(r.launch == l.id && stage == k)
    | .indirect _ => true

/-- R46. -/
def execStageRetire (launch stage : Nat) (s : State) : Res :=
  match s.launchAt launch with
  | none => .next s
  | some l =>
    match l.stage? stage with
    | none => .next s
    | some st =>
      if l.state = .running ∧ !st.retired ∧ s.stageDone l stage st then
        .next (s.setLaunch { l with
          stages := l.stages.set stage { st with retired := true },
          queues := l.queues.map fun q => if q.sender = some stage then { q with closed := true } else q })
      else .next s

/-- Every store of the launch is performed at pod scope (R47). -/
def State.storesDone (s : State) (l : Launch) : Bool :=
  (s.egress.all fun p => p.launch != l.tag.toNat || (match p.body with
    | .store _ | .pfadd .. | .post _ => false
    | _ => true)) &&
  (s.ingress.all fun p => p.launch != l.tag.toNat || (match p.body with
    | .store _ | .pfadd .. | .post _ => false
    | _ => true)) &&
  s.cores.all fun c => !c.belongs l.id || (c.sq.isEmpty && c.vq.isEmpty && c.posts.isEmpty)

/-- The completion word and its post (R314). -/
def State.complete (s : State) (l : Launch) (status : BitVec 32) : State :=
  let w : Word := BitVec.ofNat 32 l.id ++ status
  let s1 : State := { s with host := s.host.setMany (cells l.comp.toNat 8 w.toNat) }
  (s1.setLaunch { l with state := .done status }).postLaunch l.id (if status = 0 then 1 else 2) status w

/-- Every stage is retired, and no tensor or flight has come to one since, here or on another package (R46, R47, R251). A stage that an
HNEW names after it has retired stays so and only holds the launch's completion back (log 64). -/
def State.allRetired (s : State) (l : Launch) : Bool :=
  (List.range l.stages.length).all fun k => match l.stage? k with
    | some st => st.retired && s.stageDone l k st
    | none => true

/-- The forwarding entries of a launch go, and the ids of this package that they kept are free (R242, R252, R289): then, and not when
the record dies on its target (log 64). -/
def State.dropForwards (s : State) (launch : Nat) : State :=
  let mine (f : Forward) : Bool := f.launch == launch
  { s with forwards := s.forwards.filter (fun f => !mine f),
           freed := s.freed ++ (s.forwards.filter fun f => mine f && f.home == s.pkg).map fun f => f.id }

/-- R47, R289: a launch that has moved away leaves its forwarding entries. -/
def execLaunchComplete (launch : Nat) (s : State) : Res :=
  match s.launchAt launch with
  | none => .next s
  | some l =>
    let s1 := s.dropForwards launch
    if l.state = .running ∧ s.allRetired l ∧ s.storesDone l then .next (s1.complete l 0)
    else if l.state = .moved then .next (s1.setLaunch { l with state := .done 0 })
    else .next s

/-! The round (R218, R219). -/

/-- A round at one die: its free quads, the wants served this round. -/
structure Round where
  s      : State
  quads  : List Nat
  served : List Want

/-- Wants of a launch that are not served. -/
def Round.open_ (r : Round) (l : Nat) : List Want :=
  match r.s.launchAt l with
  | some l => (r.s.wants l).filter fun w => !r.served.contains w
  | none => []

def Round.wanted (r : Round) (l : Nat) : Nat := (r.open_ l).length

def Round.deficit (r : Round) (l : Nat) : Rat := ((r.s.launchAt l).map fun l => l.deficit).getD 0

def Round.setDeficit (r : Round) (l : Nat) (d : Rat) : Round :=
  match r.s.launchAt l with
  | some l => { r with s := r.s.setLaunch { l with deficit := d } }
  | none => r

/-- Launches in descending deficit, ties to the lower id. -/
def Round.byDeficit (r : Round) (ls : List Nat) : List Nat :=
  sortBy (fun a b => r.deficit b < r.deficit a || (r.deficit a == r.deficit b && a < b)) ls

/-- Grant one quad to a launch. -/
def Round.grant (r : Round) (l : Nat) : Round :=
  match r.quads with
  | [] => r
  | q :: rest =>
    let g := r.s.grantQuad l q r.served
    { s := g.1, quads := rest, served := match g.2 with
        | some w => w :: r.served
        | none => r.served }

def Round.grantN (r : Round) (l : Nat) : Nat → Round
  | 0 => r
  | n + 1 => (r.grant l).grantN l n

/-- Grants of one to the launch with the largest deficit that still wants a quad. -/
def Round.spare (r : Round) (ls : List Nat) : Nat → Round
  | 0 => r
  | n + 1 =>
    match r.byDeficit (ls.filter fun l => r.wanted l ≠ 0) with
    | l :: _ => if r.quads.isEmpty then r else (r.grant l).spare ls n
    | [] => r

/-- Quads of the die taken from lower levels, one for each want that is left (R219, R423). -/
def Round.takeFrom (r : Round) (die level l : Nat) : Round :=
  ((r.open_ l).zip (r.s.victims (some level) fun q => q / 64 == die)).foldl (fun (r : Round) p =>
    let s1 := r.s.preempt p.2.launch [p.2]
    { r with s := { s1 with grants := s1.grants ++ [{ victim := p.2, launch := l }] }, served := p.1 :: r.served }) r

/-- One priority level at a die. The launches of the level take from lower ones in the order of their grants (log 21). -/
def Round.level (r : Round) (die level : Nat) : Round :=
  let all := (r.s.launches.filter fun l => l.state == .running && l.prio == level).map fun l => l.id
  let ls := all.filter fun l => r.wanted l ≠ 0
  let w := (ls.map fun l => ((r.s.launchAt l).map fun l => l.weight).getD 0).sum
  let f : Nat := r.quads.length
  if w = 0 then r
  else
    let r := ls.foldl (fun (r : Round) l => match r.s.launchAt l with
      | some x => r.setDeficit l (x.deficit + (f : Rat) * x.weight / w)
      | none => r) r
    let r := (r.byDeficit ls).foldl (fun (r : Round) l =>
      r.grantN l (min (r.wanted l) (min (r.deficit l).floor.toNat r.quads.length))) r
    let r := r.spare ls r.quads.length
    let r := if r.quads.isEmpty then (r.byDeficit ls).foldl (fun (r : Round) l => r.takeFrom die level l) r else r
    (all.filter fun l => !ls.contains l).foldl (fun (r : Round) l => r.setDeficit l 0) r

/-- Free quads that are kept for minimum flights which may not start yet (R36, R253). -/
def State.keptQuads (s : State) : List Nat := s.freeList.reverse.take ((s.unstarted false).length - (s.unstarted true).length)

/-- The four levels at a die whose free quads stand in firmware's order (R37). -/
def State.roundAt (s : State) (place : List Nat) (served : List Want) (die : Nat) : State × List Want :=
  let free := (place.dedup ++ (List.range 256).filter fun q => !place.contains q).filter fun q =>
    q / 64 == die && s.quadFree q && !s.keptQuads.contains q
  let r := [3, 2, 1, 0].foldl (fun (r : Round) lv => r.level die lv) { s := s, quads := free, served := served }
  (r.s, r.served)

/-- Minimum flights that have no quad take the first free ones (R423, R425). -/
def State.placeMinimums (s : State) : State :=
  s.homeless.foldl (fun s f =>
    match s.freeList with
    | q :: _ => s.placeMinimum f q
    | [] => s) s

/-- Wants for which a quad that a save under way will free is taken already. -/
def State.pendingWants (s : State) : List Want :=
  s.launches.flatMap fun l => (s.wants l).take (s.grants.filter fun g => g.launch == l.id).length

/-- R218, R219, R423, R425. `place` is the order in which firmware takes free quads. -/
def execSchedulerRound (place : List Nat) (s : State) : Res :=
  if s.time.toNat < s.nextRound.toNat then .next s
  else
    let s1 : State := { s with
      nextRound := s.nextRound + BitVec.ofNat 64 Config.roundTicks,
      flights := s.flights.map fun f => if f.place == .saved then { f with due := true } else f }
    let s2 := s1.placeMinimums.freeForMinimums
    .next ([0, 1, 2, 3].foldl (fun (p : State × List Want) d => p.1.roundAt place p.2 d) (s2, s2.pendingWants)).1

/-! Bandwidth shares (R221). -/

def State.shareOf (s : State) (w : BitVec 10) : Nat := ((s.shares.find? fun e => e.1 == w).map fun e => e.2).getD 1

/-- Refill periods that a die has had. -/
def State.refilled (s : State) (die : Nat) : Nat := ((s.refills.find? fun e => e.1 == die).map fun e => e.2).getD 0

/-- R221: the worlds active at the tick share the die's budget; the bucket of an inactive one is emptied. -/
def execBandwidthRefill (die : Nat) (s : State) : Res :=
  let k := s.refilled die + 1
  if 4 ≤ die ∨ s.time.toNat < Config.refillTicks * k then .next s
  else
    let total := ((s.buckets.filter fun b => b.die == die && b.active).map fun b => s.shareOf b.world).sum
    let fill (b : Bucket) : Bucket :=
      if b.die ≠ die then b
      else if !b.active then { b with tokens := 0 }
      else
        let g : Rat := (Config.dieBudget : Rat) * s.shareOf b.world / total
        { b with tokens := min b.tokens g + g }
    .next { s with buckets := s.buckets.map fill, refills := upsert (fun (e : Nat × Nat) => e.1) s.refills (die, k) }

/-! The ladder. -/

/-- R230, rung 1. -/
def execPreemptRequest (launch : Nat) (flights : List FlightId) (s : State) : Res := .next (s.preempt launch flights)

def State.limits (s : State) (launch : Nat) : Nat × Nat :=
  match s.launchAt launch with
  | some l => (l.t1, l.t2)
  | none => (0, 0)

/-- Every hart of the set has parked and every command of theirs has ended (R230). -/
def State.setParked (s : State) (p : PreemptReq) : Bool :=
  (s.coresOf p.flights).all fun n =>
    let c := s.coreAt n
    (match c.run with
      | .stopped _ | .exited | .parked => true
      | _ => false) && c.cmds.isEmpty

/-- R230, R231: at t0 + T1 the harts that have not parked stop at their instruction or element boundary. A set whose harts have
all parked, with their commands ended, was saved within rung 1. -/
def execPreemptRung2 (k : Nat) (s : State) : Res :=
  match s.preempts[k]? with
  | none => .next s
  | some p =>
    if p.rung = 1 ∧ p.t0 + (s.limits p.launch).1 ≤ s.time.toNat ∧ !s.setParked p then
      .next ((s.coresOf p.flights).foldl State.stopNow { s with preempts := s.preempts.set k { p with rung := 2 } })
    else .next s

/-- The engines of a hart are reset: its commands are aborted and owed, in the order of their acceptance, and their clocks count
(R181, R232). -/
def Core.abort (c : Core) : Core :=
  { c with owed := c.owed ++ c.cmds, ended := c.cmds.map (fun k => (k.serial, k.pts)) ++ c.ended, cmds := [] }

/-- The save of core n's hart may be made now (R230, R231, R232). -/
def State.maySave (s : State) (n : Nat) (p : PreemptReq) : Bool :=
  let c := s.coreAt n
  (if p.rung = 1 then s.setParked p else c.cmds.isEmpty) && c.performed

/-- Save the hart of core n, one of the request's, when it may be; with only parked and exited harts left, the flight leaves its
quad. -/
def State.trySave (s : State) (n : Nat) (p : PreemptReq) : State :=
  if !(p.flights.any fun f => (s.coreAt n).flight == some f) then s else
  let s := s.settle n
  match (s.coreAt n).run with
  | .stopped _ =>
    if s.maySave n p then
      match s.groupsIn (s.coreAt n) with
      | some c => (s.setCore c).ladderSave n p.rung
      | none => s
    else s
  | .parked | .exited => if s.maySave n p then s.closeSave (s.coreAt n).hartId.flight (n / 4) else s
  | _ => s

/-- R230, R232: at t0 + T1 + T2 the unfinished commands are aborted, every hart of the set stops, and the saves complete. -/
def execPreemptRung3 (k : Nat) (s : State) : Res :=
  match s.preempts[k]? with
  | none => .next s
  | some p =>
    let t := s.limits p.launch
    if p.rung = 2 ∧ p.t0 + t.1 + t.2 ≤ s.time.toNat then
      let p1 : PreemptReq := { p with rung := 3 }
      let ns := s.coresOf p.flights
      let halt (s : State) (n : Nat) : State :=
        let s := s.updCore n Core.abort
        if (s.coreAt n).run = .running then s.stopHart n none else s
      let s1 := ns.foldl halt { s with preempts := s.preempts.set k p1 }
      .next (ns.foldl (fun (s : State) n => s.trySave n p1) s1)
    else .next s

/-- R230 to R237: a stopped hart of a request is saved once its owed writes and groups allow. -/
def execContextSave (core : Nat) (s : State) : Res :=
  match s.preempts.find? fun p => match (s.coreAt core).flight with
    | some f => p.flights.contains f
    | none => false with
  | some p => if core < Config.cores then .next (s.trySave core p) else .next s
  | none => .next s

end Sys2Proof.Machine
end

