-- ==== Sys2Proof/Machine/Harvests.lean ====
section
/-! DEFINITION. Harvests on this package: SNAP (R277, R369), sealed extents (R284), completion and abandonment (R285), rollback
(R227, R286, R287, R291), and live migration (R288, R289). -/

namespace Sys2Proof.Machine

/-! SNAP. -/

/-- Every remote slot of the launch's images names a package of the launch. -/
def Launch.closedSlots (l : Launch) : Bool :=
  l.images.all fun i => i.slots.all fun e => !(e.2.v && e.2.rem) || l.pkgs.contains e.2.pkg

/-- The conditions of R277; none starts until every package has abandoned what this one has (R285). -/
def Launch.maySnap (l : Launch) (h : BitVec 32) : Bool :=
  l.state == .running && !l.blocked && h.toNat == l.last.toNat + 1 && !l.busy && (h == 1 || l.everywhere == l.last) && l.closedSlots

/-- R277, R165, R288: the cut is taken with the hart at the head after the SNAP; while a move, a migration or accesses hold it up, the
SNAP waits (log 37). -/
def execSnap (a : XName) (s : State) : Res :=
  match s.launchOf s.core with
  | none => .next s.advance
  | some l =>
    if l.maySnap ((s.x a).val.extractLsb' 0 32) then
      match (if l.snapWaits then none else s.advance.takeCut l.id) with
      | some s1 => .next s1
      | none => .next s
    else .next s.advance

/-! Sealed extents (R284). -/

def AccOp.writesExtent (op : AccOp) (e : Nat) : Bool :=
  op.writes && op.lines.any fun line => region (128 * line) == .dram && 128 * line / Config.extentBytes == e

/-- A command still has a store to make in an extent. -/
def Command.writesExtent (k : Command) (e : Nat) : Bool :=
  k.dstPkg.isNone && k.dstBytes != 0 && k.dst / Config.extentBytes ≤ e &&
    e ≤ (k.dst + (k.dstBytes - 1)) / Config.extentBytes && !k.allIssued

/-- An agent waits to write to an extent. -/
def State.writeWaits (s : State) (e : Nat) : Bool :=
  (s.cores.any fun c => ((c.sq ++ c.fq ++ c.vq).any fun a => a.op.writesExtent e) || c.cmds.any fun k => k.writesExtent e) ||
  s.ingress.any fun p => match p.body with
    | .store bytes => bytes.any fun w => w.1 / Config.extentBytes == e
    | .pfadd _ a _ _ => a / Config.extentBytes == e
    | _ => false

/-- R284: the first write to a sealed extent waits for this. -/
def execSealedExtentWrite (ext : Nat) (s : State) : Res :=
  .next (if (s.extentAt ext).sealed && s.writeWaits ext then s.unseal ext else s)

/-- R284, R285: firmware copies a sealed extent, or releases one that an earlier manifest recorded. -/
def execSealedExtentCopy (ext : Nat) (s : State) : Res :=
  .next (if (s.extentAt ext).sealed then s.unseal ext else s)

/-! Completion. -/

/-- Channel c into the package is complete (R283). -/
def Harvest.channelDone (h : Harvest) (c : Channel) : Bool :=
  match h.markers.find? fun m => m.1 == c with
  | some m => m.2 ≤ countOf h.received c
  | none => false

/-- R285. -/
def State.harvestDone (s : State) (l : Launch) : Bool :=
  match l.harvests.getLast? with
  | none => false
  | some h =>
    l.busy && (l.extents.all fun e => !(s.extentAt e).sealed) &&
      (s.peers l).all fun p => (channels p).all h.channelDone

/-- R285; a launch that no other package takes part in is complete everywhere. -/
def execHarvestComplete (launch : Nat) (s : State) : Res :=
  match s.launchAt launch with
  | none => .next s
  | some l =>
    if s.harvestDone l then
      let last := l.last + 1
      let s1 := s.setLaunch { l.modHarvest (fun h => { h with complete := true }) with last := last, busy := false }
      .next (if (s.peers l).isEmpty then s1.harvestEverywhere launch last else s1)
    else .next s

/-- Colour of the last harvest that is complete everywhere. -/
def Launch.restColour (l : Launch) : Bool := l.everywhere.getLsbD 0

/-- Another launch whose harvest is in progress holds an extent of this one sealed (R153, R284). -/
def State.sealedFor (s : State) (l : Launch) (e : Nat) : Bool :=
  s.launches.any fun o => o.id != l.id && o.busy && o.extents.contains e

/-- A harvest that is not complete everywhere is abandoned; no SNAP starts while other packages may still hold it (R285). -/
def State.abandon (s : State) (l : Launch) : State :=
  let own := if l.busy then l.extents.filter fun e => !s.sealedFor l e else []
  let s1 := own.foldl (fun (s : State) e => s.setExtent { s.extentAt e with sealed := false }) s
  s1.setLaunch { l with busy := false, colour := l.restColour, blocked := !(s.peers l).isEmpty,
                        harvests := l.harvests.filter fun h => h.num ≤ l.everywhere.toNat }

/-! Stopping a launch. -/

/-- Every hart of the launch stops and nothing of it is saved; its commands are aborted, its packets in flight
discarded, its quads free (R286 step 1, R314). -/
def State.stopLaunch (s : State) (l : Launch) : State :=
  let f (c : Core) : Core := if c.belongs l.id then c.vacate else c
  let mine (p : Packet) : Bool := p.launch == l.tag.toNat
  let s := (s.preempts.filter fun p => p.launch == l.id).foldl State.closeRequest s
  let held := s.flights.filterMap fun x => if x.id.launch = l.id then (match x.place with
    | .quad q => some q
    | _ => none) else none
  { s with
    core := f s.core, others := s.others.map f,
    egress := s.egress.filter fun p => !mine p, ingress := s.ingress.filter fun p => !mine p,
    saves := s.saves.filter fun v => v.flight.launch != l.id,
    preempts := s.preempts.filter fun p => p.launch != l.id,
    grants := s.grants.filter fun g => g.launch != l.id && g.victim.launch != l.id,
    flights := s.flights.filter fun x => x.id.launch != l.id,
    quads := s.quads.map fun q => if held.contains q.num then Quad.reset q.num else q,
    barriers := s.barriers.filter fun b => b.launch != l.id,
    performed := s.performed.filter fun e => e.launch != l.tag.toNat }

/-- Names of the records of a launch. -/
def State.keysOf (s : State) (launch : Nat) : List (BitVec 12 × Nat) :=
  (s.records.filter fun r => r.launch == launch).map BallastRecord.key

/-- The ids of this package among some names. -/
def State.ownIds (s : State) (ks : List (BitVec 12 × Nat)) : List Nat :=
  (ks.filter fun k => k.1 == s.pkg).map fun k => k.2

/-- The records of a launch leave the package. -/
def State.takeRecords (s : State) (launch : Nat) : State :=
  let ks := s.keysOf launch
  { s with records := s.records.filter fun r => r.launch != launch, finalisers := s.finalisers.filter fun k => !ks.contains k }

/-- The records of a launch are gone and their ids free. -/
def State.dropRecords (s : State) (l : Launch) : State :=
  { s.takeRecords l.id with freed := s.freed ++ s.ownIds (s.keysOf l.id) }

/-- A launch ends without completing (R314). -/
def State.endLaunch (s : State) (l : Launch) (status : BitVec 32) : State :=
  ((((s.abandon l).stopLaunch l).dropRecords l).dropForwards l.id).complete
    { l with busy := false, colour := l.restColour, harvests := [], migration := none } status

/-! Rollback. -/

/-- Held versions of the extents' lines are dropped in every stream (R173). -/
def State.dropHeld (s : State) (exts : List Nat) : State :=
  let f (st : Stream) : Stream := { st with held := st.held.filter fun h => !exts.contains (128 * h.line / Config.extentBytes) }
  let g (c : Core) : Core := { c with sS := f c.sS, sF := f c.sF }
  ({ s with core := g s.core, others := s.others.map g, services := s.services.map f } : State).forget

/-- Firmware writes an extent: each line that changes is a new version, and no entry fetches what stood there before (R18, R175,
R286). -/
def State.writeExtent (s : State) (e : Nat) (m : Mem) : State :=
  let at_ := e * Config.extentBytes
  let new := m.slice 0 Config.extentBytes at_
  let lines := ((s.mem.slice at_ Config.extentBytes at_ ++ new).map fun c => c.1 / 128).dedup.filter fun l =>
    s.mem.bytes (128 * l) 128 != new.bytes (128 * l) 128
  let s1 := lines.foldl (fun (s : State) l => s.loadLineBytes (128 * l) (new.bytes (128 * l) 128)) s
  { s1.touch at_ with code := s1.code.filter fun l => l.base / Config.extentBytes != e }

/-- Each extent receives its contents at the cut, from the latest manifest that lists it (R286 step 2). -/
def State.restoreExtents (s : State) (hs : List Harvest) : State :=
  let exts := (hs.flatMap fun h => h.manifest).dedup
  let s := s.dropHeld exts
  exts.foldl (fun (s : State) e =>
    match hs.reverse.find? fun h => h.manifest.contains e with
    | some h =>
      s.writeExtent e (((h.copies.find? fun c => c.1 == e).map fun c => c.2).getD [])
    | none => s) s

/-- Records, queues, barriers and saves of the harvest (R286 step 2, R291). -/
def State.restorePieces (s : State) (l : Launch) (h : Harvest) (saves : List Save) : State :=
  let gone := s.keysOf l.id
  let back := h.records.map BallastRecord.key
  let used := s.ownIds back
  { s with
    records := (s.records.filter fun r => r.launch != l.id) ++ h.records,
    freed := (s.freed.filter fun i => !used.contains i) ++ (s.ownIds gone).filter fun i => !used.contains i,
    finalisers := (s.finalisers.filter fun k => !gone.contains k) ++ h.finalisers,
    barriers := s.barriers ++ h.barriers, performed := s.performed ++ h.performed,
    combined := (s.combined.filter fun e => !h.combined.contains e) ++ h.combined,
    saves := s.saves ++ h.saves ++ saves,
    flights := s.flights ++ h.flights.map fun f => match f.place with
      | .quad _ => { f with place := .saved, due := false }
      | _ => f }

/-- The reply to a recorded request, which leaves only when the requester's capture still waits for it (R286 step 3, log 39). -/
def State.replyRecorded (s : State) (p : Packet) (body : PacketBody) : State :=
  let s1 : State := { s with free := s.free + 1 }
  if Config.stillPending s.free then s1.reply p body else s1

/-- Bytes of one line are stored again; an extent that another launch's harvest holds sealed is copied first (R284). -/
def State.replayLine (s : State) (line : Nat) (bytes : List (Nat × Byte)) : State := (s.openLine line).ingressStore line bytes

/-- A recorded packet is performed again, or delivered (R286 step 3). -/
def State.replay (s : State) (p : Packet) : State :=
  match p.body with
  | .store bytes =>
    let s1 := (pieces bytes).foldl (fun (s : State) ws => s.replayLine ((ws.head?.map fun w => w.1).getD 0 / 128) ws) s
    (s1.credit p).reply p (.ack p.serial)
  | .pfadd rtag a addend _ =>
    let old := s.readAt a 8
    ((s.replayLine (a / 128) (cells a 8 ((old + addend.toNat) % 2 ^ 64))).credit p).replyRecorded p
      (.pfaddReply rtag (BitVec.ofNat 64 old))
  | .vldr rtag g addrs _ =>
    let lines := (addrs.map fun e => e.2 / 128).dedup
    (lines.foldl State.ingressLoad s).replyRecorded p
      (.vldrReply rtag g (groupBytes (addrs.map fun e => (e.1, s.byteAt e.2))))
  | .vldrReply rtag _ data => (s.mapHarts fun c => c.takeGroup rtag data).acknowledge rtag
  | .pfaddReply rtag v => s.deliver rtag v (s.combined.length + 1)
  | .post _ => (s.arrivedPost p).getD s
  | .ack serial => s.acknowledge serial
  | _ => s

/-- cr.rollback of a restored hart, which takes the notice of R227 when it resumes. -/
def Core.rolledBack (c : Core) (num : Nat) : Core :=
  { c with notice := true, ctl := { c.ctl with rb := true, rbFrom := BitVec.ofNat 32 num } }

/-- Remote slots that name a lost package become invalid (R271). -/
def State.invalidate (s : State) (e : SlotEntry) : SlotEntry :=
  if e.rem && s.lost.contains e.pkg then { e with v := false } else e

/-- Flights of a launch that stood on quads come back: on the quads given, while they are free. One that finds none stays
saved, its epoch raised (R286 step 4). -/
def State.comeBack (s : State) (fs : List FlightId) (quads : List Nat) : State :=
  fs.foldl (fun (s : State) f =>
    match quads.find? s.quadFree with
    | some q => s.restoreFlight f q
    | none => { s with saves := s.saves.map fun v =>
        if v.flight == f then { v with core := { v.core with ctl := { v.core.ctl with epoch := v.core.ctl.epoch + 1 } } } else v }) s

/-- R286 on this package, to the last harvest complete everywhere. Harts that were parked or saved at the cut stay so (R286 step
2). A generation that waits only for harts of a lost package completes (R291). -/
def State.rollback (s : State) (l : Launch) (place : List Nat) : State :=
  let num := l.everywhere.toNat
  let hs := l.harvests.filter fun h => h.num ≤ num
  match hs.getLast? with
  | none => s
  | some h =>
    let before := s.flights.filterMap fun x => if x.id.launch = l.id then (match x.place with
      | .quad q => some q
      | _ => none) else none
    let s1 := ((s.abandon l).stopLaunch l).restoreExtents hs
    let back (v : Save) : Save := { v with core := v.core.rolledBack num }
    let s2 := s1.restorePieces l { h with saves := h.saves.map back } (h.captures.map fun c => back c.save)
    let l1 : Launch := { l with
      last := BitVec.ofNat 32 num, busy := false, colour := l.restColour, harvests := hs, sent := [], received := [],
      pkgs := l.pkgs.filter (fun p => !s.lost.contains p), elsewhere := l.elsewhere.filter (fun e => !s.lost.contains e.1),
      stages := h.stages, queues := h.queues,
      images := l.images.map fun i => { i with slots := i.slots.map fun e => (e.1, s.invalidate e.2) } }
    let s3 := s2.setLaunch l1
    let s4 : State := { s3 with barriers := s3.barriers.map fun b => if b.launch == l.id then s3.closeGen b else b }
    let s5 := h.channel.foldl (fun (s : State) e => s.replay e.2) s4
    let placed := (h.flights.filter fun f => match f.place with
      | .quad _ => true
      | _ => false).map fun f => f.id
    let order := (placed.filter s5.isMinimum) ++ placed.filter fun f => !s5.isMinimum f
    s5.comeBack order (before ++ place ++ s5.freeList)

/-- R271, R286: after a loss, a launch with a completed harvest is rolled back. -/
def execRollback (launch : Nat) (place : List Nat) (s : State) : Res :=
  match s.launchAt launch with
  | none => .next s
  | some l =>
    if l.state = .running ∧ l.everywhere ≠ 0 ∧ (l.pkgs.any fun p => s.lost.contains p) then .next (s.rollback l place)
    else .next s

/-! Live migration. -/

/-- R288 phase 1: t1 is cleared and the extents are copied to the target, as often as firmware repeats it. -/
def execMigrationStart (launch target : Nat) (s : State) : Res :=
  match s.launchAt launch with
  | none => .next s
  | some l =>
    if l.state = .running ∧ (l.migration.all fun m => !m.stopped && m.target.toNat == target) ∧ target < 4096 ∧
        target ≠ s.pkg.toNat then
      let clear (s : State) (e : Nat) : State :=
        let x := s.extentAt e
        s.setExtent { x with trace := x.trace &&& 0b1101 }
      .next ((l.extents.foldl clear s).setLaunch
        { l with migration := some { target := BitVec.ofNat 12 target, stopped := false, begun := s.time } })
    else .next s

/-- Flights of a launch on quads. -/
def State.onQuads (s : State) (launch : Nat) : List FlightId :=
  (s.flights.filter fun f => f.id.launch == launch && match f.place with
    | .quad _ => true
    | _ => false).map fun f => f.id

/-- R288 phase 2: every flight stops under rung 2, with T2 counted from here. -/
def execMigrationStop (launch : Nat) (s : State) : Res :=
  match s.launchAt launch with
  | none => .next s
  | some l =>
    match l.migration with
    | none => .next s
    | some m =>
      if m.stopped then .next s
      else
        let fs := s.onQuads launch
        let s := (s.preempts.filter fun p => p.launch == launch).foldl State.closeRequest s
        let rest := s.preempts.filter fun p => p.launch != launch
        let req : PreemptReq := { launch := launch, flights := fs, t0 := (s.time.toNat : Int) - l.t1, rung := 2, saved := [] }
        let s1 : State := { s with preempts := if fs.isEmpty then rest else rest ++ [req] }
        .next ((s.coresOf fs).foldl State.stopNow (s1.setLaunch { l with migration := some { m with stopped := true } }))

/-- No remote access of the launch is under way, and no marker of a harvest that has begun elsewhere waits here (R288 phase 2). -/
def State.remoteQuiet (s : State) (l : Launch) : Bool :=
  ((s.egress ++ s.ingress).all fun p => p.launch != l.tag.toNat || !p.body.answers) &&
    s.ingress.all fun p => p.launch != l.tag.toNat || (match p.body with
      | .marker .. => false
      | _ => true)

/-- No post of the launch's harts waits to leave (R245). -/
def State.postsGone (s : State) (launch : Nat) : Bool := (s.hartsOf launch).all fun c => c.posts.isEmpty

/-- R288 phases 3 and 4, R289: contexts, extents and records go to the target; the source forwards for the records. -/
def execMigrationRelease (launch : Nat) (s : State) : Res :=
  match s.launchAt launch with
  | none => .next s
  | some l =>
    match l.migration with
    | none => .next s
    | some m =>
      if m.stopped ∧ (s.onQuads launch).isEmpty ∧ !l.busy ∧ s.remoteQuiet l ∧ s.postsGone launch then
        let moved := (s.keysOf launch).map fun k =>
          ({ home := k.1, id := k.2, launch := launch, target := m.target } : Forward)
        let s1 := (s.stopLaunch l).takeRecords launch
        .next (({ s1 with forwards := s1.forwards ++ moved } : State).setLaunch
          { l with state := .moved, migration := none, pkgs := l.pkgs.map fun p => if p = s.pkg then m.target else p })
      else .next s

end Sys2Proof.Machine
end

