-- ==== Sys2Proof/Machine/Moves.lean ====
section
/-! DEFINITION. Moves of extents (R165 to R168) and the revocation of a key slot (R300). -/

namespace Sys2Proof.Machine

/-! Dependent slots. -/

/-- Launches whose slots are in force. -/
def State.liveLaunches (s : State) : List Launch := s.launches.filter fun l => match l.state with
  | .running | .waiting .. => true
  | _ => false

/-- The slot entries of every image on the package. -/
def State.slotEntries (s : State) : List SlotEntry :=
  s.liveLaunches.flatMap fun l => l.images.flatMap fun i => i.slots.map fun e => e.2

/-- Extents of a run. -/
def MoveRecord.extents (mv : MoveRecord) : List Nat :=
  span (mv.old / Config.extentBytes) ((mv.old + mv.len) / Config.extentBytes)

/-- The entry lies wholly inside the run. -/
def MoveRecord.inside (mv : MoveRecord) (e : SlotEntry) : Bool :=
  mv.old ≤ e.base.toNat && e.base.toNat + e.limit.toNat ≤ mv.old + mv.len

/-- A harvest in progress holds an extent of the run (R165). -/
def State.harvestHolds (s : State) (mv : MoveRecord) : Bool :=
  s.launches.any fun l => l.busy && l.extents.any fun e => mv.extents.contains e

/-- Firmware may apply the move of a run of this package's DRAM (R165). The top 16 MiB of a die are firmware's. -/
def State.mayMove (s : State) (mv : MoveRecord) : Bool :=
  !s.harvestHolds mv &&
  mv.len != 0 && mv.old % Config.extentBytes == 0 && mv.new % Config.extentBytes == 0 &&
    mv.len % Config.extentBytes == 0 &&
    (mv.extents ++ mv.extents.map fun e => e - mv.old / Config.extentBytes + mv.new / Config.extentBytes).all
      (fun e => region (e * Config.extentBytes) == .dram) &&
    !overlaps mv.old mv.len mv.new mv.len &&
    (s.moves.all fun m => m.pkg != mv.pkg || (!overlaps m.old m.len mv.old mv.len && !overlaps m.new m.len mv.old mv.len &&
      !overlaps m.old m.len mv.new mv.len && !overlaps m.new m.len mv.new mv.len)) &&
    (s.slotEntries.all fun e => !mv.dependent s.pkg e || (e.mov && mv.inside e)) &&
    (s.slotEntries.all fun e => !({ mv with old := mv.new } : MoveRecord).dependent s.pkg e) &&
    mv.extents.all fun e => !(s.extentAt e).pin && !(s.extentAt e).sealed

/-! Copying. -/

/-- A line of the copy is a new version there, no older than the one it copies. -/
def State.copyClock (s : State) (a b : Nat) : State :=
  let o := s.clockAt a
  let n := s.clockAt b
  let t := max o.wts (n.rts + 1)
  s.setClock { line := b, wts := t, rts := max t o.rts }

/-- The lines of an extent of the run are new versions at its new place. -/
def State.copyClocks (s : State) (mv : MoveRecord) (e : Nat) : State :=
  let a := e * Config.extentBytes
  let b := a - mv.old + mv.new
  (List.range 512).foldl (fun (s : State) j => s.copyClock (a / 128 + j) (b / 128 + j)) s

/-- The copy engine copies one extent (R166, R299: the new extent has the old one's world and key). -/
def State.copyExtent (s : State) (mv : MoveRecord) (e : Nat) : State :=
  let a := e * Config.extentBytes
  let b := a - mv.old + mv.new
  let o := s.extentAt e
  let s1 : State := { s with mem := s.mem.paste b Config.extentBytes (s.mem.slice a Config.extentBytes b) }
  let s2 := s1.copyClocks mv e
  (s2.setExtent { s2.extentAt (b / Config.extentBytes) with world := o.world, key := o.key }).touch b

/-- R166 phase 1. -/
def execMoveStart (old new len : Nat) (s : State) : Res :=
  let mv : MoveRecord := { pkg := s.pkg, old := old, new := new, len := len, phase := 1, begun := s.time }
  if s.mayMove mv then
    let clear (s : State) (e : Nat) : State :=
      let x := s.extentAt e
      s.setExtent { x with trace := x.trace &&& 0b1110 }
    let s1 := mv.extents.foldl clear s
    let s2 := mv.extents.foldl (fun (s : State) e => s.copyExtent mv e) s1
    .next { s2 with moves := s2.moves ++ [mv] }
  else .next s

/-! Parking for a move. -/

/-- The core's image holds a dependent slot. -/
def State.depends (s : State) (c : Core) (mv : MoveRecord) : Bool := c.slots.any fun e => mv.dependent s.pkg e.2

/-- T1 of the core's launch has passed since a move on which it depends began (R168). -/
def State.moveOverdue (s : State) (c : Core) : Option MoveRecord :=
  s.moves.find? fun mv => s.depends c mv && mv.phase == 2 &&
    mv.begun.toNat + (s.limits c.hartId.flight.launch).1 ≤ s.time.toNat

/-- R166 phase 2, R168: the moves on which core n's hart depends enter phase 2; a hart that waits parks at once; one that
reaches no safe point within T1 is taken through rung 2. -/
def execMovePark (core : Nat) (s : State) : Res :=
  let c := s.coreAt core
  if core ≥ Config.cores ∨ c.flight = none then .next s
  else
    let enter (mv : MoveRecord) : MoveRecord :=
      if s.depends c mv && mv.phase == 1 then { mv with phase := 2, begun := s.time } else mv
    let s := ({ s with moves := s.moves.map enter } : State).settle core
    let c := s.coreAt core
    let f := c.hartId.flight
    match c.run with
    | .waiting w => .next (if s.mustStop c then s.stopHart core (some w) else s)
    | .running =>
      match s.moveOverdue c with
      | some mv =>
        if s.preempts.any fun p => p.flights.contains f then .next s
        else
          let req : PreemptReq := { launch := f.launch, flights := [f], t0 := mv.begun.toNat, rung := 2, saved := [] }
          .next ((s.coresOf [f]).foldl State.stopNow { s with preempts := s.preempts ++ [req] })
      | none => .next s
    | _ => .next s

/-! The release. -/

/-- The moved place of an address. -/
def MoveRecord.at_ (mv : MoveRecord) (a : Nat) : Nat :=
  if mv.old ≤ a ∧ a < mv.old + mv.len then a - mv.old + mv.new else a

/-- The moved number of an extent. -/
def MoveRecord.extent (mv : MoveRecord) (e : Nat) : Nat := mv.at_ (e * Config.extentBytes) / Config.extentBytes

/-- A dependent slot gets base + delta and its gen grows (R166). -/
def MoveRecord.slot (mv : MoveRecord) (own : BitVec 12) (e : SlotEntry) : SlotEntry :=
  if mv.dependent own e then { e with base := BitVec.ofNat 48 (mv.at_ e.base.toNat), gen := e.gen + 1 } else e

/-- A run-ahead load's addresses follow (R168). -/
def MoveRecord.access (mv : MoveRecord) (a : Acc) : Acc :=
  { a with op := match a.op with
      | .loadV ps => .loadV (ps.map fun p => (mv.at_ p.1, p.2))
      | op => op }

/-- Registers tagged with a dependent slot follow, and the slots, and the loads that are to reissue (R166, R168). -/
def Core.follow (c : Core) (own : BitVec 12) (mv : MoveRecord) : Core :=
  let dep (r : XReg) : Bool := r.tagged && r.slot != 0 && mv.dependent own (c.slot r.slot)
  let delta : Word := BitVec.ofNat 64 mv.new - BitVec.ofNat 64 mv.old
  let f (r : XReg) : XReg := if dep r then { r with val := r.val + delta } else r
  { c with x := c.x.map f, fwX := c.fwX.map f, slots := c.slots.map fun e => (e.1, mv.slot own e.2),
           ahead := [], vq := if mv.pkg = own then c.vq.map mv.access else c.vq }

/-- A packet's addresses follow. -/
def MoveRecord.packet (mv : MoveRecord) (p : Packet) : Packet :=
  { p with body := match p.body with
      | .store bytes => .store (bytes.map fun w => (mv.at_ w.1, w.2))
      | .pfadd r a v k => .pfadd r (mv.at_ a) v k
      | .vldr r g l got => .vldr r g (l.map fun e => (e.1, mv.at_ e.2)) got
      | b => b }

/-- Captured contexts, manifests, copies and channel state follow (R166, R286). -/
def Harvest.follow (h : Harvest) (own : BitVec 12) (mv : MoveRecord) : Harvest :=
  let h1 : Harvest := { h with
    captures := h.captures.map fun c => { c with save := { c.save with core := c.save.core.follow own mv } },
    saves := h.saves.map fun v => { v with core := v.core.follow own mv } }
  if mv.pkg = own then
    { h1 with manifest := h.manifest.map mv.extent, copies := h.copies.map fun c => (mv.extent c.1, c.2),
              channel := h.channel.map fun e => (e.1, mv.packet e.2) }
  else h1

/-- A launch's slots, its harvests, and what its loader has still to copy follow (R99, R166). -/
def Launch.follow (l : Launch) (own : BitVec 12) (mv : MoveRecord) : Launch :=
  { l with images := l.images.map fun i => { i with slots := i.slots.map fun e => (e.1, mv.slot own e.2) },
           loads := if mv.pkg = own then l.loads.map fun x => (mv.at_ x.1, x.2) else l.loads,
           harvests := l.harvests.map fun h => h.follow own mv }

/-- A command names a slot that the move changes. -/
def State.commandDepends (s : State) (c : Core) (mv : MoveRecord) (k : Command) : Bool :=
  (k.srcSlot ++ k.dstSlot).any fun i => i != 0 && mv.dependent s.pkg (c.slot i)

/-- No remote access to the run is under way: one that has arrived here, or one of this package toward the run's (R166, R167). -/
def State.runQuiet (s : State) (mv : MoveRecord) : Bool :=
  if mv.pkg = s.pkg then s.ingress.all fun p => mv.packet p == p
  else s.egress.all fun p => p.dst != mv.pkg || mv.packet p == p

/-- Every dependent hart has parked with its accesses performed, firmware's on its core among them, and its commands ended (R166,
R167). -/
def State.mayRelease (s : State) (mv : MoveRecord) : Bool :=
  (s.cores.all fun c => !s.depends c mv || ((match c.run with
      | .running | .waiting _ | .parking => false
      | _ => true) && c.performed && c.fq.isEmpty && c.cmds.all fun k => !s.commandDepends c mv k)) &&
  s.runQuiet mv

/-- Harts that nothing keeps stopped go on. -/
def State.releaseHarts (s : State) : State :=
  let f (c : Core) : Core := match c.run with
    | .stopped _ => if s.mustStop c then c else { c with run := resumeRun c.run }
    | _ => c
  { s with core := f s.core, others := s.others.map f }

/-- The traced extents of a run of this package are copied again, every line has the leases that loads took at the old place since the
first copy (R18, R167), and no stream holds an old version of them. -/
def State.finishCopy (s : State) (mv : MoveRecord) : State :=
  if mv.pkg = s.pkg then
    let s1 := mv.extents.foldl (fun (s : State) e =>
      if (s.extentAt e).trace.getLsbD 0 then s.copyExtent mv e else s.copyClocks mv e) s
    s1.dropHeld (mv.extents ++ mv.extents.map mv.extent)
  else s

/-- R166 phase 3, R167; for a run of another package the slots that name it and the registers follow. -/
def execMoveRelease (old : Nat) (s : State) : Res :=
  let mine (c : Core) : Bool := s.moves.any fun mv => mv.old == old && s.depends c mv
  let s := s.cores.foldl (fun (s : State) c => if mine c then (s.settle c.num).runS c.num true c.fq.length else s) s
  match s.moves.find? fun mv => mv.old == old && s.mayRelease mv with
  | none => .next s
  | some mv =>
    let s1 := s.finishCopy mv
    let f (c : Core) : Core := c.follow s.pkg mv
    let s2 : State := { s1 with
      core := f s1.core, others := s1.others.map f,
      saves := s1.saves.map (fun v => { v with core := f v.core }),
      launches := s1.launches.map (fun l => l.follow s.pkg mv),
      moves := s1.moves.filter fun m => m != mv }
    .next s2.releaseHarts

/-! Revocation (R300). -/

/-- R300 step 1. It comes at a moment at which no vector instruction that was reached waits to execute (log 61). -/
def execKeyRevoke (key : BitVec 6) (s : State) : Res :=
  .next (if s.cores.any fun c => !c.lates.isEmpty then s
    else { s with live := s.live &&& ~~~ (1#64 <<< key.toNat),
                  revoking := if s.revoking.contains key then s.revoking else s.revoking ++ [key] })

/-- Extents under a key; those that no entry lists have key 0 (R159). -/
def State.extentsOf (s : State) (key : BitVec 6) : List Nat :=
  if key = 0 then (List.range (4 * Config.dieBytes / Config.extentBytes)).filter fun e => (s.extentAt e).key == key
  else (s.extents.filter fun e => e.key == key).map fun e => e.num

/-- A piece under the key waits. -/
def State.pieceUnder (s : State) (key : BitVec 6) (op : AccOp) : Bool :=
  op.lines.any fun line => region (128 * line) == .dram && (s.extentAt (128 * line / Config.extentBytes)).key == key

/-- A command names a slot under the key. -/
def Core.commandUnder (c : Core) (key : BitVec 6) (k : Command) : Bool :=
  (k.srcSlot ++ k.dstSlot).any fun i => i != 0 && (c.slot i).v && !(c.slot i).rem && (c.slot i).key == key

/-- Perform what every core has issued, firmware's accesses included. -/
def State.settleAll (s : State) : State :=
  s.cores.foldl (fun (s : State) c => (s.settle c.num).runS c.num true (s.coreAt c.num).fq.length) s

/-- Extents under a key read as the decryption of their ciphertext under other material (R298, R300). -/
def State.rekey (s : State) (key : BitVec 6) (material : BitVec 512) : State :=
  let old := s.material key
  let s1 := if old = material then s else (s.extentsOf key).foldl (fun (s : State) e => s.review e old material) s
  { s1 with
    keyMat := (key, material) :: s.keyMat.filter fun k => k.1 != key }

/-- What V streams have loaded ahead from some extents is gone, with what was loaded after it (R300 step 4). -/
def State.dropAheadOf (s : State) (exts : List Nat) : State :=
  let f (c : Core) : Core := { c with ahead := c.ahead.takeWhile fun e => !exts.contains (128 * e.1 / Config.extentBytes) }
  { s with core := f s.core, others := s.others.map f }

/-- R300 steps 2 to 5: the key's material is zeroed. A load that waits in a save was issued before step 1, and is waited for. -/
def execKeyRevokeComplete (key : BitVec 6) (s : State) : Res :=
  if !s.revoking.contains key then .next s
  else
    let s := s.settleAll
    let waits := (s.cores.any fun c =>
      ((c.sq ++ c.fq ++ c.vq).any fun a => s.pieceUnder key a.op) || c.cmds.any fun k => c.commandUnder key k) ||
      s.saves.any fun v => v.core.vq.any fun a => s.pieceUnder key a.op
    if waits then .next s
    else
      let exts := s.extentsOf key
      let s1 := (s.dropHeld exts).dropAheadOf exts
      .next { s1.rekey key 0 with
        code := s1.code.filter (fun l => !exts.contains (l.base / Config.extentBytes)),
        revoking := s1.revoking.filter fun k => k != key }

end Sys2Proof.Machine
end

