-- ==== Sys2Proof/Machine/Sha.lean ====
section
/-! DEFINITION. SHA-256 and HMAC-SHA-256, named among the standards of the spec's scope and used by R308, R310, R312,
R316 and R317. The spec gives neither algorithm; FIPS 180-4 and RFC 2104 do (PRESUMED, log 13). Words are natural numbers
below 2^32, and both tables of constants are computed from what FIPS 180-4 says they are. -/

namespace Sys2Proof.Machine

/-! Constants: the first 32 bits of the fractions of square and cube roots of primes. -/

/-- The largest r below 2^n with r^k ≤ v. -/
def rootBelow (k v : Nat) : Nat → Nat
  | 0 => 0
  | n + 1 => go v k n 0
where
  /-- Fix the bits of the root from bit n down to bit 0. -/
  go (v k : Nat) : Nat → Nat → Nat
    | 0, r => if (r + 1) ^ k ≤ v then r + 1 else r
    | n + 1, r => go v k n (if (r + 2 ^ (n + 1)) ^ k ≤ v then r + 2 ^ (n + 1) else r)

/-- The first n primes from p on, p and the fuel large enough. -/
def primesFrom : Nat → Nat → Nat → List Nat
  | 0, _, _ => []
  | _, 0, _ => []
  | fuel + 1, n + 1, p =>
    if (List.range p).all fun d => d < 2 || p % d != 0 then p :: primesFrom fuel n (p + 1)
    else primesFrom fuel (n + 1) (p + 1)

/-- The first 32 bits of the fraction of the k-th root of p. -/
def rootFraction (k p : Nat) : Nat := rootBelow k (p * 2 ^ (32 * k)) 40 % 2 ^ 32

/-- Constants of the 64 rounds, and the words a digest starts from. -/
def roundConstants : List Nat := (primesFrom 312 64 2).map (rootFraction 3)
def firstWords : List Nat := (primesFrom 20 8 2).map (rootFraction 2)

/-! Compression. -/

/-- The sum of words. -/
def addWords (l : List Nat) : Nat := l.foldl (· + ·) 0 % 2 ^ 32

/-- A word turned right by n bits. -/
def turn (n x : Nat) : Nat := x / 2 ^ n + x % 2 ^ n * 2 ^ (32 - n)

/-- The XOR of a word turned by each of some amounts. -/
def turns (l : List Nat) (x : Nat) : Nat := l.foldl (fun v n => v ^^^ turn n x) 0

/-- The word that follows a window of 16 schedule words. -/
def nextWord (w : List Nat) : Nat :=
  let at_ (k : Nat) : Nat := w.getD k 0
  addWords [at_ 0, at_ 9, turns [7, 18] (at_ 1) ^^^ at_ 1 / 8, turns [17, 19] (at_ 14) ^^^ at_ 14 / 1024]

/-- One round on the eight working words, with the sum of its constant and its schedule word. -/
def mix (kw : Nat) : List Nat → List Nat
  | [a, b, c, d, e, f, g, h] =>
    let chosen := g ^^^ (e &&& (f ^^^ g))
    let most := (a &&& (b ||| c)) ||| (b &&& c)
    let x := addWords [h, turns [6, 11, 25] e, chosen, kw]
    [addWords [x, turns [2, 13, 22] a, most], a, b, c, addWords [d, x], e, f, g]
  | l => l

/-- The rounds, one for each constant left; the window of the schedule moves along with them. -/
def rounds : List Nat → List Nat → List Nat → List Nat
  | [], _, v => v
  | k :: ks, w, v => rounds ks (w.drop 1 ++ [nextWord w]) (mix (k + w.getD 0 0) v)

/-! Messages. -/

/-- Big-endian bytes of a number. -/
def beBytes (n w : Nat) : List Byte := (toBytes n w).reverse

/-- Word k of a big-endian message. -/
def beWord (m : List Byte) (k : Nat) : Nat := ofBytes ((m.drop (4 * k)).take 4).reverse

/-- The words of a digest after n blocks of 64 bytes. -/
def absorb : Nat → List Byte → List Nat → List Nat
  | 0, _, v => v
  | n + 1, m, v =>
    let w := (List.range 16).map (beWord m)
    absorb n (m.drop 64) ((v.zip (rounds roundConstants w v)).map fun p => addWords [p.1, p.2])

/-- The padded message. -/
def shaPad (m : List Byte) : List Byte :=
  m ++ [0x80] ++ List.replicate ((55 + 64 - m.length % 64) % 64) 0 ++ beBytes 8 (8 * m.length)

/-- The digest's 32 bytes. -/
def sha256 (m : List Byte) : List Byte :=
  let p := shaPad m
  (absorb (p.length / 64) p firstWords).flatMap (beBytes 4)

/-- Bytes as one 256-bit value, the first the least significant. -/
def digest (l : List Byte) : BitVec 256 := BitVec.ofNat 256 (ofBytes l)

/-- HMAC-SHA-256. -/
def hmac (key msg : List Byte) : List Byte :=
  let k := if 64 < key.length then sha256 key else key
  let padded (c : Byte) : List Byte := (k ++ List.replicate (64 - k.length) 0).map fun b => b ^^^ c
  sha256 (padded 0x5c ++ sha256 (padded 0x36 ++ msg))

end Sys2Proof.Machine
end

