-- ==== Sys2Proof/Machine/Descriptor.lean ====
section
/-! DEFINITION. Launch descriptors: their layout and the rules they are judged by (R35, R36, R99, R153, R311 to R313, R315), and
what admission does. -/

namespace Sys2Proof.Machine

/-! Reading a descriptor. -/

/-- The n-byte value at an offset. -/
def field (d : List Byte) (o n : Nat) : Nat := ofBytes ((d.drop o).take n)
/-- n bytes at an offset are zero. -/
def zeros (d : List Byte) (o n : Nat) : Bool := ((d.drop o).take n).all fun b => b == 0

def dStages (d : List Byte) : Nat := field d 0x004 1
def dQueues (d : List Byte) : Nat := field d 0x005 1
def dImages (d : List Byte) : Nat := field d 0x006 1
def dPkgs (d : List Byte) : Nat := field d 0x01A 2
def dData (d : List Byte) : Nat := field d 0x044 2
def dOff (d : List Byte) (o : Nat) : Nat := field d o 4

/-- A table lies inside, 8-byte aligned. -/
def tableIn (d : List Byte) (o n : Nat) : Bool := o % 8 == 0 && o + n ≤ d.length

/-- Entries of a table. -/
def table (d : List Byte) (o size n : Nat) : List (List Byte) :=
  (List.range n).map fun k => (d.drop (o + k * size)).take size

/-- The header (R311). -/
def headerOk (d : List Byte) : Bool :=
  256 ≤ d.length && d.length ≤ 16777216 && field d 0 2 == 1 && field d 2 2 == 256 &&
  1 ≤ dStages d && dStages d ≤ 16 && dQueues d ≤ 64 && 1 ≤ dImages d && dImages d ≤ 16 && field d 7 1 ≤ 3 &&
  field d 8 8 != 0 && field d 0x10 8 % 8 == 0 && field d 0x18 2 < 1024 && 1 ≤ dPkgs d && dPkgs d ≤ 4096 &&
  field d 0x1C 4 < 16 && dData d ≤ 4096 && zeros d 0x46 186 &&
  tableIn d (dOff d 0x30) (2 * dPkgs d) && tableIn d (dOff d 0x34) (16 * dStages d) &&
  tableIn d (dOff d 0x38) (8 * dQueues d) && tableIn d (dOff d 0x3C) (64 * dImages d) &&
  tableIn d (dOff d 0x40) (16 * dData d)

def pkgList (d : List Byte) : List Nat := (table d (dOff d 0x30) 2 (dPkgs d)).map fun e => ofBytes e
def stageTable (d : List Byte) : List (List Byte) := table d (dOff d 0x34) 16 (dStages d)
def queueTable (d : List Byte) : List (List Byte) := table d (dOff d 0x38) 8 (dQueues d)
def imageTable (d : List Byte) : List (List Byte) := table d (dOff d 0x3C) 64 (dImages d)
def dataTable (d : List Byte) : List (List Byte) := table d (dOff d 0x40) 16 (dData d)

/-- Ascending without repeats. -/
def rising : List Nat → Bool
  | a :: b :: r => a < b && rising (b :: r)
  | _ => true

def pkgsOk (d : List Byte) (own : BitVec 12) : Bool :=
  rising (pkgList d) && (pkgList d).all (fun p => p < 4096) && (pkgList d).contains own.toNat

def stageOk (d e : List Byte) : Bool :=
  field e 0 1 < dImages d && field e 1 1 < 4 && 1 ≤ field e 2 2 && field e 2 2 ≤ field e 4 2 && field e 4 2 ≤ 256 && zeros e 6 10

def endOk (d : List Byte) (k : Nat) : Bool := k < dStages d || k == 0xFF

def queueOk (d e : List Byte) : Bool :=
  endOk d (field e 0 1) && endOk d (field e 1 1) && !(field e 0 1 == 0xFF && field e 1 1 == 0xFF) && zeros e 2 2 &&
  1 ≤ field e 4 4 && field e 4 4 ≤ 65536

def stageOf (e : List Byte) : StageInfo :=
  { image := field e 0 1, fused := field e 1 1 % 2 == 1, pinned := field e 1 1 / 2 % 2 == 1, least := field e 2 2,
    most := field e 4 2, started := 0, retired := false }

def queueEnd (k : Nat) : Option Nat := if k = 0xFF then none else some k

def queueFrom (e : List Byte) : Queue :=
  { sender := queueEnd (field e 0 1), receiver := queueEnd (field e 1 1), depth := field e 4 4, entries := [],
    holding := [], closed := false, unmapped := false, wake := 0, signal := false }

/-! Slots (R152, R153). -/

def SlotEntry.ofBits (b : BitVec 256) : SlotEntry :=
  { gen := b.extractLsb' 192 16, key := b.extractLsb' 176 6, world := b.extractLsb' 166 10, pkg := b.extractLsb' 154 12,
    mov := b.getLsbD 150, rem := b.getLsbD 149, eng := b.getLsbD 148, at_ := b.getLsbD 147, w := b.getLsbD 146,
    r := b.getLsbD 145, v := b.getLsbD 144, limit := b.extractLsb' 64 48, base := b.extractLsb' 0 48 }

/-- Reserved bits and gen are zero. -/
def slotBitsOk (b : BitVec 256) : Bool :=
  b.extractLsb' 208 48 == 0 && b.extractLsb' 192 16 == 0 && b.extractLsb' 182 10 == 0 && b.extractLsb' 151 3 == 0 &&
  b.extractLsb' 112 32 == 0 && b.extractLsb' 48 16 == 0

/-- The region lies in one die's DRAM below firmware's part. -/
def SlotEntry.placed (e : SlotEntry) : Bool :=
  let a := e.base.toNat
  a < 4 * Config.dieBytes && a % Config.dieBytes + e.limit.toNat ≤ Config.dieUser

def slotOk (own : BitVec 12) (e : SlotEntry) : Bool :=
  !e.v || (e.placed &&
    (!e.mov || (e.base.toNat % Config.extentBytes == 0 && e.limit.toNat % Config.extentBytes == 0)) &&
    !(e.rem && e.pkg == own) && (e.rem || e.key != 0))

/-- Two entries cover an extent. -/
def SlotEntry.meets (a b : SlotEntry) : Bool :=
  a.v && b.v && !a.rem && !b.rem && a.limit != 0 && b.limit != 0 &&
    overlaps (a.base.toNat / Config.extentBytes)
      ((a.base.toNat + (a.limit.toNat - 1)) / Config.extentBytes + 1 - a.base.toNat / Config.extentBytes)
      (b.base.toNat / Config.extentBytes)
      ((b.base.toNat + (b.limit.toNat - 1)) / Config.extentBytes + 1 - b.base.toNat / Config.extentBytes)

def imageSlots (d e : List Byte) : List (BitVec 256) :=
  (table d (field e 0x10 4) 32 255).map fun s => BitVec.ofNat 256 (ofBytes s)

def imageFrom (d e : List Byte) : Image :=
  let slots := ((imageSlots d e).mapIdx fun k b => (k + 1, SlotEntry.ofBits b)).filter fun s => s.2.v
  let code := field e 0x14 1
  let base := ((slots.find? fun s => s.1 == code).map fun s => s.2.base.toNat).getD 0
  { entry := BitVec.ofNat 64 (base + field e 0x0C 4), codeSlot := code, codeLen := field e 0x08 4, slots := slots }

def Image.slotAt (i : Image) (k : Nat) : SlotEntry := ((i.slots.find? fun s => s.1 == k).map fun s => s.2).getD .empty

/-- The table of an image and its code slot (R312), but for the code itself. -/
def imageOk (d e : List Byte) (own : BitVec 12) : Bool :=
  let i := imageFrom d e
  let c := i.slotAt i.codeSlot
  field e 0 8 % 64 == 0 && i.codeLen % 64 == 0 && 64 ≤ i.codeLen && i.codeLen ≤ 16777216 &&
  field e 0x0C 4 < i.codeLen && tableIn d (field e 0x10 4) 8160 && i.codeSlot != 0 && zeros e 0x15 3 && zeros e 0x38 8 &&
  (imageSlots d e).all slotBitsOk && (i.slots.all fun s => slotOk own s.2) &&
  c.v && !c.rem && !c.mov && i.codeLen ≤ c.limit.toNat

/-- The bytes of an image's code. -/
def State.codeOf (s : State) (e : List Byte) : List Byte := s.host.bytes (field e 0 8) (field e 0x08 4)

/-- The entry names a head of a well-formed line of the code. -/
def State.entryOk (s : State) (d e : List Byte) : Bool :=
  let i := imageFrom d e
  let base := (i.slotAt i.codeSlot).base.toNat
  let m : Mem := s.mem.setMany (place base (s.codeOf e))
  (lineFault (toHalves (m.bytes (lineBase i.entry).toNat 64)) i.entry).isNone

/-- A data section; one whose slot is invalid or remote here is not judged (R99). -/
def dataOk (d e : List Byte) (images : List Image) : Bool :=
  field e 0 1 < dImages d && field e 1 1 != 0 && zeros e 2 2 &&
    match images[field e 0 1]? with
    | some i => let t := i.slotAt (field e 1 1); !t.v || t.rem || field e 4 4 ≤ t.limit.toNat
    | none => false

/-! Rules over the whole launch. -/

/-- Launches whose admission counts on the package: running, or admitted here and waiting (R36, R153). -/
def State.admittedHere (s : State) : List Launch := s.launches.filter fun l => match l.state with
  | .running | .waiting .. => true
  | _ => false

/-- Valid local entries of some images. -/
def localSlots (images : List Image) : List SlotEntry :=
  (images.flatMap fun i => i.slots.map fun s => s.2).filter fun e => e.v && !e.rem

/-- R153's conflicts of the launch with itself, with pinned extents and with admitted launches. -/
def State.noConflict (s : State) (images : List Image) : Bool :=
  let mine := localSlots images
  let code := images.map fun i => i.slotAt i.codeSlot
  let theirs := localSlots (s.admittedHere.flatMap fun l => l.images)
  mine.all fun e =>
    (mine.all fun f => !e.meets f || e.key == f.key) &&
    (theirs.all fun f => !e.meets f || (e.key == f.key && e.world == f.world)) &&
    (!e.mov || (!(code.any fun c => e.meets c) && e.extents.all fun k => !(s.extentAt k).pin))

/-- R36. -/
def State.minimumsFit (s : State) (stages : List StageInfo) : Bool :=
  ((s.admittedHere.flatMap fun l => l.stages).map fun t => t.least).sum + (stages.map fun t => t.least).sum ≤ 256

/-- R315: every feature used is accepted. -/
def State.featuresOk (s : State) (d : List Byte) (stages : List StageInfo) : Bool :=
  (List.range 4).all fun k => s.feats.getLsbD k || !((BitVec.ofNat 32 (field d 0x1C 4)).getLsbD k ||
    (k == 1 && stages.any fun t => t.fused))

/-- The status of a descriptor: 0 when it is admitted here (R310 to R313). -/
def State.judgeLaunch (s : State) (d : List Byte) : BitVec 32 :=
  let stages := (stageTable d).map stageOf
  let images := (imageTable d).map (imageFrom d)
  if !(headerOk d && pkgsOk d s.pkg && (stageTable d).all (stageOk d) && (queueTable d).all (queueOk d) &&
      (imageTable d).all (fun e => imageOk d e s.pkg) && ((dataTable d).all fun e => dataOk d e images) &&
      s.noConflict images && s.minimumsFit stages && s.featuresOk d stages) then 3
  else if (imageTable d).any fun e => sha256 (s.codeOf e) != (e.drop 0x18).take 32 then 2
  else if (imageTable d).any fun e => !s.entryOk d e then 3
  else 0

/-- What the loader copies: each image's code, then each data section whose slot is valid and local here, in table order (R99, R312,
log 54). -/
def State.loadsOf (s : State) (d : List Byte) : List (Nat × List Byte) :=
  let images := (imageTable d).map (imageFrom d)
  ((imageTable d).map fun e => let i := imageFrom d e; ((i.slotAt i.codeSlot).base.toNat, s.codeOf e)) ++
  (dataTable d).filterMap fun e =>
    match images[field e 0 1]? with
    | some i =>
      let t := i.slotAt (field e 1 1)
      if t.v && !t.rem then some (t.base.toNat, s.host.bytes (field e 8 8) (field e 4 4)) else none
    | none => none

/-- The launch of a descriptor, admitted on this package only (R313). -/
def State.launchFrom (s : State) (d : List Byte) (seq : Word) : Launch :=
  { id := s.nextLaunch, tag := BitVec.ofNat 64 (field d 8 8), world := BitVec.ofNat 10 (field d 0x18 2), prio := field d 7 1,
    t1 := if field d 0x20 8 = 0 then 200000 else field d 0x20 8,
    t2 := if field d 0x28 8 = 0 then 2000000 else field d 0x28 8,
    comp := BitVec.ofNat 64 (field d 0x10 8), pkgs := (pkgList d).map (BitVec.ofNat 12), admitted := [s.pkg],
    uses := BitVec.ofNat 32 (field d 0x1C 4), loads := s.loadsOf d, stages := (stageTable d).map stageOf,
    images := (imageTable d).map (imageFrom d), queues := (queueTable d).map queueFrom, copied := [], elsewhere := [],
    blocked := false, halted := false, grow := 1 / 2, weight := 1, deficit := 0, state := .waiting seq s.time, colour := false,
    busy := false, last := 0, everywhere := 0, harvests := [], sent := [], received := [], migration := none }

/-! Admission. -/

/-- The world and key of a slot's extents (R153), and the pin of a code region (R312). -/
def State.ownExtents (s : State) (e : SlotEntry) (pin : Bool) : State :=
  e.extents.foldl (fun (s : State) k =>
    let x := s.extentAt k
    s.markExtent { x with world := e.world, key := e.key, pin := x.pin || pin }) s

/-- The loader writes bytes (R99), and no entry fetches what stood there before. -/
def State.load (s : State) (a : Nat) (bytes : List Byte) : State :=
  let n := bytes.length
  let s1 := (List.range (lineCount a n)).foldl (fun (s : State) j =>
    let p := linePart a n j
    s.loadLineBytes (a + p.1) ((bytes.drop p.1).take p.2)) s
  { s1 with code := s1.code.filter fun l => !overlaps l.base 64 a n }

/-- The package tells the others of a launch whether it admits it (R313). -/
def State.announce (s : State) (l : Launch) (admits : Bool) : State :=
  if l.pkgs.all fun p => p == s.pkg then s
  else { s with announced := s.announced ++ [(l.tag, admits)] }

/-- An answer to a command entry (R309). -/
def State.answer (s : State) (seq : Word) (status : BitVec 32) (launch count : Nat) : State :=
  s.post { seq := seq, status := status, kind := 0, launch := BitVec.ofNat 32 launch, count := BitVec.ofNat 32 count,
           value := 0 }

/-- Announcements under a tag are done with. -/
def State.unhear (s : State) (tag : Word) : State := { s with heard := s.heard.filter fun h => h.tag != tag }

/-- A launch admitted on every package starts here (R36, R99, R153, R312, R313, R315, R423). -/
def State.begin (s : State) (l : Launch) (seq : Word) : State :=
  let s1 := (localSlots l.images).foldl (fun (s : State) e => s.ownExtents e false) s
  let s2 := l.images.foldl (fun (s : State) i => s.ownExtents (i.slotAt i.codeSlot) true) s1
  let s3 := l.loads.foldl (fun (s : State) x => s.load x.1 x.2) s2
  let s4 : State := { s3 with
    admittedOnce := true }
  let s4 := if l.uses.getLsbD 0 then s4.setIntegrity l.world true else s4
  let l1 : Launch := { l with state := .running, loads := [], admitted := l.pkgs, copied := s.pkg :: l.copied }
  (((s4.setLaunch l1).unhear l.tag).answer seq 0 l.id 0).freeForMinimums

/-- A launch is rejected everywhere (R313). -/
def State.reject (s : State) (l : Launch) (seq : Word) : State :=
  (({ s with launches := s.launches.filter fun x => x.id != l.id } : State).unhear l.tag).answer seq 3 0 0

/-- What the package has heard decides a waiting launch; an admission after the deadline rejects it (R313). -/
def State.decide (s : State) (l : Launch) : State :=
  match l.state with
  | .waiting seq first =>
    let h := s.heard.filter fun h => h.tag == l.tag && l.pkgs.contains h.pkg
    if h.any fun x => !x.admits then s.reject l seq
    else if first.toNat + Config.admissionTicks ≤ s.time.toNat then (s.announce l false).reject l seq
    else if l.pkgs.all fun p => l.admitted.contains p || h.any fun x => x.pkg == p then s.begin l seq
    else s
  | _ => s

end Sys2Proof.Machine
end

