-- ==== Sys2Proof/Machine/HostPort.lean ====
section
/-! DEFINITION. The host port: ring registers and doorbells (R306, R307), the judgement of command entries (R304, R308), and the
operations of R310 (R215, R228, R313 to R315, R319, R422). -/

namespace Sys2Proof.Machine

/-! Judging command entries. -/

/-- The operation of an accepted entry; rows 1 and 2 of R422 make it an unknown command. Its op alone says how long its payload is
(log 63). -/
def parseCommand (b : List Byte) : Instr :=
  let seq : Word := BitVec.ofNat 64 (field b 0 8)
  let p := (b.drop 16).take 96
  let word (o : Nat) : Nat := field p o 4
  let used (n : Nat) : Bool := zeros p n 96
  if field b 0x0C 4 ≠ 0 ∨ 96 < field b 0x0A 2 then .unknownCommand seq
  else
    match field b 8 2 with
    | 0x0001 => if used 48 then .launch seq (BitVec.ofNat 64 (field p 0 8)) (BitVec.ofNat 64 (field p 8 8))
        (digest ((p.drop 16).take 32)) else .unknownCommand seq
    | 0x0002 => if used 4 then .endLaunch seq (word 0) else .unknownCommand seq
    | 0x0003 => if used 6 then .resumeHart seq (word 0) (field p 4 2) else .unknownCommand seq
    | 0x0004 => if used 4 then .preEmpt seq (word 0) else .unknownCommand seq
    | 0x0005 => if used 32 then .acceptFeatures seq (digest (p.take 32)) else .unknownCommand seq
    | 0x0006 => if used 5 then .closeHostFedQueue seq (word 0) (field p 4 1) else .unknownCommand seq
    | 0x0007 => if used 4 then .setPowerCap seq (word 0) else .unknownCommand seq
    | 0x0008 => if used 72 && zeros p 5 3 then .queueSend seq (word 0) (field p 4 1) ((p.drop 8).take 64)
        else .unknownCommand seq
    | 0x0009 => if used 20 && zeros p 5 3 then
        .queueTake seq (word 0) (field p 4 1) (BitVec.ofNat 64 (field p 8 8)) (word 16) else .unknownCommand seq
    | _ => .unknownCommand seq

/-- The alarm bit, its vector and its post (R304, R307, R309). -/
def State.raiseAlarm (s : State) (status : BitVec 32) (seq : Nat) : State :=
  let s1 : State := { s with port := { s.port with alarm := true, msix := s.port.msix ++ [1] } }
  s1.post { seq := 0, status := status, kind := 6, launch := 0, count := 0, value := BitVec.ofNat 64 seq }

/-- Judge one entry of 128 bytes (R304). -/
def State.judgeEntry (s : State) (b : List Byte) : State :=
  match s.session with
  | none => s
  | some (key, e) =>
    let seq := field b 0 8
    let shut (f : HostPort → HostPort) : State := { s with port := f { s.port with opened := false } }
    if !s.port.opened then s
    else if (hmac key (b.take 112)).take 16 ≠ (b.drop 112).take 16 then s.raiseAlarm 0x10 seq
    else if seq < e.toNat then s.raiseAlarm 0x11 seq
    else if e.toNat < seq then (shut fun p => { p with faulted := true }).raiseAlarm 0x12 seq
    else if seq = 0xFFFFFFFFFFFFFFFF then (shut fun p => { p with wrapped := true }).raiseAlarm 0x13 seq
    else { s with session := some (key, e + 1), accepted := s.accepted ++ [parseCommand b] }

/-- Read up to n entries, in order (R307). -/
def State.readRing (s : State) : Nat → State
  | 0 => s
  | n + 1 =>
    let p := s.port
    let k := 2 ^ p.csize.toNat
    let head := p.chead.toNat % k
    if !p.en || head == p.ctail.toNat % k || s.boot.stage != .running then s
    else
      let b := s.host.bytes (p.cbase.toNat + 128 * head) 128
      let next : BitVec 32 := BitVec.ofNat 32 ((head + 1) % k)
      (({ s with port := { p with chead := next } } : State).judgeEntry b).readRing n

def State.readAll (s : State) : State := s.readRing (2 ^ s.port.csize.toNat)

/-! Registers (R306, R307). -/

/-- The host writes ctail. -/
def State.writeCtail (s : State) (v : BitVec 32) : State := ({ s with port := { s.port with ctail := v } } : State).readAll

/-- The host writes shead. -/
def State.writeShead (s : State) (v : BitVec 32) : State :=
  ({ s with port := { s.port with shead := v } } : State).flushPosts s.posts.length

/-- R307. -/
def execCtailDoorbell (v : BitVec 32) (s : State) : Res := .next (s.writeCtail v)

/-- R307. -/
def execSheadDoorbell (v : BitVec 32) (s : State) : Res := .next (s.writeShead v)

/-- The rings may be enabled. -/
def HostPort.ready (p : HostPort) : Bool :=
  6 ≤ p.csize.toNat && p.csize.toNat ≤ 16 && 6 ≤ p.ssize.toNat && p.ssize.toNat ≤ 16 &&
    p.cbase.toNat % 4096 == 0 && p.sbase.toNat % 4096 == 0

/-- The host writes ctl. -/
def State.writeCtl (s : State) (v : BitVec 32) : State :=
  let p := s.port
  if v.getLsbD 0 then
    if p.en ∨ !p.ready then s
    else (({ s with port := { p with en := true } } : State).flushPosts s.posts.length).readAll
  else { s with port := { p with en := false } }

/-- R306, R307. -/
def execCtlWrite (v : BitVec 32) (s : State) : Res := .next (s.writeCtl v)

/-- R306, R307: cbase, csize, sbase and ssize while en is 0, and the alarm bit of rstat; ctail, shead and ctl as by their own
operations; other offsets ignore writes. -/
def execRegisterWrite (off : Nat) (v : BitVec 64) (s : State) : Res :=
  let p := s.port
  let v32 : BitVec 32 := v.extractLsb' 0 32
  let idle (q : HostPort) : State := if p.en then s else { s with port := q }
  match off with
  | 0x00 => .next (idle { p with cbase := v })
  | 0x08 => .next (idle { p with csize := v32 })
  | 0x10 => .next (s.writeCtail v32)
  | 0x20 => .next (idle { p with sbase := v })
  | 0x28 => .next (idle { p with ssize := v32 })
  | 0x34 => .next (s.writeShead v32)
  | 0x60 => .next (s.writeCtl v32)
  | 0x64 => .next { s with port := { p with alarm := p.alarm && !v.getLsbD 3 } }
  | _ => .next s

/-- R304, R308: E is 1 again and the ring is open. -/
def execSessionRekey (key : List Byte) (s : State) : Res :=
  .next { s with session := some (key, 1), port := { s.port with opened := true, faulted := false, wrapped := false } }

/-- rstat: open, faulted closed, closed at sequence wrap, alarm (R306). -/
def HostPort.rstat (p : HostPort) : BitVec 32 :=
  0#28 ++ BitVec.ofBool p.alarm ++ BitVec.ofBool p.wrapped ++ BitVec.ofBool p.faulted ++ BitVec.ofBool p.opened

/-- The registers that the host reads: offset, bytes, value (R306). chead and stail read as they stand when a ring size has been made
smaller since (log 63). -/
def HostPort.registers (p : HostPort) : List (Nat × Nat × Nat) :=
  [(0x00, 8, p.cbase.toNat), (0x08, 4, p.csize.toNat), (0x10, 4, p.ctail.toNat), (0x14, 4, p.chead.toNat),
   (0x20, 8, p.sbase.toNat), (0x28, 4, p.ssize.toNat), (0x30, 4, p.stail.toNat), (0x34, 4, p.shead.toNat),
   (0x40, 32, p.offer.toNat), (0x60, 4, if p.en then 1 else 0), (0x64, 4, p.rstat.toNat)]

/-- The byte that the host reads at an offset; offsets not listed read zero (R306). -/
def HostPort.byteAt (p : HostPort) (off : Nat) : Byte :=
  match p.registers.find? fun r => r.1 ≤ off && off < r.1 + r.2.1 with
  | some r => BitVec.ofNat 8 (r.2.2 / 2 ^ (8 * (off - r.1)))
  | none => 0

/-! Operations. -/

/-- A launch that runs on this package (R422 row 3): not one that still waits for admission, or has moved away (log 63). -/
def State.runningLaunch (s : State) (id : Nat) : Option Launch :=
  match s.launchAt id with
  | some l => if l.state = .running then some l else none
  | none => none

/-- R310 to R313, R315. -/
def execLaunch (seq addr len : Word) (sha : BitVec 256) (s : State) : Res :=
  if len.toNat < 256 ∨ 16777216 < len.toNat then .next (s.answer seq 3 0 0)
  else
    let d := s.host.bytes addr.toNat len.toNat
    if digest (sha256 d) ≠ sha then .next (s.answer seq 2 0 0)
    else
      let status := s.judgeLaunch d
      let l0 := s.launchFrom d seq
      if status ≠ 0 then .next (((s.announce l0 false).unhear l0.tag).answer seq status 0 0)
      else
        let l := s.launchFrom d seq
        let early := (s.heard.filter fun h => h.tag == l.tag && l.pkgs.contains h.pkg).map fun h => h.time
        let first := early.foldl (fun (a : Word) b => if b.toNat < a.toNat then b else a) s.time
        let l1 : Launch := { l with state := .waiting seq first }
        let s1 : State := { s with nextLaunch := s.nextLaunch + 1, launches := s.launches ++ [l1] }
        .next ((s1.announce l1 true).decide l1)

/-- R313: an admission of another listed package. -/
def execAdmissionMessage (pkg : BitVec 12) (tag : Word) (admits : Bool) (s : State) : Res :=
  let h : Heard := { pkg := pkg, tag := tag, admits := admits, time := s.time }
  let s1 : State := { s with heard := (s.heard.filter fun x => !(x.pkg == pkg && x.tag == tag)) ++ [h] }
  .next (match s1.launches.find? fun l => l.tag == tag && (match l.state with
      | .waiting .. => true
      | _ => false) with
    | some l => s1.decide l
    | none => s1)

/-- R313: 1,000,000,000 ticks after the first admission the launch is rejected. -/
def execAdmissionTimeout (tag : Word) (s : State) : Res :=
  match s.launches.find? fun l => l.tag == tag && (match l.state with
      | .waiting .. => true
      | _ => false) with
  | some l =>
    match l.state with
    | .waiting seq first =>
      .next (if first.toNat + Config.admissionTicks ≤ s.time.toNat then (s.announce l false).reject l seq else s)
    | _ => .next s
  | none => .next s

/-- R310, R314, R422. -/
def execEndLaunch (seq : Word) (launch : Nat) (s : State) : Res :=
  match s.runningLaunch launch with
  | some l => .next ((s.endLaunch l 8).answer seq 0 launch 0)
  | none => .next (s.answer seq 4 0 0)

/-- The hart of core n that a trap parked comes back from its save (R228, R237): with its registers, intrap and the outer trap's
record, the posts that it left on the core, as none of the participants of a JOIN that is open, and with a rollback's notice first
(R227). -/
def State.comeFromPark (s : State) (n : Nat) (v : Save) : State :=
  let posts := (s.coreAt n).posts
  let s1 : State := ({ s with saves := s.saves.filter fun x => x != v } : State).placeHart n v
  let s1 := s1.reissueOwed n v
  let s2 := s1.updCore n fun c => { c with run := .running, inner := none, doubleTrap := false, posts := posts }
  let q := s2.quadAt (n / 4)
  (s2.setQuad { q with joins := q.joins.map fun j => { j with late := j.late ||| bitAt (n % 4) } }).takeNotice n

/-- R228, R422. The core is the one that holds the parked hart now; while its flight is saved there is none (log 63). -/
def execResumeHart (seq : Word) (launch core : Nat) (s : State) : Res :=
  if 1023 < core then .next (s.answer seq 1 0 0)
  else match s.runningLaunch launch with
    | none => .next (s.answer seq 4 0 0)
    | some _ =>
      let c := s.coreAt core
      match s.saves.find? fun v => v.core.hartId == c.hartId && v.core.run == .parked with
      | some v =>
        if c.belongs launch ∧ c.run = .parked then .next ((s.comeFromPark core v).answer seq 0 launch 0)
        else .next (s.answer seq 4 launch 0)
      | none => .next (s.answer seq 4 launch 0)

/-- R310, R425. -/
def execPreEmpt (seq : Word) (launch : Nat) (s : State) : Res :=
  match s.runningLaunch launch with
  | some _ => .next ((s.preempt launch (s.onQuads launch)).answer seq 0 launch 0)
  | none => .next (s.answer seq 4 0 0)

/-- R315. -/
def execAcceptFeatures (seq : Word) (bits : BitVec 256) (s : State) : Res :=
  if !s.admittedOnce ∧ bits &&& ~~~s.port.offer = 0 then .next (({ s with feats := bits } : State).answer seq 0 0 0)
  else .next (s.answer seq 6 0 0)

/-- R310, R422. -/
def execCloseHostFedQueue (seq : Word) (launch queue : Nat) (s : State) : Res :=
  match s.runningLaunch launch with
  | none => .next (s.answer seq 4 0 0)
  | some l =>
    match l.queues[queue]? with
    | none => .next (s.answer seq 4 launch 0)
    | some q =>
      if q.sender.isSome then .next (s.answer seq 4 launch 0)
      else .next ((s.setLaunch { l with queues := l.queues.set queue { q with closed := true } }).answer seq 0 launch 0)

/-- R319. -/
def execSetPowerCap (seq : Word) (watts : Nat) (s : State) : Res :=
  if 1200 ≤ watts ∧ watts ≤ 2600 then .next (({ s with powerCap := watts } : State).answer seq 0 0 0)
  else .next (s.answer seq 6 0 0)

/-- R215: a host entry carries clock 0. -/
def execQueueSend (seq : Word) (launch queue : Nat) (entry : List Byte) (s : State) : Res :=
  match s.runningLaunch launch with
  | none => .next (s.answer seq 4 0 0)
  | some l =>
    match l.queues[queue]? with
    | none => .next (s.answer seq 4 launch 0)
    | some q =>
      if q.sender.isSome ∨ q.closed then .next (s.answer seq 4 launch 0)
      else if q.full then .next (s.answer seq 5 launch 0)
      else
        let e : QueueEntry := { data := (entry ++ List.replicate 64 0).take 64, clock := 0 }
        .next ((s.setLaunch { l with queues := l.queues.set queue (q.put e) }).answer seq 0 launch 0)

/-- R215, R422: the entries are written to host memory, then the answer is posted. -/
def execQueueTake (seq : Word) (launch queue : Nat) (addr : Word) (most : Nat) (s : State) : Res :=
  if most = 0 ∨ 65536 < most ∨ addr.toNat % 64 ≠ 0 then .next (s.answer seq 1 0 0)
  else match s.runningLaunch launch with
    | none => .next (s.answer seq 4 0 0)
    | some l =>
      match l.queues[queue]? with
      | none => .next (s.answer seq 4 launch 0)
      | some q =>
        if q.receiver.isSome then .next (s.answer seq 4 launch 0)
        else
          let out := q.entries.take most
          let s1 := s.setLaunch { l with queues := l.queues.set queue { q with entries := q.entries.drop most } }
          let s2 : State := { s1 with host := s1.host.setMany (place addr.toNat (out.flatMap fun e => e.data)) }
          .next (s2.answer seq 0 launch out.length)

/-- R310, R422. -/
def execUnknownCommand (seq : Word) (s : State) : Res := .next (s.answer seq 1 0 0)

end Sys2Proof.Machine
end

