-- ==== Sys2Proof/Machine/Hss.lean ====
section
/-! DEFINITION. The two-level HSS signatures of R316 and R317: their verification, and the device key's, with LMS_SHA256_M32_H15 and LMOTS_SHA256_N32_W4. The spec names
the parameters and gives no algorithm; RFC 8554 does (PRESUMED, log 13). -/

namespace Sys2Proof.Machine

/-! The one-time signature: 67 digits of 4 bits, each the place in a hash chain of 15 steps. -/

/-- The digits of bytes, the high one of each first. -/
def hexDigits (l : List Byte) : List Nat := l.flatMap fun b => [b.toNat / 16, b.toNat % 16]

/-- The digits that are signed: those of the digest, then those of their checksum. -/
def otsDigits (q : List Byte) : List Nat :=
  let d := hexDigits q
  d ++ (hexDigits (beBytes 2 (16 * (d.map fun a => 15 - a).sum))).take 3

/-- What every hash of tree `id` begins with: the tree, a leaf or node number, a kind. -/
def lmsPrefix (id : List Byte) (n kind : Nat) : List Byte := id ++ beBytes 4 n ++ beBytes 2 kind

/-- Chain i of a leaf, n steps from the end, goes on to its end. -/
def otsChain (id : List Byte) (leaf i : Nat) : Nat → List Byte → List Byte
  | 0, v => v
  | n + 1, v => otsChain id leaf i n (sha256 (lmsPrefix id leaf i ++ beBytes 1 (14 - n) ++ v))

/-- The one-time public key that a signature of a message leads to. -/
def otsKey (s : LmsSignature) (id msg : List Byte) : List Byte :=
  let q := sha256 (lmsPrefix id s.leaf 0x8181 ++ s.rand ++ msg)
  let ends := (otsDigits q).mapIdx fun i a => otsChain id s.leaf i (15 - a) (s.vals.getD i [])
  sha256 (lmsPrefix id s.leaf 0x8080 ++ ends.flatten)

/-! The tree: 15 levels of nodes above the leaves. -/

/-- The node above node n, of which one child and its sibling are given. -/
def lmsParent (id : List Byte) (n : Nat) (v sibling : List Byte) : List Byte :=
  sha256 (lmsPrefix id (n / 2) 0x8383 ++ if n % 2 = 1 then sibling ++ v else v ++ sibling)

/-- Up from node n along a path. -/
def lmsClimb (id : List Byte) : Nat → List Byte → List (List Byte) → List Byte
  | _, v, [] => v
  | n, v, p :: r => lmsClimb id (n / 2) (lmsParent id n v p) r

/-- The root that a signature of a message leads to. -/
def lmsRoot (s : LmsSignature) (id msg : List Byte) : List Byte :=
  let leaf := 2 ^ 15 + s.leaf
  lmsClimb id leaf (sha256 (lmsPrefix id leaf 0x8282 ++ otsKey s id msg)) s.path

/-- The signature has the sizes of its parameters. -/
def lmsSized (s : LmsSignature) : Bool :=
  s.leaf < 2 ^ 15 && s.rand.length == 32 && s.vals.length == 67 && s.path.length == 15 &&
    (s.vals ++ s.path).all fun v => v.length == 32

/-- One level verifies. -/
def lmsAccepts (k : LmsKey) (s : LmsSignature) (msg : List Byte) : Bool :=
  k.id.length == 16 && lmsSized s && lmsRoot s k.id msg == k.root

/-- A public key as its level above signs it: the types of tree and one-time signature, the tree, its root. -/
def lmsKeyBytes (k : LmsKey) : List Byte := beBytes 4 7 ++ beBytes 4 3 ++ k.id ++ k.root

/-- The two-level public key, in the form that the fuses hash (log 13). -/
def hssKeyBytes (k : LmsKey) : List Byte := beBytes 4 2 ++ lmsKeyBytes k

/-- R316: the upper tree accepts the lower one's key, which accepts the message. -/
def hssVerifies (s : HssSignature) (root : LmsKey) (msg : List Byte) : Bool :=
  lmsAccepts root s.upper (lmsKeyBytes s.key) && lmsAccepts s.key s.lower msg

/-! The device key (R317). Tree 0 is the upper one, and tree k + 1 stands under its leaf k. -/

def treeId (tree : Nat) : List Byte := beBytes 16 (Config.deviceTree tree).toNat

/-- Where a chain of a leaf begins. -/
def chainStart (tree leaf i : Nat) : List Byte := beBytes 32 (Config.deviceSecret tree leaf i).toNat

/-- A chain of a leaf after n steps. -/
def chainAt (tree leaf i : Nat) : Nat → List Byte
  | 0 => chainStart tree leaf i
  | n + 1 => sha256 (lmsPrefix (treeId tree) leaf i ++ beBytes 1 n ++ chainAt tree leaf i n)

/-- A leaf's one-time public key: the ends of its chains. -/
def leafKey (tree leaf : Nat) : List Byte :=
  sha256 (lmsPrefix (treeId tree) leaf 0x8080 ++ ((List.range 67).map fun i => chainAt tree leaf i 15).flatten)

/-- Node n of a tree, at a height above the leaves. -/
def treeNode (tree : Nat) : Nat → Nat → List Byte
  | 0, n => sha256 (lmsPrefix (treeId tree) n 0x8282 ++ leafKey tree (n - 2 ^ 15))
  | h + 1, n => lmsParent (treeId tree) (2 * n) (treeNode tree h (2 * n)) (treeNode tree h (2 * n + 1))

/-- The public key of a tree. -/
@[irreducible] def treeKey (tree : Nat) : LmsKey := { id := treeId tree, root := treeNode tree 15 1 }

/-- The public half of the device key. -/
def deviceKey : LmsKey := treeKey 0

/-- The node beside node n. -/
def sibling (n : Nat) : Nat := if n % 2 = 1 then n - 1 else n + 1

/-- The siblings on the way up from node n, at height h, over k levels. -/
def pathFrom (tree : Nat) : Nat → Nat → Nat → List (List Byte)
  | 0, _, _ => []
  | k + 1, h, n => treeNode tree h (sibling n) :: pathFrom tree k (h + 1) (n / 2)

/-- The signature of a message with a leaf of a tree. -/
@[irreducible] def lmsSign (tree leaf : Nat) (rand msg : List Byte) : LmsSignature :=
  let q := sha256 (lmsPrefix (treeId tree) leaf 0x8181 ++ rand ++ msg)
  { leaf := leaf, rand := rand, vals := (otsDigits q).mapIdx fun i a => chainAt tree leaf i a,
    path := pathFrom tree 15 0 (2 ^ 15 + leaf) }

/-- The device's signature of a message (R317). -/
def deviceSign (n : Nat) (msg : List Byte) : HssSignature :=
  let up := (Config.signingLeaf n).1 % 2 ^ 15
  let low := (Config.signingLeaf n).2 % 2 ^ 15
  let salt := Config.signingSalt n
  { upper := lmsSign 0 up (beBytes 32 salt.1.toNat) (lmsKeyBytes (treeKey (up + 1))), key := treeKey (up + 1),
    lower := lmsSign (up + 1) low (beBytes 32 salt.2.toNat) msg }

end Sys2Proof.Machine
end

