-- ==== Sys2Proof/Machine/Boot.lean ====
section
/-! DEFINITION. Boot, attestation, clocks, temperature, configuration requests and soft errors (R61, R305, R316 to
R320). -/

namespace Sys2Proof.Machine

/-! Boot (R316, R317). -/

/-- Step 2 of R316: the image's root key is the one whose hash the fuses hold, and its signature verifies. -/
def imageVerified (i : BootImage) (root : BitVec 256) : Bool :=
  digest (sha256 (hssKeyBytes i.key)) == root && hssVerifies i.signature i.key i.bytes

/-- Steps 2 to 4 of R316 for the image that step 1 fetched, if it fetched one: the measurement when they pass. -/
def bootTry (b : Boot) (t : Option BootImage) : Option (BitVec 256) :=
  match t with
  | some i =>
    if imageVerified i b.root ∧ b.fused ≤ i.version then
      some (digest (sha256 (List.replicate 32 0 ++ sha256 i.bytes)))
    else none
  | none => none

/-- The first try that passes, of the first one and its three repeats. -/
def bootTries (b : Boot) (tries : List (Option BootImage)) : Option (BitVec 256) :=
  (tries.take 4).findSome? fun t => bootTry b t

/-- R315 to R317: everything but the package's number, its fuses and the host's memory is as at reset; firmware that starts
offers its features, certifies the device key, and has trained the links. After four failed tries the package stays in recovery;
before the fourth the dies stay held (log 59). -/
def execPackageReset (tries : List (Option BootImage)) (s : State) : Res :=
  let r : State := { State.reset with pkg := s.pkg, host := s.host, free := s.free }
  match bootTries s.boot tries with
  | some m =>
    .next { r with boot := { s.boot with stage := .running, measure := m, certified := some deviceKey },
                   port := { r.port with offer := 0xF },
                   links := (List.range 16).map Link.reset }
  | none =>
    .next { r with boot := { s.boot with stage := if tries.length < 4 then .held else .recovery, measure := 0, certified := none } }

/-- The bytes that an attestation report is signed over (R317). -/
def Report.bytes (r : Report) : List Byte :=
  toBytes 32 r.measure.toNat ++ toBytes 32 r.offer.toNat ++ toBytes 8 r.version ++ toBytes 32 r.nonce.toNat

/-- R317: a report signed with the device key. -/
def execAttestationReport (nonce : BitVec 256) (s : State) : Res :=
  if s.boot.stage = .running then
    let r : Report := { measure := s.boot.measure, offer := s.port.offer, version := s.boot.fused, nonce := nonce,
                        signature := default }
    .next { s with free := s.free + 1, reports := s.reports ++ [{ r with signature := deviceSign s.free r.bytes }] }
  else .next s

/-! Clocks and temperature (R318, R320). -/

def State.setIsland (s : State) (i : Island) : State :=
  { s with islands := i :: s.islands.filter fun j => j.num != i.num }

/-- The first core of an island. -/
def coreOfIsland (k : Nat) : Nat := k / 32 * 256 + k % 32 * 8

/-- The island runs at another clock from now on: its count of cycles goes on from where it stands. -/
def State.reclock (s : State) (k mhz : Nat) : Island :=
  { s.islandAt k with mhz := mhz, baseTick := s.time, baseCycle := s.cycle (coreOfIsland k) }

/-- R318: a throttled island takes the new clock when it recovers. -/
def execIslandClockChange (island mhz : Nat) (s : State) : Res :=
  if 128 ≤ island ∨ mhz < 800 ∨ 2400 < mhz ∨ mhz % 100 ≠ 0 then .next s
  else if (s.islandAt island).throttled then .next (s.setIsland { s.islandAt island with setMhz := mhz })
  else .next (s.setIsland { s.reclock island mhz with setMhz := mhz })

/-- R320: 105 °C. -/
def execThermalThrottle (island : Nat) (s : State) : Res :=
  if 128 ≤ island then .next s
  else .next (s.setIsland { s.reclock island 800 with throttled := true })

/-- R320: below 100 °C. -/
def execThermalRecover (island : Nat) (s : State) : Res :=
  let i := s.islandAt island
  if 128 ≤ island ∨ !i.throttled then .next s
  else .next (s.setIsland { s.reclock island i.setMhz with throttled := false })

/-- R314, R320: 115 °C. Every running launch is ended with the thermal status, nothing is saved, every hart stops, what waits to
be admitted or carried out is gone, and the package holds itself in reset with its links dead. -/
def execThermalStop (s : State) : Res :=
  let running := s.launches.filter fun l => l.state == .running
  let s1 := running.foldl (fun (s : State) l => s.endLaunch l 0xFFFF0001) s
  let halt (c : Core) : Core := { c with run := .idle, fw := false }
  let waits (l : Launch) : Bool := match l.state with
    | .waiting .. => true
    | _ => false
  .next { s1 with
    core := halt s1.core, others := s1.others.map halt,
    launches := s1.launches.filter (fun l => !waits l), accepted := [],
    boot := { s1.boot with stage := .stopped },
    links := (List.range 16).map Link.down }

/-! Configuration requests and soft errors. -/

/-- R305: until firmware runs, the request is answered with Configuration Request Retry Status. -/
def execConfigurationRequest (s : State) : Res :=
  if s.boot.stage = .running then .next s
  else .next { s with port := { s.port with retries := s.port.retries + 1 } }

/-- Granules of a store (R55, R58, R59, R61). -/
def granulesOf : StoreKind → Nat
  | .vector => 6144
  | .tile => 18432
  | .acc => 12288

/-- R61: a single-bit error waits to be corrected by a read; an uncorrectable one poisons the granule. -/
def execSoftError (core : Nat) (store : StoreKind) (granule : Nat) (uncorrectable : Bool) (s : State) : Res :=
  if 1024 ≤ core ∨ granulesOf store ≤ granule then .next s
  else
    let c := s.coreAt core
    let same (e : EccError) : Bool := e.store == store && e.granule == granule
    let bad := uncorrectable || c.ecc.any fun e => same e && e.poisoned
    let e : EccError := { store := store, granule := granule, poisoned := bad }
    .next (s.setCore { c with ecc := c.ecc.filter (fun e => !same e) ++ [e] })

end Sys2Proof.Machine
end

