-- ==== Sys2Proof/Machine/Links.lean ====
section
/-! DEFINITION. Fabric links (R264 to R270), time across the pod (R272), and the loss of a package (R271, R285, R424). -/

namespace Sys2Proof.Machine

/-! Headers (R268, R269). -/

def hdrKind (h : BitVec 192) : Nat := (h.extractLsb' 0 8).toNat
def hdrVc (h : BitVec 192) : Nat := (h.extractLsb' 8 2).toNat
def hdrCtx (h : BitVec 192) : Nat := (h.extractLsb' 10 6).toNat
def hdrOpen (h : BitVec 192) : Bool := h.getLsbD 16
def hdrFlag (h : BitVec 192) : Bool := h.getLsbD 17
def hdrComb (h : BitVec 192) : Bool := h.getLsbD 18
def hdrCore (h : BitVec 192) : Nat := (h.extractLsb' 22 10).toNat
def hdrSrc (h : BitVec 192) : BitVec 12 := h.extractLsb' 32 12
def hdrDst (h : BitVec 192) : BitVec 12 := h.extractLsb' 44 12
def hdrAddr (h : BitVec 192) : Nat := (h.extractLsb' 56 48).toNat
def hdrLen (h : BitVec 192) : Nat := (h.extractLsb' 104 8).toNat
def hdrTag (h : BitVec 192) : Nat := (h.extractLsb' 112 16).toNat
def hdrGroup (h : BitVec 192) : Nat := (h.extractLsb' 128 16).toNat

/-- What a packet of a kind carries at an address, `len` units of 32 bytes long (R268); reserved kinds carry nothing. The first 8
bytes of a VLDR request say which bytes of its group are active; a store writes as many bytes as its payload holds (log 20). -/
def bodyOf (h : BitVec 192) (addr len : Nat) (payload : List Byte) : Option PacketBody :=
  let data := payload.take (32 * len)
  let word (k n : Nat) : Nat := ofBytes ((data.drop k).take n)
  match hdrKind h with
  | 0x01 => some (.store (place addr data))
  | 0x02 => some (.vldr (hdrTag h) (hdrGroup h)
      (((List.range 64).filter fun j => (word 0 8).testBit j).map fun j => (j, addr + j)) [])
  | 0x03 => some (.vldrReply (hdrTag h) (hdrGroup h) data)
  | 0x04 => some (.pfadd (hdrTag h) addr (BitVec.ofNat 64 (word 0 8)) (hdrComb h))
  | 0x05 => some (.pfaddReply (hdrTag h) (BitVec.ofNat 64 (word 0 8)))
  | 0x06 => some (.post (BitVec.ofNat 64 (word 0 8)))
  | 0x07 => some (.marker (word 0 4) (word 4 8))
  | 0x08 => some (.ack (hdrTag h))
  | 0x09 => some .timeSync
  | _ => none

/-! Receiving. -/

/-- Only stores and VLDR replies use contexts (R269). -/
def usesCtx (h : BitVec 192) : Bool := hdrKind h == 0x01 || hdrKind h == 0x03

def Link.ctxAt (l : Link) (k : Nat) : Option LinkCtx := l.ctxs.find? fun c => c.ctx == k

/-- The header in force, the packet's address and its length, and the link with its contexts as the packet leaves them; none for
a compact header whose context no packet has opened. A full header also follows the escape. A compact header's tag and element are
those of its context, and a full header that opens none leaves every context's end as it was (log 20). -/
def Link.header (l : Link) (f : Flit) : Option (BitVec 192 × Nat × Nat × Link) :=
  match f.header with
  | .full h _ | .escape h _ =>
    let c : LinkCtx := { ctx := hdrCtx h, bits := h, next := hdrAddr h + 32 * hdrLen h }
    some (h, hdrAddr h, hdrLen h, if hdrOpen h && usesCtx h then { l with ctxs := upsert LinkCtx.ctx l.ctxs c } else l)
  | .compact k len delta =>
    (l.ctxAt k.toNat).map fun c =>
      let a := c.next + 32 * delta.toNat
      (c.bits, a, len.toNat, { l with ctxs := upsert LinkCtx.ctx l.ctxs { c with next := a + 32 * len.toNat } })

/-- The counts of an ordered flag with their numbers (R263). -/
def Flit.flag (f : Flit) (h : BitVec 192) : Option (List (Nat × Nat)) :=
  match f.header with
  | .full _ counts | .escape _ counts =>
    if hdrFlag h && hdrKind h == 0x01 then some (f.before.zip (counts.map BitVec.toNat)) else none
  | .compact .. => none

/-- The flits of 128 bytes that the packet fills (R264, R268, R269). -/
def Flit.flits (f : Flit) : Nat :=
  let extra (counts : List (BitVec 16)) : Nat := if counts.isEmpty then 0 else 32
  let header := match f.header with
    | .full _ counts => 24 + extra counts
    | .escape _ counts => 28 + extra counts
    | .compact .. => 4
  (header + f.payload.length + 127) / 128

/-- A packet has reached the package; a marker closes the contexts of its link direction (R270). -/
def State.arrivePacket (s : State) (l : Link) (f : Flit) : State :=
  match l.header f with
  | none => s.setLink l
  | some (h, addr, len, l1) =>
    match bodyOf h addr len f.payload with
    | none => s.setLink l1
    | some body =>
      let l2 : Link := if hdrKind h = 0x07 then { l1 with ctxs := [] } else l1
      let p : Packet := { serial := hdrTag h, src := hdrSrc h, dst := hdrDst h, core := hdrCore h, hart := f.hart, plane := l.num,
                          counted := f.plane.toNat, vc := hdrVc h, colour := f.colour, launch := f.launch,
                          interval := if f.group = 0 then none else some f.group, counts := Flit.flag f h, engine := none,
                          merged := if hdrComb h then f.merged else [],
                          parts := [], body := body }
      let s1 : State := { s.setLink l2 with
        reached := upsert (fun (e : BitVec 12 × Word) => e.1.toNat) s.reached (p.src, s.time) }
      if p.dst = s.pkg then { s1 with ingress := s1.ingress ++ [p] } else s1

/-- n more flits are accepted, and acknowledged. -/
def Link.accepts (l : Link) (n : Nat) : Link :=
  if n = 0 then l
  else
    let next := l.rxSeq + BitVec.ofNat 16 n
    { l with rxSeq := next, ack := some (next - 1) }

/-- R264, R268 to R270: the flits of a packet are accepted in sequence up to the first bad one, from which on they are asked for
again; with the last the packet has arrived. -/
def execFlitReceive (link : Nat) (flit : Flit) (s : State) : Res :=
  let l := s.linkAt link
  let rest := Flit.flits flit - l.part
  if 16 ≤ link ∨ !l.up ∨ l.retrain.isSome ∨ s.boot.stage = .stopped then .next s
  else if flit.seq ≠ l.rxSeq then .next (s.setLink { l with replay := some l.rxSeq })
  else match flit.bad with
    | some k =>
      let n := min k (rest - 1)
      let l1 := l.accepts n
      .next (s.setLink { l1 with part := l.part + n, replay := some l1.rxSeq })
    | none => .next (s.arrivePacket { l.accepts rest with part := 0, replay := none } flit)

/-! Lanes. -/

/-- A link event for the host (R309). -/
def State.linkEvent (s : State) (link lanes : Nat) : State :=
  s.postLaunch 0 7 0 (BitVec.ofNat 64 (lanes * 256 + link))

/-- A link goes down (R258, R266, R270). -/
def State.dropLink (s : State) (link : Nat) : State :=
  let s1 := s.setLink { s.linkAt link with up := false, lanes := 0, retrain := none, replay := none, part := 0, ctxs := [] }
  let s2 : State := { s1 with linkless := if s1.links.any (fun l => l.up) then none else some (s.linkless.getD s.time) }
  s2.resend.linkEvent link 0

/-- R265, R266: the link retrains at 8 or 4 lanes, or goes down when it cannot hold 4. -/
def execLaneFail (link lanes : Nat) (s : State) : Res :=
  let l := s.linkAt link
  if 16 ≤ link ∨ !l.up then .next s
  else if lanes = 8 ∨ lanes = 4 then
    if lanes < l.lanes then .next (s.setLink { l with lanes := lanes, retrain := some s.time }) else .next s
  else if lanes < 4 then .next (s.dropLink link)
  else .next s

/-- R265: the flits from the first unaccepted one on are asked for again; a link that took more than 50,000 ticks goes
down (R266). -/
def execLinkRetrainComplete (link : Nat) (s : State) : Res :=
  let l := s.linkAt link
  match l.retrain with
  | some t =>
    if 16 ≤ link ∨ !l.up then .next s
    else if s.time.toNat ≤ t.toNat + Config.retrainTicks then
      .next ((s.setLink { l with retrain := none, replay := some l.rxSeq }).linkEvent link l.lanes)
    else .next (s.dropLink link)
  | none => .next s

/-- R266. -/
def execLinkDown (link : Nat) (s : State) : Res :=
  .next (if link < 16 ∧ (s.linkAt link).up then s.dropLink link else s)

/-- R266: firmware returns a link to service, once it runs (R316 step 5). -/
def execLinkRetrain (link lanes : Nat) (s : State) : Res :=
  let l := s.linkAt link
  if link < 16 ∧ !l.up ∧ (lanes = 16 ∨ lanes = 8 ∨ lanes = 4) ∧ s.boot.stage = .running then
    let s1 := s.setLink { l with up := true, lanes := lanes, retrain := none, replay := none, part := 0, ctxs := [] }
    .next (({ s1 with linkless := none } : State).resend.linkEvent link lanes)
  else .next s

/-! Time (R272). -/

/-- The first time-sync packet that arrived is done with. -/
def State.takeSync (s : State) : State :=
  { s with ingress := match s.ingress.findIdx? fun p => match p.body with
      | .timeSync => true
      | _ => false with
    | some k => s.ingress.eraseIdx k
    | none => s.ingress }

/-- The package's own time-sync packets, one on every live link, take the place of those of the last exchange. Whom each is for
the spec leaves open (log 20). -/
def State.sendSync (s : State) : State :=
  let kept := s.egress.filter fun p => match p.body with
    | .timeSync => false
    | _ => true
  let dst : BitVec 12 := (Config.freeWord s.free).extractLsb' 0 12
  (s.links.filter fun l => l.up).foldl (fun (s : State) l => s.send 0 0 dst l.num .timeSync)
    { s with egress := kept, free := s.free + 1 }

/-- R272: a time-sync exchange. The first sets the count, which never decreases; later ones slew it by one tick in 10,000. A
package that is ahead holds its count for a tick. -/
def execTimeSync (ahead : Bool) (s : State) : Res :=
  let s := s.takeSync.sendSync
  if !s.synced then
    let t := s.time + BitVec.ofNat 64 (Config.elapsed s.free)
    .next { s with synced := true, time := t, slewed := t, free := s.free + 1 }
  else if s.time.toNat < s.slewed.toNat + 10000 then .next s
  else if ahead then .next { s with slewed := s.time }
  else .next { s with time := s.time + 1, slewed := s.time + 1 }

/-! Losing a package. -/

/-- Running launches that another package takes part in. -/
def State.spanning (s : State) (p : BitVec 12 → Bool) : List Launch :=
  s.launches.filter fun l => l.state == .running && l.pkgs.any fun k => k != s.pkg && p k

/-- The last tick at which a plane reached a package: that of the last packet from it (log 20). -/
def State.lastReached (s : State) (pkg : BitVec 12) : Nat :=
  ((s.reached.find? fun e => e.1 == pkg).map fun e => e.2.toNat).getD 0

/-- R271, R285: harvests in progress are abandoned; a launch with no completed harvest ends, the others wait for their
rollback. -/
def execPackageLost (pkg : BitVec 12) (s : State) : Res :=
  if pkg = s.pkg ∨ s.lost.contains pkg ∨ s.time.toNat < s.lastReached pkg + Config.lossTicks then .next s
  else
    let s1 : State := { s with lost := s.lost ++ [pkg] }
    .next ((s1.spanning fun k => k == pkg).foldl (fun (s : State) l =>
      if l.everywhere = 0 then s.endLaunch l 7 else s.abandon l) s1)

/-- R424. -/
def execPackageCutOff (s : State) : Res :=
  match s.linkless with
  | some t =>
    if s.time.toNat < t.toNat + Config.lossTicks then .next s
    else .next ((s.spanning fun _ => true).foldl (fun (s : State) l => s.endLaunch l 7) s)
  | none => .next s

end Sys2Proof.Machine
end

