-- ==== Sys2Proof/Machine/SaveFormat.lean ====
section
/-! DEFINITION. The 262,144 bytes of a context save in firmware's DRAM, as R229 and R234 to R236 lay them out, and those
of a capture (R280). `State.saves` keeps a save as the hart it holds; the bytes are this view of it (log 19). -/

namespace Sys2Proof.Machine

/-- The wait code of the header (R235, R40). -/
def waitCode : Run → BitVec 4
  | .waiting w | .stopped (some w) => match w with
    | .barrier .. => 1 | .sleep _ => 2 | .engine .. => 3 | .queue .. => 4 | .join _ => 5 | .trap .. => 0
  | _ => 0

/-- warg of the header (R235); 0 for the waits it names no argument for. -/
def waitArg : Run → Word
  | .waiting w | .stopped (some w) => match w with
    | .barrier _ _ gen _ => BitVec.ofNat 64 gen
    | .sleep t => t
    | .engine .. => 0
    | .queue .. | .trap .. => 0
    | .join id => id.setWidth 64
  | _ => 0

/-- The package as the hart of a save saw it, for the read-only registers (R234). -/
def Save.at_ (v : Save) (s : State) : State := 
  { s with core := v.core, pkg := v.pkg, time := v.time, feats := v.feats }

/-- Control register n of a save; the entries of cr.rot, cr.gates and unassigned numbers are zero (R234). -/
def Save.control (v : Save) (s : State) (n : Nat) : Word :=
  if n = 0x013 ∨ n = 0x014 ∨ (!userNumber n && n != 0x050) then 0
  else if n = 0x023 then v.drift
  else if n = 0x060 then v.harvest
  else (v.at_ s).readCr n

/-- Tile t is saved, not owed (R232, R235). -/
def Save.tileKept (v : Save) (t : Nat) : Bool := !v.owed.any fun k => k.op == 4 && k.reg == t

/-- Row r is owed. -/
def Save.rowOwed (v : Save) (r : Nat) : Bool := v.owed.any fun k => k.op == 5 && k.reg ≤ r && r < k.reg + k.count

/-- amap's two bits of row r (R235). -/
def Save.rowBits (v : Save) (r : Nat) : BitVec 2 :=
  if v.rowOwed r then 3
  else match v.core.rowType.toList.getD r .none with
    | .none => 0 | .f32 => 1 | .i32 => 2

def Save.tmap (v : Save) : BitVec 24 :=
  (List.range 24).foldl (fun a t => if v.tileKept t then a ||| (1#24 <<< t) else a) 0
def Save.amap (v : Save) : BitVec 128 :=
  (List.range 64).foldl (fun a r => a ||| ((v.rowBits r).setWidth 128 <<< (2 * r))) 0

/-- The inner or firmware-routed trap of a parked hart (R224, R228). -/
def Save.trap (v : Save) : Option TrapRecord := if v.core.run == .parked then v.core.inner else none

/-- The copy of the hart status word at 0x08 (R229). -/
def Save.status (v : Save) (s : State) : Word :=
  (v.at_ s).statusWord v.core v.trap (v.trap.isSome && !v.core.doubleTrap) v.core.doubleTrap v.owed.length v.rung

/-- A word of the header (R235, R280), by its offset. `c` is the capture the save stands in. -/
def Save.header (v : Save) (s : State) (c : Option Capture) : Nat → Word
  | 0x00 => 0#32 ++ 256#16 ++ 1#16
  | 0x08 => v.status s
  | 0x10 => v.core.pc
  | 0x18 => v.core.ctl.estart.setWidth 64
  | 0x20 => (v.at_ s).readCr 0x022
  | 0x28 => (v.at_ s).readCr 0x031
  | 0x30 => v.time
  | 0x38 => v.tmap.setWidth 64
  | 0x40 => v.amap.extractLsb' 0 64
  | 0x48 => v.amap.extractLsb' 64 64
  | 0x50 => 0#52 ++ waitCode v.core.run ++ 0#7 ++ BitVec.ofBool !(v.quad.attached.getLsbD (v.core.num % 4))
  | 0x58 => waitArg v.core.run
  | 0x60 => match v.trap with
    | some t => 0#36 ++ t.el ++ t.sub ++ t.cause
    | none => 0
  | 0x68 => (v.trap.map fun t => t.pc).getD 0
  | 0x70 => (v.trap.map fun t => t.val).getD 0
  | 0x78 => v.fwtag
  | 0x80 => (c.map fun k => k.rpend.extractLsb' 0 64).getD 0
  | 0x88 => (c.map fun k => k.rpend.extractLsb' 64 64).getD 0
  | 0x90 => (c.map fun k => k.rpend.extractLsb' 128 64).getD 0
  | 0x98 => (c.map fun k => k.xpend.setWidth 64).getD 0
  | 0xA0 => if c.isSome then BitVec.ofNat 64 (Config.firmwareArea 0) else 0
  | _ => 0

/-- A word of the gates, rotation and loop part (R236), from 0x3880. -/
def Save.loopWord (v : Save) : Nat → Word
  | 0x00 => 0#44 ++ v.core.loop.stages ++ BitVec.ofBool v.core.loop.active ++ 0#4 ++ v.core.ctl.rot ++ v.core.ctl.gates
  | 0x08 => v.core.loop.start
  | 0x10 => v.core.loop.stop
  | 0x18 => v.core.loop.j
  | 0x20 => v.core.loop.n
  | 0x28 => v.core.loop.trip
  | _ => 0

/-- An owed command as the list holds it (R236): the command, its serial, its engine. -/
def Command.owedBits (k : Command) : BitVec 512 :=
  (k.bits &&& (BitVec.ofNat 512 (2 ^ 320 - 1))) ||| (k.serial.setWidth 512 <<< 320) |||
    ((BitVec.ofBool k.stage).setWidth 512 <<< 336)

/-- A word of the owed-engine list (R236), from 0x3F8C0; entries from 15 on lie in the overflow area. -/
def Save.owedWord (v : Save) (o : Nat) : Word :=
  if o = 0 then BitVec.ofNat 64 (v.owed.length % 65536)
  else if o = 8 then (if v.owed.length ≤ 15 then 0 else BitVec.ofNat 64 (Config.firmwareArea 1))
  else if 0x40 ≤ o then
    match v.owed[(o - 0x40) / 64]? with
    | some k => k.owedBits.extractLsb' (8 * (o % 64)) 64
    | none => 0
  else 0

/-- The entries of the overflow area, 64 bytes each (R236). -/
def Save.overflow (v : Save) : List (BitVec 512) := (v.owed.drop 15).map Command.owedBits

/-- x k of a save: its value and its tag, 16 bytes (R51). -/
def Save.xWord (v : Save) (o : Nat) : Word :=
  let x := v.core.x.toList.getD (o / 16) .zero
  if o % 16 = 0 then x.val else x.tag.setWidth 64

/-- The word at offset o, a multiple of 8, of the parts that are not a register store (R234). -/
def Save.word (v : Save) (s : State) (c : Option Capture) (o : Nat) : Word :=
  if o < 0x100 then v.header s c o
  else if o < 0x300 then v.xWord (o - 0x100)
  else if o < 0x700 then v.control s ((o - 0x300) / 8)
  else if 0x3700 ≤ o ∧ o < 0x3880 then
    (v.core.m.toList.getD ((o - 0x3700) / 48) 0).extractLsb' (8 * ((o - 0x3700) % 48)) 64
  else if 0x3880 ≤ o ∧ o < 0x38C0 then v.loopWord (o - 0x3880)
  else if 0x3F8C0 ≤ o ∧ o < 0x3FCC0 then v.owedWord (o - 0x3F8C0)
  else 0

/-- Byte k of a save (R234): the active bank, the tiles and the accumulator rows from their stores, the other parts word
by word, the reserved bytes zero. -/
def Save.byteOf (v : Save) (s : State) (c : Option Capture) (k : Nat) : Byte :=
  if 0x700 ≤ k ∧ k < 0x3700 then v.core.vec.get (v.core.ctl.bank.toNat * 12288 + (k - 0x700))
  else if 0x38C0 ≤ k ∧ k < 0x278C0 then v.core.tiles.get (k - 0x38C0)
  else if 0x278C0 ≤ k ∧ k < 0x3F8C0 then v.core.acc.get (k - 0x278C0)
  else (v.word s c (k / 8 * 8)).extractLsb' (8 * (k % 8)) 8

def Save.byte (v : Save) (s : State) (k : Nat) : Byte := v.byteOf s none k
/-- Byte k of a captured context (R278 step 4, R280). -/
def Capture.byte (c : Capture) (s : State) (k : Nat) : Byte := c.save.byteOf s (some c) k

/-- The byte at an address of a save or of a capture, in firmware's DRAM (R234, R280). -/
def State.savedByte? (s : State) (a : Nat) : Option Byte :=
  let at_ (v : Save) : Bool := v.addr ≤ a && a < v.addr + saveBytes
  match s.saves.find? at_ with
  | some v => some (v.byte s (a - v.addr))
  | none => ((s.launches.flatMap fun l => l.harvests.flatMap fun h => h.captures).find? fun k => at_ k.save).map fun k =>
      k.byte s (a - k.save.addr)

end Sys2Proof.Machine
end

