-- ==== Sys2Proof/Machine/ScalarMemory.lean ====
section
/-! DEFINITION. Scalar memory instructions: LD, ST, LDSLOT, AMO, CAS (R156, R325, R332, R346, R370). -/

namespace Sys2Proof.Machine

def Size.bytes : Size → Nat
  | .b => 1 | .h => 2 | .w => 4 | .d => 8

def ASize.bytes : ASize → Nat
  | .w => 4 | .d => 8

/-- A load of firmware that touches a save or a capture, whose bytes are a view of the state (R234, log 19): it is performed at once,
behind the earlier accesses. -/
def State.loadSaved (s : State) (d : XName) (a n : Nat) (sx : Bool) : Res :=
  let w := ofBytes ((List.range n).map fun k => (s.savedByte? (a + k)).getD (s.byteAt (a + k)))
  let t := ({ s with pick := { s.pick with deferS := false } } : State).issueS (.loadX d a n sx)
  if t.doneS then
    .next ((({ t with pick := s.pick } : State).setX d { val := if sx then signExt n w else BitVec.ofNat 64 w, tag := 0 }).advance)
  else .next s.pushS

/-- R346. -/
def execLd (d a : XName) (imm : BitVec 32) (sz : Size) (sx : Bool) (s : State) : Res :=
  let n := Size.bytes sz
  s.checked (s.x a) (off32 imm) n n .load fun p =>
    if s.core.fw && (List.range n).any fun k => (s.savedByte? (p.addr + k)).isSome then s.loadSaved d p.addr n sx
    else .next (s.issueS (.loadX d p.addr n sx)).advance

/-- A remote ST: issued once the earlier accesses of the S stream are performed and the counts allow it, on any
live plane; until then the head waits (R188, R263). An ordered flag takes the counts before it and is the first of the new ones (R273). -/
def State.remoteSt (s : State) (pkg : BitVec 12) (bytes : List (Nat × Byte)) (flag : Bool) : Res :=
  let s := s.pushS
  match s.anyPlane pkg with
  | none => .next s
  | some k =>
    let r := s.takeFlag pkg flag
    if !s.doneS ∨ !r.1.core.mayCount pkg k then .next s
    else
      .next ((r.1.issueRemote pkg k [] r.2 (.store bytes)).bump).advance

/-- R370. -/
def execSt (src a : XName) (imm : BitVec 32) (sz : Size) (flag : Bool) (s : State) : Res :=
  let n := Size.bytes sz
  s.checked (s.x a) (off32 imm) n n .store fun p =>
    let bytes := cells p.addr n (s.x src).val.toNat
    match p.pkg with
    | some pkg => s.remoteSt pkg bytes flag
    | none => .next (s.issueS (.store bytes)).advance

/-- R156. -/
def execLdslot (d : XName) (slot : BitVec 8) (s : State) : Res :=
  let e := s.core.slot slot
  if !e.v then s.trap 0x04 0x02 0 (slot.setWidth 64)
  else if e.world ≠ s.core.ctl.world then s.trap 0x0B 0x01 0 (slot.setWidth 64)
  else .next (s.setX d { val := e.base.setWidth 64, tag := slotTag slot }).advance

/-- R325. -/
def execAmo (d a b : XName) (op : AmoOp) (sz : ASize) (s : State) : Res :=
  let n := ASize.bytes sz
  s.checked (s.x a) 0 n n .atomic fun p => .next (s.issueS (.amoX d p.addr n op (s.x b).val)).advance

/-- R332. -/
def execCas (d a b c : XName) (sz : ASize) (s : State) : Res :=
  let n := ASize.bytes sz
  s.checked (s.x a) 0 n n .atomic fun p => .next (s.issueS (.casX d p.addr n (s.x b).val (s.x c).val)).advance

end Sys2Proof.Machine
end

