-- ==== Sys2Proof/Machine/Dispatch.lean ====
section
/-! DEFINITION. The meaning of each constructor of `Instr`. -/

namespace Sys2Proof.Machine

def exec (i : Instr) (s : State) : Host.Outcome State Fault Refusal :=
  match i with
  | .nop => Sys2Proof.Machine.execNop s
  | .add a0 a1 a2 => Sys2Proof.Machine.execAdd a0 a1 a2 s
  | .sub a0 a1 a2 => Sys2Proof.Machine.execSub a0 a1 a2 s
  | .and a0 a1 a2 => Sys2Proof.Machine.execAnd a0 a1 a2 s
  | .or a0 a1 a2 => Sys2Proof.Machine.execOr a0 a1 a2 s
  | .xor a0 a1 a2 => Sys2Proof.Machine.execXor a0 a1 a2 s
  | .sll a0 a1 a2 a3 => Sys2Proof.Machine.execSll a0 a1 a2 a3 s
  | .srl a0 a1 a2 a3 => Sys2Proof.Machine.execSrl a0 a1 a2 a3 s
  | .sra a0 a1 a2 a3 => Sys2Proof.Machine.execSra a0 a1 a2 a3 s
  | .slt a0 a1 a2 a3 => Sys2Proof.Machine.execSlt a0 a1 a2 a3 s
  | .mul a0 a1 a2 => Sys2Proof.Machine.execMul a0 a1 a2 s
  | .mulh a0 a1 a2 => Sys2Proof.Machine.execMulh a0 a1 a2 s
  | .div a0 a1 a2 a3 => Sys2Proof.Machine.execDiv a0 a1 a2 a3 s
  | .rem a0 a1 a2 a3 => Sys2Proof.Machine.execRem a0 a1 a2 a3 s
  | .min a0 a1 a2 => Sys2Proof.Machine.execMin a0 a1 a2 s
  | .max a0 a1 a2 => Sys2Proof.Machine.execMax a0 a1 a2 s
  | .clz a0 a1 => Sys2Proof.Machine.execClz a0 a1 s
  | .popc a0 a1 => Sys2Proof.Machine.execPopc a0 a1 s
  | .addi a0 a1 a2 => Sys2Proof.Machine.execAddi a0 a1 a2 s
  | .andi a0 a1 a2 => Sys2Proof.Machine.execAndi a0 a1 a2 s
  | .ori a0 a1 a2 => Sys2Proof.Machine.execOri a0 a1 a2 s
  | .xori a0 a1 a2 => Sys2Proof.Machine.execXori a0 a1 a2 s
  | .li a0 a1 => Sys2Proof.Machine.execLi a0 a1 s
  | .ld a0 a1 a2 a3 a4 => Sys2Proof.Machine.execLd a0 a1 a2 a3 a4 s
  | .st a0 a1 a2 a3 a4 => Sys2Proof.Machine.execSt a0 a1 a2 a3 a4 s
  | .ldslot a0 a1 => Sys2Proof.Machine.execLdslot a0 a1 s
  | .amo a0 a1 a2 a3 a4 => Sys2Proof.Machine.execAmo a0 a1 a2 a3 a4 s
  | .cas a0 a1 a2 a3 a4 => Sys2Proof.Machine.execCas a0 a1 a2 a3 a4 s
  | .b a0 a1 a2 a3 => Sys2Proof.Machine.execB a0 a1 a2 a3 s
  | .j a0 => Sys2Proof.Machine.execJ a0 s
  | .jal a0 a1 => Sys2Proof.Machine.execJal a0 a1 s
  | .jalr a0 a1 a2 => Sys2Proof.Machine.execJalr a0 a1 a2 s
  | .loop a0 a1 a2 => Sys2Proof.Machine.execLoop a0 a1 a2 s
  | .setvlb a0 a1 a2 a3 a4 => Sys2Proof.Machine.execSetvlb a0 a1 a2 a3 a4 s
  | .setvl a0 a1 a2 a3 => Sys2Proof.Machine.execSetvl a0 a1 a2 a3 s
  | .join a0 a1 => Sys2Proof.Machine.execJoin a0 a1 s
  | .detach => Sys2Proof.Machine.execDetach s
  | .exit => Sys2Proof.Machine.execExit s
  | .crrd a0 a1 => Sys2Proof.Machine.execCrrd a0 a1 s
  | .crwr a0 a1 => Sys2Proof.Machine.execCrwr a0 a1 s
  | .eret => Sys2Proof.Machine.execEret s
  | .trap a0 => Sys2Proof.Machine.execTrap a0 s
  | .livePackages => Sys2Proof.Machine.execLivePackages s
  | .clearDeferredIntegrity => Sys2Proof.Machine.execClearDeferredIntegrity s
  | .cwb a0 a1 => Sys2Proof.Machine.execCwb a0 a1 s
  | .cinv a0 a1 => Sys2Proof.Machine.execCinv a0 a1 s
  | .iinv a0 a1 => Sys2Proof.Machine.execIinv a0 a1 s
  | .ifence => Sys2Proof.Machine.execIfence s
  | .fence a0 => Sys2Proof.Machine.execFence a0 s
  | .sleep a0 => Sys2Proof.Machine.execSleep a0 s
  | .wswitch a0 => Sys2Proof.Machine.execWswitch a0 s
  | .wrel a0 => Sys2Proof.Machine.execWrel a0 s
  | .bar a0 a1 => Sys2Proof.Machine.execBar a0 a1 s
  | .safe => Sys2Proof.Machine.execSafe s
  | .qsend a0 a1 => Sys2Proof.Machine.execQsend a0 a1 s
  | .qrecv a0 a1 => Sys2Proof.Machine.execQrecv a0 a1 s
  | .qstat a0 a1 => Sys2Proof.Machine.execQstat a0 a1 s
  | .hnew a0 a1 a2 a3 a4 => Sys2Proof.Machine.execHnew a0 a1 a2 a3 a4 s
  | .hcopy a0 a1 => Sys2Proof.Machine.execHcopy a0 a1 s
  | .hdrop a0 => Sys2Proof.Machine.execHdrop a0 s
  | .hbase a0 a1 => Sys2Proof.Machine.execHbase a0 a1 s
  | .snap a0 => Sys2Proof.Machine.execSnap a0 s
  | .vadd a0 a1 a2 a3 a4 => Sys2Proof.Machine.execVadd a0 a1 a2 a3 a4 s
  | .vsub a0 a1 a2 a3 a4 => Sys2Proof.Machine.execVsub a0 a1 a2 a3 a4 s
  | .vmul a0 a1 a2 a3 a4 => Sys2Proof.Machine.execVmul a0 a1 a2 a3 a4 s
  | .vmulh a0 a1 a2 a3 a4 a5 => Sys2Proof.Machine.execVmulh a0 a1 a2 a3 a4 a5 s
  | .vmacc a0 a1 a2 a3 a4 => Sys2Proof.Machine.execVmacc a0 a1 a2 a3 a4 s
  | .vmin a0 a1 a2 a3 a4 a5 => Sys2Proof.Machine.execVmin a0 a1 a2 a3 a4 a5 s
  | .vmax a0 a1 a2 a3 a4 a5 => Sys2Proof.Machine.execVmax a0 a1 a2 a3 a4 a5 s
  | .vand a0 a1 a2 a3 a4 => Sys2Proof.Machine.execVand a0 a1 a2 a3 a4 s
  | .vor a0 a1 a2 a3 a4 => Sys2Proof.Machine.execVor a0 a1 a2 a3 a4 s
  | .vxor a0 a1 a2 a3 a4 => Sys2Proof.Machine.execVxor a0 a1 a2 a3 a4 s
  | .vsll a0 a1 a2 a3 a4 => Sys2Proof.Machine.execVsll a0 a1 a2 a3 a4 s
  | .vsrl a0 a1 a2 a3 a4 => Sys2Proof.Machine.execVsrl a0 a1 a2 a3 a4 s
  | .vsra a0 a1 a2 a3 a4 => Sys2Proof.Machine.execVsra a0 a1 a2 a3 a4 s
  | .vfadd a0 a1 a2 a3 a4 a5 => Sys2Proof.Machine.execVfadd a0 a1 a2 a3 a4 a5 s
  | .vfsub a0 a1 a2 a3 a4 a5 => Sys2Proof.Machine.execVfsub a0 a1 a2 a3 a4 a5 s
  | .vfmul a0 a1 a2 a3 a4 a5 => Sys2Proof.Machine.execVfmul a0 a1 a2 a3 a4 a5 s
  | .vfdiv a0 a1 a2 a3 a4 a5 => Sys2Proof.Machine.execVfdiv a0 a1 a2 a3 a4 a5 s
  | .vfma a0 a1 a2 a3 a4 a5 a6 a7 => Sys2Proof.Machine.execVfma a0 a1 a2 a3 a4 a5 a6 a7 s
  | .vfmin a0 a1 a2 a3 a4 => Sys2Proof.Machine.execVfmin a0 a1 a2 a3 a4 s
  | .vfmax a0 a1 a2 a3 a4 => Sys2Proof.Machine.execVfmax a0 a1 a2 a3 a4 s
  | .vfsqrt a0 a1 a2 a3 => Sys2Proof.Machine.execVfsqrt a0 a1 a2 a3 s
  | .vfrcp a0 a1 a2 a3 => Sys2Proof.Machine.execVfrcp a0 a1 a2 a3 s
  | .vfrsq a0 a1 a2 a3 => Sys2Proof.Machine.execVfrsq a0 a1 a2 a3 s
  | .vfexp2 a0 a1 a2 a3 => Sys2Proof.Machine.execVfexp2 a0 a1 a2 a3 s
  | .vflog2 a0 a1 a2 a3 => Sys2Proof.Machine.execVflog2 a0 a1 a2 a3 s
  | .vcmp a0 a1 a2 a3 a4 a5 => Sys2Proof.Machine.execVcmp a0 a1 a2 a3 a4 a5 s
  | .vfcmp a0 a1 a2 a3 a4 a5 => Sys2Proof.Machine.execVfcmp a0 a1 a2 a3 a4 a5 s
  | .vcvt a0 a1 a2 a3 a4 a5 a6 a7 => Sys2Proof.Machine.execVcvt a0 a1 a2 a3 a4 a5 a6 a7 s
  | .vmerge a0 a1 a2 a3 a4 a5 a6 => Sys2Proof.Machine.execVmerge a0 a1 a2 a3 a4 a5 a6 s
  | .vmv a0 a1 a2 => Sys2Proof.Machine.execVmv a0 a1 a2 s
  | .vsplat a0 a1 a2 => Sys2Proof.Machine.execVsplat a0 a1 a2 s
  | .vred a0 a1 a2 a3 => Sys2Proof.Machine.execVred a0 a1 a2 a3 s
  | .vslide a0 a1 a2 a3 a4 => Sys2Proof.Machine.execVslide a0 a1 a2 a3 a4 s
  | .vgather a0 a1 a2 a3 => Sys2Proof.Machine.execVgather a0 a1 a2 a3 s
  | .vcompress a0 a1 a2 a3 => Sys2Proof.Machine.execVcompress a0 a1 a2 a3 s
  | .vreshape a0 a1 a2 a3 => Sys2Proof.Machine.execVreshape a0 a1 a2 a3 s
  | .viota a0 a1 => Sys2Proof.Machine.execViota a0 a1 s
  | .vid a0 a1 => Sys2Proof.Machine.execVid a0 a1 s
  | .mand a0 a1 a2 => Sys2Proof.Machine.execMand a0 a1 a2 s
  | .mandn a0 a1 a2 => Sys2Proof.Machine.execMandn a0 a1 a2 s
  | .mor a0 a1 a2 => Sys2Proof.Machine.execMor a0 a1 a2 s
  | .mxor a0 a1 a2 => Sys2Proof.Machine.execMxor a0 a1 a2 s
  | .mnot a0 a1 => Sys2Proof.Machine.execMnot a0 a1 s
  | .mcount a0 a1 => Sys2Proof.Machine.execMcount a0 a1 s
  | .mfirst a0 a1 => Sys2Proof.Machine.execMfirst a0 a1 s
  | .vld a0 a1 a2 a3 => Sys2Proof.Machine.execVld a0 a1 a2 a3 s
  | .vlds a0 a1 a2 a3 a4 => Sys2Proof.Machine.execVlds a0 a1 a2 a3 a4 s
  | .vldx a0 a1 a2 a3 a4 => Sys2Proof.Machine.execVldx a0 a1 a2 a3 a4 s
  | .vldr a0 a1 a2 a3 => Sys2Proof.Machine.execVldr a0 a1 a2 a3 s
  | .vst a0 a1 a2 a3 => Sys2Proof.Machine.execVst a0 a1 a2 a3 s
  | .vsts a0 a1 a2 a3 a4 => Sys2Proof.Machine.execVsts a0 a1 a2 a3 a4 s
  | .vstx a0 a1 a2 a3 a4 => Sys2Proof.Machine.execVstx a0 a1 a2 a3 a4 s
  | .vstr a0 a1 a2 a3 a4 => Sys2Proof.Machine.execVstr a0 a1 a2 a3 a4 s
  | .vamo a0 a1 a2 a3 a4 a5 => Sys2Proof.Machine.execVamo a0 a1 a2 a3 a4 a5 s
  | .mrow a0 a1 a2 a3 a4 a5 a6 a7 a8 => Sys2Proof.Machine.execMrow a0 a1 a2 a3 a4 a5 a6 a7 a8 s
  | .mrowa a0 a1 a2 a3 a4 a5 a6 a7 a8 a9 a10 a11 => Sys2Proof.Machine.execMrowa a0 a1 a2 a3 a4 a5 a6 a7 a8 a9 a10 a11 s
  | .aclr a0 a1 => Sys2Proof.Machine.execAclr a0 a1 s
  | .ard a0 a1 => Sys2Proof.Machine.execArd a0 a1 s
  | .awr a0 a1 a2 => Sys2Proof.Machine.execAwr a0 a1 a2 s
  | .ascale a0 a1 a2 a3 => Sys2Proof.Machine.execAscale a0 a1 a2 a3 s
  | .tld a0 a1 a2 => Sys2Proof.Machine.execTld a0 a1 a2 s
  | .tfill a0 a1 a2 => Sys2Proof.Machine.execTfill a0 a1 a2 s
  | .eissue a0 a1 a2 a3 => Sys2Proof.Machine.execEissue a0 a1 a2 a3 s
  | .ewait a0 a1 => Sys2Proof.Machine.execEwait a0 a1 s
  | .pfadd a0 a1 a2 a3 => Sys2Proof.Machine.execPfadd a0 a1 a2 a3 s
  | .joinTimeout a0 a1 => Sys2Proof.Machine.execJoinTimeout a0 a1 s
  | .sleepWake a0 => Sys2Proof.Machine.execSleepWake a0 s
  | .ewaitWake a0 => Sys2Proof.Machine.execEwaitWake a0 s
  | .qrecvWake a0 => Sys2Proof.Machine.execQrecvWake a0 s
  | .heldVersionDrop a0 a1 => Sys2Proof.Machine.execHeldVersionDrop a0 a1 s
  | .copy a0 a1 a2 => Sys2Proof.Machine.execCopy a0 a1 a2 s
  | .fill a0 a1 a2 => Sys2Proof.Machine.execFill a0 a1 a2 s
  | .stage a0 a1 a2 => Sys2Proof.Machine.execStage a0 a1 a2 s
  | .tload a0 a1 => Sys2Proof.Machine.execTload a0 a1 s
  | .aload a0 a1 a2 => Sys2Proof.Machine.execAload a0 a1 a2 s
  | .engineCommandComplete a0 a1 => Sys2Proof.Machine.execEngineCommandComplete a0 a1 s
  | .remoteStorePerform a0 => Sys2Proof.Machine.execRemoteStorePerform a0 s
  | .pfaddPerform a0 => Sys2Proof.Machine.execPfaddPerform a0 s
  | .pfaddCombine a0 a1 => Sys2Proof.Machine.execPfaddCombine a0 a1 s
  | .pfaddReply a0 => Sys2Proof.Machine.execPfaddReply a0 s
  | .vldrRequestPerform a0 => Sys2Proof.Machine.execVldrRequestPerform a0 s
  | .vldrReply a0 => Sys2Proof.Machine.execVldrReply a0 s
  | .ballastPostIssue a0 => Sys2Proof.Machine.execBallastPostIssue a0 s
  | .ballastPost a0 => Sys2Proof.Machine.execBallastPost a0 s
  | .finaliserStart a0 a1 => Sys2Proof.Machine.execFinaliserStart a0 a1 s
  | .queuePlace a0 a1 => Sys2Proof.Machine.execQueuePlace a0 a1 s
  | .qsendResend a0 a1 => Sys2Proof.Machine.execQsendResend a0 a1 s
  | .queueUnmap a0 a1 => Sys2Proof.Machine.execQueueUnmap a0 a1 s
  | .queueRemap a0 a1 => Sys2Proof.Machine.execQueueRemap a0 a1 s
  | .stageRetire a0 a1 => Sys2Proof.Machine.execStageRetire a0 a1 s
  | .launchComplete a0 => Sys2Proof.Machine.execLaunchComplete a0 s
  | .schedulerRound a0 => Sys2Proof.Machine.execSchedulerRound a0 s
  | .flightStart a0 a1 => Sys2Proof.Machine.execFlightStart a0 a1 s
  | .flightPark a0 => Sys2Proof.Machine.execFlightPark a0 s
  | .flightResume a0 a1 => Sys2Proof.Machine.execFlightResume a0 a1 s
  | .flightRestore a0 a1 => Sys2Proof.Machine.execFlightRestore a0 a1 s
  | .bandwidthRefill a0 => Sys2Proof.Machine.execBandwidthRefill a0 s
  | .preemptRequest a0 a1 => Sys2Proof.Machine.execPreemptRequest a0 a1 s
  | .preemptRung2 a0 => Sys2Proof.Machine.execPreemptRung2 a0 s
  | .preemptRung3 a0 => Sys2Proof.Machine.execPreemptRung3 a0 s
  | .contextSave a0 => Sys2Proof.Machine.execContextSave a0 s
  | .moveStart a0 a1 a2 => Sys2Proof.Machine.execMoveStart a0 a1 a2 s
  | .movePark a0 => Sys2Proof.Machine.execMovePark a0 s
  | .moveRelease a0 => Sys2Proof.Machine.execMoveRelease a0 s
  | .keyRevoke a0 => Sys2Proof.Machine.execKeyRevoke a0 s
  | .keyRevokeComplete a0 => Sys2Proof.Machine.execKeyRevokeComplete a0 s
  | .markerArrival a0 => Sys2Proof.Machine.execMarkerArrival a0 s
  | .sealedExtentWrite a0 => Sys2Proof.Machine.execSealedExtentWrite a0 s
  | .sealedExtentCopy a0 => Sys2Proof.Machine.execSealedExtentCopy a0 s
  | .harvestComplete a0 => Sys2Proof.Machine.execHarvestComplete a0 s
  | .rollback a0 a1 => Sys2Proof.Machine.execRollback a0 a1 s
  | .migrationStart a0 a1 => Sys2Proof.Machine.execMigrationStart a0 a1 s
  | .migrationStop a0 => Sys2Proof.Machine.execMigrationStop a0 s
  | .migrationRelease a0 => Sys2Proof.Machine.execMigrationRelease a0 s
  | .flitReceive a0 a1 => Sys2Proof.Machine.execFlitReceive a0 a1 s
  | .laneFail a0 a1 => Sys2Proof.Machine.execLaneFail a0 a1 s
  | .linkRetrainComplete a0 => Sys2Proof.Machine.execLinkRetrainComplete a0 s
  | .linkDown a0 => Sys2Proof.Machine.execLinkDown a0 s
  | .linkRetrain a0 a1 => Sys2Proof.Machine.execLinkRetrain a0 a1 s
  | .timeSync a0 => Sys2Proof.Machine.execTimeSync a0 s
  | .packageLost a0 => Sys2Proof.Machine.execPackageLost a0 s
  | .packageCutOff => Sys2Proof.Machine.execPackageCutOff s
  | .ctailDoorbell a0 => Sys2Proof.Machine.execCtailDoorbell a0 s
  | .sheadDoorbell a0 => Sys2Proof.Machine.execSheadDoorbell a0 s
  | .ctlWrite a0 => Sys2Proof.Machine.execCtlWrite a0 s
  | .registerWrite a0 a1 => Sys2Proof.Machine.execRegisterWrite a0 a1 s
  | .sessionRekey a0 => Sys2Proof.Machine.execSessionRekey a0 s
  | .launch a0 a1 a2 a3 => Sys2Proof.Machine.execLaunch a0 a1 a2 a3 s
  | .admissionMessage a0 a1 a2 => Sys2Proof.Machine.execAdmissionMessage a0 a1 a2 s
  | .admissionTimeout a0 => Sys2Proof.Machine.execAdmissionTimeout a0 s
  | .endLaunch a0 a1 => Sys2Proof.Machine.execEndLaunch a0 a1 s
  | .resumeHart a0 a1 a2 => Sys2Proof.Machine.execResumeHart a0 a1 a2 s
  | .preEmpt a0 a1 => Sys2Proof.Machine.execPreEmpt a0 a1 s
  | .acceptFeatures a0 a1 => Sys2Proof.Machine.execAcceptFeatures a0 a1 s
  | .closeHostFedQueue a0 a1 a2 => Sys2Proof.Machine.execCloseHostFedQueue a0 a1 a2 s
  | .setPowerCap a0 a1 => Sys2Proof.Machine.execSetPowerCap a0 a1 s
  | .queueSend a0 a1 a2 a3 => Sys2Proof.Machine.execQueueSend a0 a1 a2 a3 s
  | .queueTake a0 a1 a2 a3 a4 => Sys2Proof.Machine.execQueueTake a0 a1 a2 a3 a4 s
  | .unknownCommand a0 => Sys2Proof.Machine.execUnknownCommand a0 s
  | .packageReset a0 => Sys2Proof.Machine.execPackageReset a0 s
  | .attestationReport a0 => Sys2Proof.Machine.execAttestationReport a0 s
  | .islandClockChange a0 a1 => Sys2Proof.Machine.execIslandClockChange a0 a1 s
  | .thermalThrottle a0 => Sys2Proof.Machine.execThermalThrottle a0 s
  | .thermalRecover a0 => Sys2Proof.Machine.execThermalRecover a0 s
  | .thermalStop => Sys2Proof.Machine.execThermalStop s
  | .acknowledgement a0 => Sys2Proof.Machine.execAcknowledgement a0 s
  | .configurationRequest => Sys2Proof.Machine.execConfigurationRequest s
  | .softError a0 a1 a2 a3 => Sys2Proof.Machine.execSoftError a0 a1 a2 a3 s

end Sys2Proof.Machine
end

