-- ==== Sys2Proof/Machine/Late.lean ====
section
/-! DEFINITION. Vector instructions that the scalar path has gone past (R31, R33, R213, R380, log 61): which head may go to the vector
queue, and its execution there when it has reached the head of the queue. -/

namespace Sys2Proof.Machine

/-- Control registers `k` with what vector instructions write as `new` has it: the flags with their first failures, and the counts of
ECC. -/
def Ctl.notes (k new : Ctl) : Ctl := { k with flags := new.flags, fx := new.fx, pcnt := new.pcnt, cecc := new.cecc }

/-- What an instruction that waits in the vector queue finds when it executes: the scalar and control registers of its issue, and the
register stores, flags and streams of now. It stands in no loop, no hart stops in it, and a trap in it would not return. -/
def State.lateView (s : State) (l : LateOp) (stamp : Nat) : State :=
  let c := s.core
  { s with core := { c with
      fw := false, run := .running, pc := l.pc, line := none, x := l.x, sq := [], vq := [], stamp := stamp, stopAt := none, loop := .inactive,
      ctl := { l.ctl.notes c.ctl with intrap := true } } }

/-- The execution of an instruction that waited: the state afterwards, with the PC of the view; none when it would trap. -/
def State.runView (s : State) (l : LateOp) (stamp : Nat) : Option State :=
  match exec l.instr (s.lateView l stamp) with
  | .next t => if t.core.run = .running then some t else none
  | _ => none

/-- The state after an execution, with the hart's own place, scalar registers and wait as they were; `vq` still waits in the queue. -/
def State.merge (s t : State) (vq : List Acc) : State :=
  let c := s.core
  let d := t.core
  { t with quads := s.quads, core := { c with
      vec := d.vec, m := d.m, tiles := d.tiles, acc := d.acc, rowType := d.rowType, ecc := d.ecc, ctl := c.ctl.notes d.ctl,
      sS := d.sS, sV := d.sV, ahead := d.ahead, waits := d.waits, remote := d.remote, planes := d.planes, flags := d.flags,
      vq := d.vq ++ vq } }

/-- The vector registers, tiles and rows of an instruction that waits are filled (R60). Its scalar operands it has. -/
def State.viewFilled (s : State) (l : LateOp) (stamp : Nat) : Bool :=
  let v := s.lateView l stamp
  !({ v with core := { v.core with waits := v.core.waits.filter fun w => !w.dest.isX } } : State).interlocked l.instr

/-- The first entry of the focused core's vector queue is an instruction: it executes when its registers are filled. One that has made
some of its accesses stays in the queue for the others. -/
def State.performLate (s : State) : State :=
  match s.core.vq with
  | { op := .late l, stamp := n, sluice := b } :: rest =>
    if !s.viewFilled l n then s
    else match s.runView l n with
      | some t =>
        if t.core.pc = l.pc then
          s.merge t ({ op := .late { l with ctl := { l.ctl with estart := t.core.ctl.estart } }, stamp := n, sluice := b } :: rest)
        else s.merge t rest
      | none => s
  | _ => s

/-- The oldest entry of core n's vector queue is performed: a piece of an access, or an instruction. -/
def State.performVector (s : State) (n : Nat) : State :=
  if (s.coreAt n).vq.head?.any fun a => a.op.late?.isSome then ((s.focus n).performLate).focus s.core.num else s.runV n 1

/-- The focused core's vector queue executes the instructions that have reached its head, and performs the accesses behind them unless
the machine leaves them. -/
def State.catchUp (s : State) : Nat → State
  | 0 => s
  | k + 1 =>
    if s.core.lates.isEmpty || s.pick.late then s
    else
      let t := s.performLate
      (if t.pick.deferV then t else t.settleV t.core.num).catchUp k

/-! What the scalar path may go past. -/

/-- Registers that hold the addresses of a vector memory instruction, and its mask. -/
def addressOf : Instr → List VName × Gov
  | .vldx _ _ b _ g | .vstx _ _ b _ g | .vamo _ _ b _ _ g => ([b], g)
  | .vldr _ _ _ g | .vst _ _ _ g | .vsts _ _ _ _ g | .vstr _ _ _ _ g => ([], g)
  | _ => ([], { me := false, m := 0, g := 0 })

/-- The addresses do not depend on what is still to be loaded or to execute. -/
def State.addressKnown (s : State) (i : Instr) : Bool :=
  let c := s.core
  let a := addressOf i
  c.maskKnown a.2 && a.1.all fun b => (List.range c.spanOf).all fun k =>
    let r := c.phys (b.toNat + k)
    (c.pendingV.all fun p => p.1 != c.ctl.bank.toNat * 32 + r) && c.lates.all fun l =>
      let d : Core := { c with ctl := l.ctl }
      (usesOf d l.instr).v.all fun g => !(d.physGroup g.1 g.2).contains r

/-- Instructions that may wait in the vector queue while the scalar path goes on (R33): all of the queue but those for whose result the
scalar path waits, those that it issues itself, and those that drain. -/
def mayWait (c : Core) : Instr → Bool
  | .mcount .. | .mfirst .. | .vcompress .. | .vld .. | .vlds .. | .qsend .. | .eissue .. | .ewait .. => false
  | i => isVector c i || writesNotes i

/-- An entry of the queue is left for this QRECV (R213). -/
def State.entryLeft (s : State) (l : LateOp) : Bool :=
  match l.takes with
  | none => true
  | some q => (s.queueOf s.core q).any fun k => s.reserved q < k.entries.length

/-- The head as an instruction that waits. -/
def State.asLate (s : State) (i : Instr) : LateOp :=
  { instr := i, pc := s.core.curPc, x := s.core.x, ctl := s.core.ctl }

/-- The instructions of the queue one after another, whatever the data: the state after those and instruction l, when none of them
would trap or wait. -/
def State.foresee (s : State) (ls : List LateOp) : Option State :=
  ls.foldl (fun (o : Option State) l => o.bind fun t =>
    (t.runView l t.core.stamp).bind fun u => if u.core.pc = l.pc then none else some (t.merge u [])) (some { s with core := { s.core with vq := [] } })

/-- No register can become poisoned, and none is (R149, R261). -/
def Core.noPoison (c : Core) : Bool :=
  (c.ecc.all fun e => !e.poisoned) && (c.waits.all fun w => w.dest.isX) && c.lates.all fun l => match l.instr with
    | .vldr .. => false
    | _ => true

/-- The scalar path of the focused user hart goes past a head that waits in the vector queue, when that can neither trap nor wait for
anything but what stands before it (R22, R33, R222). -/
def State.goesLate (s : State) (i : Instr) : Bool :=
  let c := s.core
  let at_ : State := { s with core := { c with vq := [] } }
  s.pick.late && !c.fw && !c.vq.isEmpty && mayWait c i && (c.estartN == 0 || writesNotes i) && c.stopAt.isNone && c.noPoison &&
    !at_.interlocked i && s.addressKnown i && s.entryLeft (s.asLate i) && (!writesNotes i || !c.lates.isEmpty) &&
    (s.foresee (c.lates ++ [s.asLate i])).isSome

/-- The head goes to the vector queue, and the hart goes on. What a CRWR writes that no vector instruction does, it writes at once. -/
def State.queueHead (s : State) (i : Instr) : State :=
  let c := s.core
  let a : Acc := { stamp := c.stamp, sluice := false, op := .late (s.asLate i) }
  let ctl := match i with
    | .crwr a n => (c.ctl.write n.toNat (s.x a).val).notes c.ctl
    | _ => c.ctl
  ({ s with core := { c with vq := c.vq ++ [a], ctl := ctl } }.bump).advance

end Sys2Proof.Machine
end

