-- ==== Sys2Proof/Machine/Outside.lean ====
section
/-! DEFINITION. The moves of the agenda that are no row of the opcode table (log 5): which core and context is in focus, what the
machine chooses, what other packages of a launch tell this one (R43, R165, R251, R253, R258, R285, R288, R291), and what firmware
sets (R218, R219, R221, R298). -/

namespace Sys2Proof.Machine

/-! Other packages of a launch. -/

/-- The open `.pod` generation of a stage; the first arrival, of whatever package, opens it (R44). -/
def State.podGen (s : State) (launch stage : Nat) : OpenGen :=
  (s.barrierOf launch stage .pod 0).opened.getD
    { members := s.stageHarts launch stage none, arrived := [], clock := 0, remote := false }

/-- A hart of another package arrives at the `.pod` barrier of a stage. -/
def State.podOpens (s : State) (launch stage : Nat) : State :=
  s.setBarrier { s.barrierOf launch stage .pod 0 with opened := some (s.podGen launch stage) }

/-- The harts of every other package have arrived at the `.pod` generation, with their largest clock (R43, R186). -/
def State.podArrived (s : State) (launch stage clock : Nat) : State :=
  let o := s.podGen launch stage
  s.setBarrier (s.closeGen { s.barrierOf launch stage .pod 0 with
    opened := some { o with remote := true, clock := max o.clock clock } })

/-- Change a launch. -/
def State.modLaunch (s : State) (id : Nat) (f : Launch → Launch) : State :=
  match s.launchAt id with
  | some l => s.setLaunch (f l)
  | none => s

/-- The loader of another package has finished its copies (R253). -/
def Launch.copiedOn (l : Launch) (pkg : BitVec 12) : Launch :=
  if l.copied.contains pkg then l else { l with copied := pkg :: l.copied }

/-- A tensor or a flight of another package keeps a stage from retiring, or no longer does (R46, R251). -/
def Launch.heldElsewhere (l : Launch) (pkg : BitVec 12) (stage : Nat) (holds : Bool) : Launch :=
  let rest := l.elsewhere.filter fun k => k != (pkg, stage)
  { l with elsewhere := if holds then (pkg, stage) :: rest else rest }

/-- Every package has abandoned the harvest; what was sent after its cut and is still here is discarded, as every package's
rollback does (R285, R286). -/
def State.unblock (s : State) (id : Nat) : State :=
  match s.launchAt id with
  | some l =>
    ({ s with ingress := s.ingress.filter fun p => !(l.blocked && p.launch == l.tag.toNat && p.colour != l.colour) } : State).setLaunch
      { l with blocked := false }
  | none => s

/-- The link of another package comes up or goes down on a plane (R258). -/
def State.farLink (s : State) (pkg : BitVec 12) (plane : Nat) (up : Bool) : State :=
  let rest := s.farDown.filter fun e => e != (pkg, plane)
  ({ s with farDown := if up then rest else (pkg, plane) :: rest } : State).resend

/-- Firmware of another package moves a run of its DRAM that remote slots here may name (R166). -/
def State.farMove (s : State) (pkg : BitVec 12) (old new len : Nat) : State :=
  let mv : MoveRecord := { pkg := pkg, old := old, new := new, len := len, phase := 1, begun := s.time }
  if pkg = s.pkg ∨ len = 0 ∨ s.moves.any fun m => m.pkg == pkg && overlaps m.old m.len old len then s
  else { s with moves := s.moves ++ [mv] }

/-! Migration between other packages, and to this one (R288, R289). -/

/-- A remote slot that names the source names the target. -/
def SlotEntry.migrate (e : SlotEntry) (source target : BitVec 12) : SlotEntry :=
  if e.v && e.rem && e.pkg == source then { e with pkg := target, gen := e.gen + 1 } else e

def Core.migrate (c : Core) (source target : BitVec 12) : Core :=
  { c with slots := c.slots.map fun e => (e.1, e.2.migrate source target) }

def Launch.migrate (l : Launch) (source target : BitVec 12) : Launch :=
  { l with images := l.images.map fun i => { i with slots := i.slots.map fun e => (e.1, e.2.migrate source target) },
           pkgs := l.pkgs.map fun p => if p = source then target else p,
           copied := l.copied.map (fun p => if p = source then target else p),
           elsewhere := l.elsewhere.map fun e => if e.1 = source then (target, e.2) else e }

/-- No remote access of a launch from here to a package is unperformed (R288 phase 2). -/
def State.quietToward (s : State) (launch : Nat) (pkg : BitVec 12) : Bool :=
  match s.launchAt launch with
  | some l => s.egress.all fun p => p.launch != l.tag.toNat || p.dst != pkg || !p.body.answers
  | none => true

/-- A launch has moved from one package to another, of which this is neither (R288 phase 3, log 60). It waits for what its harts here
have sent to the source. -/
def State.farMigration (s : State) (launch : Nat) (source target : BitVec 12) : State :=
  if source = s.pkg ∨ target = s.pkg ∨ !s.quietToward launch source then s
  else
    let f (c : Core) : Core := if c.belongs launch then c.migrate source target else c
    ({ s with core := f s.core, others := s.others.map f,
              saves := s.saves.map fun v => { v with core := f v.core } } : State).modLaunch launch
      fun l => l.migrate source target

/-- A hart as a package may hold it: its register stores in canonical form (log 2), its vector length within VLMAX (R53). -/
def Core.storesWf (c : Core) : Bool := c.vec.wf && c.tiles.wf && c.acc.wf && decide (c.vlN ≤ vlmax c.spanOf c.eb)

/-- So is every hart that a launch brings. -/
def Launch.storesWf (l : Launch) (saves : List Save) : Bool :=
  (saves.all fun v => v.core.storesWf) &&
    l.harvests.all fun h => (h.saves.all fun v => v.core.storesWf) && h.captures.all fun k => k.save.core.storesWf

/-- A launch arrives from another package with its flights, contexts, barriers, records and the contents of its extents; its flights
come back as R425 and R42 say (R288 phases 3 and 4, R289, log 60). Its world keeps the integrity mode (R301). -/
def State.arrival (s : State) (l : Launch) (flights : List Flight) (saves : List Save) (records : List BallastRecord)
    (barriers : List Barrier) (l720 : Bool) (mem : List (Nat × Mem)) : State :=
  let mine (f : FlightId) : Bool := f.launch == l.id
  let fl := (flights.filter fun f => mine f.id && (f.place == .saved || f.place == .parked || f.place == .ended)).map
    fun f => { f with due := true }
  let rs := records.filter fun r => r.launch == l.id
  let dead := rs.filter fun r => match r.kind with
    | .tensor _ _ _ _ _ d => d
    | .indirect _ => false
  if l.id ≠ s.nextLaunch ∨ l.state ≠ .running ∨ !l.storesWf saves ∨ s.boot.stage ≠ .running then s
  else
    let s1 : State := { s with
      nextLaunch := s.nextLaunch + 1, launches := s.launches ++ [{ l with migration := none }],
      flights := s.flights ++ fl, saves := s.saves ++ saves.filter (fun v => mine v.flight), records := s.records ++ rs,
      barriers := s.barriers ++ barriers.filter (fun b => b.launch == l.id),
      forwards := s.forwards.filter (fun f => !rs.any fun r => r.key == (f.home, f.id)),
      finalisers := s.finalisers ++ dead.map BallastRecord.key }
    let s2 := (localSlots l.images).foldl (fun (s : State) e => s.ownExtents e false) s1
    let s3 := l.images.foldl (fun (s : State) i => s.ownExtents (i.slotAt i.codeSlot) true) s2
    mem.foldl (fun (s : State) e => if l.extents.contains e.1 then s.writeExtent e.1 e.2 else s) (s3.setIntegrity l.world l720)

/-! What firmware sets. -/

/-- Weight and grow threshold of a launch (R218, R219). -/
def Launch.setPolicy (l : Launch) (weight : Nat) (grow : Rat) : Launch :=
  if 1 ≤ weight ∧ weight ≤ 255 then { l with weight := weight, grow := grow } else l

/-- Bandwidth share of a world (R221). -/
def State.setShare (s : State) (world : BitVec 10) (share : Nat) : State :=
  if 1 ≤ share ∧ share ≤ 1000 then { s with shares := (world, share) :: s.shares.filter fun e => e.1 != world } else s

/-- Firmware loads a key pair into a slot that no revocation holds, and the slot is live (R298 to R300). -/
def State.keyWrite (s : State) (key : BitVec 6) (material : BitVec 512) : State :=
  if s.revoking.contains key then s
  else { s.rekey key material with live := s.live ||| (1#64 <<< key.toNat) }

/-- The context in focus: the firmware of a compute core runs only once the dies run (R316). -/
def State.context (s : State) (fw : Bool) : State :=
  if fw && s.boot.stage != .running then s else { s with core := { s.core with fw := fw } }

/-- A move that is no row of the opcode table. -/
def State.applyMove (s : State) (m : Move) : State :=
  match m with
  | .event _ => s
  | .focus n => s.focus n
  | .context fw => s.context fw
  | .choose p => { s with pick := p }
  | .performS n => s.runS n false 1
  | .performF n => s.runS n true 1
  | .performV n => s.runV n 1
  | .readAhead n line => s.readAhead n line
  | .podOpens launch stage => s.podOpens launch stage
  | .podArrived launch stage clock => s.podArrived launch stage clock
  | .copiedBy launch pkg => (s.modLaunch launch fun l => l.copiedOn pkg).freeForMinimums
  | .stageElsewhere launch pkg stage holds => s.modLaunch launch fun l => l.heldElsewhere pkg stage holds
  | .abandonedEverywhere launch => s.unblock launch
  | .farLink pkg plane up => s.farLink pkg plane up
  | .farMove pkg old new len => s.farMove pkg old new len
  | .farStop launch stands => s.modLaunch launch fun l => { l with halted := stands }
  | .farMigration launch source target => s.farMigration launch source target
  | .arrival l flights saves records barriers l720 mem => s.arrival l flights saves records barriers l720 mem
  | .setPolicy launch weight grow => s.modLaunch launch fun l => l.setPolicy weight grow
  | .setShare world share => s.setShare world share
  | .keyWrite key material => s.keyWrite key material
  | .harvestEverywhere launch num => s.harvestEverywhere launch num
  | .setIntegrity world l720 => s.setIntegrity world l720
  | .traffic core sectors => s.traffic core sectors

end Sys2Proof.Machine
end

