-- ==== Sys2Proof/Machine/Step.lean ====
section
/-! DEFINITION. One step of the package: what the agenda lists, else an accepted command of the ring, else the
focused core (log 5). Time passes before each step (log 8). -/

namespace Sys2Proof.Machine

/-- The focused hart stops where its instruction left it, at a boundary or part-way (R22, R231). -/
def stopAfter : Res → Res
  | .next s => .next (match s.core.run with
    | .running => s.stopHart s.core.num none
    | .waiting (.trap ..) => s
    | .waiting w => s.stopHart s.core.num (some w)
    | _ => s)
  | r => r

/-- The head at the PC issues, or goes to the vector queue, or waits. -/
def issue (s : State) : Res :=
  match s.front with
  | .stop r => r
  | .hold i s => .next (if s.goesLate i then s.noteSlot.queueHead i else s.waitHead)
  | .go i s => if s.goesLate i then .next (s.noteSlot.queueHead i) else exec i s.noteSlot

/-- A hart that is to stop at an element: the vector instruction at the PC issues, and the hart stops where that leaves it; another
head does not issue any more (R22, R231, R341). -/
def stopIssue (s : State) : Res :=
  match s.front with
  | .stop r => stopAfter r
  | .hold _ s1 => stopAfter (.next s1.waitHead)
  | .go i s1 => if isVector s1.core i then stopAfter (exec i s1.noteSlot) else .next (s.stopHart s.core.num none)

/-- The focused core's context takes a step: an issued head, the end of a wait, or nothing. A hart that is to stop does so
after the instruction it has begun (R231); one that parks waits for its save (R228). -/
def stepContext (s : State) : Res :=
  match s.core.fw, s.core.run with
  | true, _ => if s.fwMay then issue s else .next s
  | false, .running => if s.core.stopAt.isSome then stopIssue s else issue s
  | false, .parking => .next (s.finishPark s.core.num)
  | false, .waiting w =>
    match s.wakeRow w with
    | some i => exec i s
    | none => .next (s.stayWaiting w)
  | false, _ => .next s

/-- The focused core takes a step, once its vector queue has caught up (R33). -/
def stepCore (s : State) : Res := stepContext (s.catchUp s.core.vq.length)

/-- One move of the agenda. -/
def runMove (m : Move) (s : State) : Res :=
  match m with
  | .event i => exec i s
  | .performV n => .next (s.performVector n)
  | m => .next (s.applyMove m)

/-- A move that a package which holds itself in reset after a thermal stop still makes: the reset that follows a power cycle
(R320). -/
def Move.revives : Move → Bool
  | .event (.packageReset _) => true
  | _ => false

/-- One step. -/
def step (s : State) : Res :=
  let s := s.tick
  match s.agenda with
  | m :: rest =>
    if s.boot.stage = .stopped ∧ !m.revives then .next { s with agenda := rest } else runMove m { s with agenda := rest }
  | [] =>
    if s.boot.stage = .stopped then .next s
    else match s.accepted with
    | i :: rest => exec i { s with accepted := rest }
    | [] => stepCore s

/-- The state with an instruction, numbered as the opcode table numbers its bits, where step fetches next: the
focused hart runs, and memory holds a line with that one head at its PC's line (log 4, log 24). -/
def State.withFetchWord (s : State) (nbits w : Nat) : State :=
  let base := lineBase s.core.curPc
  let bytes := (oneHeadLine (tableHead nbits w) (tableTail nbits w)).flatMap fun h => toBytes 2 h.toNat
  { s with core := { s.core.goto (base + 2) true with run := .running },
           mem := s.mem.setMany (place base.toNat bytes),
           agenda := [], accepted := [] }

end Sys2Proof.Machine
end

