-- ==== Sys2Proof/Safety.lean ====
section
/-! DEFINITION. What counts as a safe state and a safe step, and the words that the statements use: what a step may
change, and where control goes. -/

namespace Sys2Proof.Machine

/-- Both memories are in canonical form (log 2). -/
def State.MemOk (s : State) : Prop := s.mem.wf = true ∧ s.host.wf = true

/-- The state in which a step of the focused core acts: time has passed (log 8), and its vector queue has caught up (R33, log 61). -/
def State.ready (s : State) : State := s.tick.catchUp s.core.vq.length

/-- A step may issue the head at the PC of the focused context: the agenda and the ring list nothing, the package is not held in
reset, and the user hart runs and its reel issues the head (R24, R25), or the
firmware context may take the slot (R34). -/
def State.mayIssue (s : State) : Prop :=
  s.agenda = [] ∧ s.accepted = [] ∧ s.boot.stage ≠ .stopped ∧ s.ready.reelWaits = false ∧
    if s.ready.core.fw = true then s.ready.fwMay = true else s.ready.core.run = .running

/-- What a step makes of the outcome of a head: a user hart that is to stop does so where the instruction left it (R22, R231). -/
def State.ends (s : State) (r : Res) : Res := if s.core.fw = false ∧ s.core.stopAt ≠ none then stopAfter r else r

/-- The step that issues the head i at the state t: i runs in the next issue slot, or waits in the vector queue (R33, log 61). A user
hart that is to stop does so where a vector instruction leaves it, and before any other (R22, R231, R341). -/
def State.issues (s t : State) (i : Instr) : Res :=
  if t.goesLate i = true then .next (t.noteSlot.queueHead i)
  else if s.core.fw = false ∧ s.core.stopAt ≠ none ∧ isVector t.core i = false then .next (s.stopHart s.core.num none)
  else s.ends (exec i t.noteSlot)

/-- No deferred integrity failure is left to be raised by the instruction (R302). -/
def State.integPassed (s : State) : Prop := s.deferred = false ∨ s.core.ctl.integ = 0 ∨ s.core.tested = true

/-- t is u but for what the flow of control changes in the focused core: PC, line entry, count of heads, the mark of the
deferred-integrity test, the loop with the rotation and the gates, and the quads' reels (R25, R77, R79, R136, R137, R302). -/
def State.flowed (u t : State) : Prop :=
  t = { u with
    quads := t.quads,
    core := { u.core with
      pc := t.core.pc, fwPc := t.core.fwPc, line := t.core.line, fwLine := t.core.fwLine, heads := t.core.heads,
      tested := t.core.tested, loop := t.core.loop,
      ctl := { u.core.ctl with rot := t.core.ctl.rot, gates := t.core.ctl.gates } } }

/-- The core with other files of x registers. -/
def Core.withFiles (c : Core) (x fwX : Vector XReg 32) : Core := { c with x := x, fwX := fwX }
def State.withFiles (s : State) (x fwX : Vector XReg 32) : State := { s with core := s.core.withFiles x fwX }

/-- t is u but for the two files of x registers of the focused core. -/
def State.sameButX (u t : State) : Prop := t = u.withFiles t.core.x t.core.fwX

/-- Of the focused core's x registers only x d of the running context differs between s and t: it holds v, unless d is
0 (R51). -/
def State.wroteX (s t : State) (d : XName) (v : XReg) : Prop :=
  t.core.fw = s.core.fw ∧ t.core.num = s.core.num ∧
    (∀ r : XName, t.x r = if r = d ∧ d ≠ 0 then v else s.x r) ∧
    (∀ r : XName, t.core.readXOf (!s.core.fw) r = s.core.readXOf (!s.core.fw) r)

/-- The instruction completes: x d holds v, control goes on in sequence, and nothing else changes. -/
def Delivers (i : Instr) (s : State) (d : XName) (v : XReg) : Prop :=
  ∃ t, exec i s = .next t ∧ s.advance.sameButX t ∧ s.wroteX t d v

/-- As `Delivers`, with an untagged value (R155). -/
def DeliversWord (i : Instr) (s : State) (d : XName) (w : Word) : Prop := Delivers i s d { val := w, tag := 0 }

/-- Nothing is pending in the S stream of the context that runs, and the machine performs its accesses at once (log 6)
with the current versions (log 9): what a load or a store of the step does is then seen in the next state. -/
def State.promptS (s : State) : Prop :=
  (if s.core.fw then s.core.fq = [] else s.core.sq = []) ∧ s.pick.deferS = false ∧ s.pick.held = 0

/-- The n-byte access through x register x passes the check of R157 and lands at a in this package's memory. -/
def State.landsLocal (s : State) (x : XReg) (off : Int) (n : Nat) (kind : AccKind) (a : Nat) : Prop :=
  s.check x off n n kind = .ok { pkg := none, addr := a } ∧
    (region a = .dram ∧ region (a + (n - 1)) = .dram ∨ region a = .scratch ∧ region (a + (n - 1)) = .scratch)

/-- The access passes the check and lands at a in another package, through a remote slot. -/
def State.landsRemote (s : State) (x : XReg) (off : Int) (n : Nat) (kind : AccKind) (pkg : BitVec 12) (a : Nat) : Prop :=
  s.check x off n n kind = .ok { pkg := some pkg, addr := a }

/-- A store to a line may be performed: no engine owns it (R184), and its extent is not sealed (R284). -/
def State.storeAllowed (s : State) (a : Nat) : Prop :=
  s.owned (a / 128) = false ∧
    (region (128 * (a / 128)) = .dram → (s.extentAt (128 * (a / 128) / Config.extentBytes)).sealed = false)

/-- After a load nothing differs from the state after the sequential flow but the x registers, the S stream and its
place in program order, line clocks and the counter of choices. -/
def State.loaded (s t : State) : Prop :=
  t = { s.advance with
    lines := t.lines, free := t.free,
    core := { s.advance.core with
      x := t.core.x, fwX := t.core.fwX, sS := t.core.sS, sF := t.core.sF, stamp := t.core.stamp } }

/-- As `loaded`, for an access that writes memory: memory, superseded versions, the extent's trace bits and the
earlier bytes of code lines may differ too. -/
def State.storedX (s t : State) : Prop :=
  t = { s.advance with
    mem := t.mem, lines := t.lines, old := t.old, extents := t.extents, code := t.code, free := t.free,
    core := { s.advance.core with
      x := t.core.x, fwX := t.core.fwX, sS := t.core.sS, sF := t.core.sF, stamp := t.core.stamp } }

/-- Byte k of memory after the n-byte value w has been stored at a (R2). -/
def storedByte (m : Mem) (a n w k : Nat) : Byte :=
  if a ≤ k ∧ k < a + n then BitVec.ofNat 8 (w / 256 ^ (k - a)) else m.get k

/-- Exactly the n bytes at a hold the value w; every other byte of memory is as before. -/
def State.storedAt (s t : State) (a n w : Nat) : Prop := ∀ k : Nat, t.mem.get k = storedByte s.mem a n w k

/-- A store or an atomic by the context's S stream on the line at a makes a new version with write time
max(pts, rts + 1), which becomes the stream's clock (R175), and sets the trace bits of its extent (R160). -/
def State.newVersion (s t : State) (a : Nat) : Prop :=
  let l := s.clockAt (a / 128)
  let c := max (s.core.stream s.core.fw).pts (l.rts + 1)
  t.clockAt (a / 128) = { line := a / 128, wts := c, rts := c } ∧ (t.core.stream s.core.fw).pts = c ∧
    (region (128 * (a / 128)) = .dram → (t.extentAt (128 * (a / 128) / Config.extentBytes)).trace = 0xF)

/-- A user hart whose earlier vector instructions have executed (R33) and that no move and no pre-emption waits for
(R41). -/
def State.calm (s : State) : Prop := s.core.fw = false ∧ s.core.vq = [] ∧ s.mustStop s.core = false

/-- The instruction raises an illegal-instruction trap with this sub-cause; tval is its head and tail (R86, R87). -/
def TrapsIllegal (i : Instr) (s : State) (sub : BitVec 8) : Prop :=
  exec i s = s.trap 0x01 sub 0 (i.tail ++ i.head)

/-- The hart has a handler that may take a trap: its own (R223). -/
def State.handled (s : State) : Prop := s.core.ctl.intrap = false ∧ s.core.ctl.thandler ≠ 0

/-- t is the state after the trap entry of R223 from s, with the PC it was raised at: cr.tcause, cr.tpc, cr.tel, cr.tval,
intrap and cr.estart are written, control is at cr.thandler, and besides the reel nothing else differs. -/
def State.entered (s t : State) (cause sub : BitVec 8) (el : BitVec 12) (val : Word) : Prop :=
  t = { s with
    quads := t.quads,
    core := { s.core with
      run := .running, pc := s.core.ctl.thandler, line := none, heads := s.core.heads + 1, tested := false,
      ctl := { s.core.ctl with
        tsub := sub, tcause := cause, tpc := s.core.pc, tel := el, tval := val, intrap := true, estart := 0 } } }

/-- p is the k-th arrived packet, the first of its path, and of the package's own colour for its launch: no cut
concerns it (R188, R282). -/
def State.arrived (s : State) (k : Nat) (p : Packet) : Prop :=
  s.ingress[k]? = some p ∧ s.atHead k p = true ∧ ∀ l : Launch, s.launchByTag p.launch = some l → p.colour = l.colour

/-- The egress queue gained these packets, back to the sender of p, each on the virtual channel of its kind. -/
def State.repliedTo (s t : State) (p : Packet) (bodies : List PacketBody) : Prop :=
  ∃ es : List Packet, t.egress = s.egress ++ es ∧
    es.map (fun e => (e.src, e.dst, e.core, e.vc, e.body)) = bodies.map fun b => (s.pkg, p.src, p.core, b.vc, b)

/-- Core n runs a hart of flight f from pc in the state of R38: scalar registers zero and untagged, no loop, no mask gate,
no accumulator type, trap and vector control registers at their reset values. -/
def State.freshHart (s : State) (n : Nat) (f : FlightId) (pc : Word) : Prop :=
  let c := s.coreAt n
  c.run = .running ∧ c.flight = some f ∧ c.pc = pc ∧ c.line = none ∧ c.loop.active = false ∧ c.acc = [] ∧
    c.rowType = .replicate 64 .none ∧ c.ctl.index = BitVec.ofNat 8 f.index ∧ c.ctl.stage = BitVec.ofNat 4 f.stage ∧
    c.ctl.vl = 0 ∧ c.ctl.estart = 0 ∧ c.ctl.rot = 0 ∧ c.ctl.gates = 1 ∧ c.ctl.flags = 0 ∧ c.ctl.intrap = false ∧
    c.ctl.thandler = 0

/-- The saved harts of a flight stand on quad q as they were saved: at their PC, with their scalar registers but for
those based on the scratchpad (R154), masks, tiles and accumulators, the epoch one higher (R39), their wait looked at
again (R41). Only a hart that a trap parked keeps its save, from which it resumes (R228); one with a rollback notice takes it
first (R227), which leaves its registers as they were. -/
def State.cameBack (s t : State) (f : FlightId) (q : Nat) : Prop :=
  (∃ x ∈ t.flights, x.id = f ∧ x.place = .quad q) ∧ (∀ v ∈ t.saves, v.flight = f → v.core.run = .parked) ∧
  ∀ v ∈ s.savesOf f,
    let c := t.coreAt (4 * q + v.core.num % 4)
    (v.core.notice = false → c.pc = v.core.pc ∧ c.run = resumeRun v.core.run) ∧ c.m = v.core.m ∧ c.tiles = v.core.tiles ∧ c.acc = v.core.acc ∧
      c.ctl.flags = v.core.ctl.flags ∧ c.ctl.vl = v.core.ctl.vl ∧ c.ctl.epoch = v.core.ctl.epoch + 1 ∧
      c.flight = v.core.flight ∧
      ∀ r : XName, (v.core.readXOf false r).tag ≠ 0x100 → c.readXOf false r = v.core.readXOf false r

/-! Vector and matrix instructions. -/

/-- The elements in l of the group at d, w bytes wide, take the values that f gives, the flags that f gives with them are
merged (R65), and an instruction of n elements ends, or stops part-way (R22); nothing else changes. -/
def DeliversElems (i : Instr) (s : State) (d w n : Nat) (l : List Nat) (f : Nat → Nat × FlagSet) : Prop :=
  let e := s.endVector (s.hiOf n) n
  let r := l.map fun k => (k, (f k).2)
  exec i s = .next { e with core := { e.core with
    vec := (s.core.putElems d w (l.map fun k => (k, (f k).1))).vec,
    ctl := { e.core.ctl with
      flags := r.foldl (fun v k => v ||| k.2) s.core.ctl.flags,
      fx := s.core.ctl.fx.mapIdx fun k old => mergeIndex old s.core.curPc (raisedAt k r) } } }

/-- As `DeliversElems`, for mask bits. -/
def DeliversBits (i : Instr) (s : State) (d : MName) (n : Nat) (l : List Nat) (f : Nat → Bool × FlagSet) : Prop :=
  let e := s.endVector (s.hiOf n) n
  let r := l.map fun k => (k, (f k).2)
  exec i s = .next { e with core := { e.core with
    m := (s.core.putMask d (l.map fun k => (k, (f k).1))).m,
    ctl := { e.core.ctl with
      flags := r.foldl (fun v k => v ||| k.2) s.core.ctl.flags,
      fx := s.core.ctl.fx.mapIdx fun k old => mergeIndex old s.core.curPc (raisedAt k r) } } }

/-- Operand a of element i, through the neighbour form (R127), and operand b, an element or x b (R376). -/
def State.elemA (s : State) (a : VName) (c : Ctrl) (i : Nat) : Nat :=
  match neighbourAt c.nb c.edge s.core.vlN i with
  | some j => s.core.elem a.toNat s.core.eb j
  | none => 0
def State.elemB (s : State) (b : VName) (vx : Bool) (i : Nat) : Nat :=
  if vx then (s.x b).val.toNat % 2 ^ (8 * s.core.eb) else s.core.elem b.toNat s.core.eb i

/-- The operand groups meet the decode checks of R377 that the state decides. -/
def State.groupsOk (s : State) (d : Option VName) (a b : VName) (vx float : Bool) (c : Ctrl) : Bool :=
  s.core.mouldOk { d := d.map BitVec.toNat, a := a.toNat, b := s.operandB b vx, c := none, old := false, float := float, ctl := c }

/-! Vector memory. -/

/-- The register stores of a hart are in canonical form (log 2), and its vector length is at most VLMAX (R53). -/
def Core.StoresOk (c : Core) : Prop :=
  c.vec.wf = true ∧ c.tiles.wf = true ∧ c.acc.wf = true ∧ c.vlN ≤ vlmax c.spanOf c.eb
/-- Every hart of the package is so, on a core, saved, or in a harvest. -/
def State.StoresOk (s : State) : Prop :=
  s.core.StoresOk ∧ (∀ c ∈ s.others, c.StoresOk) ∧ (∀ v ∈ s.saves, v.core.StoresOk) ∧
    ∀ l ∈ s.launches, ∀ h ∈ l.harvests, (∀ v ∈ h.saves, v.core.StoresOk) ∧ ∀ k ∈ h.captures, k.save.core.StoresOk

/-- Nothing is pending in the V stream of the focused hart, nothing is loaded ahead for it (R180), no register of it waits for a
reply, and the machine performs its accesses at once (log 6). -/
def State.promptV (s : State) : Prop :=
  s.core.vq = [] ∧ s.core.ahead = [] ∧ (∀ w ∈ s.core.waits, w.dest.isX = true) ∧ s.pick.deferV = false

/-- Each element in l passes the check of R157 at its offset, lands at P in this package's memory, and finds its line
ready for the access. -/
def State.landsElems (s : State) (x : XReg) (off : Nat → Int) (kind : AccKind) (l : List Nat) (P : Nat → Nat) : Prop :=
  ∀ k ∈ l, s.landsLocal x (off k) s.core.eb kind (P k) ∧ ∀ a : Nat, (a = P k ∨ a = P k + (s.core.eb - 1)) →
    if kind.reads = true then s.owned (a / 128) = false else s.storeAllowed a

/-- The elements in l of the group at d hold the values that f gives, and every other byte of the vector file is as
before. -/
def State.gotElems (s t : State) (d w : Nat) (l : List Nat) (f : Nat → Nat) : Prop :=
  (∀ k ∈ l, t.core.vec.read (s.core.elemCell d w k) w = f k) ∧
  ∀ j : Nat, (∀ k ∈ l, ¬ (s.core.elemCell d w k ≤ j ∧ j < s.core.elemCell d w k + w)) → t.core.vec.get j = s.core.vec.get j

/-- Byte j of memory after the w-byte values E k have been stored at P k, for the elements of l in order. -/
def storedElems (m : Mem) (w : Nat) (P E : Nat → Nat) (l : List Nat) (j : Nat) : Byte :=
  l.foldl (fun v k => if P k ≤ j ∧ j < P k + w then BitVec.ofNat 8 (E k / 256 ^ (j - P k)) else v) (m.get j)

/-- After a vector access whose step ends at element hi of n, t differs from the end of the step only in the vector file, in
memory with its versions and extents, in line clocks, the V stream, the bandwidth tokens, the place in program order and the counter
of choices. -/
def State.accessedV (s t : State) (hi n : Nat) : Prop :=
  let e := s.endVector hi n
  t = { e with
    mem := t.mem, lines := t.lines, old := t.old, extents := t.extents, code := t.code, free := t.free, buckets := t.buckets,
    core := { e.core with vec := t.core.vec, sV := t.core.sV, stamp := t.core.stamp } }

/-! Accumulators and tiles. -/

/-- After a matrix instruction of n elements t differs from the end of it only in the accumulators, their types and the
floating flags with their index registers. -/
def State.wroteAcc (s t : State) (n : Nat) : Prop :=
  let e := s.endVector (s.hiOf n) n
  t = { e with core := { e.core with
    acc := t.core.acc, rowType := t.core.rowType,
    ctl := { e.core.ctl with flags := t.core.ctl.flags, fx := t.core.ctl.fx } } }

/-- Entry c of row r holds the value that f gives, taken modulo 2^32, and its old one where f gives none; row r has the
type that ty gives, else its old one. -/
def State.gotEntries (s t : State) (f : Nat → Nat → Option Nat) (ty : Nat → Option RowType) : Prop :=
  (∀ r c : Nat, r < 64 → c < 384 → t.core.acc.read (accCell r c) 4 =
    match f r c with
    | some v => v % 2 ^ 32
    | none => s.core.acc.read (accCell r c) 4) ∧
  ∀ r : Nat, t.core.rowTy r = (ty r).getD (s.core.rowTy r)

/-- Byte k of column c of tile i holds the value that f gives, and its old one where f gives none. -/
def State.gotTiles (s t : State) (f : Nat → Nat → Nat → Option Byte) : Prop :=
  ∀ i c k : Nat, i < 24 → c < 16 → k < 384 →
    t.core.tiles.get (tileCell i c k) = (f i c k).getD (s.core.tiles.get (tileCell i c k))

/-- A finite value as a multiple of 2^q, for q at or below its exponent. -/
def FNum.units (q : Int) : FNum → Int
  | .fin neg m e => if neg then -((m * 2 ^ (e - q).toNat : Nat) : Int) else (m * 2 ^ (e - q).toNat : Nat)
  | _ => 0

/-- The elements of A and of one column of a tile, and the sum of a row step (R114 to R117). -/
def State.rowSum (s : State) (fa fb : Fmt) (inf : Bool) (A : List Nat) (tile r c : Nat) : Nat :=
  (columnSum fa fb inf A ((List.range A.length).map fun k => s.core.tiles.read (tileCell tile (c % 16) (k * fa.bytes)) fa.bytes)
    (s.core.entry r c)).1

/-! Engines. -/

/-- Command k of core n is outstanding under this serial, with operation op (R193); no other that has not ended bears it (R191). -/
def State.engineHas (s : State) (n : Nat) (serial : BitVec 16) (op : Nat) (k : Command) : Prop :=
  n < 1024 ∧ (s.coreAt n).ofSerial serial = [k] ∧ k.opN = op

/-- Only core n differs between s and t among the cores, and there only as `f` says. -/
def State.onlyCore (s t : State) (n : Nat) (f : Core → Core → Prop) : Prop :=
  t.core.num = s.core.num ∧ f (s.coreAt n) (t.coreAt n) ∧ ∀ j : Nat, j ≠ n → t.coreAt j = s.coreAt j

/-- A piece of command k of core n is done: the command is now k1, with its clock no lower. Besides it, only memory with
its versions, line clocks, extents and earlier code, the bandwidth tokens, and the counter of choices may differ. -/
def State.pieceDone (s t : State) (n : Nat) (serial : BitVec 16) (k k1 : Command) : Prop :=
  t = { s with mem := t.mem, lines := t.lines, old := t.old, extents := t.extents, code := t.code, free := t.free,
               buckets := t.buckets, core := t.core, others := t.others } ∧
  s.onlyCore t n (fun a b => b = { a with cmds := b.cmds }) ∧ (t.coreAt n).outstanding serial = some k1 ∧ k.pts ≤ k1.pts

/-- The instruction loads the i-th source line of command k of core n (R174, R183): the command keeps the line's bytes, its
clock is no lower, and besides it only the lines' clocks, the bandwidth tokens and the counter of choices may differ. -/
def State.loadsPiece (s : State) (op : Instr) (n : Nat) (serial : BitVec 16) (k : Command) (i : Nat) : Prop :=
  let p := linePart k.src k.srcBytes i
  ∃ t k1, exec op s = .next t ∧
    t = { s with lines := t.lines, free := t.free, buckets := t.buckets, core := t.core, others := t.others } ∧
    s.onlyCore t n (fun a b => b = { a with cmds := b.cmds }) ∧ (t.coreAt n).outstanding serial = some k1 ∧ k.pts ≤ k1.pts ∧
    k1.read = i :: k.read ∧ k1.done = k.done ∧ k1.gotBytes p.1 p.2 = s.mem.bytes (k.src + p.1) p.2

/-- The i-th source line of command k is not loaded yet, and may be. -/
def State.mayLoad (s : State) (k : Command) (i : Nat) : Prop :=
  i < lineCount k.src k.srcBytes ∧ k.read.contains i = false ∧ s.ownedByOther k (k.src / 128 + i) = false

/-- From address d on the store holds some bytes; every other cell is as it was. -/
def pasted (m m1 : Mem) (d : Nat) (l : List Byte) : Prop :=
  ∀ j : Nat, m1.get j = if d ≤ j ∧ j < d + l.length then l.getD (j - d) 0 else m.get j

/-- The command at place i of a batch in the group at a (R193, R194). -/
def State.batchCommand (s : State) (a : VName) (i : Nat) : Command :=
  Command.ofBytes ((List.range 64).map fun j => s.core.vec.get (s.core.groupCell a.toNat (64 * i + j)))

/-- u is the state after the commands l of a batch at s, in order, of which q are accepted (R183, R191, R195): they stand behind the
core's other commands, each under the next serial, resolved through its slots, with its clock, its receipt and its mask bit; the
others' mask bits are 0. A command is accepted when its engine has room, is not closed by an earlier refusal of the batch, and the
command is not held. -/
def State.batchRun (s u : State) (md : MName) (a b : VName) (l : List Nat) (q : List (Nat × Command)) : Prop :=
  let bit (t : State) (i : Nat) : Bool := (t.core.m[md.toNat]'md.isLt).getLsbD i
  let stage (i : Nat) : Bool := (s.batchCommand a i).stage
  u.mem = s.mem ∧ u.core.x = s.core.x ∧ u.core.curPc = s.core.curPc ∧ u.core.cmds = s.core.cmds ++ q.map (fun p => p.2) ∧
  u.core.serial = s.core.serial + BitVec.ofNat 16 q.length ∧
  q.map (fun p => p.1) = l.filter (bit u) ∧ (∀ i < 384, i ∉ l → bit u i = bit s i) ∧
  (∀ i ∈ l, bit u i = true ↔
    (s.core.cmds.countP fun k => k.stage == stage i) + (q.countP fun p => p.1 < i && stage p.1 == stage i) <
      (if stage i then Config.stageRoom else Config.copyRoom) ∧
    s.heldCommand (s.batchCommand a i) = false ∧ (s.core.estartN = 0 ∨ s.core.closed (stage i) = false) ∧
    ∀ j ∈ l, j < i → stage j = stage i → bit u j = true) ∧
  ∀ (j : Nat) (p : Nat × Command), q[j]? = some p →
    p.2.serial = s.core.serial + BitVec.ofNat 16 j ∧ p.2.bits = (s.batchCommand a p.1).bits ∧
    p.2.src = (s.core.slot p.2.sslot).base.toNat + p.2.soff ∧ p.2.dst = (s.core.slot p.2.dslot).base.toNat + p.2.doff ∧
    p.2.done = [] ∧ p.2.bad = none ∧ p.2.pts = max s.core.sS.pts s.core.sV.pts ∧
    u.core.vec.read (s.core.groupCell b.toNat (16 * p.1)) 8 = p.2.due.toNat ∧
    u.core.vec.read (s.core.groupCell b.toNat (16 * p.1 + 8)) 2 = p.2.serial.toNat ∧
    u.core.mismatched p.2.serial = false

/-- The command passes the checks of R196, and its ranges lie in memory. -/
def State.commandPasses (s : State) (k : Command) : Prop :=
  s.checkCommand k = none ∧ ∀ r : Res, (s.resolve k).guarded r = r

/-! The fabric and the host. -/

/-- A link takes flits: it is one of the 16, up, and not retraining, and the package is not held in reset. -/
def State.linkTakes (s : State) (k : Nat) : Prop :=
  k < 16 ∧ (s.linkAt k).up = true ∧ (s.linkAt k).retrain = none ∧ s.boot.stage ≠ .stopped

/-- The flits of a packet that were still to come were accepted on link k from state s and acknowledged: the sequence number has
gone on by their number, the packet with this header h, address and body stands last among the arrived ones when it is for this
package, and cores and memory are as before. -/
def State.accepted1 (s t : State) (k : Nat) (f : Flit) (h : BitVec 192) (body : PacketBody) : Prop :=
  (t.linkAt k).rxSeq = (s.linkAt k).rxSeq + BitVec.ofNat 16 (Flit.flits f - (s.linkAt k).part) ∧ (t.linkAt k).part = 0 ∧
    t.lastReached (hdrSrc h) = s.time.toNat ∧
    (t.linkAt k).ack = some ((t.linkAt k).rxSeq - 1) ∧ (t.linkAt k).replay = none ∧ t.core = s.core ∧ t.mem = s.mem ∧
    (hdrDst h ≠ s.pkg → t.ingress = s.ingress) ∧
    (hdrDst h = s.pkg → ∃ p : Packet, t.ingress = s.ingress ++ [p] ∧ p.src = hdrSrc h ∧ p.dst = s.pkg ∧ p.core = hdrCore h ∧
      p.hart = f.hart ∧ p.plane = k ∧ p.vc = hdrVc h ∧ p.colour = f.colour ∧ p.launch = f.launch ∧ p.counted = f.plane.toNat ∧
      p.interval = (if f.group = 0 then none else some f.group) ∧ p.merged = (if hdrComb h then f.merged else []) ∧
      p.counts = Flit.flag f h ∧ p.body = body)

/-- Link k went down between s and t: its contexts are closed, and every packet waits on a plane that is live, the next
one in ascending order where its own was not. -/
def State.wentDown (s t : State) (k : Nat) : Prop :=
  (t.linkAt k).up = false ∧ (t.linkAt k).ctxs = [] ∧ (∀ j : Nat, j ≠ k → t.linkAt j = s.linkAt j) ∧ t.core = s.core ∧
    t.mem = s.mem ∧ t.egress.length = s.egress.length ∧
    ∀ (i : Nat) (p q : Packet), s.egress[i]? = some p → t.egress[i]? = some q →
      q = { p with plane := q.plane } ∧ (t.planeLive p.dst p.plane = true → q.plane = p.plane) ∧
      ((∃ j < 16, t.planeLive p.dst j = true) → t.planeLive p.dst q.plane = true)

end Sys2Proof.Machine
end

