-- ==== Sys2Proof/Certificates/Slice0/Obligations.lean ====
section
/-! DEFINITION. The statements for the provers. A statement with several parts is the conjunction of the definitions
under `Says` that stand before it. -/

set_option autoImplicit false
open Sys2Proof Sys2Proof.Machine

/-- R86, R79, R34: when the focused context may issue, the head at its PC decodes to i, and nothing holds the head back, a
step is `exec i` in the next issue slot, after the time of the step has passed (log 8) and the vector queue has caught up; a vector
instruction that the scalar path goes past waits in that queue instead, with what it will read (R33; which do is log 61's choice). A
hart that is to stop stops where a vector instruction leaves it, and before any other head (R22, R341). The first clause is a head of
the line that control is in; in the second, control enters the line of the PC. -/
def Says.StepRunsDecoded : Prop :=
  ∀ (s : State) (i : Instr), s.mayIssue →
    let u := s.ready
    (∀ e : LineEntry, u.core.curLine = some e → e.base = lineBase u.core.curPc →
      decode (lineHead e.halves (slotOf u.core.curPc)) (lineTail e.halves (slotOf u.core.curPc)) = .ok i →
      u.held i = false ∨ u.goesLate i = true → step s = u.issues u i) ∧
    (let r := u.entryLine
     let t := r.1.setLine r.2
     (∀ o : LineEntry, u.core.curLine = some o → o.base ≠ lineBase u.core.curPc) →
      lineFault r.2.halves u.core.curPc = none →
      decode (lineHead r.2.halves (slotOf u.core.curPc)) (lineTail r.2.halves (slotOf u.core.curPc)) = .ok i →
      t.held i = false ∨ t.goesLate i = true → step s = u.issues t i)

/-- R26, R79: an entry fetches the line of the PC. A context that is on no reel fetches it for itself. For the cores attached to a
reel the model's choice is log 45: the first of them that comes to the entry fetches it, and the later ones get the same bytes; one
whose PC is in another line gets its own. Which version of the line a fetch gets is log 9's choice. -/
def Says.LineEntries : Prop :=
  ∀ s : State,
    let base := lineBase s.core.curPc
    let own : LineEntry := { base := base, halves := s.fetchLine base.toNat }
    let q := s.quadAt s.core.quadNum
    let kept := s.reelLine q s.core.heads
    let shared := s.core.fw = false ∧ s.attached s.core.num = true
    (¬ shared → s.entryLine = (s, own)) ∧
    (shared → (∀ e : LineEntry, kept = some e → s.entryLine = (s, if e.base = base then e else own)) ∧
      (kept = none → s.entryLine.2 = own ∧
        (s.entryLine.1.quadAt s.core.quadNum).reel.lines = q.reel.lines ++ [(s.core.heads, own)])) ∧
    s.entryLine.2.base = base ∧ s.entryLine.1.mem = s.mem

/-- A step runs the instruction that the head at the program counter decodes to; the entry of a line. -/
def Obligations.StepRunsDecoded : Prop :=
  Says.StepRunsDecoded ∧ Says.LineEntries

/-- What a step runs when it does not issue a head (log 5, log 8): the event that the agenda lists, else the oldest
accepted command of the ring (R307), else the row that ends the focused hart's wait (R40, R41). A package that holds itself in
reset after a thermal stop does none of this until it is reset (R320). -/
def Says.StepOrder : Prop :=
  (∀ (s : State) (i : Instr) (rest : List Move), s.agenda = .event i :: rest → s.boot.stage ≠ .stopped →
    step s = exec i { s.tick with agenda := rest }) ∧
  (∀ (s : State) (i : Instr) (rest : List Instr), s.agenda = [] → s.boot.stage ≠ .stopped → s.accepted = i :: rest →
    step s = exec i { s.tick with accepted := rest }) ∧
  (∀ (s : State) (w : Wait) (i : Instr), s.agenda = [] → s.boot.stage ≠ .stopped → s.accepted = [] → s.core.fw = false →
    s.core.lates = [] → s.core.run = .waiting w → s.tick.wakeRow w = some i → step s = exec i s.tick) ∧
  (∀ s : State, s.boot.stage = .stopped →
    (s.agenda = [] → step s = .next s.tick) ∧
    (∀ (m : Move) (rest : List Move), s.agenda = m :: rest → (∀ l : List (Option BootImage), m ≠ .event (.packageReset l)) →
      step s = .next { s.tick with agenda := rest }) ∧
    (∀ (l : List (Option BootImage)) (rest : List Move), s.agenda = .event (.packageReset l) :: rest →
      step s = exec (.packageReset l) { s.tick with agenda := rest }))

/-- R86, R87: a head that decodes to nothing raises the illegal-instruction trap with the sub-cause of the first check
that fails; tval holds head and tail. A line that fails a check of R80 raises the instruction-line trap with the line's
address, also where memory holds nothing: the spec says so of handlers, and the model takes it for every entry (log 53). -/
def Says.IllegalAndLineTraps : Prop :=
  (∀ (s : State) (e : LineEntry) (bad : Bad), s.mayIssue →
    let u := s.ready
    u.core.curLine = some e → e.base = lineBase u.core.curPc →
    decode (lineHead e.halves (slotOf u.core.curPc)) (lineTail e.halves (slotOf u.core.curPc)) = .error bad →
    step s = u.ends (u.trap 0x01 bad.sub 0
      (lineTail e.halves (slotOf u.core.curPc) ++ lineHead e.halves (slotOf u.core.curPc)))) ∧
  (∀ (s : State) (sub : BitVec 8), s.mayIssue →
    let u := s.ready
    u.core.curLine = none → lineFault u.entryLine.2.halves u.core.curPc = some sub →
    step s = u.ends (u.entryLine.1.trap 0x02 sub 0 (lineBase u.core.curPc)))

/-- What a step runs when it issues no head, and the traps of heads and lines that are not well formed. -/
def Obligations.StepOrderAndFetchTraps : Prop :=
  Says.StepOrder ∧ Says.IllegalAndLineTraps

/-- R73, R81 to R85: words written out from the encodings and the reference entries decode to the instructions
they stand for. -/
def Obligations.DecodeWords : Prop :=
  decode 0x0000 0 = .ok .nop ∧
  decode (0b01#2 ++ 0x01#8 ++ 5#6) (0#32 ++ (6#5 ++ 7#5 ++ 0#6)) = .ok (.add 5 6 7) ∧
  decode 0x4305 0x31C1 = .ok (.div 5 6 7 true) ∧
  decode (0b11#2 ++ 0x16#8 ++ 9#6) (0xFFFFFFFE#32 ++ (0#5 ++ 0#5 ++ 0#6)) = .ok (.li 9 (-2)) ∧
  decode 0xCD80 0x0000005F0000 = .ok (.join 0b1111 5) ∧
  decode 0xA002 0x00002003 = .ok (.vcmp 2 4 0 true .ne { gov := { me := false, m := 0, g := 0 }, nb := .none, edge := .ez }) ∧
  decode 0x0001 0 = .error .field ∧ decode 0x4000 0 = .error .length ∧
  decode 0xFFC0 0 = .error .major

/-- R73 to R85: the decoder reads back every well-formed instruction from the words the encoder writes for it, every
operand included. -/
def Obligations.RoundTrip : Prop :=
  ∀ (i : Instr) (head : BitVec 16) (tail : BitVec 48), i.wf = true → encode i = some (head, tail) →
    decode head tail = .ok i

/-- R86, R87: whatever word decodes, it decodes to a well-formed instruction that has an encoding of the head's own
major and length. -/
def Obligations.DecodeWellFormed : Prop :=
  ∀ (i : Instr) (head : BitVec 16) (tail : BitVec 48), decode head tail = .ok i →
    i.wf = true ∧ ∃ q, i.fields = some q ∧ q.major = (Fields.ofBits head tail).major ∧
      q.len = (Fields.ofBits head tail).len

/-- The flow of control changes nothing but the PC, the line entry, the count of heads, the mark of the deferred-integrity test, the
loop with rotation and gates, and the reels of the quads (R25, R77, R79, R136, R137): memory, registers, flags, special registers,
queues and every other core stay as they are, whether control goes on in sequence or is transferred. -/
def Obligations.FlowFrame : Prop :=
  ∀ (s : State) (pc : Word) (taken reel : Bool), s.flowed (s.arrive pc taken reel)

/-- R77, R79: sequential flow goes from slot i to slot i + 1 of the same line while i < n, within one line entry, and from
slot n to slot 1 of the line 64 bytes higher, which it enters. -/
def Says.SequentialFlow : Prop :=
  ∀ (s : State) (e : LineEntry), s.core.curLine = some e → s.core.loop.active = false →
    lineBase s.core.curPc = e.base → s.core.curPc.getLsbD 0 = false → lineHeads e.halves ≤ 31 →
    (slotOf s.core.curPc < lineHeads e.halves →
      s.advance.core.curPc = s.core.curPc + 2 ∧ s.advance.core.curLine = some e) ∧
    (lineHeads e.halves ≤ slotOf s.core.curPc →
      s.advance.core.curPc = e.base + 64 + 2 ∧ s.advance.core.curLine = none)

/-- R79: a taken control transfer puts the PC at the target and ends the line entry, also when the target lies in the same
line, unless it ends a loop's iteration (R137). -/
def Says.TakenTransfer : Prop :=
  ∀ (s : State) (pc : Word), (s.core.loop.active = false ∨ pc ≠ s.core.loop.stop) →
    (s.jump pc).core.curPc = pc ∧ (s.jump pc).core.curLine = none

/-- Sequential flow through the heads of a line, and taken transfers. -/
def Obligations.SequentialAndTakenFlow : Prop :=
  Says.SequentialFlow ∧ Says.TakenTransfer

/-- R136, R349: LOOP with a trip count of 0 transfers control to the end PC; else the loop becomes active with j = 1,
N = trip + S − 1, g1 = 1 and g2 to g7 = 0, and control goes on with the first body head. A LOOP inside a loop, with an
end PC that is not above its next PC, or whose N does not fit, is an illegal instruction with sub-cause 0x05. -/
def Says.LoopStart : Prop :=
  ∀ (s : State) (a : XName) (stages : BitVec 3) (t : Target),
    let trip := (s.x a).val
    let stop := s.core.target t
    let bad : Prop := s.core.loop.active = true ∨ stop.toNat ≤ s.core.seqPc.toNat ∨ 2 ^ 64 ≤ trip.toNat + stages.toNat
    (bad → TrapsIllegal (.loop a stages t) s 0x05) ∧
    (¬ bad → trip = 0 → exec (.loop a stages t) s = .next (s.jump stop)) ∧
    (¬ bad → trip ≠ 0 → ∃ u, exec (.loop a stages t) s = .next u ∧ s.flowed u ∧ u.core.curPc = s.core.seqPc ∧
      u.core.loop = { active := true, start := s.core.seqPc, stop := stop, j := 1, n := trip + stages.setWidth 64,
                      trip := trip, stages := stages } ∧
      u.core.ctl.gates = 3 ∧ u.core.ctl.rot = s.core.ctl.rot)

/-- R137: control that arrives at the end PC of the active loop ends iteration j. The rotation grows by the span; after
the last iteration the gates g1 to g7 are 0, the loop ends and control continues at the end PC, within the line it is in
(R79, R349); else j grows by one, gate
gk is 1 exactly for k up to min(S, 7) with k ≤ j and j ≤ k + trip − 1, and control transfers to the first body head. -/
def Says.LoopIteration : Prop :=
  ∀ (s : State), s.core.loop.active = true → s.core.seqPc = s.core.loop.stop → 0 < s.core.loop.trip.toNat →
    s.advance.core.ctl.rot = s.core.ctl.rot + BitVec.ofNat 4 (Span.count s.core.ctl.span) ∧
    (s.core.loop.j = s.core.loop.n →
      s.advance.core.curLine =
        (if lineBase s.core.loop.stop = lineBase s.core.curPc then s.core.curLine else none) ∧
      s.advance.core.loop.active = false ∧ s.advance.core.ctl.gates = 1 ∧
      s.advance.core.curPc = s.core.loop.stop) ∧
    (s.core.loop.j ≠ s.core.loop.n →
      s.advance.core.loop = { s.core.loop with j := s.core.loop.j + 1 } ∧ s.advance.core.curLine = none ∧
      s.advance.core.curPc = s.core.loop.start ∧
      ∀ k : Nat, k < 8 → (s.advance.core.ctl.gates.getLsbD k = true ↔
        k = 0 ∨ (k ≤ min (s.core.loop.stages.toNat + 1) 7 ∧ k ≤ (s.core.loop.j + 1).toNat ∧
          (s.core.loop.j + 1).toNat ≤ k + s.core.loop.trip.toNat - 1)))

/-- LOOP starts a loop, and its iterations shift gates and rotation. -/
def Obligations.LoopIterations : Prop :=
  Says.LoopStart ∧ Says.LoopIteration

/-- R25: at a control transfer, a core that reaches a head the pilot has issued stays attached exactly when its next PC is the
pilot's. One that leads the reel, or is ahead of the pilot, stays attached; when the pilot transfers control, an attached core
that has gone on in sequence past that head is cut loose, and one that has not reached it stays. That each head is compared with
the pilot's, and what becomes of a core ahead of the pilot, are the model's choice (log 45). -/
def Says.ReelFollowsPilot : Prop :=
  ∀ (s : State) (pc : Word), s.core.fw = false → s.core.loop.active = false →
    s.attached s.core.num = true →
    let q := s.quadAt s.core.quadNum
    let h := s.core.heads + 1
    let there := ((q.reel.path.find? fun p => p.1 == h).map fun p => p.2).getD s.core.seqPc
    (h ≤ q.reel.led → ((s.jump pc).attached s.core.num = true ↔ pc = there)) ∧
    (q.reel.led < h → (s.jump pc).attached s.core.num = true) ∧
    (q.reel.led < h → s.core.num % 4 = pilotOf q.attached → ∀ m : Nat, m / 4 = s.core.num / 4 → m ≠ s.core.num →
      s.attached m = true → s.forkOf m = none →
      ((s.jump pc).attached m = true ↔ (s.coreAt m).heads < h ∨ pc = s.core.seqPc))

/-- R27, R335: DETACH cuts every attached core of the quad loose; the executing core goes on in sequence. -/
def Says.DetachCutsLoose : Prop :=
  ∀ (s : State), s.core.fw = false → s.core.loop.active = false →
    ∃ t, exec .detach s = .next t ∧ t.core.pc = s.core.seqPc ∧ t.core.x = s.core.x ∧ t.mem = s.mem ∧
      (s.attached s.core.num = true → ∀ i : Nat, i / 4 = s.core.num / 4 → t.attached i = false) ∧
      (s.attached s.core.num = false → ∀ i : Nat, t.attached i = s.attached i)

/-- Transfers and DETACH decide which cores stay attached to the reel. -/
def Obligations.ReelMembership : Prop :=
  Says.ReelFollowsPilot ∧ Says.DetachCutsLoose

/-- R51, R155, R323, R324, R344 (the tag of a result): NOP changes nothing; the register and the immediate forms write x d
with the value of their entry, an immediate sign-extended to 64 bits; ADD and SUB keep the tag of a tagged x a beside an
untagged x b, ADDI that of x a, the others write x d untagged. A write to x0 is discarded. -/
def Says.ScalarResults : Prop :=
  ∀ (s : State) (d a b : XName) (imm : BitVec 32),
    let va := (s.x a).val
    let vb := (s.x b).val
    let im : Word := imm.signExtend 64
    let keep : BitVec 9 := if (s.x a).tagged = true ∧ (s.x b).tagged = false then (s.x a).tag else 0
    exec .nop s = .next s.advance ∧
    Delivers (.add d a b) s d { val := va + vb, tag := keep } ∧
    Delivers (.sub d a b) s d { val := va - vb, tag := keep } ∧
    DeliversWord (.and d a b) s d (va &&& vb) ∧
    DeliversWord (.or d a b) s d (va ||| vb) ∧
    DeliversWord (.xor d a b) s d (va ^^^ vb) ∧
    DeliversWord (.slt d a b false) s d (if va.toInt < vb.toInt then 1 else 0) ∧
    DeliversWord (.slt d a b true) s d (if va.toNat < vb.toNat then 1 else 0) ∧
    DeliversWord (.mul d a b) s d (va * vb) ∧
    DeliversWord (.min d a b) s d (if va.toInt ≤ vb.toInt then va else vb) ∧
    DeliversWord (.max d a b) s d (if va.toInt ≤ vb.toInt then vb else va) ∧
    Delivers (.addi d a imm) s d { val := va + im, tag := if (s.x a).tagged = true then (s.x a).tag else 0 } ∧
    DeliversWord (.andi d a imm) s d (va &&& im) ∧
    DeliversWord (.ori d a imm) s d (va ||| im) ∧
    DeliversWord (.xori d a imm) s d (va ^^^ im)

/-- R367: the amount is the immediate when b is x0, else x b[5:0]; SLL and SRL fill with zeros, SRA with the sign. -/
def Says.Shifts : Prop :=
  ∀ (s : State) (d a b : XName) (n : BitVec 6) (k : Nat),
    (k = if b = 0 then n.toNat else ((s.x b).val.extractLsb' 0 6).toNat) →
    DeliversWord (.sll d a b n) s d ((s.x a).val <<< k) ∧
    DeliversWord (.srl d a b n) s d ((s.x a).val >>> k) ∧
    DeliversWord (.sra d a b n) s d ((s.x a).val.sshiftRight k)

/-- R356: MULH writes the upper 64 bits of the 128-bit signed product. -/
def Says.MulhUpperHalf : Prop :=
  ∀ (s : State) (d a b : XName),
    DeliversWord (.mulh d a b) s d
      (((s.x a).val.signExtend 128 * (s.x b).val.signExtend 128).extractLsb' 64 64)

/-- R361: POPC writes the number of one bits of x a. -/
def Says.PopulationCount : Prop :=
  ∀ (s : State) (d a : XName),
    DeliversWord (.popc d a) s d (BitVec.ofNat 64 ((List.range 64).countP fun k => (s.x a).val.getLsbD k))

/-- Results of the scalar register and immediate instructions, shifts, MULH and POPC. -/
def Obligations.ScalarResults : Prop :=
  Says.ScalarResults ∧ Says.Shifts ∧ Says.MulhUpperHalf ∧ Says.PopulationCount

/-- R336, R363: quotients round toward zero and the remainder takes the dividend's sign; division by zero gives all ones, its remainder
is the dividend; the most negative value divided by −1 gives itself and remainder 0. No trap is raised. -/
def Says.DivRem : Prop :=
  ∀ (s : State) (d a b : XName),
    let va := (s.x a).val
    let vb := (s.x b).val
    DeliversWord (.div d a b true) s d (if vb = 0 then BitVec.allOnes 64 else va.udiv vb) ∧
    DeliversWord (.rem d a b true) s d (if vb = 0 then va else va.umod vb) ∧
    DeliversWord (.div d a b false) s d (if vb = 0 then BitVec.allOnes 64 else va.sdiv vb) ∧
    DeliversWord (.rem d a b false) s d (if vb = 0 then va else va.srem vb) ∧
    (va = BitVec.intMin 64 → vb = -1 →
      DeliversWord (.div d a b false) s d va ∧ DeliversWord (.rem d a b false) s d 0)

/-- R333: CLZ writes the number of zero bits above the highest 1 of x a, 64 for zero. -/
def Says.LeadingZeros : Prop :=
  ∀ (s : State) (d a : XName),
    let va := (s.x a).val
    DeliversWord (.clz d a) s d (if va = 0 then 64 else BitVec.ofNat 64 (63 - va.toNat.log2))

/-- R348: LI writes its immediate, sign-extended to 64 bits and untagged. -/
def Says.LoadImmediate : Prop :=
  ∀ (s : State) (d : XName) (imm : BitVec 32), DeliversWord (.li d imm) s d (imm.signExtend 64)

/-- DIV and REM with their fixed cases, CLZ and LI. -/
def Obligations.DivisionCountsConstants : Prop :=
  Says.DivRem ∧ Says.LeadingZeros ∧ Says.LoadImmediate

/-- R156, R155: LDSLOT of a valid slot of the hart's own world writes the slot's base, zero-extended and tagged with the
slot; through a slot that is not valid it raises the bounds fault with sub-cause 0x02, through one of another world the
world-violation fault, both with the slot number in tval, and writes nothing. -/
def Says.LoadSlot : Prop :=
  ∀ (s : State) (d : XName) (slot : BitVec 8),
    let e := s.core.slot slot
    (e.v = true → e.world = s.core.ctl.world →
      Delivers (.ldslot d slot) s d { val := e.base.setWidth 64, tag := 1#1 ++ slot }) ∧
    (e.v = false → exec (.ldslot d slot) s = s.trap 0x04 0x02 0 (slot.setWidth 64)) ∧
    (e.v = true → e.world ≠ s.core.ctl.world → exec (.ldslot d slot) s = s.trap 0x0B 0x01 0 (slot.setWidth 64))

/-- R346, R174: a load that passes the check delivers the n bytes at its address, sign- or zero-extended and untagged.
It changes no memory; the write times of its line stay, the line's lease reaches the stream's clock, and that clock does not fall. An
access of firmware that R158 leaves unaligned may take in the next line. What firmware reads of a save is the next statement's. -/
def Says.LoadResult : Prop :=
  ∀ (s : State) (d a : XName) (imm : BitVec 32) (sz : Size) (sx : Bool) (p : Nat),
    let n := Size.bytes sz
    s.promptS → s.landsLocal (s.x a) imm.toInt n .load p →
    (∀ b : Nat, (b = p ∨ b = p + (n - 1)) → s.owned (b / 128) = false) →
    (s.core.fw = false ∨ ∀ k : Nat, k < n → s.savedByte? (p + k) = none) →
    ∃ t, exec (.ld d a imm sz sx) s = .next t ∧ s.loaded t ∧
      s.wroteX t d { val := if sx then (BitVec.ofNat (8 * n) (s.mem.read p n)).signExtend 64
                            else BitVec.ofNat 64 (s.mem.read p n), tag := 0 } ∧
      (∀ k : Nat, (t.clockAt k).wts = (s.clockAt k).wts) ∧
      (s.core.stream s.core.fw).pts ≤ (t.core.stream s.core.fw).pts ∧
      (p % 128 + n ≤ 128 → (t.core.stream s.core.fw).pts ≤ (t.clockAt (p / 128)).rts)

/-- R234, R235, R158: firmware reads a save in its DRAM byte by byte: x k at 0x0100 + 16k, the active bank from 0x0700, the masks from
0x3700, the tiles from 0x38C0 and the accumulator rows from 0x278C0, the PC in the header, and zeros in what is reserved at the end.
Where a save lies in firmware's DRAM is the model's choice (log 19). -/
def Says.SaveLoad : Prop :=
  ∀ (s : State) (v : Save),
    (∀ (d a : XName) (imm : BitVec 32) (sz : Size) (sx : Bool) (p : Nat),
      let n := Size.bytes sz
      let w := ofBytes ((List.range n).map fun k => v.byte s (p - v.addr + k))
      s.promptS → s.core.fw = true → s.landsLocal (s.x a) imm.toInt n .load p →
      (∀ b : Nat, (b = p ∨ b = p + (n - 1)) → s.owned (b / 128) = false) →
      s.saves = [v] → v.addr ≤ p → p + n ≤ v.addr + 262144 →
      ∃ t, exec (.ld d a imm sz sx) s = .next t ∧ s.loaded t ∧
        s.wroteX t d { val := if sx then (BitVec.ofNat (8 * n) w).signExtend 64 else BitVec.ofNat 64 w, tag := 0 }) ∧
    (∀ (k : Fin 32) (j : Nat), j < 8 → v.byte s (0x100 + 16 * k.val + j) = (v.core.x[k]).val.extractLsb' (8 * j) 8) ∧
    (∀ j : Nat, j < 12288 → v.byte s (0x700 + j) = v.core.vec.get (v.core.ctl.bank.toNat * 12288 + j)) ∧
    (∀ (k : Fin 8) (j : Nat), j < 48 → v.byte s (0x3700 + 48 * k.val + j) = (v.core.m[k]).extractLsb' (8 * j) 8) ∧
    (∀ j : Nat, j < 147456 → v.byte s (0x38C0 + j) = v.core.tiles.get j) ∧
    (∀ j : Nat, j < 98304 → v.byte s (0x278C0 + j) = v.core.acc.get j) ∧
    (∀ j : Nat, j < 8 → v.byte s (0x10 + j) = v.core.pc.extractLsb' (8 * j) 8) ∧
    (∀ j : Nat, j < 832 → v.byte s (0x3FCC0 + j) = 0)

/-- LD and LDSLOT deliver what they read and change nothing else; LD of a save. -/
def Obligations.ScalarLoads : Prop :=
  Says.LoadSlot ∧ Says.LoadResult ∧ Says.SaveLoad

/-- R370, R175, R160: a local store that passes the check writes the low n bytes of x s at its address, least significant
first, and no other byte; it makes a new version of the line and sets the extent's trace bits; registers and flags stay. An unaligned
store of firmware (R158) may take in the next line and extent. -/
def Says.StoreResult : Prop :=
  ∀ (s : State) (r a : XName) (imm : BitVec 32) (sz : Size) (flag : Bool) (p : Nat),
    let n := Size.bytes sz
    s.MemOk → s.promptS → s.landsLocal (s.x a) imm.toInt n .store p →
    (∀ b : Nat, (b = p ∨ b = p + (n - 1)) → s.storeAllowed b) →
    ∃ t, exec (.st r a imm sz flag) s = .next t ∧ s.storedX t ∧ t.core.x = s.core.x ∧ t.core.fwX = s.core.fwX ∧
      s.storedAt t p n (s.x r).val.toNat ∧ (p % 128 + n ≤ 128 → s.newVersion t p) ∧
      ∀ b : Nat, (b = p ∨ b = p + (n - 1)) → region (128 * (b / 128)) = .dram →
        (t.extentAt (128 * (b / 128) / Config.extentBytes)).trace = 0xF

/-- R150, R158, R159: firmware reads and writes an extent's entry in the extent table at the top of its die, as 8 bytes with the
entry's fields. The store sets the trace bits of the extent that the table's own line lies in (R160). When the entry names a key slot
with other key material, the model's choice is that the memory of its extent reads as its ciphertext under that key from then on, and
no other byte changes (log 14; the cipher is log 30). -/
def Says.ExtentTableAccess : Prop :=
  ∀ (s : State) (r d a : XName) (flag : Bool) (p : Nat),
    let e := entryAt p
    let v := (s.x r).val
    let own := 128 * (p / 128) / Config.extentBytes
    let old := s.material (s.extentAt e).key
    let new := s.material (v.extractLsb' 42 6)
    s.promptS → s.MemOk → s.core.fw = true → (s.x a).tagged = false → (s.x a).val.toNat = p → p % 8 = 0 → region p = .table →
    s.owned (p / 128) = false → (∀ k : Nat, k < 8 → s.savedByte? (p + k) = none) →
    (∃ t, exec (.ld d a 0 .d false) s = .next t ∧ s.loaded t ∧ s.wroteX t d { val := (s.extentAt e).bits, tag := 0 }) ∧
    (∃ t, exec (.st r a 0 .d flag) s = .next t ∧ t.extentAt e = Extent.ofBits e v ∧
      (∀ k : Nat, k ≠ e →
        t.extentAt k = if k = own then { s.extentAt k with trace := 0xF } else s.extentAt k) ∧
      t.core.x = s.core.x ∧ t.core.fwX = s.core.fwX ∧
      (old = new → t.mem = s.mem) ∧
      (old ≠ new → ∀ j : Nat, j < 2048 →
        let b := e * Config.extentBytes + 32 * j
        t.mem.bytes b 32 = xtsDecrypt new (b / 32) (xtsEncrypt old (b / 32) (s.mem.bytes b 32))) ∧
      ∀ k : Nat, k / Config.extentBytes ≠ e → t.mem.get k = s.mem.get k)

/-- A local store writes exactly its bytes and makes a new version; the extent table in memory. -/
def Obligations.ScalarStores : Prop :=
  Says.StoreResult ∧ Says.ExtentTableAccess

/-- R325, R332, R175: AMO and CAS return the n bytes at the address, sign-extended and untagged, and write back the
operation's result, CAS the new value when the old one equals x b and the old one itself otherwise: a new version in
either case. PFADD with an untagged base of firmware, which R158 does not check, adds in this package's memory: that is the model's
choice (log 56). -/
def Says.AtomicResult : Prop :=
  ∀ (s : State) (d a b c : XName) (op : AmoOp) (sz : ASize) (imm : BitVec 32) (p : Nat),
    let n := ASize.bytes sz
    let old := s.mem.read p n
    let low (w : Word) : Nat := w.toNat % 2 ^ (8 * n)
    let got : XReg := { val := (BitVec.ofNat (8 * n) old).signExtend 64, tag := 0 }
    s.MemOk → s.promptS → (∀ b : Nat, (b = p ∨ b = p + (n - 1)) → s.storeAllowed b) →
    (s.landsLocal (s.x a) 0 n .atomic p →
      (∃ t, exec (.amo d a b op sz) s = .next t ∧ s.storedX t ∧ s.wroteX t d got ∧
        s.storedAt t p n (amoValue op n old (low (s.x b).val)) ∧ (p % 128 + n ≤ 128 → s.newVersion t p)) ∧
      (∃ t, exec (.cas d a b c sz) s = .next t ∧ s.storedX t ∧ s.wroteX t d got ∧
        s.storedAt t p n (if old = low (s.x b).val then low (s.x c).val else old) ∧
        (p % 128 + n ≤ 128 → s.newVersion t p))) ∧
    (sz = .d → s.landsLocal (s.x a) imm.toInt 8 .remoteAtomic p →
      ∃ t, exec (.pfadd d a b imm) s = .next t ∧ s.storedX t ∧ s.wroteX t d got ∧
        s.storedAt t p 8 (amoValue .add 8 old (s.x b).val.toNat) ∧ (p % 128 + 8 ≤ 128 → s.newVersion t p))

/-- R325: the operations of AMO on 64-bit values. -/
def Says.AtomicOperations : Prop :=
  ∀ x y : BitVec 64,
    let r (op : AmoOp) : BitVec 64 := BitVec.ofNat 64 (amoValue op 8 x.toNat y.toNat)
    r .add = x + y ∧ r .and = x &&& y ∧ r .or = x ||| y ∧ r .xor = x ^^^ y ∧
    r .min = (if x.toInt ≤ y.toInt then x else y) ∧ r .max = (if x.toInt ≤ y.toInt then y else x) ∧
    r .minu = (if x.toNat ≤ y.toNat then x else y) ∧ r .maxu = (if x.toNat ≤ y.toNat then y else x) ∧ r .swap = y

/-- AMO and CAS return the old value and write back the result. -/
def Obligations.ScalarAtomics : Prop :=
  Says.AtomicResult ∧ Says.AtomicOperations

/-- R188, R263, R273, R359, R370: a remote ST and a PFADD of a context whose earlier S accesses are performed, and whose counts
allow it, put one packet for the destination into the egress queue and count it on its plane; the ordered-flag store
carries the counts so far, starts them afresh and is the first of the new ones, so that no full count holds it back. PFADD takes the hash plane of its address, remapped when that is down, while no earlier
add to the package that another plane stood for then is outstanding, and leaves x d pending. Memory
and the x registers stay as they are. The numbers by which packets name their counts, and the tag, are the model's choice (log 20), as
is what a hart keeps of the planes that stood for one another at each add (log 34). -/
def Says.RemoteIssue : Prop :=
  (∀ (s : State) (r a : XName) (imm : BitVec 32) (sz : Size) (flag : Bool) (pkg : BitVec 12) (p k : Nat),
    let n := Size.bytes sz
    let c := s.toward s.core pkg
    s.doneS = true → s.landsRemote (s.x a) imm.toInt n .store pkg p → s.anyPlane pkg = some k →
    (if flag then s.core.destinations.contains pkg = true ∨ s.core.destinations.length < 16 else s.core.mayCount pkg k = true) →
    ∃ t e, exec (.st r a imm sz flag) s = .next t ∧ t.egress = s.egress ++ [e] ∧
      e.src = s.pkg ∧ e.dst = pkg ∧ e.core = s.core.num ∧ e.hart = s.core.hartId ∧ e.vc = 2 ∧ e.plane = k ∧ e.body = .store (cells p n (s.x r).val.toNat) ∧
      e.counts = (if flag then some (c.numbers.zip c.counts) else none) ∧
      e.interval = (if flag then some s.serial else (c.add k s.serial).numbers[k]?) ∧
      t.core.remote.map (fun q => (q.pkg, q.plane)) = s.core.remote.map (fun q => (q.pkg, q.plane)) ++ [(pkg, k)] ∧
      t.core.planeCounts pkg = (if flag then (List.replicate 16 0).set k 1 else (c.add k s.serial).counts) ∧
      t.mem = s.mem ∧ t.core.x = s.core.x ∧ t.core.fwX = s.core.fwX ∧ t.core.ctl.flags = s.core.ctl.flags ∧
      t.core.curPc = s.advance.core.curPc) ∧
  (∀ (s : State) (d a b : XName) (imm : BitVec 32) (pkg : BitVec 12) (p k : Nat),
    s.doneS = true → s.landsRemote (s.x a) imm.toInt 8 .remoteAtomic pkg p →
    s.remap pkg (hashPlane (podAddr pkg p)) = some k →
    (∀ r ∈ s.core.remote, r.pkg = pkg → r.maps ≠ [] →
      r.maps.getD (hashPlane (podAddr pkg p)) (hashPlane (podAddr pkg p)) = k) →
    s.core.mayCount pkg k = true →
    ∃ t e, exec (.pfadd d a b imm) s = .next t ∧ t.egress = s.egress ++ [e] ∧
      e.src = s.pkg ∧ e.dst = pkg ∧ e.core = s.core.num ∧ e.hart = s.core.hartId ∧ e.vc = 0 ∧ e.plane = k ∧
      e.body = .pfadd s.serial p (s.x b).val false ∧
      t.core.waits = s.core.waits ++ [{ rtag := s.serial, pkg := pkg, dest := .xreg s.core.fw d }] ∧
      t.core.planeCounts pkg = ((s.toward s.core pkg).add k s.serial).counts ∧
      t.mem = s.mem ∧ t.core.x = s.core.x ∧ t.core.fwX = s.core.fwX ∧ t.core.curPc = s.advance.core.curPc)

/-- R259, R397, R412, R416, R263: a VLDR sends requests for the bytes of all its active elements to the package of its slot and
registers that they are awaited; a VSTR sends those bytes as stores, an ordered-flag store with the counts so far, or those it took
when it began. Both go on at once. The numbers that counts carry are the model's choice (log 20). -/
def Says.VectorRemote : Prop :=
  ∀ (s : State) (d a : VName) (off : BitVec 16) (flag : Bool) (gov : Gov) (pkg : BitVec 12) (P : Nat → Nat),
    let w := s.core.eb
    let k := s.toward s.core pkg
    let taken := if s.core.estartN ≠ 0 then s.core.flags.find? fun f => f.1 == s.core.curPc else none
    s.core.StoresOk → s.core.ecc = [] → s.core.vq = [] → s.core.govAligned gov = true →
    aligned d.toNat s.core.spanOf = true → s.anyPlane pkg ≠ none →
    ((∀ k ∈ s.core.activeAll gov, s.landsRemote (s.x a) (off.toInt + (k * w : Nat)) w .remoteLoad pkg (P k)) →
      ∃ t q, exec (.vldr d a off gov) s = .next t ∧ t.egress = s.egress ++ q ∧ t.core.vec = s.core.vec ∧ t.mem = s.mem ∧
        t.core.x = s.core.x ∧ t.core.curPc = (s.setEstart 0).advance.core.curPc ∧ t.core.ctl.estart = 0 ∧
        (∀ p ∈ q, p.dst = pkg ∧ p.vc = 0 ∧ ∃ rtag g want reg i cells, p.body = .vldr rtag g want [] ∧
          { rtag := rtag, pkg := pkg, dest := .group reg i cells } ∈ t.core.waits) ∧
        ∀ k ∈ s.core.activeAll gov, ∀ j < w, ∃ p ∈ q, ∃ rtag want, p.body = .vldr rtag ((k * w + j) / 64) want [] ∧
          ((s.core.elemCell d.toNat w k + j) % 64, P k + j) ∈ want) ∧
    ((∀ k ∈ s.active gov, s.landsRemote (s.x a) (off.toInt + (k * w : Nat)) w .remoteStore pkg (P k)) →
      (s.core.destinations.contains pkg = true ∨ s.core.destinations.length < 16) →
      (∀ k : Nat, (s.core.planeCounts pkg).getD k 0 < 65000) →
      ∃ t q, exec (.vstr d a off flag gov) s = .next t ∧ t.egress = s.egress ++ q ∧ t.core.vec = s.core.vec ∧
        t.mem = s.mem ∧ t.core.x = s.core.x ∧ t.core.curPc = (s.endVector s.hiElem s.core.vlN).core.curPc ∧
        (∀ p ∈ q, p.dst = pkg ∧ p.vc = 2 ∧
          p.counts = if flag then some ((taken.map fun f => f.2).getD (k.numbers.zip k.counts)) else none) ∧
        ∀ c : Nat × Byte, (∃ p ∈ q, ∃ b, p.body = .store b ∧ c ∈ b) ↔
          ∃ k ∈ s.active gov, ∃ j < w, c = (P k + j, s.core.vec.get (s.core.elemCell d.toNat w k + j)))

/-- Remote stores, PFADD, VLDR and VSTR put their packets into the egress queue. -/
def Obligations.RemoteAccessesIssue : Prop :=
  Says.RemoteIssue ∧ Says.VectorRemote

/-- R329, R344, R77, R78: a branch is taken exactly when its condition holds; the targets are the PC's line plus the
signed line offset times 64 plus twice the slot, for JALR x a plus the immediate; JAL and JALR write the PC that
sequential flow reaches to x d, untagged. Nothing else differs from the flow of control. -/
def Says.BranchesAndJumps : Prop :=
  ∀ (s : State) (d a b : XName) (cond : Cond) (imm : BitVec 32) (t : Target) (tj : TargetJ),
    let va := (s.x a).val
    let vb := (s.x b).val
    let to1 : Word := lineBase s.core.curPc + t.line.signExtend 64 * 64 + t.slot.setWidth 64 * 2
    let toJ : Word := lineBase s.core.curPc + tj.line.signExtend 64 * 64 + tj.slot.setWidth 64 * 2
    let holds : Prop := match cond with
      | .eq => va = vb
      | .ne => va ≠ vb
      | .lt => va.toInt < vb.toInt
      | .ge => vb.toInt ≤ va.toInt
      | .ltu => va.toNat < vb.toNat
      | .geu => vb.toNat ≤ va.toNat
    let link : XReg := { val := s.core.seqPc, tag := 0 }
    (holds → exec (.b a b cond t) s = .next (s.jump to1)) ∧
    (¬ holds → exec (.b a b cond t) s = .next (s.arrive s.core.seqPc false true)) ∧
    exec (.j t) s = .next (s.jump to1) ∧
    (∃ u, exec (.jal d tj) s = .next u ∧ (s.jump toJ).sameButX u ∧ s.wroteX u d link) ∧
    (∃ u, exec (.jalr d a imm) s = .next u ∧ (s.jump (va + imm.signExtend 64)).sameButX u ∧ s.wroteX u d link)

/-- R364, R53: SETVL and SETVLB set cr.vl and x d to min(x a, VLMAX) and cr.vcfg to the span and width named; SETVLB
branches exactly when that is 0. -/
def Says.SetVectorLength : Prop :=
  ∀ (s : State) (d a : XName) (ew : Ew) (sp : Span) (t : Target),
    let vl := min (s.x a).val.toNat (Span.count sp * 384 / Ew.bytes ew)
    let r : XReg := { val := BitVec.ofNat 64 vl, tag := 0 }
    let u : State := { s with core := { s.core with ctl := { s.core.ctl with vl := BitVec.ofNat 12 vl, ew := ew, span := sp } } }
    (∃ v, exec (.setvl d a ew sp) s = .next v ∧ u.advance.sameButX v ∧ s.wroteX v d r) ∧
    (∃ v, exec (.setvlb d a ew sp t) s = .next v ∧ s.wroteX v d r ∧
      (if vl = 0 then u.jump (s.core.target t) else u.arrive s.core.seqPc false true).sameButX v)

/-- R225, R290, R303, R338, R375: where TRAP, its services and ERET complete: on a user hart whose earlier vector instructions have
executed and that nothing asks to stop. TRAP with imm[31] clear enters the handler that may take it; a firmware call ends at the
next head with its answer in x10; ERET goes on at cr.tpc. -/
def Says.TrapCompletes : Prop :=
  ∀ (s : State) (imm : BitVec 32), s.calm →
    let answers (i : Instr) (v : Word) : Prop := ∃ t, exec i s = .next t ∧ t.x 10 = { val := v, tag := 0 } ∧
      (∀ r : XName, r ≠ 10 → t.x r = s.x r) ∧ t.core.curPc = s.advance.core.curPc ∧ t.core.run = s.core.run ∧ t.mem = s.mem
    (imm.getLsbD 31 = false → s.handled → ∃ t, exec (.trap imm) s = .next t ∧ t.core.pc = s.core.ctl.thandler ∧
      t.core.ctl.tcause = 0x0F ∧ t.core.ctl.tpc = s.core.pc ∧ t.core.ctl.tval = imm.setWidth 64 ∧ t.core.ctl.intrap = true ∧
      t.core.x = s.core.x ∧ t.mem = s.mem) ∧
    (imm.getLsbD 31 = true → answers (.trap imm) (-1)) ∧ answers .livePackages s.liveSet ∧
    answers .clearDeferredIntegrity (s.core.ctl.integPc ++ s.core.ctl.integ) ∧
    ∃ t, exec .eret s = .next t ∧ t.core.pc = s.core.ctl.tpc ∧ t.core.ctl.intrap = false ∧
      t.core.ctl.estart = s.core.ctl.tel ∧ t.core.x = s.core.x ∧ t.mem = s.mem

/-- Branches, jumps and their link; SETVL and SETVLB; where TRAP, its services and ERET complete. -/
def Obligations.BranchesAndVectorLength : Prop :=
  Says.BranchesAndJumps ∧ Says.SetVectorLength ∧ Says.TrapCompletes

/-- R28: at a JOIN whose only participant is the arriving core, it goes on, attached. A JOIN is issued to all attached cores at once:
while one of them has not come to it, the others stand before it. While a participant that is not among the cores of the JOIN, and
has neither exited nor parked, has not arrived, the core waits at the JOIN. -/
def Says.JoinWaitsForParticipants : Prop :=
  ∀ (s : State) (mask : BitVec 4) (id : BitVec 8),
    let k := s.core.num % 4
    let q := s.quadAt s.core.quadNum
    s.calm → q.joins = [] → s.core.loop.active = false → s.core.run = .running →
    ((∀ i : Nat, i < 4 → i ≠ k → (mask ||| q.attached).getLsbD i = false) →
      ∃ t, exec (.join mask id) s = .next t ∧ t.core.run = .running ∧ t.core.pc = s.core.seqPc ∧
        t.attached s.core.num = true ∧ (t.quadAt s.core.quadNum).joins = [] ∧ t.core.x = s.core.x) ∧
    (s.attached s.core.num = true → (∃ n ∈ q.attachedCores, n ≠ s.core.num ∧
        ((s.coreAt n).heads ≠ s.core.heads ∨ (s.coreAt n).pc ≠ s.core.pc ∨ (s.coreAt n).run ≠ .running)) →
      exec (.join mask id) s = .next s) ∧
    (s.joinIssues = true → (∃ i : Nat, i < 4 ∧ (mask ||| q.attached).getLsbD i = true ∧
        4 * s.core.quadNum + i ∉ s.joiners ∧
        (s.coreAt (4 * s.core.quadNum + i)).run ≠ .exited ∧ (s.coreAt (4 * s.core.quadNum + i)).run ≠ .parked) →
      ∃ t, exec (.join mask id) s = .next t ∧ t.core.run = .waiting (.join id) ∧ t.core.pc = s.core.pc ∧
        t.attached s.core.num = s.attached s.core.num ∧ t.core.x = s.core.x)

/-- R29, R30: when the count of a JOIN has reached its limit, a core that waits there takes the join-timeout trap with
sub-cause 0x01; tval holds the set of cores that had arrived above the id of the core's own arrival. -/
def Says.JoinTimeout : Prop :=
  ∀ (s : State) (id : BitVec 8) (members : BitVec 4) (limit started : Nat) (late : BitVec 4),
    let k := s.core.num % 4
    let q := s.core.quadNum
    s.calm → s.handled → s.core.num < Config.cores → s.core.run = .waiting (.join id) →
    (s.quadAt q).joins = [{ pc := s.core.pc, arrived := [(k, id)], members := members, limit := some limit,
                            started := started, late := late }] →
    started + limit ≤ s.cycle (4 * q) →
    ∃ t, exec (.joinTimeout q s.core.pc) s = .next t ∧ (t.quadAt q).joins = [] ∧
      s.entered t 0x0A 0x01 0 ((bitAt k ++ id).setWidth 64)

/-- R45, R340: EXIT of a drained hart without engine commands retires it: it leaves the reel, its loop ends, its window
entries pass to the holding area; its registers and memory stay. -/
def Says.ExitRetires : Prop :=
  ∀ (s : State), s.calm → s.core.cmds = [] → s.integPassed →
    ∃ t, exec .exit s = .next t ∧ t.core.run = .exited ∧ t.attached s.core.num = false ∧
      t.core.loop.active = false ∧ t.core.window = [] ∧ t.core.x = s.core.x ∧ t.core.m = s.core.m ∧
      t.core.vec = s.core.vec ∧ t.mem = s.mem

/-- JOIN waits for its participants or times out, and EXIT retires a hart. -/
def Obligations.JoinsAndExit : Prop :=
  Says.JoinWaitsForParticipants ∧ Says.JoinTimeout ∧ Says.ExitRetires

/-- R223: a trap with the handler as its route saves cause, PC, element and value, sets intrap, clears cr.estart and
transfers control to cr.thandler; nothing else changes. -/
def Says.TrapEntry : Prop :=
  ∀ (s : State) (cause sub : BitVec 8) (el : BitVec 12) (val : Word),
    s.calm → s.handled → toFirmware cause = false →
    ∃ t, s.trap cause sub el val = .next t ∧ s.entered t cause sub el val

/-- R338: ERET clears intrap, puts cr.tel back into cr.estart and enters the line of cr.tpc; the other trap registers, an
active loop and all else stay. -/
def Says.EretResumes : Prop :=
  ∀ (s : State), s.calm →
    ∃ t, exec .eret s = .next t ∧
      t = { s with
        quads := t.quads,
        core := { s.core with
          pc := s.core.ctl.tpc, line := none, heads := s.core.heads + 1, tested := false,
          ctl := { s.core.ctl with intrap := false, estart := s.core.ctl.tel } } }

/-- R225, R290, R303, R375: TRAP with imm[31] clear enters the handler with cause 0x0F; with imm[31] set it is a firmware
call, after which the hart goes on at the next head: an unknown service puts all ones into x10, service 0x0021 the set
of live packages, service 0x0022 the old cr.integ, which it clears. -/
def Says.TrapAndServices : Prop :=
  (∀ (s : State) (imm : BitVec 32), imm.getLsbD 31 = false → s.calm → s.handled →
    ∃ t, exec (.trap imm) s = .next t ∧ s.entered t 0x0F 0x00 0 (imm.setWidth 64)) ∧
  (∀ (s : State) (imm : BitVec 32), s.calm →
    let call (i : BitVec 32) : State := { s with core := { s.core with
      fwTrap := some { cause := 0x10, sub := 0x00, el := 0, val := i.setWidth 64, pc := s.core.pc } } }
    (imm.getLsbD 31 = true → ∃ t, exec (.trap imm) s = .next t ∧ (call imm).advance.sameButX t ∧
      s.wroteX t 10 { val := BitVec.allOnes 64, tag := 0 }) ∧
    (∃ t, exec .livePackages s = .next t ∧ (call 0x80000021).advance.sameButX t ∧
      (∀ r : XName, r ≠ 10 → t.x r = s.x r) ∧ (t.x 10).tag = 0 ∧
      ∀ k : Nat, k < 64 → ((t.x 10).val.getLsbD k = true ↔
        ∃ l, s.launchOf s.core = some l ∧ ∃ p ∈ l.pkgs, p.toNat = k ∧ s.lost.contains p = false)) ∧
    (∃ t, exec .clearDeferredIntegrity s = .next t ∧
      s.wroteX t 10 { val := s.core.ctl.integPc ++ s.core.ctl.integ, tag := 0 } ∧
      t.core.ctl.integ = 0 ∧ t.core.ctl.integPc = 0 ∧ t.core.ctl.flags = s.core.ctl.flags ∧ t.mem = s.mem ∧
      t.core.curPc = s.advance.core.curPc))

/-- R222, R224: a trap whose route is firmware, other than a firmware call, or any trap but queue fault 0x03 without a handler, stops
the hart at its position and writes none of its trap registers; firmware holds the record. Once nothing of the hart is outstanding it parks: its
save is made, with the record, and it leaves the reel; while engine commands have not ended it stands stopped. -/
def Says.FirmwareTrapParks : Prop :=
  ∀ (s : State) (cause sub : BitVec 8) (el : BitVec 12) (val : Word),
    s.calm → cause ≠ 0x10 → cause ≠ 0x0D →
      (toFirmware cause = true ∨ s.core.ctl.intrap = false ∧ s.core.ctl.thandler = 0) → ¬ (cause = 0x0C ∧ sub = 0x03) →
    let tr : TrapRecord := { cause := cause, sub := sub, el := el, val := val, pc := s.core.pc }
    ∃ t, s.trap cause sub el val = .next t ∧ t.core.ctl = s.core.ctl ∧ t.core.pc = s.core.pc ∧ t.core.doubleTrap = false ∧
      t.core.fwTrap = some tr ∧ t.core.inner = some tr ∧
      (s.core.cmds ≠ [] → t.core.run = .parking) ∧
      (s.core.cmds = [] → s.core.sq = [] → s.core.waits = [] →
        t.core.run = .parked ∧ t.core.x = s.core.x ∧ t.attached s.core.num = false ∧
        ∃ v ∈ t.saves, v.flight = s.core.hartId.flight ∧ v.core.num = s.core.num ∧ v.core.pc = s.core.pc ∧
          v.core.x = s.core.x ∧ v.core.run = .parked ∧ v.core.inner = some tr)

/-- R228: a trap with the handler as its route, raised while intrap is 1, writes no trap register; the inner record is kept
and the hart, with nothing outstanding, parks with dt = 1, its save made. -/
def Says.DoubleTrapParks : Prop :=
  ∀ (s : State) (cause sub : BitVec 8) (el : BitVec 12) (val : Word),
    s.calm → s.core.ctl.intrap = true → toFirmware cause = false →
    let tr : TrapRecord := { cause := cause, sub := sub, el := el, val := val, pc := s.core.pc }
    ∃ t, s.trap cause sub el val = .next t ∧ t.core.ctl = s.core.ctl ∧ t.core.pc = s.core.pc ∧ t.core.doubleTrap = true ∧
      t.core.inner = some tr ∧
      (s.core.cmds ≠ [] → t.core.run = .parking) ∧
      (s.core.cmds = [] → s.core.sq = [] → s.core.waits = [] →
        t.core.run = .parked ∧ t.core.x = s.core.x ∧ t.attached s.core.num = false ∧
        ∃ v ∈ t.saves, v.flight = s.core.hartId.flight ∧ v.core.num = s.core.num ∧ v.core.pc = s.core.pc ∧
          v.core.run = .parked ∧ v.core.inner = some tr ∧ v.core.doubleTrap = true)

/-- Trap entry, ERET, TRAP and its services, and the traps that park a hart. -/
def Obligations.TrapsEnterAndReturn : Prop :=
  Says.TrapEntry ∧ Says.EretResumes ∧ Says.TrapAndServices ∧ Says.FirmwareTrapParks ∧ Says.DoubleTrapParks

/-- R334, R62, R86: CRRD of a number the hart may name delivers the register's value, untagged; a user hart's CRRD or CRWR
of any other number is an illegal instruction with sub-cause 0x07, as is one of a number from 0x800. -/
def Says.ControlRegisterRead : Prop :=
  (∀ (s : State) (d : XName) (num : BitVec 12), s.core.vq = [] → (s.core.fw = true ∨ userNumber num.toNat = true) →
    ∃ t, exec (.crrd d num) s = .next t ∧ ({ s with free := s.free + 1 } : State).advance.sameButX t ∧
      s.wroteX t d { val := s.readCr num.toNat, tag := 0 }) ∧
  (∀ (s : State) (x : XName) (num : BitVec 12), s.core.fw = false → userNumber num.toNat = false →
    TrapsIllegal (.crrd x num) s 0x07 ∧ TrapsIllegal (.crwr x num) s 0x07) ∧
  (∀ num : BitVec 12, 0x800 ≤ num.toNat → userNumber num.toNat = false)

/-- R64 to R71, R294: where the fields of the control registers stand. The fields of cr.drift are those of the quad's reel; a core
that is cut loose reads drift 0. -/
def Says.ControlRegisterFields : Prop :=
  ∀ (s : State),
    let k := s.core.ctl
    let att := (s.quadAt s.core.quadNum).attached
    let loose : Bool := !att.getLsbD (s.core.num % 4)
    let at_ (n hi lo : Nat) : Nat := (s.readCr n).toNat / 2 ^ lo % 2 ^ (hi + 1 - lo)
    (at_ 0x000 31 16 = k.pcnt.toNat ∧ at_ 0x000 3 3 = k.intrap.toNat ∧ at_ 0x000 2 2 = k.cecc.toNat) ∧
    (at_ 0x001 9 8 = k.rm.toNat ∧ at_ 0x001 5 0 = k.flags.toNat) ∧
    (∀ j : Nat, j < 6 → s.readCr (0x008 + j) = k.fx.getD j 0) ∧
    (s.readCr 0x010 = k.vl.setWidth 64 ∧ at_ 0x011 3 2 = k.span.code.toNat ∧ at_ 0x011 1 0 = k.ew.code.toNat) ∧
    (s.readCr 0x012 = k.estart.setWidth 64 ∧ s.readCr 0x013 = k.rot.setWidth 64 ∧ s.readCr 0x014 = k.gates.setWidth 64) ∧
    (s.readCr 0x020 = s.time ∧ at_ 0x021 27 16 = s.pkg.toNat ∧ at_ 0x021 9 0 = s.core.num % 1024) ∧
    (at_ 0x022 63 32 = k.epoch.toNat ∧ at_ 0x022 23 20 = k.stage.toNat ∧ at_ 0x022 16 8 = k.count.toNat ∧
      at_ 0x022 7 0 = k.index.toNat) ∧
    (at_ 0x023 15 12 = att.toNat ∧ at_ 0x023 11 10 = pilotOf att ∧ at_ 0x023 8 8 = loose.toNat ∧
      (loose = true → at_ 0x023 6 0 = 0)) ∧
    (s.readCr 0x030 = k.resid ∧ at_ 0x031 17 16 = k.bank.toNat ∧ at_ 0x031 9 0 = k.world.toNat ∧
      at_ 0x032 63 16 = k.integPc.toNat ∧ at_ 0x032 15 0 = k.integ.toNat) ∧
    (∀ j : Nat, j < 4 → s.readCr (0x034 + j) = s.feats.extractLsb' (64 * j) 64) ∧
    (at_ 0x040 15 8 = k.tsub.toNat ∧ at_ 0x040 7 0 = k.tcause.toNat ∧ s.readCr 0x041 = k.tpc ∧ s.readCr 0x042 = k.tel.setWidth 64 ∧
      s.readCr 0x043 = k.tval ∧ s.readCr 0x044 = k.thandler) ∧
    (s.readCr 0x050 = k.fwshare.setWidth 64 ∧ s.readCr 0x051 = k.qbackoff.setWidth 64 ∧ s.readCr 0x052 = k.jointime.setWidth 64) ∧
    (∀ l : Launch, s.launchOf s.core = some l → at_ 0x060 32 32 = l.busy.toNat ∧ at_ 0x060 31 0 = l.last.toNat) ∧
    (at_ 0x061 63 63 = k.rb.toNat ∧ at_ 0x061 31 0 = k.rbFrom.toNat) ∧
    ∀ b : Nat, b < 4 → at_ 0x800 (16 * b + 15) (16 * b + 15) = (k.bound b).toNat ∧ at_ 0x800 (16 * b + 9) (16 * b) = (k.boundWorld b).toNat

/-- R63, R64 to R71, R294, R334: CRWR writes the fields whose access code permits it, and no other control register reads otherwise
after it. A register of RW fields reads back what was written to them, g0 reads 1, a W1C field that was 1 stays 1 unless a 1 is written
to it, intrap stays, cr.fwshare reads 16 after a write above 16, and a register of RO fields completes with no effect. Only control
registers change. -/
def Says.ControlRegisterWrite : Prop :=
  ∀ (s : State) (a : XName) (num : BitVec 12), (s.core.fw = true ∨ userNumber num.toNat = true) → s.core.ctl.fx.length = 6 →
    let v := (s.x a).val
    let k := s.core.ctl
    let n := num.toNat
    ∃ w : Ctl,
      let u : State := { s with core := { s.core with ctl := w } }
      exec (.crwr a num) s = .next u.advance ∧
      (n ∈ [0x010, 0x011, 0x020, 0x021, 0x022, 0x023, 0x031, 0x032, 0x034, 0x035, 0x036, 0x037, 0x060] → w = k) ∧
      (∀ m : Nat, m ≠ n → m ≠ 0x023 → u.readCr m = s.readCr m) ∧
      (n = 0x000 → w.intrap = k.intrap ∧ w.pcnt = v.extractLsb' 16 16 ∧ w.cecc = (k.cecc && !v.getLsbD 2)) ∧
      (n = 0x001 → u.readCr n = v &&& 0x33F) ∧
      (0x008 ≤ n → n ≤ 0x00D → u.readCr n = v) ∧
      (n = 0x012 → u.readCr n = v &&& 0xFFF) ∧ (n = 0x013 → u.readCr n = v &&& 0xF) ∧ (n = 0x014 → u.readCr n = v &&& 0xFE ||| 1) ∧
      (n = 0x030 ∨ n = 0x041 ∨ n = 0x043 ∨ n = 0x044 → u.readCr n = v) ∧
      (n = 0x040 → u.readCr n = v &&& 0xFFFF) ∧ (n = 0x042 → u.readCr n = v &&& 0xFFF) ∧
      (n = 0x050 → (u.readCr n).toNat = min 16 (v.toNat % 32)) ∧ (n = 0x051 → u.readCr n = v &&& 0xFFFF) ∧
      (n = 0x052 → u.readCr n = v &&& 0xFFFFFFFF) ∧
      (n = 0x061 → w.rb = (k.rb && !v.getLsbD 63) ∧ w.rbFrom = k.rbFrom) ∧
      (n = 0x800 → ∀ b : Nat, b < 4 → w.bound b = v.getLsbD (16 * b + 15) ∧ w.boundWorld b = v.extractLsb' (16 * b) 10)

/-- CRRD and CRWR follow the field maps and access codes of the control registers. -/
def Obligations.ControlRegisters : Prop :=
  Says.ControlRegisterRead ∧ Says.ControlRegisterFields ∧ Says.ControlRegisterWrite

/-- R169, R343: cache maintenance changes no memory, no register and no clock: with a length of 0 it only advances, else,
after the earlier S accesses, only what later line entries may still fetch of older code bytes can differ; a range that
fails the check traps with the check's fault. IFENCE goes on with a new line entry. -/
def Says.CacheMaintenance : Prop :=
  ∀ (s : State) (i : Instr) (a b : XName), i = .cwb a b ∨ i = .cinv a b ∨ i = .iinv a b →
    let n := (s.x b).val.toNat
    (n = 0 → exec i s = .next s.advance) ∧
    (∀ l : Landing, n ≠ 0 → s.check (s.x a) 0 n 1 .maintain = .ok l → s.doneS = true →
      ∃ t, exec i s = .next t ∧ t = { s.advance with code := t.code }) ∧
    (∀ e : AccessFault, n ≠ 0 → s.check (s.x a) 0 n 1 .maintain = .error e → exec i s = s.trap e.cause e.sub 0 e.val)

/-- R170, R162: CWB writes back what the core's own L1 holds of the lines of the range: every earlier store to a line, when the
last store to it was made in that L1, which then holds them all (R161). After IINV an entry of a line of the range can no longer fetch
bytes from before a store that a CWB followed so. -/
def Says.CodeSequence : Prop :=
  ∀ (s : State) (a b : XName) (l : Landing), (s.x b).val.toNat ≠ 0 → s.doneS = true →
    s.check (s.x a) 0 (s.x b).val.toNat 1 .maintain = .ok l →
    (∃ t, exec (.cwb a b) s = .next t ∧ t.code.map (fun e => (e.base, e.bytes, e.core)) = s.code.map (fun e => (e.base, e.bytes, e.core)) ∧
      ∀ e ∈ t.code, inLines l.addr (s.x b).val.toNat e.base = true →
        (∀ (f : CodeLine) (m : Nat), s.code.find? (fun x => x.base == e.base) = some f → f.core = some m →
          s.oneL1 s.core.num m = true) → e.back = true) ∧
    (∃ t, exec (.iinv a b) s = .next t ∧
      ∀ e ∈ t.code, inLines l.addr (s.x b).val.toNat e.base = true → e.back = false)

/-- R343, R79: IFENCE ends the line entry, so that the next head is fetched anew; nothing else but the flow changes. -/
def Says.InstructionFence : Prop :=
  ∀ (s : State), s.core.loop.active = false →
    ∃ t, exec .ifence s = .next t ∧ s.flowed t ∧ t.core.curPc = s.core.seqPc ∧ t.core.curLine = none

/-- Cache maintenance, the code sequence and IFENCE. -/
def Obligations.CodeAndCaches : Prop :=
  Says.CacheMaintenance ∧ Says.CodeSequence ∧ Says.InstructionFence

/-- R181, R180: a FENCE with nothing left to wait for ends at once, and only after .vs does the V stream still use what it has loaded
ahead: .sv raises pts_V to at least pts_S, .vs pts_S to at least
pts_V, .eng both to at least the clock of every ended command, and .all leaves them equal; .key and .pod change no clock.
Memory and registers stay. -/
def Says.FencesRaiseClocks : Prop :=
  ∀ (s : State) (form : FenceForm), s.calm → s.core.sq = [] → s.core.cmds = [] → s.revoking = [] →
    s.core.switching = false → s.core.remote = [] → s.core.waits = [] → s.integPassed →
    let engS := s.core.ended.foldl (fun m e => max m e.2) 0
    ∃ t, exec (.fence form) s = .next t ∧
      t = { s.advance with core := { s.advance.core with sS := t.core.sS, sV := t.core.sV, ahead := t.core.ahead } } ∧
      t.core.ahead = (if form = .vs then s.core.ahead else []) ∧
      (match form with
       | .sv => t.core.sV.pts = max s.core.sV.pts s.core.sS.pts ∧ t.core.sS.pts = s.core.sS.pts
       | .vs => t.core.sS.pts = max s.core.sS.pts s.core.sV.pts ∧ t.core.sV.pts = s.core.sV.pts
       | .eng => t.core.sS.pts = max s.core.sS.pts engS ∧ t.core.sV.pts = max s.core.sV.pts engS
       | .key => t.core.sS.pts = s.core.sS.pts ∧ t.core.sV.pts = s.core.sV.pts
       | .pod => t.core.sS.pts = s.core.sS.pts ∧ t.core.sV.pts = s.core.sV.pts
       | .all => t.core.sS.pts = max (max s.core.sS.pts s.core.sV.pts) engS ∧ t.core.sV.pts = t.core.sS.pts)

/-- R181, R40, R296: what a FENCE waits for holds it back: .eng while an engine command has not ended, .key while a revocation has
not completed or the core's firmware has a WSWITCH or WREL under way, .pod while a remote access is not acknowledged: the hart stays at the FENCE. -/
def Says.FencesWait : Prop :=
  ∀ (s : State) (form : FenceForm), s.calm → s.core.sq = [] → s.integPassed →
    (s.core.cmds ≠ [] ∧ (form = .eng ∨ form = .all) ∨ (s.revoking ≠ [] ∨ s.core.switching = true) ∧ (form = .key ∨ form = .all) ∨
      s.core.remote ≠ [] ∧ (form = .pod ∨ form = .all)) →
    ∃ t, exec (.fence form) s = .next t ∧ t = { s with core := { s.core with tested := t.core.tested } }

/-- R302: in L720 mode FENCE, BAR, QSEND and EXIT raise the integrity trap 0x01 after their drain while cr.integ is not 0
and the test has not been passed at this head; its value is the deferred PC. -/
def Says.DeferredIntegrity : Prop :=
  ∀ (s : State) (form : FenceForm) (kind : BarKind) (scope : Scope) (a : XName) (b : VName),
    s.calm → s.handled → s.deferred = true → s.core.ctl.integ ≠ 0 → s.core.tested = false → s.core.cmds = [] →
    (∀ i : Instr, i = .fence form ∨ i = .bar kind scope ∨ i = .qsend a b ∨ i = .exit →
      ∃ t, exec i s = .next t ∧ s.entered t 0x07 0x01 0 (s.core.ctl.integPc.setWidth 64))

/-- FENCE raises clocks, waits, and takes the deferred integrity trap. -/
def Obligations.Fences : Prop :=
  Says.FencesRaiseClocks ∧ Says.FencesWait ∧ Says.DeferredIntegrity

/-- R295: WSWITCH and WREL by a user hart are illegal instructions with sub-cause 0x05. -/
def Says.WorldInstructionsAreFirmwares : Prop :=
  ∀ (s : State) (a : XName), s.core.fw = false →
    TrapsIllegal (.wswitch a) s 0x05 ∧ TrapsIllegal (.wrel a) s 0x05

/-- R296: WSWITCH to another world binds and selects the bank and clears the user hart's scalar registers, masks, gates,
tiles, accumulators and their types, scratchpad, flags, index registers, vl, cr.vcfg, cr.estart, cr.rot, cr.integ and loop; to the
world in force it clears nothing. No vector bank is written. -/
def Says.WorldSwitch : Prop :=
  ∀ (s : State) (a : XName), s.core.fw = true → s.core.sq = [] → s.core.vq = [] → s.core.cmds = [] → s.core.loop.active = false →
    let v := (s.x a).val
    let k := (v.extractLsb' 16 2).toNat
    let w := v.extractLsb' 0 10
    (s.core.ctl.bound k = true → s.core.ctl.boundWorld k = w) →
    ∃ t, exec (.wswitch a) s = .next t ∧ t.core.ctl.world = w ∧ t.core.ctl.bank = v.extractLsb' 16 2 ∧
      t.core.ctl.bound k = true ∧ t.core.ctl.boundWorld k = w ∧ t.core.vec = s.core.vec ∧ t.core.fwX = s.core.fwX ∧
      t.core.switching = false ∧ t.core.curPc = s.advance.core.curPc ∧
      (w = s.core.ctl.world → t.core.x = s.core.x ∧ t.core.tiles = s.core.tiles ∧ t.core.acc = s.core.acc ∧
        t.core.m = s.core.m ∧ t.core.loop = s.core.loop ∧ t.mem = s.mem ∧
        t.core.ctl = { s.core.ctl with wbind := t.core.ctl.wbind, bank := t.core.ctl.bank }) ∧
      (w ≠ s.core.ctl.world → t.core.x = .replicate 32 .zero ∧ t.core.m = .replicate 8 0 ∧ t.core.tiles = [] ∧
        t.core.acc = [] ∧ t.core.rowType = .replicate 64 .none ∧ t.core.ctl.gates = 1 ∧ t.core.ctl.flags = 0 ∧ t.core.ctl.rm = 0 ∧
        t.core.ctl.fx = List.replicate 6 (BitVec.allOnes 64) ∧ t.core.ctl.vl = 0 ∧ t.core.ctl.span = .s1 ∧ t.core.ctl.ew = .e8 ∧
        t.core.ctl.estart = 0 ∧ t.core.ctl.rot = 0 ∧ t.core.ctl.integ = 0 ∧ t.core.ctl.integPc = 0 ∧
        t.core.loop.active = false ∧
        t.mem = s.mem.clear (Config.scratchBase + s.core.num * Config.scratchBytes) Config.scratchBytes)

/-- R297: WREL zeroes the registers of an unselected bank and unbinds it; the other banks and all else stay. -/
def Says.WorldRelease : Prop :=
  ∀ (s : State) (a : XName), s.core.fw = true → s.core.vq = [] → s.core.cmds = [] → s.core.vec.wf = true →
    let k := ((s.x a).val.extractLsb' 16 2).toNat
    k ≠ s.core.ctl.bank.toNat →
    ∃ t, exec (.wrel a) s = .next t ∧ t.core.ctl.bound k = false ∧
      (∀ j : Nat, j < 4 → j ≠ k → t.core.ctl.bound j = s.core.ctl.bound j ∧ t.core.ctl.boundWorld j = s.core.ctl.boundWorld j) ∧
      (∀ c : Nat, t.core.vec.get c = if c / 12288 = k then 0 else s.core.vec.get c) ∧
      t.core.x = s.core.x ∧ t.core.fwX = s.core.fwX ∧ t.mem = s.mem

/-- R299, R300 step 1: from the revocation on, every access of a hart through a local slot under the key, slot 0 apart, faults with a
world violation. The model's choice is that the step comes when no vector instruction that a hart has gone past waits to execute, and
is put off until then (log 61). -/
def Says.KeyRevocation : Prop :=
  ∀ (s : State) (key : BitVec 6),
    ((∃ c ∈ s.cores, c.lates ≠ []) → exec (.keyRevoke key) s = .next s) ∧
    ((∀ c ∈ s.cores, c.lates = []) → ∃ t, exec (.keyRevoke key) s = .next t ∧ key ∈ t.revoking ∧
      t.live.getLsbD key.toNat = false ∧ (∀ j : Nat, j < 64 → j ≠ key.toNat → t.live.getLsbD j = s.live.getLsbD j) ∧
      t.mem = s.mem ∧ t.core = s.core ∧
      ∀ (x : XReg) (off : Int) (n al : Nat) (kind : AccKind), x.tagged = true → x.slot ≠ 0 →
        let e := t.core.slot x.slot
        e.v = true → e.rem = false → e.key = key →
        t.check x off n al kind = .error { cause := 0x0B, sub := 0x01, val := eaVal e (x.val.toNat + off) })

/-- R300 steps 2 to 5: once nothing under the key is pending, the revocation completes: its material is zero, no V stream keeps bytes
loaded ahead from an extent under it, and memory outside the key's extents keeps its bytes (the extents read as their old ciphertext
deciphered under it, log 14). -/
def Says.KeyRevocationCompletes : Prop :=
  ∀ (s : State) (key : BitVec 6), s.MemOk → key ∈ s.revoking →
    (∀ c ∈ s.cores, c.sq = [] ∧ c.vq = [] ∧ c.fq = [] ∧ c.cmds = []) → (∀ v ∈ s.saves, v.core.vq = []) →
    ∃ t, exec (.keyRevokeComplete key) s = .next t ∧ key ∉ t.revoking ∧
      (t.keyMat.find? fun k => k.1 == key) = some (key, 0) ∧
      (∀ e ∈ t.core.ahead, 128 * e.1 / 65536 ∉ s.extentsOf key) ∧
      (∀ a : Nat, a / 65536 ∉ s.extentsOf key → t.mem.get a = s.mem.get a) ∧ t.core.x = s.core.x

/-- WSWITCH, WREL and the revocation of a key. -/
def Obligations.WorldsAndKeys : Prop :=
  Says.WorldInstructionsAreFirmwares ∧ Says.WorldSwitch ∧ Says.WorldRelease ∧ Says.KeyRevocation ∧ Says.KeyRevocationCompletes

/-- R171, R41, R231: SAFE only goes on; when a move or a pre-emption waits for the hart, it stops there with the PC at the
next head. -/
def Says.SafePoint : Prop :=
  ∀ (s : State), s.core.fw = false → s.core.loop.active = false →
    (s.mustStop s.core = false → exec .safe s = .next s.advance) ∧
    (s.mustStop s.core = true → ∃ t, exec .safe s = .next t ∧ t.core.run = .stopped none ∧ t.core.pc = s.core.seqPc ∧
      t.core.x = s.core.x ∧ t.core.ctl = s.core.ctl ∧ t.mem = s.mem)

/-- R366: a SLEEP whose tick has been reached goes on; else the hart waits at it, and the wait of a hart on any core ends once
the tick is reached: it goes on at the head after the SLEEP, and no other core changes. -/
def Says.Sleep : Prop :=
  (∀ (s : State) (a : XName), s.calm →
    ((s.x a).val.toNat ≤ s.time.toNat → exec (.sleep a) s = .next s.advance) ∧
    (s.time.toNat < (s.x a).val.toNat →
      exec (.sleep a) s = .next { s with core := { s.core with run := .waiting (.sleep (s.x a).val) } })) ∧
  (∀ (s : State) (n : Nat) (t : Word), n < Config.cores → (s.coreAt n).run = .waiting (.sleep t) → t.toNat ≤ s.time.toNat →
    (s.coreAt n).loop.active = false → (s.coreAt n).fw = false →
    ∃ u, exec (.sleepWake n) s = .next u ∧ (u.coreAt n).run = .running ∧ (u.coreAt n).pc = (s.coreAt n).seqPc ∧
      (u.coreAt n).x = (s.coreAt n).x ∧ (∀ m : Nat, m ≠ n → u.coreAt m = s.coreAt m) ∧ u.mem = s.mem)

/-- SAFE and SLEEP, and what stops a hart there. -/
def Obligations.SafePointsAndSleep : Prop :=
  Says.SafePoint ∧ Says.Sleep

/-- R330, R186: a drained hart whose earlier accesses are performed arrives in the next generation of a scope. BAR.arrive
goes on with its clocks as they are; BAR.full waits while a participant has not arrived; BAR.wait of a hart that has never
arrived at the scope completes at once and changes no clock. Registers and memory stay. The arrival is at the instance of an open
generation that still waits for the hart, where it was when that began (R233), else at that of its place. -/
def Says.BarrierArrival : Prop :=
  ∀ (s : State) (scope : Scope),
    let inst := s.instOf scope
    let b := s.barrierAt s.core scope inst
    s.calm → s.core.sq = [] → s.integPassed → b.opened = none →
    (scope = .pod → s.core.remote = [] ∧ s.core.waits = []) →
    (∃ t, exec (.bar .arrive scope) s = .next t ∧ t.core.lastGen scope = some (inst, b.gen) ∧ t.core.sS = s.core.sS ∧
      t.core.sV = s.core.sV ∧ t.core.run = s.core.run ∧ t.core.curPc = s.advance.core.curPc ∧ t.core.x = s.core.x ∧
      t.core.vec = s.core.vec ∧ t.mem = s.mem) ∧
    ((∃ h ∈ s.participants s.core scope, h ≠ s.core.hartId) →
      ∃ t, exec (.bar .full scope) s = .next t ∧ t.core.run = .waiting (.barrier scope inst b.gen false) ∧
        t.core.pc = s.core.pc ∧ t.core.x = s.core.x ∧ t.mem = s.mem) ∧
    (s.core.lastGen scope = none → exec (.bar .wait scope) s = .next s.advance)

/-- R330: at the `.core` scope the generation completes at arrival: BAR.full.core goes on and leaves pts_S = pts_V, the larger
of the two. -/
def Says.CoreBarrierReconciles : Prop :=
  ∀ (s : State), s.calm → s.core.sq = [] → s.integPassed →
    let b := s.barrierAt s.core .core (s.instOf .core)
    b.opened = none → b.clocks.length = b.gen →
    ∃ t, exec (.bar .full .core) s = .next t ∧ t.core.run = s.core.run ∧ t.core.curPc = s.advance.core.curPc ∧
      t.core.sS.pts = max s.core.sS.pts s.core.sV.pts ∧ t.core.sV.pts = t.core.sS.pts ∧ t.core.x = s.core.x ∧ t.mem = s.mem

/-- R186, R330: a hart that waits at BAR.wait or BAR.full leaves, with both clocks raised to at least C, in a step after
its generation has completed, and stays while it is open; the waits of R330 before an arrival carry the BAR out afresh. -/
def Says.BarrierRelease : Prop :=
  ∀ (s : State) (scope : Scope) (inst gen : Nat) (again : Bool), s.agenda = [] → s.accepted = [] → s.boot.stage ≠ .stopped →
    s.core.fw = false → s.core.lates = [] → s.core.run = .waiting (.barrier scope inst gen again) →
    let b := s.barrierAt s.core scope inst
    (b.gen ≤ gen → step s = .next s.tick) ∧
    (gen < b.gen → again = true → step s = .next { s.tick with core := { s.core with run := .running } }) ∧
    (gen < b.gen → again = false → ∃ t, step s = .next t ∧ t.core.run = .running ∧
      t.core.curPc = s.advance.core.curPc ∧ t.core.sS.pts = max s.core.sS.pts (b.clockOf gen) ∧
      t.core.sV.pts = max s.core.sV.pts (b.clockOf gen) ∧ t.core.x = s.core.x ∧ t.mem = s.mem)

/-- BAR arrives, waits and raises the clocks of the harts it releases. -/
def Obligations.Barriers : Prop :=
  Says.BarrierArrival ∧ Says.CoreBarrierReconciles ∧ Says.BarrierRelease

/-- R212, R209, R362: QSEND to a queue that the hart's stage sends to copies bytes 0 to 63 of v b into the next place of the
window and completes; a queue number out of range or another stage's queue traps with sub-cause 0x01 or 0x02. -/
def Says.QueueSendPuts : Prop :=
  ∀ (s : State) (a : XName) (b : VName), s.calm → s.integPassed →
    let q := (s.x a).val
    (∀ k : Queue, s.queueOf s.core q.toNat = some k → k.sender = some s.core.stageNum →
      s.core.poisonIn .vector (s.core.regCell b.toNat) 64 = none → s.core.window.length < 8 →
      ∃ t e, exec (.qsend a b) s = .next t ∧ t.core.window = s.core.window ++ [e] ∧ e.queue = q.toNat ∧
        e.data = (List.range 64).map (fun i => s.core.vec.get (s.core.regCell b.toNat + i)) ∧ e.hold = 0 ∧
        e.clock = max s.core.sS.pts s.core.sV.pts ∧ t.launches = s.launches ∧ t.core.vec = s.core.vec ∧
        t.core.x = s.core.x ∧ t.mem = s.mem ∧ t.core.curPc = s.advance.core.curPc) ∧
    (s.queueOf s.core q.toNat = none → exec (.qsend a b) s = s.trap 0x0C 0x01 0 q) ∧
    (∀ k : Queue, s.queueOf s.core q.toNat = some k → k.sender ≠ some s.core.stageNum →
      exec (.qsend a b) s = s.trap 0x0C 0x02 0 q)

/-- R213, R187: QRECV of a queue of the hart's stage takes the first entry: bytes 0 to 63 of v d become its data, bytes 64 to
383 and all other registers stay, and both clocks rise to at least the entry's. At an empty open queue the hart waits; at a
closed and empty one it traps with sub-cause 0x03. The wait ends by QRECV_WAKE, which does the same. While every entry of the queue
will go to a QRECV that waits in another core's vector queue, the hart looks again: that is the model's choice (log 61). -/
def Says.QueueReceiveTakes : Prop :=
  ∀ (s : State) (d : VName) (a : XName) (k : Queue), s.calm → s.core.vec.wf = true →
    (∀ e ∈ k.entries, e.data.length = 64) →
    let q := (s.x a).val
    let took (e : QueueEntry) (r : List QueueEntry) (t : State) (n : Nat) : Prop :=
      t.queueOf t.core n = some { k with entries := r } ∧
      (∀ i : Nat, t.core.vec.get i = if s.core.regCell d.toNat ≤ i ∧ i < s.core.regCell d.toNat + 64
        then e.data.getD (i - s.core.regCell d.toNat) 0 else s.core.vec.get i) ∧
      t.core.sS.pts = max s.core.sS.pts e.clock ∧ t.core.sV.pts = max s.core.sV.pts e.clock ∧
      t.core.x = s.core.x ∧ t.core.ctl.flags = s.core.ctl.flags ∧ t.mem = s.mem ∧ t.core.curPc = s.advance.core.curPc
    (s.queueOf s.core q.toNat = some k → k.receiver = some s.core.stageNum →
      (∀ e r, k.entries = e :: r →
        (s.reserved q.toNat ≤ r.length → ∃ t, exec (.qrecv d a) s = .next t ∧ took e r t q.toNat) ∧
        (r.length < s.reserved q.toNat → exec (.qrecv d a) s = .next s)) ∧
      (k.entries = [] → k.closed = true → exec (.qrecv d a) s = s.trap 0x0C 0x03 0 q) ∧
      (k.entries = [] → k.closed = false →
        exec (.qrecv d a) s = .next { s with core := { s.core with run := .waiting (.queue q.toNat d) } })) ∧
    (∀ (n : Nat) (e : QueueEntry) (r : List QueueEntry), s.queueOf s.core n = some k → k.entries = e :: r →
      s.core.run = .waiting (.queue n d) → s.core.num < Config.cores → s.reserved n ≤ r.length →
      ∃ t, exec (.qrecvWake s.core.num) s = .next t ∧ took e r t n ∧ t.core.run = .running)

/-- R214: QSTAT delivers the closed and unmapped bits, the depth and the number of entries of any queue of the launch. -/
def Says.QueueStatus : Prop :=
  ∀ (s : State) (d a : XName) (k : Queue), s.queueOf s.core (s.x a).val.toNat = some k → k.depth < 2 ^ 17 →
    k.entries.length < 2 ^ 17 →
    ∃ w : Word, DeliversWord (.qstat d a) s d w ∧ w.getLsbD 63 = k.closed ∧ w.getLsbD 62 = k.unmapped ∧
      (w.extractLsb' 32 17).toNat = k.depth ∧ (w.extractLsb' 0 17).toNat = k.entries.length ∧
      w.extractLsb' 49 13 = 0 ∧ w.extractLsb' 17 15 = 0

/-- QSEND, QRECV and QSTAT on the queues of a launch. -/
def Obligations.StageQueues : Prop :=
  Says.QueueSendPuts ∧ Says.QueueReceiveTakes ∧ Says.QueueStatus

/-- R187, R209, R211, R216: the window of a core whose earlier accesses are performed offers an entry to a queue with room, and
the port places it after the entries there, with the larger of the sender's clocks as they are then, or its own (the model's
choice of the moment, log 31); an unmapped instance counts it in the
wake word and signals firmware. A full queue holds the window's entries for it for cr.qbackoff cycles, after which they are offered again. The
holding area is placed in order. -/
def Says.QueuePorts : Prop :=
  ∀ (s : State) (n : Nat) (l : Launch) (k : Queue) (e : WindowEntry),
    let c := s.coreAt n
    n < Config.cores → s.launchOf c = some l → l.queues[e.queue]? = some k → c.window = [e] →
    c.sq = [] → c.vq = [] → c.remote = [] → c.waits = [] → k.holding = [] →
    let q : QueueEntry := { data := e.data, clock := max e.clock (max c.sS.pts c.sV.pts) }
    let placed (t : State) : Prop := (t.coreAt n).window = [] ∧ ∃ m, t.launchAt l.id = some m ∧
      m.queues[e.queue]? = some { k with entries := k.entries ++ [q], wake := if k.unmapped then k.wake + 1 else k.wake,
                                         signal := k.signal || k.unmapped }
    (e.hold = 0 → k.entries.length < k.depth → ∃ t, exec (.queuePlace n 0) s = .next t ∧ placed t) ∧
    (e.hold = 0 → k.depth ≤ k.entries.length → ∃ t, exec (.queuePlace n 0) s = .next t ∧
      t.launches = s.launches ∧ (t.coreAt n).window = [{ e with hold := s.cycle n + max 1 c.ctl.qbackoff.toNat }]) ∧
    (e.hold ≠ 0 → e.hold ≤ s.cycle n → k.entries.length < k.depth → ∃ t, exec (.qsendResend n e.queue) s = .next t ∧ placed t)

/-- R187, R211: the first entry of a queue's holding area is placed while the queue has room, once every access that preceded
its QSEND is performed. Its clock is the largest of its own and the sender's as they are then: the model's choice of the moment
(log 31). -/
def Says.HoldingAreaPlaces : Prop :=
  ∀ (s : State) (launch queue : Nat) (l : Launch) (k : Queue) (e : HeldEntry) (r : List HeldEntry),
    s.launchAt launch = some l → l.queues[queue]? = some k → k.holding = e :: r → k.entries.length < k.depth →
    s.heldReleased e = true →
    ∃ t m, exec (.queuePlace (Config.cores + launch) queue) s = .next t ∧ t.launchAt launch = some m ∧
      m.queues[queue]? = some { k with holding := r, entries := k.entries ++ [{ e.entry with clock := s.heldClock e }],
                                       wake := if k.unmapped then k.wake + 1 else k.wake,
                                       signal := k.signal || k.unmapped } ∧
      e.entry.clock ≤ s.heldClock e ∧
      ∀ c ∈ s.cores, c.sent e = true → max c.sS.pts c.sV.pts ≤ s.heldClock e

/-- R216: unmapping an instance whose receiving flights are parked sets um and swaps the wake word with 0, and re-maps when
the old word or the count is not 0; re-mapping clears um and swaps the word with 0. Either ends the signal to firmware. -/
def Says.QueueMapping : Prop :=
  ∀ (s : State) (launch queue : Nat) (l : Launch) (k : Queue), s.launchAt launch = some l → l.queues[queue]? = some k →
    (s.receiversParked launch k = true → ∃ t m, exec (.queueUnmap launch queue) s = .next t ∧ t.launchAt launch = some m ∧
      m.queues[queue]? = some { k with unmapped := k.wake == 0 && k.entries.isEmpty, wake := 0, signal := false }) ∧
    (∃ t m, exec (.queueRemap launch queue) s = .next t ∧ t.launchAt launch = some m ∧
      m.queues[queue]? = some { k with unmapped := false, wake := 0, signal := false })

/-- Queue ports, holding areas, and mapping a queue. -/
def Obligations.QueuePorts : Prop :=
  Says.QueuePorts ∧ Says.HoldingAreaPlaces ∧ Says.QueueMapping

/-- R240, R243: HNEW on a base that passes the check, tagged with a slot other than 0, with a sound target, makes a record with no weight
recovered and writes a handle of its own package with that record's id, e = 0 and the b named: the whole weight. Without a free
id it writes the null handle. A target that names no head of the stage, or d = 0, is an illegal instruction with sub-cause
0x05; a base tagged with slot 0 a rights fault with sub-cause 0x07. -/
def Says.HandleCreate : Prop :=
  ∀ (s : State) (d a : XName) (stage : BitVec 4) (exp : BitVec 6) (t : TargetJ),
    let i : Instr := .hnew d a stage exp t
    let x := s.x a
    (d = 0 ∨ s.goodTarget stage.toNat (s.core.targetJ t) = false → TrapsIllegal i s 0x05) ∧
    (∀ p : Landing, d ≠ 0 → s.goodTarget stage.toNat (s.core.targetJ t) = true → s.check x 0 1 1 .base = .ok p →
      (x.slot = 0 → exec i s = s.trap 0x05 0x07 0 x.val) ∧
      (x.slot ≠ 0 → s.nextId ≤ 1048575 → exp.toNat ≤ 32 →
        ∃ u, exec i s = .next u ∧ hHome (u.x d).val = s.pkg ∧ hId (u.x d).val = s.nextId ∧ hE (u.x d).val = 0 ∧
          hB (u.x d).val = exp.toNat ∧ (u.x d).tag = 0 ∧ (∀ r : XName, r ≠ d → u.x r = s.x r) ∧ u.mem = s.mem ∧
          u.core.curPc = s.advance.core.curPc ∧
          ∃ r : BallastRecord, u.records = s.records ++ [r] ∧ r.id = s.nextId ∧ r.b = exp.toNat ∧ r.back = 0 ∧
            r.kind = .tensor x.slot (x.val - (s.core.slot x.slot).base.setWidth 64) s.core.ctl.world stage.toNat
              (s.core.targetJ t) false) ∧
      (x.slot ≠ 0 → 1048575 < s.nextId → s.freed = [] → DeliversWord i s d 0))

/-- R244, R240: HCOPY of a handle with e < b writes the handle with e + 1 to both registers: the two weights add up to the
old one. Of an exhausted handle it makes an indirection record that owes the one unit and writes two halves of that
record's weight; when the package has no id left, x d alone receives 0. The null handle copies to the null handle; of a malformed one
firmware receives the ballast fault 0x02, and the registers stay. With d = 0 or d = a the instruction is illegal with sub-cause 0x05. -/
def Says.HandleSplit : Prop :=
  ∀ (s : State) (d a : XName), (d = 0 ∨ d = a → TrapsIllegal (.hcopy d a) s 0x05) ∧ (d ≠ 0 → d ≠ a →
    let h := (s.x a).val
    (h ≠ 0 → hWf h = false → ∃ t, exec (.hcopy d a) s = .next t ∧ t.ballast = s.ballast ++ [{ cause := 0x0D, sub := 0x02, val := h }] ∧
      t.core.x = s.core.x ∧ t.core.fwX = s.core.fwX ∧ t.records = s.records ∧ t.mem = s.mem ∧ t.core.curPc = s.advance.core.curPc) ∧
    (hWf h = true → hE h = hB h → 1048575 < s.nextId → s.freed = [] → DeliversWord (.hcopy d a) s d 0) ∧
    (h = 0 → DeliversWord (.hcopy d a) s d 0) ∧
    (hWf h = true → hE h < hB h → ∃ t, exec (.hcopy d a) s = .next t ∧ s.advance.sameButX t ∧
      t.x d = t.x a ∧ (t.x a).tag = 0 ∧ hHome (t.x a).val = hHome h ∧ hId (t.x a).val = hId h ∧ hB (t.x a).val = hB h ∧
      hE (t.x a).val = hE h + 1 ∧ hWeight (t.x a).val + hWeight (t.x d).val = hWeight h ∧
      ∀ r : XName, r ≠ d → r ≠ a → t.x r = s.x r) ∧
    (hWf h = true → hE h = hB h → s.nextId ≤ 1048575 → ∃ t, exec (.hcopy d a) s = .next t ∧ t.x d = t.x a ∧
      hHome (t.x a).val = s.pkg ∧ hId (t.x a).val = s.nextId ∧
      (∃ r : BallastRecord, t.records = s.records ++ [r] ∧ r.id = s.nextId ∧ r.b = hB h ∧ r.back = 0 ∧
        r.kind = .indirect h ∧ hWeight (t.x a).val + hWeight (t.x d).val = 2 ^ r.b) ∧
      (∀ r : XName, r ≠ d → r ≠ a → t.x r = s.x r) ∧ t.mem = s.mem))

/-- R245, R248: HDROP zeroes x a at once and queues one post of the handle behind the hart's earlier posts; of the null handle it posts
nothing, and of a malformed one firmware receives the ballast fault 0x02. HBASE of a live
tensor of this package delivers its slot's base plus the recorded offset, tagged with the slot; a dead or unknown record, or
an ill-formed handle, is a bounds fault with sub-cause 0x02. -/
def Says.HandleDropAndBase : Prop :=
  ∀ (s : State) (d a : XName),
    let h := (s.x a).val
    (hWf h = false → ∃ t, exec (.hdrop a) s = .next t ∧ t.x a = .zero ∧ (∀ r : XName, r ≠ a → t.x r = s.x r) ∧
      t.core.posts = s.core.posts ∧ t.ballast = (if h = 0 then s.ballast else s.ballast ++ [{ cause := 0x0D, sub := 0x02, val := h }]) ∧
      t.records = s.records ∧ t.mem = s.mem ∧ t.core.curPc = s.advance.core.curPc) ∧
    (a ≠ 0 → hWf h = true → ∃ t e, exec (.hdrop a) s = .next t ∧ t.x a = .zero ∧ (∀ r : XName, r ≠ a → t.x r = s.x r) ∧
      t.core.posts = s.core.posts ++ [e] ∧ e.handle = h ∧ t.records = s.records ∧ t.mem = s.mem ∧
      t.core.curPc = s.advance.core.curPc) ∧
    (∀ (r : BallastRecord) (slot : BitVec 8) (off : Word) (w : BitVec 10) (st : Nat) (pc : Word),
      hWf h = true → s.recordAt (handleKey h) = some r →
      (r.kind = .tensor slot off w st pc false → (s.core.slot slot).v = true →
        (s.core.slot slot).world = s.core.ctl.world → (s.core.slot slot).rem = false →
        ∃ t, exec (.hbase d a) s = .next t ∧ ({ s with free := s.free + 1 } : State).advance.sameButX t ∧
          s.wroteX t d { val := (s.core.slot slot).base.setWidth 64 + off, tag := 1#1 ++ slot }) ∧
      (r.kind = .tensor slot off w st pc true →
        exec (.hbase d a) s = ({ s with free := s.free + 1 } : State).trap 0x04 0x02 0 h)) ∧
    (hWf h = true → hHome h = s.pkg → s.forwards = [] → s.recordAt (handleKey h) = none →
      exec (.hbase d a) s = ({ s with free := s.free + 1 } : State).trap 0x04 0x02 0 h) ∧
    (hWf h = false → exec (.hbase d a) s = s.trap 0x04 0x02 0 h)

/-- HNEW, HCOPY, HDROP and HBASE. -/
def Obligations.BallastHandles : Prop :=
  Says.HandleCreate ∧ Says.HandleSplit ∧ Says.HandleDropAndBase

/-- R245, R289: a hart's first post leaves once its earlier accesses are performed and its earlier commands have ended; a post for a
record of this package arrives here, and one for another package goes into the egress queue toward it, on a live plane and in the
colour of the launch. -/
def Says.PostLeaves : Prop :=
  ∀ (s : State) (n : Nat) (e : PostEntry) (rest : List PostEntry), n < Config.cores →
    (s.coreAt n).posts = e :: rest → (s.coreAt n).mayPost e = true →
    (s.ownHandle e.handle = true →
      ∃ t p, exec (.ballastPostIssue n) s = .next t ∧ (t.coreAt n).posts = rest ∧ t.ingress = s.ingress ++ [p] ∧
        p.body = .post e.handle ∧ p.src = s.pkg ∧ p.core = (s.coreAt n).num ∧ t.mem = s.mem) ∧
    (∀ k : Nat, s.ownHandle e.handle = false → s.anyPlane (hHome e.handle) = some k → e.old = none →
      ∃ t p l, exec (.ballastPostIssue n) s = .next t ∧ (t.coreAt n).posts = rest ∧ t.ingress = s.ingress ∧
        t.egress = s.egress ++ p :: l ∧ p.body = .post e.handle ∧ p.src = s.pkg ∧ p.dst = hHome e.handle ∧ p.vc = 2 ∧ p.plane = k ∧
        p.core = (s.coreAt n).num ∧ p.colour = s.colourOf (s.tagOf (s.coreAt n)) ∧ (∀ q ∈ l, ∃ m c, q.body = .marker m c) ∧ t.mem = s.mem)

/-- R246, R249: a record performs an arriving post on its recovered weight: below 2^b nothing more; at 2^b a tensor dies and its
finaliser is queued, and an indirection record posts its parent's weight and is gone; a post that would exceed 2^b, or that
finds no live record, is discarded, and firmware receives the ballast fault 0x01 or 0x03 with the handle. The post of another package is
acknowledged (R263). A post for a record that a migration moved is sent on to the target, in its colour (R289). -/
def Says.PostPerformed : Prop :=
  ∀ (s : State) (k : Nat) (p : Packet) (h : Word), s.arrived k p → p.body = .post h →
    let key := handleKey h
    let acks (t : State) (es : List Packet) : Prop := ∃ l : List Packet, t.egress = s.egress ++ es ++ l ∧
      l.map (fun e => (e.dst, e.core, e.body)) = if p.src = s.pkg then [] else [(p.src, p.core, .ack p.serial)]
    (∀ f : Forward, s.forwards.find? (fun f => (f.home, f.id) == key) = some f →
      ∃ t e, exec (.ballastPost k) s = .next t ∧ acks t [e] ∧ e.body = .post h ∧ e.dst = f.target ∧ e.src = s.pkg ∧
        e.colour = p.colour ∧ e.core = p.core ∧ e.launch = p.launch ∧ t.records = s.records ∧ t.ingress = s.ingress.eraseIdx k ∧
        t.mem = s.mem) ∧
    (s.forwards.find? (fun f => (f.home, f.id) == key) = none →
    let faulted (t : State) (sub : BitVec 8) : Prop := t.ballast = s.ballast ++ [{ cause := 0x0D, sub := sub, val := h }]
    (∀ r : BallastRecord, s.recordAt key = some r → let w := r.back + hWeight h
      (∀ slot off world st pc, r.kind = .tensor slot off world st pc false → ∃ t, exec (.ballastPost k) s = .next t ∧
        (w < 2 ^ r.b → t.recordAt key = some { r with back := w } ∧ t.finalisers = s.finalisers ∧ t.ballast = s.ballast) ∧
        (w = 2 ^ r.b → t.recordAt key = some { r with back := w, kind := .tensor slot off world st pc true } ∧
          t.finalisers = s.finalisers ++ [key] ∧ t.ballast = s.ballast) ∧
        (2 ^ r.b < w → t.recordAt key = some r ∧ t.finalisers = s.finalisers ∧ faulted t 0x01) ∧
        t.ingress.length + 1 = s.ingress.length ∧ acks t [] ∧ t.mem = s.mem) ∧
      (∀ slot off world st pc, r.kind = .tensor slot off world st pc true → ∃ t, exec (.ballastPost k) s = .next t ∧
        t.recordAt key = some r ∧ t.finalisers = s.finalisers ∧ faulted t 0x03 ∧ acks t [] ∧ t.mem = s.mem) ∧
      (∀ parent, r.kind = .indirect parent → hHome h = s.pkg → ∃ t, exec (.ballastPost k) s = .next t ∧
        (w < 2 ^ r.b → t.recordAt key = some { r with back := w } ∧ t.ballast = s.ballast) ∧
        (w = 2 ^ r.b → t.recordAt key = none ∧ t.freed = s.freed ++ [hId h] ∧ t.ballast = s.ballast ∧
          (s.ownHandle parent = true → ∃ q ∈ t.ingress, q.body = .post parent) ∧
          (s.ownHandle parent = false → ∃ q, acks t [q] ∧ q.body = .post parent ∧ q.dst = hHome parent)) ∧
        (2 ^ r.b < w → t.recordAt key = some r ∧ faulted t 0x01))) ∧
    (s.recordAt key = none → ∃ t, exec (.ballastPost k) s = .next t ∧ t.records = s.records ∧ faulted t 0x03 ∧ acks t [] ∧
      t.mem = s.mem))

/-- A ballast post leaves its hart and is performed at the home package. -/
def Obligations.BallastPosts : Prop :=
  Says.PostLeaves ∧ Says.PostPerformed

/-- R188, R263: a store that arrived, whose counts are met and whose bytes lie in one line that may be written, is performed as a Store
of the ingress stream: memory holds its bytes, the stream's clock becomes the new version's write time, and the sender gets
its acknowledgement. A flagged store whose counts are not met waits. -/
def Says.RemoteStorePerformed : Prop :=
  ∀ (s : State) (k : Nat) (p : Packet) (a : Nat) (v : Byte) (ws : List (Nat × Byte)), s.arrived k p →
    p.body = .store ((a, v) :: ws) → (∀ w ∈ ws, w.1 / 128 = a / 128) →
    (region a = .dram ∨ region a = .scratch) → s.revokedLine (a / 128) = false → s.writable (a / 128) = true →
    (s.flagReady p = true → ∃ t, exec (.remoteStorePerform k) s = .next t ∧
      t.mem = s.mem.setMany ((a, v) :: ws) ∧ t.ptsIn = max s.ptsIn ((s.clockAt (a / 128)).rts + 1) ∧
      t.clockAt (a / 128) = { line := a / 128, wts := t.ptsIn, rts := t.ptsIn } ∧
      t.ingress = s.ingress.eraseIdx k ∧ s.repliedTo t p [.ack p.serial] ∧ t.core = s.core) ∧
    (s.flagReady p = false → exec (.remoteStorePerform k) s = .next s)

/-- R190, R175, R359, R263: an arrived PFADD adds its addend to the 64-bit word in one Atomic of the ingress stream, modulo 2^64. Its
sender gets its acknowledgement, and the reply, which carries the word's value before it. -/
def Says.PfaddPerformed : Prop :=
  ∀ (s : State) (k : Nat) (p : Packet) (rtag a : Nat) (v : Word) (comb : Bool), s.MemOk → s.arrived k p →
    p.body = .pfadd rtag a v comb →
    (region a = .dram ∧ region (a + 7) = .dram ∨ region a = .scratch ∧ region (a + 7) = .scratch) →
    s.revokedLine (a / 128) = false → s.writable (a / 128) = true →
    ∃ t, exec (.pfaddPerform k) s = .next t ∧ s.storedAt t a 8 ((BitVec.ofNat 64 (s.mem.read a 8) + v).toNat) ∧
      t.ptsIn = max s.ptsIn ((s.clockAt (a / 128)).rts + 1) ∧ t.ingress = s.ingress.eraseIdx k ∧
      s.repliedTo t p [.ack p.serial, .pfaddReply rtag (BitVec.ofNat 64 (s.mem.read a 8))] ∧ t.core = s.core

/-- R259, R260, R397: a group request reads the bytes its active elements name, the lowest line that is left in each step, and
no line that no active element touches; after the last the reply carries them at their places of the group. Memory stays. -/
def Says.GroupRequestPerformed : Prop :=
  ∀ (s : State) (k : Nat) (p : Packet) (rtag g line : Nat) (addrs : List (Nat × Nat)) (got : List (Nat × Byte)),
    s.arrived k p → p.body = .vldr rtag g addrs got →
    let left := addrs.filter fun e => !got.any fun b => b.1 == e.1
    let now := left.filter fun e => e.2 / 128 == line
    let data := got ++ now.map fun e => (e.1, s.mem.get e.2)
    (∃ e ∈ left, e.2 / 128 = line) → (∀ e ∈ left, line ≤ e.2 / 128) →
    (∃ r, (r = .dram ∨ r = .scratch) ∧ region (128 * line) = r ∧ region (128 * line + 127) = r) →
    s.owned line = false → s.revokedLine line = false →
    ∃ t, exec (.vldrRequestPerform k) s = .next t ∧ t.mem = s.mem ∧ t.core = s.core ∧
      (∀ j : Nat, j ≠ line → t.clockAt j = s.clockAt j) ∧
      (now.length = left.length → t.ingress = s.ingress.eraseIdx k ∧ s.repliedTo t p [.vldrReply rtag g (groupBytes data)]) ∧
      (now.length ≠ left.length → t.ingress = s.ingress.set k { p with body := .vldr rtag g addrs data } ∧ t.egress = s.egress)

/-- The ingress stream performs the remote stores, adds and group requests that arrive. -/
def Obligations.IngressPerforms : Prop :=
  Says.RemoteStorePerformed ∧ Says.PfaddPerformed ∧ Says.GroupRequestPerformed

/-- R259, R360, R263: a reply fills the register or the group that the request named, and nothing else of the core's registers; with
the value v of an add that a switch combined with another, the second requester gets v plus the first addend (R262). An
acknowledgement ends the access it names, with the adds that a switch combined with it. -/
def Says.RepliesArrive : Prop :=
  ∀ (s : State) (k : Nat) (p : Packet), s.arrived k p →
    (∀ (rtag : Nat) (v : Word) (w : Await) (fw : Bool) (d : XName), p.body = .pfaddReply rtag v → s.combined = [] →
      s.core.waits = [w] → w.rtag = rtag → w.dest = .xreg fw d →
      ∃ t, exec (.pfaddReply k) s = .next t ∧ t.core.waits = [] ∧ t.ingress = s.ingress.eraseIdx k ∧
        (∀ r : XName, t.core.readXOf fw r = if r = d ∧ d ≠ 0 then { val := v, tag := 0 } else s.core.readXOf fw r) ∧
        (∀ r : XName, t.core.readXOf (!fw) r = s.core.readXOf (!fw) r) ∧ t.core.vec = s.core.vec ∧ t.mem = s.mem) ∧
    (∀ (first second m n : Nat) (v a : Word) (w1 w2 : Await) (fw1 fw2 : Bool) (d1 d2 : XName),
      p.body = .pfaddReply first v → s.combined = [(first, second, a)] → first % 65536 ≠ second % 65536 → m ≠ n →
      (s.coreAt m).waits = [w1] → w1.rtag = first → w1.dest = .xreg fw1 d1 →
      (s.coreAt n).waits = [w2] → w2.rtag = second → w2.dest = .xreg fw2 d2 →
      ∃ t, exec (.pfaddReply k) s = .next t ∧ (t.coreAt m).waits = [] ∧ (t.coreAt n).waits = [] ∧ t.combined = [] ∧
        (∀ r : XName, (t.coreAt m).readXOf fw1 r =
          if r = d1 ∧ d1 ≠ 0 then { val := v, tag := 0 } else (s.coreAt m).readXOf fw1 r) ∧
        (∀ r : XName, (t.coreAt n).readXOf fw2 r =
          if r = d2 ∧ d2 ≠ 0 then { val := v + a, tag := 0 } else (s.coreAt n).readXOf fw2 r) ∧ t.mem = s.mem) ∧
    (∀ (rtag : Nat) (data : List Byte) (w : Await) (gi reg g : Nat) (cells : List (Nat × Nat)),
      p.body = .vldrReply rtag gi data → s.core.waits = [w] → w.rtag = rtag → w.dest = .group reg g cells →
      ∃ t, exec (.vldrReply k) s = .next t ∧ t.core.waits = [] ∧ t.ingress = s.ingress.eraseIdx k ∧
        t.core.vec = s.core.vec.setMany (cells.map fun c => (c.2, data.getD c.1 0)) ∧ t.core.x = s.core.x ∧ t.mem = s.mem) ∧
    (∀ serial : Nat, p.body = .ack serial →
      ∃ t, exec (.acknowledgement k) s = .next t ∧ t.ingress = s.ingress.eraseIdx k ∧
        (s.combined = [] → t.core.remote = s.core.remote.filter fun r => r.serial % 65536 != serial % 65536) ∧
        (∀ (first second : Nat) (v : Word), s.combined = [(first, second, v)] → first % 65536 = serial % 65536 →
          t.core.remote = s.core.remote.filter fun r =>
            r.serial % 65536 != serial % 65536 && r.serial % 65536 != second % 65536) ∧
        t.core.x = s.core.x ∧ t.mem = s.mem)

/-- R262: a switch may combine two PFADD requests of this package for one word, while neither has its reply: the sum goes on, and the first addend is kept
for the second's reply; the request stands for the second's access too (R263). -/
def Says.PfaddCombined : Prop :=
  ∀ (s : State) (p q : Packet) (rest : List Packet) (r1 r2 a : Nat) (v1 v2 : Word) (c1 c2 : Bool),
    s.egress = p :: q :: rest → p.body = .pfadd r1 a v1 c1 → q.body = .pfadd r2 a v2 c2 → p.dst = q.dst →
    p.plane = q.plane → p.colour = q.colour → p.launch = q.launch → p.src = s.pkg → q.src = s.pkg →
    s.answered r1 = false → s.answered r2 = false → exec (.pfaddCombine 0 1) s = .next { s with
      egress := { p with body := .pfadd r1 a (v1 + v2) true,
                         merged := p.merged ++ ((q.interval.toList.map fun n => (q.hart, q.counted, n)) ++ q.merged) } :: rest,
      combined := s.combined ++ [(r1, r2, v1)] }

/-- Replies and acknowledgements arrive, and switches combine adds. -/
def Obligations.RepliesArrive : Prop :=
  Says.RepliesArrive ∧ Says.PfaddCombined

/-- R37, R38, R25, R253, R423: the next index of a stage below its admitted minimum starts on a free quad, once every package has copied
what the descriptor names and while no saved minimum flight waits: its four harts run the stage's image from its entry in the state of
R38, all attached; DRAM stays as it is. An index from the minimum on starts only on a quad that is granted or passed (R219, R220). -/
def Says.FlightStarts : Prop :=
  ∀ (s : State) (f : FlightId) (q : Nat) (l : Launch) (st : StageInfo) (im : Image), s.MemOk →
    s.launchAt f.launch = some l → l.stage? f.stage = some st → l.imageOf f.stage = some im →
    (st.least ≤ f.index → exec (.flightStart f q) s = .next s) ∧
    (l.state = .running → l.copiedAll = true → l.still = false → st.retired = false → f.index = st.started →
      f.index < st.least → s.savedMinimums = [] → s.quadFree q = true →
      ∃ t, exec (.flightStart f q) s = .next t ∧
        (∀ k : Nat, k < 4 → t.freshHart (4 * q + k) f im.entry ∧ (t.coreAt (4 * q + k)).slots = im.slots ∧
          ∀ r : XName, (t.coreAt (4 * q + k)).readXOf false r = .zero) ∧
        (t.quadAt q).attached = 0xF ∧ (∃ x ∈ t.flights, x.id = f ∧ x.place = .quad q) ∧
        (∃ m, t.launchAt f.launch = some m ∧ (m.stage? f.stage).map (fun x => x.started) = some (st.started + 1)) ∧
        ∀ a : Nat, a < Config.scratchBase → t.mem.get a = s.mem.get a)

/-- R247, R252, R425: the first queued finaliser starts, when no saved minimum flight waits for a quad, as a flight of its stage at the bound PC, with x10 the dead handle with e = 0 and
x11 the recorded slot's base in the finaliser's image plus the recorded offset, tagged with the slot; its record's id is free, and its clocks lie
above those of every access to memory. -/
def Says.FinaliserStarts : Prop :=
  ∀ (s : State) (q i : Nat) (key : BitVec 12 × Nat) (rest : List (BitVec 12 × Nat)) (r : BallastRecord) (slot : BitVec 8) (off pc : Word) (w : BitVec 10)
    (stage : Nat) (dead : Bool) (l : Launch) (st : StageInfo) (im : Image),
    s.finalisers = key :: rest → s.recordAt key = some r → r.kind = .tensor slot off w stage pc dead →
    s.launchAt r.launch = some l → l.state = .running → l.still = false → l.stage? stage = some st → l.imageOf stage = some im →
    s.freeIndex l stage st.most = some i → s.savedMinimums = [] → s.quadFree q = true → slot ≠ 0 →
    let f : FlightId := { launch := l.id, stage := stage, index := i }
    ∃ t, exec (.finaliserStart 0 q) s = .next t ∧ t.finalisers = rest ∧ t.recordAt key = none ∧
      t.freed = (if key.1 = s.pkg then s.freed ++ [key.2] else s.freed) ∧
      ∀ k : Nat, k < 4 → t.freshHart (4 * q + k) f pc ∧
        (t.coreAt (4 * q + k)).readXOf false 10 = { val := mkHandle key.1 key.2 0 r.b, tag := 0 } ∧
        (∀ c ∈ s.lines, c.wts < (t.coreAt (4 * q + k)).sS.pts ∧ c.rts < (t.coreAt (4 * q + k)).sS.pts) ∧
        (t.coreAt (4 * q + k)).readXOf false 11 =
          { val := ((t.coreAt (4 * q + k)).slot slot).base.setWidth 64 + off, tag := 1#1 ++ slot }

/-- A flight starts on a free quad, and a finaliser starts for a dead tensor. -/
def Obligations.FlightsStart : Prop :=
  Says.FlightStarts ∧ Says.FinaliserStarts

/-- R42, R39: a flight all of whose harts wait in queue waits, above its stage's minimum, is parked: its harts are saved with
their registers and leave the quad, which a stage of its launch that wants a flight takes at once (which of several is the
model's choice, log 21). Once its queue has an
entry or is closed it resumes on a free quad as it was saved, unless a saved minimum flight waits for one (R425). -/
def Says.FlightParksAndResumes : Prop :=
  (∀ (s : State) (f : FlightId) (q n want : Nat) (ws : List Nat) (due : Bool) (l : Launch) (st : StageInfo), q < 256 →
    s.flightAt f = some { id := f, place := .quad q, order := n, due := due } →
    s.wantingStages l = want :: ws → s.launchAt f.launch = some l →
    l.stage? f.stage = some st → st.pinned = false → st.least < s.runningOf f.launch f.stage →
    s.noOpenBarrier f.launch f.stage = true → s.idle q = true → s.quiet q = true →
    (∀ k : Nat, k < 4 → (s.coreAt (4 * q + k)).flight = some f) →
    ∃ t : State, exec (.flightPark f) s = .next (t.passQuad l want q) ∧ (∀ x ∈ t.flights, x.id = f → x.place = .parked) ∧
      ∀ k : Nat, k < 4 → (t.coreAt (4 * q + k)).flight = none ∧ (t.coreAt (4 * q + k)).run = .idle ∧
        ∃ v ∈ t.saves, v.flight = f ∧ v.core.num = 4 * q + k ∧ v.core.pc = (s.coreAt (4 * q + k)).pc ∧
          v.core.x = (s.coreAt (4 * q + k)).x ∧ v.core.run = (s.coreAt (4 * q + k)).run) ∧
  (∀ (s : State) (f : FlightId) (q : Nat) (x : Flight), s.flightAt f = some x → x.place = .parked →
    s.mayResume f = true → s.standsStill f.launch = false → s.quadFree q = true →
    (s.savedMinimums ≠ [] → exec (.flightResume f q) s = .next s) ∧ (s.savedMinimums = [] → (∀ v ∈ s.savesOf f, v.owed = []) →
    ((s.savesOf f).map fun v => v.core.num % 4).Nodup →
    ∃ t, exec (.flightResume f q) s = .next t ∧ s.cameBack t f q))

/-- R425, R233, R423: a minimum flight that the ladder saved is restored on a free quad as it was saved, once a round has come since its
save; when the quad is not free, quads are freed for the minimum flights. Any other saved flight waits for a quad that is granted or
passed to it (R219, R220). -/
def Says.FlightRestores : Prop :=
  ∀ (s : State) (f : FlightId) (q : Nat),
    (f ∉ s.savedMinimums → exec (.flightRestore f q) s = .next s) ∧
    (f ∈ s.savedMinimums → s.quadFree q = false → exec (.flightRestore f q) s = .next s.freeForMinimums) ∧
    (f ∈ s.savedMinimums → s.quadFree q = true → (∀ v ∈ s.savesOf f, v.owed = []) →
      ((s.savesOf f).map fun v => v.core.num % 4).Nodup →
      ∃ t, exec (.flightRestore f q) s = .next t ∧ s.cameBack t f q)

/-- An idle flight parks and resumes, and a saved flight is restored. -/
def Obligations.FlightsParkAndReturn : Prop :=
  Says.FlightParksAndResumes ∧ Says.FlightRestores

/-- R46, R47, R251, R314: a stage that nothing keeps retires and its output queues close; a launch whose stages have all retired, with
no tensor or flight come to one since, and whose stores are performed completes: the completion word, launch id above status 0, goes to its address, and a completion is
posted. -/
def Says.StagesAndLaunchesEnd : Prop :=
  (∀ (s : State) (id stage : Nat) (l : Launch) (st : StageInfo), s.launchAt id = some l → l.stage? stage = some st →
    l.state = .running → st.retired = false → s.stageDone l stage st = true →
    ∃ t m, exec (.stageRetire id stage) s = .next t ∧ t.launchAt id = some m ∧
      m.stage? stage = some { st with retired := true } ∧
      (∀ q ∈ m.queues, q.sender = some stage → q.closed = true) ∧ m.queues.length = l.queues.length ∧ t.mem = s.mem) ∧
  (∀ (s : State) (id : Nat) (l : Launch), s.MemOk → s.launchAt id = some l → l.state = .running →
    s.allRetired l = true → s.storesDone l = true → s.port.room = false →
    ∃ t m, exec (.launchComplete id) s = .next t ∧ t.launchAt id = some m ∧ m.state = .done 0 ∧
      (∀ k : Nat, t.host.get k = storedByte s.host l.comp.toNat 8 ((BitVec.ofNat 32 id ++ 0#32 : BitVec 64).toNat) k) ∧
      t.posts = s.posts ++ [{ seq := 0, status := 0, kind := 1, launch := BitVec.ofNat 32 id, count := 0,
                              value := BitVec.ofNat 32 id ++ 0#32 }] ∧ t.mem = s.mem)

/-- R218, R219, R423: a scheduler round comes every 100,000 ticks: before its tick nothing happens; at its tick the next one is set and
saved flights may come back from then on. When no launch wants a quad and no minimum flight lacks one, nothing else changes. Of one
launch that wants one quad, with one quad free: the want is served on it, a saved flight by its restoration and a stage by its next
index, and the launch pays what it was credited. With no quad free, one is taken from the flight above its minimum of a launch of lower
priority, through the ladder, and granted when its save completes. -/
def Says.SchedulerRounds : Prop :=
  ∀ (s : State) (place : List Nat),
    (s.time.toNat < s.nextRound.toNat → exec (.schedulerRound place) s = .next s) ∧
    (s.nextRound.toNat ≤ s.time.toNat →
      let u : State := { s with
        nextRound := s.nextRound + 100000,
        flights := s.flights.map fun f => if f.place = .saved then { f with due := true } else f }
      (∃ t, exec (.schedulerRound place) s = .next t ∧ t.nextRound = s.nextRound + 100000 ∧ t.time = s.time) ∧
      (u.savedMinimums = [] → u.unstarted false = [] →
        ((∀ l ∈ s.launches, l.state = .running → u.wants l = []) → exec (.schedulerRound place) s = .next u) ∧
        (∀ (l : Launch) (w : Want) (q : Nat), s.launches = [l] → l.state = .running → l.prio < 4 → l.weight ≠ 0 → u.wants l = [w] →
          (∀ f ∈ s.flights, f.id.launch = l.id) → s.grants = [] → u.freeList = [q] → (∀ k ∈ place, k = q) →
          ∃ t m, exec (.schedulerRound place) s = .next t ∧ t.launchAt l.id = some m ∧ m.deficit = l.deficit ∧
            (∀ f : FlightId, w = .saved f → ∃ x ∈ t.flights, x.id = f ∧ x.place = .quad q) ∧
            (∀ (k : Nat) (st : StageInfo) (im : Image), w = .stage l.id k → l.stage? k = some st → l.imageOf k = some im →
              ∃ x ∈ t.flights, x.id = { launch := l.id, stage := k, index := st.started } ∧ x.place = .quad q)) ∧
        (∀ (l v : Launch) (w : Want) (f : FlightId), s.launches = [l, v] → l.id ≠ v.id → l.state = .running → v.state = .running →
          v.prio < l.prio → l.prio < 4 → l.weight ≠ 0 → u.wants l = [w] → u.wants v = [] → s.grants = [] → s.preempts = [] →
          u.freeList = [] → u.victims (some l.prio) (fun _ => true) = [f] → f.launch = v.id →
          (∀ x ∈ s.flights, ∀ q : Nat, x.place = .quad q → q < 256) →
          ∃ t m p, exec (.schedulerRound place) s = .next t ∧ t.launchAt l.id = some m ∧ m.deficit = l.deficit ∧
            t.preempts = [p] ∧ p.launch = v.id ∧ p.flights = [f] ∧ p.t0 = s.time.toNat ∧ p.rung = 1 ∧
            t.grants = [{ victim := f, launch := l.id }] ∧ t.mem = s.mem)))

/-- R221: every 512 ticks a die's budget of 8,192,000 bytes is shared among the worlds active there in proportion to their
shares; a bucket holds at most two refills, and that of an inactive world is emptied. Buckets of other dies stay. What a vector
access or an engine moves at a core's port is taken from the bucket of the core's world on its die, in sectors of 32 bytes; on an empty
bucket the request counts as waiting, which makes the world active. That the wait itself is timing is the model's choice (log 8). -/
def Says.BandwidthRefills : Prop :=
  ∀ (s : State) (die : Nat), die < 4 →
    let k := s.refilled die + 1
    let total := ((s.buckets.filter fun b => b.die == die && b.active).map fun b => s.shareOf b.world).sum
    (s.time.toNat < 512 * k → exec (.bandwidthRefill die) s = .next s) ∧
    (512 * k ≤ s.time.toNat → ∃ t, exec (.bandwidthRefill die) s = .next t ∧ t.refilled die = k ∧
      t.buckets.length = s.buckets.length ∧
      ∀ (i : Nat) (b : Bucket), s.buckets[i]? = some b → ∃ c : Bucket, t.buckets[i]? = some c ∧ c.die = b.die ∧ c.world = b.world ∧
        c.active = b.active ∧ (b.die ≠ die → c.tokens = b.tokens) ∧ (b.die = die → b.active = false → c.tokens = 0) ∧
        (b.die = die → b.active = true → c.tokens = min b.tokens (8192000 * s.shareOf b.world / total) +
          8192000 * s.shareOf b.world / total)) ∧
    ∀ (n : Nat) (as_ : List Nat) (b : Bucket), n < Config.cores → as_ ≠ [] → (∀ a ∈ as_, region a = .dram) →
      s.buckets.find? (fun b => b.die == (s.coreAt n).die && b.world == (s.coreAt n).ctl.world) = some b →
      ∃ c ∈ (s.spend n as_).buckets, c.die = b.die ∧ c.world = b.world ∧
        (0 < b.tokens → c.tokens = max 0 (b.tokens - 32 * (as_.map fun a => a / 32).dedup.length) ∧ c.active = false) ∧
        (b.tokens ≤ 0 → c.tokens = b.tokens ∧ c.active = true)

/-- Stages retire, launches complete, rounds and refills pass. -/
def Obligations.StagesRoundsRefills : Prop :=
  Says.StagesAndLaunchesEnd ∧ Says.SchedulerRounds ∧ Says.BandwidthRefills

/-- R230, rung 1: a request for flights of a launch that stand on quads is recorded with its tick; harts that wait stop at once
with their wait kept, running harts go on to their next safe point. -/
def Says.PreemptRequested : Prop :=
  ∀ (s : State) (f : FlightId) (q n : Nat) (due : Bool), s.flights = [{ id := f, place := .quad q, order := n, due := due }] →
    s.preempts = [] →
    ∃ t p, exec (.preemptRequest f.launch [f]) s = .next t ∧ t.preempts = [p] ∧ p.launch = f.launch ∧ p.flights = [f] ∧
      p.t0 = s.time.toNat ∧ p.rung = 1 ∧ t.mem = s.mem ∧
      (s.core.flight = some f → s.others = [] →
        (∀ w, s.core.run = .waiting w → (∀ c v, w ≠ .trap c v) → t.core.run = .stopped (some w)) ∧ (s.core.run = .running → t.core.run = .running) ∧
        t.core.x = s.core.x ∧ t.core.pc = s.core.pc)

/-- R230, R231, R22: at t0 + T1 the harts of the set that run or wait stop where they are, at rung 2: a running one at the boundary
where it stands, or at an element of the vector instruction it has begun. Before that tick, and when the whole set has parked with
its commands ended, nothing happens. -/
def Says.PreemptSecondRung : Prop :=
  ∀ (s : State) (p : PreemptReq) (l : Launch), s.preempts = [p] → p.rung = 1 → s.launchAt p.launch = some l →
    (s.time.toNat < p.t0 + l.t1 → exec (.preemptRung2 0) s = .next s) ∧ (s.setParked p = true → exec (.preemptRung2 0) s = .next s) ∧
    (p.t0 + l.t1 ≤ s.time.toNat → s.setParked p = false →
      ∃ t, exec (.preemptRung2 0) s = .next t ∧ t.preempts = [{ p with rung := 2 }] ∧ t.mem = s.mem ∧
        ∀ n ∈ s.coresOf p.flights, (t.coreAt n).x = (s.coreAt n).x ∧ (t.coreAt n).pc = (s.coreAt n).pc ∧
          (∀ w, (s.coreAt n).run = .waiting w → (∀ c v, w ≠ .trap c v) → (t.coreAt n).run = .stopped (some w)) ∧
          ((s.coreAt n).run = .running → (s.pick.stopAt = none → (t.coreAt n).run = .stopped none) ∧
            ∀ e : Nat, s.pick.stopAt = some e → (t.coreAt n).run = .running ∧ (t.coreAt n).stopAt = some e))

/-- R230, R232: at t0 + T1 + T2 the set's unfinished commands are aborted and owed; before that tick nothing happens. -/
def Says.PreemptThirdRung : Prop :=
  ∀ (s : State) (p : PreemptReq) (l : Launch), s.preempts = [p] → p.rung = 2 → s.launchAt p.launch = some l →
    (s.time.toNat < p.t0 + l.t1 + l.t2 → exec (.preemptRung3 0) s = .next s) ∧
    (p.t0 + l.t1 + l.t2 ≤ s.time.toNat → s.grants = [] → s.homeless = [] →
      ∃ t, exec (.preemptRung3 0) s = .next t ∧ ∀ n ∈ s.coresOf p.flights, (t.coreAt n).cmds = [] ∧
        ((s.coreAt n).run ≠ .parked → ∀ k ∈ (s.coreAt n).cmds, k ∈ (t.coreAt n).owed ∨ ∃ v ∈ t.saves, k ∈ v.owed))

/-- R230, R231, R234: a hart stopped under rung 2 whose accesses are performed and whose commands have ended is saved as it stood
and leaves its core. -/
def Says.ContextSaved : Prop :=
  ∀ (s : State) (n : Nat) (f : FlightId) (p : PreemptReq) (w : Option Wait), n < Config.cores →
    let c := s.coreAt n
    s.preempts = [p] → p.flights = [f] → p.rung = 2 → s.grants = [] → s.homeless = [] → c.flight = some f → c.run = .stopped w →
    c.cmds = [] → c.sq = [] → c.vq = [] → c.waits = [] →
    ∃ t v, exec (.contextSave n) s = .next t ∧ v ∈ t.saves ∧ v.flight = f ∧ v.core.num = n ∧ v.core.pc = c.pc ∧
      v.core.x = c.x ∧ v.core.m = c.m ∧ v.core.run = c.run ∧ v.core.ctl.flags = c.ctl.flags ∧ v.time = s.time ∧
      (t.coreAt n).flight = none ∧ (t.coreAt n).run = .idle

/-- The rungs of pre-emption and the save of a context. -/
def Obligations.PreemptionLadder : Prop :=
  Says.PreemptRequested ∧ Says.PreemptSecondRung ∧ Says.PreemptThirdRung ∧ Says.ContextSaved

/-- R165, R166 phase 1: a move that firmware may apply copies the run: the new place of each address holds its byte, every
address outside the new run keeps its own, and the move is listed in phase 1. -/
def Says.MoveCopies : Prop :=
  ∀ (s : State) (old new len : Nat), s.MemOk →
    s.mayMove { pkg := s.pkg, old := old, new := new, len := len, phase := 1, begun := s.time } = true →
    ∃ t, exec (.moveStart old new len) s = .next t ∧
      t.moves = s.moves ++ [{ pkg := s.pkg, old := old, new := new, len := len, phase := 1, begun := s.time }] ∧
      (∀ a : Nat, old ≤ a → a < old + len → t.mem.get (a - old + new) = s.mem.get a) ∧
      (∀ a : Nat, a < new ∨ new + len ≤ a → t.mem.get a = s.mem.get a) ∧ t.core = s.core

/-- R166 phase 2, R41: the moves on which a hart depends enter phase 2, and a hart that waits stops at once with its wait kept. -/
def Says.MoveParks : Prop :=
  ∀ (s : State) (n : Nat) (f : FlightId) (mv : MoveRecord) (w : Wait), n < Config.cores →
    let c := s.coreAt n
    s.moves = [mv] → mv.phase = 1 → s.depends c mv = true → c.flight = some f → c.sq = [] → c.vq = [] →
    c.run = .waiting w →
    ∃ t, exec (.movePark n) s = .next t ∧ t.moves = [{ mv with phase := 2, begun := s.time }] ∧
      (t.coreAt n).run = .stopped (some w) ∧ (t.coreAt n).x = c.x ∧ (t.coreAt n).pc = c.pc ∧ t.mem = s.mem

/-- R166 phase 3, R155, R51: at the release of a move, of this package's or of another's, every register of a dependent hart tagged with a slot that lies in the run gets the delta added
and keeps its tag; the slot's base follows and its gen grows by one; other registers stay; the move is over. -/
def Says.MoveRelease : Prop :=
  ∀ (s : State) (mv : MoveRecord), s.moves = [mv] → s.mayRelease mv = true →
    (∀ c ∈ s.cores, c.sq = [] ∧ c.vq = []) →
    ∃ t, exec (.moveRelease mv.old) s = .next t ∧ t.moves = [] ∧
      (∀ r : XName, let x := s.core.readXOf false r
        t.core.readXOf false r =
          if x.tagged = true ∧ x.slot ≠ 0 ∧ mv.dependent s.pkg (s.core.slot x.slot) = true
          then { x with val := x.val + (BitVec.ofNat 64 mv.new - BitVec.ofNat 64 mv.old) } else x) ∧
      t.core.slots = s.core.slots.map (fun e => (e.1,
        if mv.dependent s.pkg e.2 = true
        then { e.2 with base := BitVec.ofNat 48 (mv.at_ e.2.base.toNat), gen := e.2.gen + 1 } else e.2)) ∧
      (mv.pkg ≠ s.pkg → t.mem = s.mem) ∧
      (∀ w, s.core.run = .stopped w → t.core.run = resumeRun (.stopped w) ∨ t.mustStop t.core = true)

/-- A move copies its region, parks the harts and rebases them at release. -/
def Obligations.Relocation : Prop :=
  Says.MoveCopies ∧ Says.MoveParks ∧ Says.MoveRelease

/-- R277, R278, R284: a SNAP that R277 allows takes the package's cut with the hart at the head after it: the launch's colour turns, its
extents are sealed, and a harvest with the next number begins, whose captures read busy as 1; any other has no effect. R165 and R288 let
the cut take effect only after the release of a move or a migration: that a SNAP waits at its head until then, and goes on with the cut
taken, is the model's choice (log 37). -/
def Says.SnapTakesCut : Prop :=
  ∀ (s : State) (a : XName) (l : Launch), s.launchOf s.core = some l → (∀ c ∈ s.cores, c.sq = [] ∧ c.vq = []) →
    let h := (s.x a).val.extractLsb' 0 32
    (l.maySnap h = false → exec (.snap a) s = .next s.advance) ∧
    (l.maySnap h = true → (l.snapWaits = true ∨ s.moves ≠ []) → exec (.snap a) s = .next s) ∧
    (l.maySnap h = true → l.snapWaits = false → s.moves = [] → ∃ t m v, exec (.snap a) s = .next t ∧ t.launchAt l.id = some m ∧
      m.colour = !l.colour ∧ m.busy = true ∧ m.harvests = l.harvests ++ [v] ∧ v.num = l.last.toNat + 1 ∧
      v.complete = false ∧ (∀ k ∈ v.captures, k.save.harvest.getLsbD 32 = true) ∧
      (∀ e ∈ l.extents, (t.extentAt e).sealed = true) ∧ t.mem = s.mem ∧ t.core.x = s.core.x ∧
      t.core.curPc = s.advance.core.curPc)

/-- R281, R283: a marker for the harvest in progress is kept with its count for its channel, and has no other effect. -/
def Says.MarkerKept : Prop :=
  ∀ (s : State) (k : Nat) (p : Packet) (l : Launch) (num count : Nat), s.ingress[k]? = some p → s.atHead k p = true →
    p.body = .marker num count → s.launchByTag p.launch = some l → l.busy = true → l.last.toNat + 1 = num →
    ∃ t m, exec (.markerArrival k) s = .next t ∧ t.ingress = s.ingress.eraseIdx k ∧ t.launchAt l.id = some m ∧
      m = l.modHarvest (fun h => { h with markers := (p.channel, count) :: h.markers }) ∧ t.mem = s.mem ∧ t.core = s.core

/-- The snap of a harvest takes the cut, or waits (the wait is the choice of log 37), and markers are kept. -/
def Obligations.HarvestCut : Prop :=
  Says.SnapTakesCut ∧ Says.MarkerKept

/-- R284: a sealed extent is copied for the harvests in progress that list it, and its seal clears, when firmware copies it or
when a write waits for it; the bytes recorded are those memory holds, and memory stays. -/
def Says.SealedExtentsCopied : Prop :=
  ∀ (s : State) (e : Nat) (i : Instr), (s.extentAt e).sealed = true →
    (i = .sealedExtentCopy e ∨ i = .sealedExtentWrite e ∧ s.writeWaits e = true) →
    ∃ t, exec i s = .next t ∧ (t.extentAt e).sealed = false ∧ t.mem = s.mem ∧ t.core = s.core ∧
      (∀ l ∈ s.launches, l.busy = true → ∀ h, l.harvests.getLast? = some h → e ∈ h.manifest →
        (∀ c ∈ h.copies, c.1 ≠ e) → ∃ m ∈ t.launches, ∃ v, m.harvests.getLast? = some v ∧
          v.copies = (e, s.mem.slice (e * 65536) 65536 0) :: h.copies)

/-- R285: a harvest with no sealed extent left and every channel complete is complete: cr.harvest's last is its number
and busy is clear. -/
def Says.HarvestCompletes : Prop :=
  ∀ (s : State) (id : Nat) (l : Launch), s.launchAt id = some l →
    (s.harvestDone l = false → exec (.harvestComplete id) s = .next s) ∧
    (s.harvestDone l = true → ∃ t m, exec (.harvestComplete id) s = .next t ∧ t.launchAt id = some m ∧
      m.last = l.last + 1 ∧ m.busy = false ∧ t.mem = s.mem ∧ t.core = s.core)

/-- Sealed extents are copied and the harvest completes. -/
def Obligations.HarvestCompletes : Prop :=
  Says.SealedExtentsCopied ∧ Says.HarvestCompletes

/-- R271, R286: after a loss a launch goes back to its last harvest complete everywhere: later harvests are abandoned, and each extent of
the manifests up to it holds its bytes at the cut, from the latest manifest that lists it. R71 and R227 speak of a hart's first
instruction after the rollback: that every hart of the launch then in a save sees cr.rollback name the harvest, those that were parked or
saved at the cut too, and which harvest that is, is the model's choice (log 39). -/
def Says.RollbackRestores : Prop :=
  ∀ (s : State) (id : Nat) (place : List Nat) (l : Launch) (h : Harvest), s.MemOk → s.launchAt id = some l →
    l.state = .running → l.everywhere ≠ 0 → (∃ p ∈ l.pkgs, s.lost.contains p = true) →
    let hs := l.harvests.filter fun h => h.num ≤ l.everywhere.toNat
    hs.getLast? = some h → h.channel = [] → (∀ g ∈ hs, ∀ e ∈ g.manifest, region (e * 65536) = .dram) →
    (∀ g ∈ hs, ∀ c ∈ g.copies, c.2.wf = true) →
    ∃ t k, exec (.rollback id place) s = .next t ∧ t.launchAt id = some k ∧ k.last = l.everywhere ∧ k.busy = false ∧
      k.harvests = hs ∧ (k.queues.map fun q => { q with holding := [] }) = (h.queues.map fun q => { q with holding := [] }) ∧
      (∀ v ∈ t.saves, v.flight.launch = id →
        v.core.ctl.rb = true ∧ v.core.ctl.rbFrom = BitVec.ofNat 32 l.everywhere.toNat) ∧
      ∀ (e : Nat) (g : Harvest) (m : Mem), hs.reverse.find? (fun g => g.manifest.contains e) = some g →
        g.copies.find? (fun c => c.1 == e) = some (e, m) → ∀ j : Nat, j < 65536 → t.mem.get (e * 65536 + j) = m.get j

/-- R227, R286: a rolled-back hart's cr.rollback names the harvest, and as it comes back a hart that may take a trap enters its
handler with cause 0x0E; one in a trap, or with no handler, goes on where it stood. -/
def Says.RollbackNotice : Prop :=
  (∀ (c : Core) (num : Nat), (c.rolledBack num).ctl.rb = true ∧ (c.rolledBack num).ctl.rbFrom = BitVec.ofNat 32 num ∧
    (c.rolledBack num).x = c.x ∧ (c.rolledBack num).pc = c.pc ∧ (c.rolledBack num).notice = true) ∧
  ∀ s : State, s.core.fw = false → s.core.notice = true → s.core.run ≠ .exited → s.core.run ≠ .parked →
    (s.core.ctl.thandler ≠ 0 → s.core.ctl.intrap = false →
      let t := s.takeNotice s.core.num
      t.core.pc = s.core.ctl.thandler ∧ t.core.ctl.tcause = 0x0E ∧ t.core.ctl.tsub = 0x01 ∧ t.core.ctl.tpc = s.core.pc ∧
        t.core.ctl.tel = s.core.ctl.estart ∧ t.core.ctl.tval = s.core.ctl.rbFrom.setWidth 64 ∧ t.core.ctl.estart = 0 ∧
        t.core.ctl.intrap = true ∧ t.core.notice = false ∧
        t.core.x = s.core.x ∧ t.mem = s.mem) ∧
    (s.core.ctl.thandler = 0 ∨ s.core.ctl.intrap = true →
      s.takeNotice s.core.num = { s with core := { s.core with notice := false } })

/-- Rollback restores the cut, and its notice is taken (which harvest, and whose notice, is the choice of log 39). -/
def Obligations.Rollback : Prop :=
  Says.RollbackRestores ∧ Says.RollbackNotice

/-- R288, R289: a migration begins while its launch runs here, and its copying may be repeated; in phase 2 the running and waiting
harts of the launch stop under rung 2; when all are saved and no remote access or post is under way the launch has moved, and its
records are forwarded. -/
def Obligations.LiveMigration : Prop :=
  ∀ (s : State) (id target : Nat) (l : Launch), s.launchAt id = some l →
    (l.state = .running → (∀ g, l.migration = some g → g.stopped = false ∧ g.target.toNat = target) → target < 4096 →
      target ≠ s.pkg.toNat →
      ∃ t m, exec (.migrationStart id target) s = .next t ∧ t.launchAt id = some m ∧
        m.migration = some { target := BitVec.ofNat 12 target, stopped := false, begun := s.time } ∧
        (∀ e ∈ l.extents, (t.extentAt e).trace = (s.extentAt e).trace &&& 0b1101) ∧ t.mem = s.mem ∧ t.core = s.core) ∧
    (∀ g : Migration, l.migration = some g → g.stopped = false → s.pick.stopAt = none →
      ∃ t m, exec (.migrationStop id) s = .next t ∧ t.launchAt id = some m ∧ m.migration = some { g with stopped := true } ∧
        t.mem = s.mem ∧ ∀ n ∈ s.coresOf (s.onQuads id), (t.coreAt n).run ≠ .running ∧ (t.coreAt n).x = (s.coreAt n).x) ∧
    (∀ g : Migration, l.migration = some g → g.stopped = true → s.onQuads id = [] → l.busy = false → s.remoteQuiet l = true →
      s.postsGone id = true →
      ∃ t m, exec (.migrationRelease id) s = .next t ∧ t.launchAt id = some m ∧ m.state = .moved ∧
        (∀ r ∈ s.records, r.launch = id → { home := r.home, id := r.id, launch := id, target := g.target } ∈ t.forwards) ∧
        (∀ r ∈ t.records, r.launch ≠ id) ∧ t.mem = s.mem)

/-- R376, R381, R400, R401, R403 to R405, R419: an integer member gives each active element its operation on the elements
of a, read through the neighbour form, and of b or the low bits of x b; the other elements, registers and flags stay. -/
def Says.VectorInteger : Prop :=
  ∀ (s : State) (d a b : VName) (vx u : Bool) (c : Ctrl),
    let n := 8 * s.core.eb
    let A (k : Nat) : BitVec n := BitVec.ofNat n (s.elemA a c k)
    let B (k : Nat) : BitVec n := BitVec.ofNat n (s.elemB b vx k)
    let D (k : Nat) : BitVec n := BitVec.ofNat n (s.core.elem d.toNat s.core.eb k)
    let gives (i : Instr) (f : Nat → BitVec n) : Prop :=
      DeliversElems i s d.toNat s.core.eb s.core.vlN (s.active c.gov) fun k => ((f k).toNat, fNone)
    s.core.ecc = [] →
    (s.groupsOk (some d) a b vx false c = true →
      gives (.vadd d a b vx c) (fun k => A k + B k) ∧ gives (.vsub d a b vx c) (fun k => A k - B k) ∧
      gives (.vmul d a b vx c) (fun k => A k * B k) ∧ gives (.vmacc d a b vx c) (fun k => D k + A k * B k) ∧
      gives (.vmulh d a b vx u c) (fun k =>
        if u then ((A k).setWidth (2 * n) * (B k).setWidth (2 * n)).extractLsb' n n
        else ((A k).signExtend (2 * n) * (B k).signExtend (2 * n)).extractLsb' n n) ∧
      gives (.vmin d a b vx u c) (fun k => if (if u then (A k).ult (B k) else (A k).slt (B k)) then A k else B k) ∧
      gives (.vmax d a b vx u c) (fun k => if (if u then (A k).ult (B k) else (A k).slt (B k)) then B k else A k) ∧
      gives (.vand d a b vx c) (fun k => A k &&& B k) ∧ gives (.vor d a b vx c) (fun k => A k ||| B k) ∧
      gives (.vxor d a b vx c) (fun k => A k ^^^ B k) ∧
      gives (.vsll d a b vx c) (fun k => A k <<< ((B k).toNat % n)) ∧
      gives (.vsrl d a b vx c) (fun k => A k >>> ((B k).toNat % n)) ∧
      gives (.vsra d a b vx c) (fun k => (A k).sshiftRight ((B k).toNat % n))) ∧
    (s.groupsOk (some d) a b true false c = true → gives (.vmv d a c) A)

/-- R86, R147, R377: a member whose groups fail the decode checks traps before it does anything; poison in the sources of
an active element traps at the first such element, once the elements before it are written, with cr.estart there. Which granule tval
names when several sources are poisoned, the first in operand order, is the model's choice (log 28). -/
def Says.VectorTraps : Prop :=
  ∀ (s : State) (d a b : VName) (vx : Bool) (rm : Rm) (c : Ctrl),
    (s.groupsOk (some d) a b vx false c = false → TrapsIllegal (.vadd d a b vx c) s 0x05) ∧
    (s.groupsOk (some d) a b vx true c = false → TrapsIllegal (.vfadd d a b vx rm c) s 0x05) ∧
    (s.groupsOk none a b vx false c = false → TrapsIllegal (.vcmp 0 a b vx .eq c) s 0x05) ∧
    (∀ (l r : List Nat) (e : Nat) (v : Word),
      let bad (k : Nat) : Option Word := s.core.badIn
        ((match neighbourAt c.nb c.edge s.core.vlN k with
          | some j => [s.core.elemCell a.toNat s.core.eb j]
          | none => []) ++ if vx then [] else [s.core.elemCell b.toNat s.core.eb k]) s.core.eb
      (∀ x ∈ s.core.ecc, x.poisoned = true) →
      s.groupsOk (some d) a b vx false c = true → s.active c.gov = l ++ e :: r → (∀ k ∈ l, bad k = none) → bad e = some v →
      exec (.vadd d a b vx c) s = ({ s with core := (s.core.putElems d.toNat s.core.eb (l.map fun k =>
          (k, (s.elemA a c k + s.elemB b vx k) % 2 ^ (8 * s.core.eb)))) } : State).trapAt e 0x09 0x01 v)

/-- Integer vector instructions on active elements, their decode checks and their poison trap. -/
def Obligations.VectorInteger : Prop :=
  Says.VectorInteger ∧ Says.VectorTraps

/-- R388, R390 to R392, R113: a floating-point member rounds the exact operation on its operands' values once to the
element format, in its mode; minimum and maximum deliver an operand's own code. The flags of the active elements are
merged. That VFEXP2 and VFLOG2 round the exact function so is the model's choice (log 15). -/
def Says.VectorFloat : Prop :=
  ∀ (s : State) (d a b e : VName) (vx : Bool) (rm : Rm) (neg : Neg) (c : Ctrl),
    let f := floatOf s.core.ctl.ew
    let mode := s.core.mode rm
    let A (k : Nat) : FNum := f.value false (s.elemA a c k)
    let B (k : Nat) : FNum := f.value false (s.elemB b vx k)
    let E (k : Nat) : FNum := f.value false (s.core.elem e.toNat s.core.eb k)
    let gives (i : Instr) (g : Nat → Nat × FlagSet) : Prop :=
      DeliversElems i s d.toNat s.core.eb s.core.vlN (s.active c.gov) g
    let rounded (x : FNum × FlagSet) : Nat × FlagSet := ((f.round mode x.1).1, (f.round mode x.1).2 ||| x.2)
    s.core.ecc = [] →
    (s.groupsOk (some d) a b vx true c = true →
      gives (.vfadd d a b vx rm c) (fun k => rounded ((A k).add mode (B k))) ∧
      gives (.vfsub d a b vx rm c) (fun k => rounded ((A k).add mode (B k).negate)) ∧
      gives (.vfmul d a b vx rm c) (fun k => rounded ((A k).mul (B k))) ∧
      gives (.vfdiv d a b vx rm c) (fun k => rounded ((A k).div (B k))) ∧
      gives (.vfmin d a b vx c) (fun k => f.extreme false (s.elemA a c k) (s.elemB b vx k)) ∧
      gives (.vfmax d a b vx c) (fun k => f.extreme true (s.elemA a c k) (s.elemB b vx k))) ∧
    (s.groupsOk (some d) a b true true c = true →
      gives (.vfsqrt d a rm c) (fun k => rounded (A k).sqrt) ∧ gives (.vfrcp d a rm c) (fun k => rounded (A k).rcp) ∧
      gives (.vfrsq d a rm c) (fun k => rounded (A k).rsqrt) ∧ gives (.vfexp2 d a rm c) (fun k => rounded (A k).exp2) ∧
      gives (.vflog2 d a rm c) (fun k => rounded (A k).log2)) ∧
    (s.core.mouldOk { d := some d.toNat, a := a.toNat, b := s.operandB b vx, c := some e.toNat, old := false,
                      float := true, ctl := c } = true →
      gives (.vfma d a b e vx rm neg c) (fun k =>
        let x := if neg = .n ∨ neg = .ns then (A k).negate else A k
        let z := if neg = .s ∨ neg = .ns then (E k).negate else E k
        rounded (((x.mul (B k)).1.add mode z).1, ((x.mul (B k)).1.add mode z).2 ||| (x.mul (B k)).2)))

/-- R387: VCVT reads each active element in the source format and delivers it converted to the destination format. -/
def Says.VectorConvert : Prop :=
  ∀ (s : State) (d a : VName) (fs fd : Fmt) (rm : Rm) (inf ovf : Bool) (gov : Gov),
    (s.core.ecc = [] → s.core.cvtOk d.toNat a.toNat fs fd gov = true →
      DeliversElems (.vcvt d a fs fd rm inf ovf gov) s d.toNat fd.bytes s.core.vlN (s.active gov) fun k =>
        fmtConvert fd (s.core.mode rm) inf ovf (fmtValue fs inf (s.core.elem a.toNat fs.bytes k))) ∧
    (s.core.cvtOk d.toNat a.toNat fs fd gov = false → TrapsIllegal (.vcvt d a fs fd rm inf ovf gov) s 0x05)

/-- Floating-point vector instructions and VCVT round once and merge flags. -/
def Obligations.VectorFloat : Prop :=
  Says.VectorFloat ∧ Says.VectorConvert

/-- R384, R389, R402, R411: VCMP and VFCMP write the truth of the condition for each active element; VMERGE takes b where
the mask bit is 1 and a elsewhere; VSPLAT gives the low bits of x a. -/
def Says.VectorCompareMerge : Prop :=
  ∀ (s : State) (d a b : VName) (m : MName) (x : XName) (vx : Bool) (sel : Sel) (c : Ctrl),
    let n := 8 * s.core.eb
    let f := floatOf s.core.ctl.ew
    let A (k : Nat) : BitVec n := BitVec.ofNat n (s.elemA a c k)
    let B (k : Nat) : BitVec n := BitVec.ofNat n (s.elemB b vx k)
    let bits (cond : Cond) (g : Nat → Bool) : Prop :=
      DeliversBits (.vcmp m a b vx cond c) s m s.core.vlN (s.active c.gov) fun k => (g k, fNone)
    s.core.ecc = [] →
    (s.groupsOk none a b vx false c = true → aligned m.toNat s.core.maskSpan = true →
      bits .eq (fun k => A k == B k) ∧ bits .ne (fun k => A k != B k) ∧ bits .lt (fun k => (A k).slt (B k)) ∧
      bits .ge (fun k => !(A k).slt (B k)) ∧ bits .ltu (fun k => (A k).ult (B k)) ∧
      bits .geu (fun k => !(A k).ult (B k))) ∧
    (∀ cond : FCond, s.groupsOk none a b vx true c = true → aligned m.toNat s.core.maskSpan = true →
      DeliversBits (.vfcmp m a b vx cond c) s m s.core.vlN (s.active c.gov) fun k =>
        fcond cond (f.value false (s.elemA a c k)) (f.value false (s.elemB b vx k))) ∧
    (c.gov = { me := false, m := 0, g := sel.g } → s.groupsOk (some d) a b vx false c = true →
      aligned sel.m.toNat s.core.maskSpan = true →
      DeliversElems (.vmerge d a b vx sel c.nb c.edge) s d.toNat s.core.eb s.core.vlN (s.active c.gov) fun k =>
        (if s.core.maskBit sel.m k then s.elemB b vx k else s.elemA a c k, fNone)) ∧
    (aligned d.toNat s.core.spanOf = true → s.core.govAligned c.gov = true →
      DeliversElems (.vsplat d x c.gov) s d.toNat s.core.eb s.core.vlN (s.active c.gov) fun _ =>
        ((s.x x).val.toNat % 2 ^ n, fNone))

/-- R113: comparisons and extremes of NaNs and zeros. -/
def Says.FloatOrder : Prop :=
  ∀ (f : Layout) (a b : Nat) (larger : Bool) (sig : Bool) (y : FNum) (g h : Int),
    fcond .eq (.nan sig) y = (false, sigFlags [.nan sig, y]) ∧ fcond .ne (.nan sig) y = (true, sigFlags [.nan sig, y]) ∧
    fcond .un (.nan sig) y = (true, sigFlags [.nan sig, y]) ∧ fcond .lt (.nan sig) y = (false, fNv) ∧
    fcond .le y (.nan sig) = (false, fNv) ∧ fcond .gt (.nan sig) y = (false, fNv) ∧ fcond .ge y (.nan sig) = (false, fNv) ∧
    ((f.value false a).isNan = true → (f.value false b).isNan = true → (f.extreme larger a b).1 = f.nan) ∧
    ((f.value false a).isNan = true → (f.value false b).isNan = false → (f.extreme larger a b).1 = b) ∧
    ((f.value false a).isNan = false → (f.value false b).isNan = true → (f.extreme larger a b).1 = a) ∧
    (f.value false a = .fin true 0 g → f.value false b = .fin false 0 h →
      (f.extreme true a b).1 = b ∧ (f.extreme false a b).1 = a)

/-- VCMP, VFCMP, VMERGE and VSPLAT, and the order of floating-point values. -/
def Obligations.VectorCompareMerge : Prop :=
  Says.VectorCompareMerge ∧ Says.FloatOrder

/-- R53 to R55, R61: elements written to an aligned group of the span are read back, whatever the rotation, every other
byte of the vector file is as before, and poison in granules written whole is gone. -/
def Obligations.VectorGroupWrite : Prop :=
  ∀ (c : Core) (d w : Nat) (l : List (Nat × Nat)),
    c.vec.wf = true → aligned d c.spanOf = true → d < 32 → (w = 1 ∨ w = 2 ∨ w = 4 ∨ w = 8) →
    (∀ e ∈ l, e.1 < vlmax c.spanOf w ∧ e.2 < 2 ^ (8 * w)) → l.Pairwise (fun x y => x.1 ≠ y.1) →
    let t := c.putElems d w l
    (∀ e ∈ l, t.elem d w e.1 = e.2) ∧
    (∀ k : Nat, (∀ e ∈ l, ¬ (c.elemCell d w e.1 ≤ k ∧ k < c.elemCell d w e.1 + w)) → t.vec.get k = c.vec.get k) ∧
    ∀ e : EccError, e ∈ t.ecc ↔ e ∈ c.ecc ∧ ¬ (e.store = .vector ∧ ∀ j < 8, ∃ x ∈ l,
      c.elemCell d w x.1 ≤ 8 * e.granule + j ∧ 8 * e.granule + j < c.elemCell d w x.1 + w)

/-- R130 to R132, R134, R135, R393, R394, R409, R410: each active element takes the element at the position that the form gives, or 0
where that position lies outside; a row length of VRESHAPE that does not divide vl, or an element to resume at, traps; VIOTA counts the set mask bits below the element, VID gives its index. -/
def Obligations.VectorPermute : Prop :=
  ∀ (s : State) (d a b : VName) (x : XName) (dn : Bool) (gov : Gov) (sel : Sel),
    let w := s.core.eb
    let n := (s.x x).val.toNat
    let vl := s.core.vlN
    let at_ (k : Nat) : Nat := s.core.elem a.toNat w k
    let idx (k : Nat) : Nat := s.core.elem b.toNat w k
    s.core.ecc = [] → s.core.govAligned gov = true →
    (s.core.apart d.toNat [a.toNat] = true →
      DeliversElems (.vslide d a x dn gov) s d.toNat w vl (s.active gov) fun k =>
        (if dn then (if k + n < vl then at_ (k + n) else 0) else (if k < n then 0 else at_ (k - n)), fNone)) ∧
    (s.core.apart d.toNat [a.toNat, b.toNat] = true →
      DeliversElems (.vgather d a b gov) s d.toNat w vl (s.active gov) fun k =>
        (if idx k < vl then at_ (idx k) else 0, fNone)) ∧
    (aligned d.toNat s.core.spanOf = true →
      DeliversElems (.vid d gov) s d.toNat w vl (s.active gov) fun k => (k % 2 ^ (8 * w), fNone)) ∧
    (s.core.ctl.estart = 0 → s.core.apart d.toNat [a.toNat] = true → n ≠ 0 → vl % n = 0 → s.core.stopAt = none →
      DeliversElems (.vreshape d a x gov) s d.toNat w vl (s.active gov) fun k =>
        (at_ (k % (vl / n) * n + k / (vl / n)), fNone)) ∧
    (s.core.apart d.toNat [a.toNat] = true →
      (s.core.ctl.estart ≠ 0 → TrapsIllegal (.vreshape d a x gov) s 0x06) ∧
      (s.core.ctl.estart = 0 → n = 0 ∨ vl % n ≠ 0 → TrapsIllegal (.vreshape d a x gov) s 0x05)) ∧
    (s.core.ctl.estart = 0 → aligned d.toNat s.core.spanOf = true → aligned sel.m.toNat s.core.maskSpan = true →
      s.core.stopAt = none → gov = { me := false, m := 0, g := sel.g } →
      DeliversElems (.viota d sel) s d.toNat w vl (s.active gov) fun k =>
        (((s.active gov).filter fun j => j < k && s.core.maskBit sel.m j).length % 2 ^ (8 * w), fNone))

/-- R133, R385: VCOMPRESS packs the active elements whose mask bit is 1, in order, from element 0 on, and writes their
number to x cnt. -/
def Says.VectorCompress : Prop :=
  ∀ (s : State) (d a : VName) (cnt : XName) (sel : Sel),
    let l := (s.core.activeAll { me := false, m := 0, g := sel.g }).filter fun k => s.core.maskBit sel.m k
    s.core.ecc = [] → s.core.ctl.estart = 0 → s.core.apart d.toNat [a.toNat] = true →
    aligned sel.m.toNat s.core.maskSpan = true →
    ∃ t, exec (.vcompress d a cnt sel) s = .next t ∧ s.wroteX t cnt { val := BitVec.ofNat 64 l.length, tag := 0 } ∧
      t.core.vec = (s.core.putElems d.toNat s.core.eb (l.mapIdx fun j k => (j, s.core.elem a.toNat s.core.eb k))).vec ∧
      ({ s with core := { s.core with vec := t.core.vec } } : State).advance.sameButX t

/-- R406, R407: a reduction of the active elements writes element 0 of the destination: the sum, the bitwise operations,
the extremes, with the identity of the operation over an empty set; with vl 0 or the gate shut it writes nothing. -/
def Says.VectorReduce : Prop :=
  ∀ (s : State) (d a : VName) (op : Red) (gov : Gov),
    let w := 8 * s.core.eb
    let l := (s.core.activeAll gov).map fun k => BitVec.ofNat w (s.core.elem a.toNat s.core.eb k)
    let ok := aligned d.toNat s.core.spanOf && aligned a.toNat s.core.spanOf && s.core.govAligned gov &&
      sameOrApart (s.core.physGroup d.toNat s.core.spanOf) (s.core.physGroup a.toNat s.core.spanOf) &&
      (!Red.isFloat op || s.core.ctl.ew != .e8)
    s.core.ecc = [] → s.core.ctl.estart = 0 → ok = true →
    (s.core.vlN = 0 ∨ s.core.gateOpen gov.g = false → exec (.vred d a op gov) s = .next s.advance) ∧
    (s.core.vlN ≠ 0 → s.core.gateOpen gov.g = true →
      let gives (r : BitVec w) : Prop := exec (.vred d a op gov) s =
        .next { s with core := s.core.putElems d.toNat s.core.eb [(0, r.toNat)] }.advance
      (op = .sum → gives (l.foldl (· + ·) 0)) ∧ (op = .and → gives (l.foldl (· &&& ·) (BitVec.allOnes w))) ∧
      (op = .or → gives (l.foldl (· ||| ·) 0)) ∧
      (op = .max true → gives (BitVec.ofNat w ((l.map BitVec.toNat).foldl max 0))) ∧
      (op = .min true → gives (BitVec.ofNat w ((l.map BitVec.toNat).foldl min (2 ^ w - 1)))) ∧
      (op = .max false → gives (BitVec.ofInt w ((l.map BitVec.toInt).foldl max (-(2 ^ (w - 1) : Nat))))) ∧
      (op = .min false → gives (BitVec.ofInt w ((l.map BitVec.toInt).foldl min ((2 ^ (w - 1) : Nat) - 1)))) ∧
      (Red.isFloat op = true → l = [] → gives (BitVec.ofNat w (redIdentity op (floatOf s.core.ctl.ew) w))) ∧
      (Red.isFloat op = true → l ≠ [] →
        let r := reduce op (floatOf s.core.ctl.ew) (s.core.mode .dyn) w
          ((s.core.activeAll gov).map fun k => (k, s.core.elem a.toNat s.core.eb k))
        exec (.vred d a op gov) s =
          .next { s with core := (s.core.putElems d.toNat s.core.eb [(0, r.1)]).mergeFlags r.2 }.advance))

/-- R408: the ordered floating sum adds from the lowest element on, rounding each time; a single element is delivered
unchanged, a NaN as the canonical one, by either sum and by the extremes. -/
def Says.ReduceFloat : Prop :=
  ∀ (f : Layout) (mode : Mode) (w k v : Nat) (l : List (Nat × Nat)) (j u : Nat),
    (∀ op : Red, Red.isFloat op = true →
      (reduce op f mode w [(k, v)]).1 = if (f.value false v).isNan then f.nan else v) ∧
    (reduce (.fsum true) f mode w ((k, v) :: l ++ [(j, u)])).1 =
      (f.round mode ((f.value false (reduce (.fsum true) f mode w ((k, v) :: l)).1).add mode (f.value false u)).1).1

/-- VCOMPRESS packs selected elements, VRED reduces active ones. -/
def Obligations.CompressAndReduce : Prop :=
  Says.VectorCompress ∧ Says.VectorReduce ∧ Says.ReduceFloat

/-- R126, R350: the mask operations act on the mask bits of every element below vl; MCOUNT counts the ones among them,
MFIRST gives the lowest, or all ones when there is none. -/
def Says.MaskOperations : Prop :=
  ∀ (s : State) (d a b : MName) (x : XName),
    let l := span s.core.estartN s.hiElem
    let A (k : Nat) : Bool := s.core.maskBit a k
    let B (k : Nat) : Bool := s.core.maskBit b k
    let ok (m : MName) : Prop := aligned m.toNat s.core.maskSpan = true
    let gives (i : Instr) (f : Nat → Bool) : Prop := DeliversBits i s d s.core.vlN l fun k => (f k, fNone)
    s.core.ecc = [] →
    (ok d → ok a → ok b → gives (.mand d a b) (fun k => A k && B k) ∧ gives (.mandn d a b) (fun k => A k && !B k) ∧
      gives (.mor d a b) (fun k => A k || B k) ∧ gives (.mxor d a b) (fun k => A k ^^ B k)) ∧
    (ok d → ok a → gives (.mnot d a) (fun k => !A k)) ∧
    (ok a → s.core.ctl.estart = 0 →
      DeliversWord (.mcount x a) s x (BitVec.ofNat 64 ((List.range s.core.vlN).countP A)) ∧
      (∀ k < s.core.vlN, A k = true → (∀ j < k, A j = false) → DeliversWord (.mfirst x a) s x (BitVec.ofNat 64 k)) ∧
      ((∀ k < s.core.vlN, A k = false) → DeliversWord (.mfirst x a) s x (-1))) ∧
    (ok a → s.core.ctl.estart ≠ 0 → TrapsIllegal (.mcount x a) s 0x06 ∧ TrapsIllegal (.mfirst x a) s 0x06)

/-- R56, R57, R122, R127: the mask bit of an element after a write of mask bits, which elements the gate and
the mask let through, and the position a neighbour form reads. -/
def Says.MaskAndNeighbour : Prop :=
  (∀ (c : Core) (m : MName) (k : Nat) (v : Bool), m.toNat + k / 384 < 8 →
    (c.putMask m [(k, v)]).maskBit m k = v ∧
    ∀ j : Nat, j ≠ k → (c.putMask m [(k, v)]).maskBit m j = c.maskBit m j) ∧
  (∀ (c : Core) (g : Gov) (k : Nat), c.passes g k = true ↔
    (g.g = 0 ∨ c.ctl.gates.getLsbD g.g.toNat = true) ∧ (g.me = true → c.maskBit g.m k = true)) ∧
  (∀ (edge : Edge) (vl k : Nat), k < vl →
    neighbourAt .none edge vl k = some k ∧ (0 < k → neighbourAt .l edge vl k = some (k - 1)) ∧
    (k + 1 < vl → neighbourAt .r edge vl k = some (k + 1)) ∧
    neighbourAt .l .ez vl 0 = none ∧ neighbourAt .l .er vl 0 = some 0 ∧ neighbourAt .l .ew vl 0 = some (vl - 1) ∧
    neighbourAt .r .ez vl (vl - 1) = none ∧ neighbourAt .r .er vl (vl - 1) = some (vl - 1) ∧
    neighbourAt .r .ew vl (vl - 1) = some 0)

/-- Mask instructions, mask bits, gates and neighbour positions. -/
def Obligations.Masks : Prop :=
  Says.MaskOperations ∧ Says.MaskAndNeighbour

/-- R379, R395, R398, R399: a vector load whose active elements pass the check gives each the bytes at its own address,
base register plus offset plus index, stride or unit step; other elements, memory and the other registers stay. That a stop ends VLD
and VLDS between two lines of memory only is the model's choice (log 9), as is that VLDR with an untagged base of firmware, which R158
does not check, loads from this package's memory (log 56). -/
def Says.VectorLoad : Prop :=
  ∀ (s : State) (d a b : VName) (x : XName) (off : BitVec 16) (gov : Gov) (P : Nat → Nat),
    let w := s.core.eb
    let n := s.core.spanOf
    let unit (k : Nat) : Int := off.toInt + (k * w : Nat)
    let stride (k : Nat) : Int := off.toInt + k * (s.x x).val.toInt
    let index (k : Nat) : Int := off.toInt + (s.core.elem b.toNat w k : Nat)
    let gives (i : Instr) (kind : AccKind) (hi : Nat) (at_ : Nat → Int) : Prop :=
      let l := (span s.core.estartN hi).filter fun k => s.core.passes gov k
      s.landsElems (s.x a) at_ kind l P →
        ∃ t, exec i s = .next t ∧ s.accessedV t hi s.core.vlN ∧ t.mem = s.mem ∧
          s.gotElems t d.toNat w l fun k => s.mem.read (P k) w
    s.core.StoresOk → s.core.ecc = [] → s.promptV → s.core.govAligned gov = true → aligned d.toNat n = true →
    gives (.vld d a off gov) .load (s.loadEnd gov (s.x a).val unit) unit ∧
    gives (.vldr d a off gov) .remoteLoad s.core.vlN unit ∧
    gives (.vlds d a x off gov) .load (s.loadEnd gov (s.x a).val stride) stride ∧
    (aligned b.toNat n = true → sameOrApart (s.core.physGroup d.toNat n) (s.core.physGroup b.toNat n) = true →
      gives (.vldx d a b off gov) .load s.hiElem index) ∧
    ∀ at_ : Nat → Int, (s.core.stopAt = none → s.loadEnd gov (s.x a).val at_ = s.core.vlN) ∧
      ∀ e f : Nat, e ∈ s.active gov → f ∈ s.core.activeAll gov → e < s.loadEnd gov (s.x a).val at_ →
        s.loadEnd gov (s.x a).val at_ ≤ f →
        ((s.x a).val.toNat + at_ e) / 128 ≠ ((s.x a).val.toNat + at_ f) / 128

/-- R379: an element that fails the check traps with the check's cause, cr.tel and cr.estart the element; the elements
before it have been loaded. -/
def Says.VectorLoadFault : Prop :=
  ∀ (s : State) (d a : VName) (off : BitVec 16) (gov : Gov) (P : Nat → Nat) (l r : List Nat) (e : Nat) (f : AccessFault),
    let w := s.core.eb
    s.core.StoresOk → s.core.ecc = [] → s.promptV → s.core.govAligned gov = true → aligned d.toNat s.core.spanOf = true →
    s.core.stopAt = none → s.active gov = l ++ e :: r → s.landsElems (s.x a) (fun k => off.toInt + (k * w : Nat)) .load l P →
    s.check (s.x a) (off.toInt + (e * w : Nat)) w w .load = .error f →
    ∃ u, exec (.vld d a off gov) s = u.trapAt e f.cause f.sub f.val ∧ u.mem = s.mem ∧ u.core.curPc = s.core.curPc ∧
      u.core.x = s.core.x ∧ s.gotElems u d.toNat w l fun k => s.mem.read (P k) w

/-- VLD, VLDS and VLDX load their active elements up to the first that faults. -/
def Obligations.VectorLoads : Prop :=
  Says.VectorLoad ∧ Says.VectorLoadFault

/-- R412 to R414, R417, R418, R2: a vector store writes each active element's bytes at its address, in element order, and
nothing else; the registers stay. That VSTR with an untagged base of firmware, which R158 does not check, stores to this package's
memory is the model's choice (log 56). -/
def Says.VectorStore : Prop :=
  ∀ (s : State) (r a b : VName) (x : XName) (off : BitVec 16) (flag : Bool) (gov : Gov) (P : Nat → Nat),
    let w := s.core.eb
    let n := s.core.spanOf
    let l := s.active gov
    let gives (i : Instr) : Prop := ∃ t, exec i s = .next t ∧ s.accessedV t s.hiElem s.core.vlN ∧ t.core.vec = s.core.vec ∧
      ∀ j : Nat, t.mem.get j = storedElems s.mem w P (fun k => s.core.elem r.toNat w k) l j
    s.MemOk → s.core.ecc = [] → s.promptV → s.core.govAligned gov = true → aligned r.toNat n = true →
    (s.landsElems (s.x a) (fun k => off.toInt + (k * w : Nat)) .localStore l P → gives (.vst r a off gov)) ∧
    (s.landsElems (s.x a) (fun k => off.toInt + (k * w : Nat)) .remoteStore l P → gives (.vstr r a off flag gov)) ∧
    (s.landsElems (s.x a) (fun k => off.toInt + k * (s.x x).val.toInt) .localStore l P → gives (.vsts r a x off gov)) ∧
    (aligned b.toNat n = true →
      s.landsElems (s.x a) (fun k => off.toInt + (s.core.elem b.toNat w k : Nat)) .localStore l P →
      gives (.vstx r a b off gov))

/-- R382: VAMO acts on the addresses of its active elements one after the other: the destination takes the old value,
memory the operation on it and the element. -/
def Says.VectorAtomic : Prop :=
  ∀ (s : State) (d a b : VName) (off : BitVec 16) (op : AmoOp) (gov : Gov) (P : Nat → Nat),
    let w := s.core.eb
    let n := s.core.spanOf
    let l := s.active gov
    let run := l.foldl (fun (p : Mem × List (Nat × Nat)) k =>
      let old := p.1.read (P k) w
      (p.1.setMany (cells (P k) w (amoValue op w old (s.core.elem d.toNat w k))), p.2 ++ [(k, old)])) (s.mem, [])
    s.MemOk → s.core.StoresOk → s.core.ecc = [] → s.promptV → s.core.govAligned gov = true → 4 ≤ w →
    aligned d.toNat n = true → aligned b.toNat n = true →
    share (s.core.physGroup d.toNat n) (s.core.physGroup b.toNat n) = false →
    s.landsElems (s.x a) (fun k => off.toInt + (s.core.elem b.toNat w k : Nat)) .atomic l P →
    ∃ t, exec (.vamo d a b off op gov) s = .next t ∧ s.accessedV t s.hiElem s.core.vlN ∧ t.mem = run.1 ∧
      s.gotElems t d.toNat w l fun k => ((run.2.find? fun e => e.1 == k).map fun e => e.2).getD 0

/-- VST, VSTS, VSTX and VAMO act on exactly the bytes of their elements. -/
def Obligations.VectorStoresAndAtomics : Prop :=
  Says.VectorStore ∧ Says.VectorAtomic

/-- R139 to R142, R354: MROW adds to an accumulator row the products of a vector register and the columns of the tiles:
`.rt` one row with rep successive tiles and column blocks, `.rv` rep rows with successive groups of the span and one tile.
Nothing else changes but the flags. Its limits are checked first, then the element to resume at, then the rows' types. -/
def Says.MatrixRowStep : Prop :=
  ∀ (s : State) (ad : AName) (vs : VName) (t : TName) (fa fb : Fmt) (cb rep : BitVec 5) (inf : Bool),
    let n := rep.toNat
    let w := fa.bytes
    let lo := 16 * cb.toNat
    let last := vs.toNat + (n - 1) * s.core.spanOf
    let ty : RowType := if fa.isInt then .i32 else .f32
    let A (reg : Nat) : List Nat := (List.range (min s.core.vlN (384 / w))).map fun k =>
      s.core.vec.read (s.core.regCell reg + k * w) w
    let rt : Instr := .mrow ad vs t fa fb cb rep false inf
    let rv : Instr := .mrow ad vs t fa fb cb rep true inf
    let tiles : Prop := t.toNat + n ≤ 24 ∧ cb.toNat + n ≤ 24
    let rows : Prop := t.toNat ≤ 23 ∧ ad.toNat + n ≤ 64 ∧ last ≤ 31 ∧ aligned vs.toNat s.core.spanOf = true ∧
      (last ≤ 15 ∨ 16 ≤ vs.toNat)
    let typed : Prop := ∀ r : Nat, ad.toNat ≤ r → r < ad.toNat + n → s.core.tyOk ty r = true
    rt.wf = true → s.core.StoresOk → s.core.ecc = [] →
    (tiles → s.core.ctl.estart = 0 → s.core.tyOk ty ad.toNat = true →
      ∃ u, exec rt s = .next u ∧ s.wroteAcc u 0 ∧ s.gotEntries u
        (fun r c => if r = ad.toNat ∧ lo ≤ c ∧ c < lo + 16 * n then
          some (s.rowSum fa fb inf (A vs.toNat) (t.toNat + (c / 16 - cb.toNat)) r c) else none)
        (fun r => if r = ad.toNat then some ty else none)) ∧
    (rows → s.core.ctl.estart = 0 → typed →
      ∃ u, exec rv s = .next u ∧ s.wroteAcc u 0 ∧ s.gotEntries u
        (fun r c => if ad.toNat ≤ r ∧ r < ad.toNat + n ∧ lo ≤ c ∧ c < lo + 16 then
          some (s.rowSum fa fb inf (A (vs.toNat + (r - ad.toNat) * s.core.spanOf)) t.toNat r c) else none)
        (fun r => if ad.toNat ≤ r ∧ r < ad.toNat + n then some ty else none)) ∧
    (¬ tiles → TrapsIllegal rt s 0x05) ∧ (¬ rows → TrapsIllegal rv s 0x05) ∧
    (s.core.ctl.estart ≠ 0 → (tiles → TrapsIllegal rt s 0x06) ∧ (rows → TrapsIllegal rv s 0x06)) ∧
    (s.core.ctl.estart = 0 → (tiles → s.core.tyOk ty ad.toNat = false → TrapsIllegal rt s 0x08) ∧
      (rows → ¬ typed → TrapsIllegal rv s 0x08))

/-- R143, R144, R354: MROWA takes the elements of A from a part of accumulator rows, converted down to the format of A; the rows it
reads and the rows it writes differ, and both have the type of the formats. Its limits are checked first, then the element to
resume at, then the types. -/
def Says.MatrixRowStepAcc : Prop :=
  ∀ (s : State) (ad as_ : AName) (t : TName) (fa fb : Fmt) (cb rep : BitVec 5) (inf ovf : Bool) (part : Part) (shift : BitVec 5),
    let n := rep.toNat
    let lo := 16 * cb.toNat
    let ty : RowType := if fa.isInt then .i32 else .f32
    let A (row : Nat) : List Nat := (List.range (min s.core.vlN (384 / fa.bytes))).map fun k =>
      (downConvert fa inf ovf shift.toNat (s.core.entry row (Part.base part + k))).1
    let rt : Instr := .mrowa ad as_ t fa fb cb rep false inf ovf part shift
    let rv : Instr := .mrowa ad as_ t fa fb cb rep true inf ovf part shift
    let tiles : Prop := t.toNat + n ≤ 24 ∧ cb.toNat + n ≤ 24 ∧ ad ≠ as_
    let rows : Prop := t.toNat ≤ 23 ∧ ad.toNat + n ≤ 64 ∧ as_.toNat + n ≤ 64 ∧
      (ad.toNat + n ≤ as_.toNat ∨ as_.toNat + n ≤ ad.toNat)
    let typed (m : Nat) : Prop := ∀ j < m, s.core.tyOk ty (ad.toNat + j) = true ∧ s.core.tyOk ty (as_.toNat + j) = true
    rt.wf = true → s.core.StoresOk → s.core.ecc = [] →
    (tiles → s.core.ctl.estart = 0 → typed 1 →
      ∃ u, exec rt s = .next u ∧ s.wroteAcc u 0 ∧ s.gotEntries u
        (fun r c => if r = ad.toNat ∧ lo ≤ c ∧ c < lo + 16 * n then
          some (s.rowSum fa fb inf (A as_.toNat) (t.toNat + (c / 16 - cb.toNat)) r c) else none)
        (fun r => if r = ad.toNat then some ty else none)) ∧
    (rows → s.core.ctl.estart = 0 → typed n →
      ∃ u, exec rv s = .next u ∧ s.wroteAcc u 0 ∧ s.gotEntries u
        (fun r c => if ad.toNat ≤ r ∧ r < ad.toNat + n ∧ lo ≤ c ∧ c < lo + 16 then
          some (s.rowSum fa fb inf (A (as_.toNat + (r - ad.toNat))) t.toNat r c) else none)
        (fun r => if ad.toNat ≤ r ∧ r < ad.toNat + n then some ty else none)) ∧
    (¬ tiles → TrapsIllegal rt s 0x05) ∧ (¬ rows → TrapsIllegal rv s 0x05) ∧
    (s.core.ctl.estart ≠ 0 → (tiles → TrapsIllegal rt s 0x06) ∧ (rows → TrapsIllegal rv s 0x06)) ∧
    (s.core.ctl.estart = 0 → (tiles → ¬ typed 1 → TrapsIllegal rt s 0x08) ∧ (rows → ¬ typed n → TrapsIllegal rv s 0x08))

/-- R115 to R117: the sum of one column, for every pair of formats of R114. The integer formats add the exact products to the entry
and wrap, with sat when the sum leaves 32 bits; binary32 multiplies and adds element by element, each fused and rounded to nearest;
the others round the exact sum of the entry and the products once, with the special values in the order of R115. -/
def Says.ColumnSums : Prop :=
  ∀ (fa fb : Fmt) (inf : Bool) (as bs : List Nat) (acc a b : Nat), as.length = bs.length → Fmt.pairOk fa fb = true →
    (∀ v ∈ as ++ bs, v < 256 ^ fa.bytes) →
    let r := columnSum fa fb inf as bs acc
    let prods := (as.zip bs).map fun p => (fmtValue fa inf p.1).mul (fmtValue fb inf p.2)
    let l := Layout.b32.value false acc :: prods.map fun p => p.1
    (fa.isInt = true →
      let num (f : Fmt) (c : Nat) : Int := if f = .i8 then (BitVec.ofNat 8 c).toInt else (c : Int)
      let v := (BitVec.ofNat 32 acc).toInt + ((as.zip bs).map fun p => num fa p.1 * num fb p.2).sum
      r = ((BitVec.ofInt 32 v).toNat, if (BitVec.ofInt 32 v).toInt = v then fNone else fSat)) ∧
    (fa = .b32 →
      columnSum fa fb inf [] [] acc = (acc, fNone) ∧
      (columnSum fa fb inf (as ++ [a]) (bs ++ [b]) acc).1 = (Layout.b32.round .rne
        (((Layout.b32.value inf a).mul (Layout.b32.value inf b)).1.add .rne (Layout.b32.value false r.1)).1).1) ∧
    (fa.isInt = false → fa ≠ .b32 →
      let nan : Prop := (∃ v ∈ l, v.isNan = true) ∨ .inf false ∈ l ∧ .inf true ∈ l
      (nan → r.1 = Layout.b32.nan) ∧
      (∀ neg : Bool, ¬ nan → .inf neg ∈ l → r = (if neg then 0xFF800000 else 0x7F800000, fNone)) ∧
      (∀ q : Int, (∀ v ∈ l, ∃ neg m e, v = .fin neg m e ∧ q ≤ e) → q ≤ 0 → (q = 0 ∨ ∃ neg m, .fin neg m q ∈ l) →
        let t := (l.map (FNum.units q)).sum
        r = Layout.b32.round .rne (.fin (t < 0) t.natAbs q)) ∧
      (r.2.getLsbD 0 = true ↔ (∃ p ∈ prods, p.2 = fNv) ∨ (Layout.b32.value false acc).signals = true ∨
        .inf false ∈ l ∧ .inf true ∈ l))

/-- MROW and MROWA add row-times-tile products to accumulator rows. -/
def Obligations.MatrixSteps : Prop :=
  Says.MatrixRowStep ∧ Says.MatrixRowStepAcc ∧ Says.ColumnSums

/-- R145: ARD reads the entries of a row into a group of four registers, AWR writes them from one and gives the row its type; each
for the elements of this step (R22). -/
def Obligations.AccumulatorRows : Prop :=
  ∀ (s : State) (d : VName) (row : AName) (int : Bool),
    let from_ := s.core.estartN
    let upto := s.hiOf 384
    s.core.StoresOk → s.core.ecc = [] → aligned d.toNat 4 = true →
    DeliversElems (.ard d row) s d.toNat 4 384 (span from_ upto) (fun k => (s.core.entry row.toNat k, fNone)) ∧
    ∃ t, exec (.awr row d int) s = .next t ∧ s.wroteAcc t 384 ∧ t.core.ctl.flags = s.core.ctl.flags ∧ s.gotEntries t
      (fun r c => if r = row.toNat ∧ from_ ≤ c ∧ c < upto then some (s.core.elem d.toNat 4 c) else none)
      (fun r => if r = row.toNat ∧ from_ < 384 then some (if int then .i32 else .f32) else none)

/-- R54, R59, R322: ACLR clears rows and their types, for the rows of this step (R22); ARD and AWR of a group that is not aligned are
illegal. -/
def Says.AccumulatorClear : Prop :=
  ∀ (s : State) (d : VName) (row : AName) (cnt : BitVec 6) (int : Bool),
    let cleared (r : Nat) : Prop := row.toNat + s.core.estartN ≤ r ∧ r < row.toNat + s.hiOf (cnt.toNat + 1)
    s.core.StoresOk → s.core.ecc = [] →
    (aligned d.toNat 4 = false → TrapsIllegal (.ard d row) s 0x05 ∧ TrapsIllegal (.awr row d int) s 0x05) ∧
    (row.toNat + cnt.toNat ≤ 63 →
      ∃ t, exec (.aclr row cnt) s = .next t ∧ s.wroteAcc t (cnt.toNat + 1) ∧ t.core.ctl.flags = s.core.ctl.flags ∧
        (∀ r c : Nat, r < 64 → c < 384 →
          (cleared r → t.core.acc.read (accCell r c) 4 = 0 ∧ t.core.rowTy r = .none) ∧
          (¬ cleared r → t.core.acc.read (accCell r c) 4 = s.core.acc.read (accCell r c) 4 ∧
            t.core.rowTy r = s.core.rowTy r)))

/-- R119, R327: ASCALE adds to each entry the source entry times its scale, rounded once to nearest; it makes the row of
type binary32, and `.clr` clears the source entries and, once all are cleared, the source's type. That the row has its type from
the first part of a stopped ASCALE on is the model's choice (log 33). Operands that are not allowed and an integer row trap. -/
def Says.AccumulatorScale : Prop :=
  ∀ (s : State) (ad as_ : AName) (x : XName) (b : VName) (clr : Bool) (form : ScaleForm),
    let from_ := s.core.estartN
    let upto := s.hiOf 384
    let old (k : Nat) : FNum := Layout.b32.value false (s.core.entry ad.toNat k)
    let S (k : Nat) : FNum := if s.core.rowTy as_.toNat = .i32 then FNum.ofInt (BitVec.ofNat 32 (s.core.entry as_.toNat k)).toInt
      else Layout.b32.value false (s.core.entry as_.toNat k)
    let R : FNum := Layout.b32.value false ((s.x x).val.toNat % 2 ^ 32)
    let C (k : Nat) : FNum := Layout.b32.value false (s.core.elem b.toNat 4 k)
    let term (k : Nat) : FNum := match form with
      | .row _ => ((S k).mul R).1
      | .col _ => ((S k).mul (C k)).1
      | .both .. => (((S k).mul R).1.mul (C k)).1
    let ok : Prop := (form ≠ .row x → aligned b.toNat 4 = true) ∧ (clr = true → ad ≠ as_)
    s.core.StoresOk → s.core.ecc = [] → (form = .row x ∨ form = .col b ∨ form = .both x b) →
    (¬ ok → TrapsIllegal (.ascale ad as_ form clr) s 0x05) ∧
    (ok → s.core.rowTy ad.toNat = .i32 → TrapsIllegal (.ascale ad as_ form clr) s 0x08) ∧
    (ok → s.core.rowTy ad.toNat ≠ .i32 → ∃ t, exec (.ascale ad as_ form clr) s = .next t ∧ s.wroteAcc t 384 ∧ s.gotEntries t
      (fun r c => if from_ ≤ c ∧ c < upto then
        (if r = ad.toNat then some (Layout.b32.round .rne ((old c).add .rne (term c)).1).1
          else if clr = true ∧ r = as_.toNat then some 0 else none) else none)
      (fun r => if from_ < 384 ∧ r = ad.toNat then some .f32
        else if from_ < 384 ∧ clr = true ∧ r = as_.toNat ∧ upto = 384 then some .none else none))

/-- R146, R373, R374: TLD loads a tile image from the scratchpad, TFILL half a tile from eight registers, column by column,
each for the columns of this step: a stop falls at a column, wherever in a line of memory the image begins. A tile name above 23
and a group that is not aligned trap. -/
def Says.TileWrites : Prop :=
  ∀ (s : State) (t : TName) (a : XName) (b : VName) (imm : BitVec 32) (hi : Bool) (p : Nat),
    let from_ := s.core.estartN
    let upto := s.hiOf 16
    let first := if hi then 8 else 0
    s.core.StoresOk → s.core.ecc = [] →
    (t.toNat < 24 → s.promptV → from_ < 16 →
      (region p = .dram ∧ region (p + 6143) = .dram ∨ region p = .scratch ∧ region (p + 6143) = .scratch) →
      s.check (s.x a) imm.toInt 6144 64 .tileLoad = .ok { pkg := none, addr := p } →
      (∀ k < 6144, s.owned ((p + k) / 128) = false) →
      ∃ u, exec (.tld t a imm) s = .next u ∧ u.mem = s.mem ∧ u.core.vec = s.core.vec ∧ u.core.acc = s.core.acc ∧
        u.core.x = s.core.x ∧ u.core.curPc = (s.endVector upto 16).core.curPc ∧ s.gotTiles u fun i c k =>
          if i = t.toNat ∧ from_ ≤ c ∧ c < upto then some (s.mem.get (p + 384 * c + k)) else none) ∧
    (t.toNat < 24 → aligned b.toNat 8 = true →
      ∃ u, exec (.tfill t b hi) s = .next u ∧ u = { s.endVector upto 16 with
          core := { (s.endVector upto 16).core with tiles := u.core.tiles } } ∧ s.gotTiles u fun i c k =>
        if i = t.toNat ∧ from_ ≤ c ∧ c < upto ∧ first ≤ c ∧ c < first + 8 then
          some (s.core.vec.get (s.core.regCell (b.toNat + c - first) + k)) else none) ∧
    (24 ≤ t.toNat → TrapsIllegal (.tld t a imm) s 0x05) ∧
    (24 ≤ t.toNat ∨ aligned b.toNat 8 = false → TrapsIllegal (.tfill t b hi) s 0x05)

/-- ACLR, ASCALE, TLD and TFILL. -/
def Obligations.ScaleAndTiles : Prop :=
  Says.AccumulatorClear ∧ Says.AccumulatorScale ∧ Says.TileWrites

/-- R183, R191, R194, R195, R197, R337: EISSUE goes through the active commands of its batch, when none fails a check: it accepts
some, in order, under successive serials, sets their mask bits and writes their receipts, and clears the bits of the others. A command
is accepted when its engine has room and is not closed by a command of the batch that was refused before it, and when the core is not
held. Memory and the x registers stay. -/
def Says.EngineIssue : Prop :=
  ∀ (s : State) (md m : MName) (a b : VName),
    let hi := s.hiOf 48
    let l := s.core.activeBits m s.core.estartN hi
    share (s.core.physGroup a.toNat 8) (s.core.physGroup b.toNat 2) = false → s.doneS = true → s.core.vq = [] →
    s.core.ecc = [] → s.core.StoresOk → (∀ i ∈ l, s.commandPasses (s.batchCommand a i)) →
    ∃ (t u : State) (q : List (Nat × Command)), exec (.eissue md a b m) s = .next t ∧ s.batchRun u md a b l q ∧
      t.mem = u.mem ∧ t.core.x = u.core.x ∧ t.core.m = u.core.m ∧ t.core.vec = u.core.vec ∧ t.core.cmds = u.core.cmds ∧
      t.core.serial = u.core.serial ∧ t.core.curPc = (s.endVector hi 48).core.curPc ∧
      t.core.ctl.estart = (s.endVector hi 48).core.ctl.estart

/-- R194 to R196, R337: EISSUE with groups that overlap is illegal; the first command that fails a check traps with the check's cause
at its place, and tval holds the command's first eight bytes; the commands below it have been gone through, and those accepted
stay accepted. -/
def Says.EngineIssueTraps : Prop :=
  ∀ (s : State) (md m : MName) (a b : VName) (i : Nat) (l r : List Nat) (cause sub : BitVec 8),
    (share (s.core.physGroup a.toNat 8) (s.core.physGroup b.toNat 2) = true → TrapsIllegal (.eissue md a b m) s 0x05) ∧
    (share (s.core.physGroup a.toNat 8) (s.core.physGroup b.toNat 2) = false → s.doneS = true → s.core.vq = [] →
      s.core.ecc = [] → s.core.StoresOk → s.core.activeBits m s.core.estartN (s.hiOf 48) = l ++ i :: r →
      (∀ j ∈ l, s.commandPasses (s.batchCommand a j)) → s.checkCommand (s.batchCommand a i) = some (cause, sub) →
      ∃ (u : State) (q : List (Nat × Command)), s.batchRun u md a b l q ∧
        exec (.eissue md a b m) s = u.trapAt i cause sub ((s.batchCommand a i).bits.extractLsb' 0 64))

/-- R185, R199: EWAIT waits, at a safe point, for the latest promise of the outstanding commands its receipts name. Then a
command still outstanding, a refused destination or a tag mismatch traps at the lowest such receipt; otherwise both
clocks of the hart reach those of the commands and the hart goes on. EWAIT-WAKE is the same once the promise has come. -/
def Says.EngineWait : Prop :=
  ∀ (s : State) (a : VName) (m : MName),
    let l := s.core.serials a m
    let due := s.core.latest l
    let ended := (l.filterMap fun e => (s.core.ended.find? fun x => x.1 == e.2).map fun x => x.2).foldl max 0
    let fine (n : BitVec 16) : Prop := s.core.outstanding n = none ∧ s.core.refused.contains n = false ∧
      s.core.mismatched n = false
    let goesOn (i : Instr) : Prop := ∃ t, exec i s = .next t ∧
      t = { s.advance with core := { s.advance.core with
        run := .running, sS := t.core.sS, sV := t.core.sV, ahead := [], ctl := { s.advance.core.ctl with estart := 0 } } } ∧
      t.core.sS.pts = max s.core.sS.pts ended ∧ t.core.sV.pts = max s.core.sV.pts ended
    let traps (i : Instr) : Prop :=
      let u : State := { s with core := { s.core with run := .running } }
      ∀ (p r : List (Nat × BitVec 16)) (k : Nat) (n : BitVec 16), l = p ++ (k, n) :: r → (∀ e ∈ p, fine e.2) →
        (s.core.outstanding n ≠ none → exec i s = u.trap 0x08 0x01 (BitVec.ofNat 12 k) (n.setWidth 64)) ∧
        (s.core.outstanding n = none → s.core.refused.contains n = true → exec i s =
          ({ u with core := { u.core with refused := s.core.refused.filter fun x => x != n } } : State).trap 0x08 0x02
            (BitVec.ofNat 12 k) (n.setWidth 64)) ∧
        (s.core.outstanding n = none → s.core.refused.contains n = false → s.core.mismatched n = true → exec i s =
          ({ u with core := { u.core with mismatch := s.core.mismatch.filter fun x => x.1 != n } } : State).trap 0x07 0x02
            (BitVec.ofNat 12 k) (n.setWidth 64))
    s.core.fw = false → s.core.num < 1024 → s.core.ecc = [] → s.core.vq = [] →
    (s.core.run = .running →
      (∀ t : Nat, due = some t → s.time.toNat < t →
        exec (.ewait a m) s = .next (s.safePoint (some (.engine (BitVec.ofNat 64 t) a m)))) ∧
      ((∀ e ∈ l, fine e.2) → goesOn (.ewait a m)) ∧
      ((∀ t : Nat, due = some t → t ≤ s.time.toNat) → traps (.ewait a m))) ∧
    (∀ t : Word, s.core.run = .waiting (.engine t a m) → t.toNat ≤ s.time.toNat →
      ((∀ e ∈ l, fine e.2) → goesOn (.ewaitWake s.core.num)) ∧ traps (.ewaitWake s.core.num))

/-- EISSUE accepts the commands of a batch, and EWAIT waits for their promises. -/
def Obligations.EngineBatches : Prop :=
  Says.EngineIssue ∧ Says.EngineIssueTraps ∧ Says.EngineWait

/-- R183, R184, R193, R202: a COPY loads each source line once, while no other command owns it (the model's reading, log 27), and writes one line of its destination
with the bytes it loaded, a FILL with its pattern, once no earlier command has to write the line and it is not sealed. To another
package the bytes go as a store. -/
def Says.EngineCopies : Prop :=
  ∀ (s : State) (n : Nat) (serial : BitVec 16) (piece : Nat) (k : Command),
    let p := linePart k.dst k.count piece
    (s.engineHas n serial 1 k → s.mayLoad k piece → s.loadsPiece (.copy n serial (2 * piece)) n serial k piece) ∧
    (s.MemOk → piece < lineCount k.dst k.count → k.done.contains piece = false → region (k.dst + p.1) ≠ .table →
      s.mayStore k (k.dst / 128 + piece) = true →
      (s.engineHas n serial 1 k → k.loaded p.1 p.2 = true →
        (k.dstPkg = none → ∃ t k1, exec (.copy n serial (2 * piece + 1)) s = .next t ∧ s.pieceDone t n serial k k1 ∧
          k1.done = piece :: k.done ∧ (t.clockAt (k.dst / 128 + piece)).wts = k1.pts ∧
          pasted s.mem t.mem (k.dst + p.1) (k.gotBytes p.1 p.2)) ∧
        (∀ pkg : BitVec 12, k.dstPkg = some pkg → s.anyPlane pkg ≠ none →
          ∃ t e, exec (.copy n serial (2 * piece + 1)) s = .next t ∧ t.mem = s.mem ∧ t.egress = s.egress ++ [e] ∧ e.dst = pkg ∧
            e.engine = some k.order ∧ e.body = .store (place (k.dst + p.1) (k.gotBytes p.1 p.2)))) ∧
      (s.engineHas n serial 2 k → k.dstPkg = none →
        ∃ t k1, exec (.fill n serial piece) s = .next t ∧ s.pieceDone t n serial k k1 ∧ k1.done = piece :: k.done ∧
          pasted s.mem t.mem (k.dst + p.1)
            ((List.range p.2).map fun j => k.pat.extractLsb' (8 * ((p.1 + j) % 8)) 8)))

/-- R193, R200, R301: STAGE loads its source lines and compares the version tag of each block, in order: on a match the block's
lines may be written, on a mismatch the command writes no further block, or in L720 mode counts it in cr.integ and goes on. A loaded
line of a judged block is written to its place in the tile image. -/
def Says.EngineStages : Prop :=
  ∀ (s : State) (n : Nat) (serial : BitVec 16) (i j : Nat) (k : Command),
    let tag := 6208 * k.checked + 6144
    let got := ofBytes (k.gotBytes tag 8)
    let p := linePart (k.dst + 6144 * i) 6144 j
    let l720 := s.l720.contains (s.coreAt n).ctl.world
    let judges (f : Core → Core → Prop) (c : Nat) (b : Option Nat) : Prop :=
      ∃ t k1, exec (.stage n serial (3 * i + 1)) s = .next t ∧ t.mem = s.mem ∧ s.onlyCore t n f ∧
        (t.coreAt n).outstanding serial = some k1 ∧ k1.done = k.done ∧ k1.checked = c ∧ k1.bad = b
    let same (a b : Core) : Prop := b = { a with cmds := b.cmds }
    let counted (a b : Core) : Prop := b = { a with cmds := b.cmds, ctl := { a.ctl with
      integ := if a.ctl.integ = 0xFFFF then a.ctl.integ else a.ctl.integ + 1,
      integPc := if a.ctl.integ = 0 then k.pc.setWidth 48 else a.ctl.integPc } }
    s.engineHas n serial 3 k →
    (s.mayLoad k i → s.loadsPiece (.stage n serial (3 * i)) n serial k i) ∧
    (k.checked < k.count → k.bad = none → k.loaded tag 8 = true →
      (got = k.vtag.toNat → judges same (k.checked + 1) none) ∧
      (got ≠ k.vtag.toNat → l720 = false → judges same k.checked (some k.checked)) ∧
      (got ≠ k.vtag.toNat → l720 = true → judges counted (k.checked + 1) none)) ∧
    (s.MemOk → i < k.checked → j < lineCount (k.dst + 6144 * i) 6144 → k.done.contains (64 * i + j) = false →
      k.loaded (6208 * i + p.1) p.2 = true → k.dstPkg = none → region (k.dst + 6144 * i + p.1) ≠ .table →
      s.mayStore k ((k.dst + 6144 * i) / 128 + j) = true →
      ∃ t k1, exec (.stage n serial (3 * (64 * i + j) + 2)) s = .next t ∧ s.pieceDone t n serial k k1 ∧
        k1.done = (64 * i + j) :: k.done ∧
        pasted s.mem t.mem (k.dst + 6144 * i + p.1) (k.gotBytes (6208 * i + p.1) p.2))

/-- R183, R193, R200 to R202, R301: TLOAD loads its source lines in any order, compares its tag, and writes the tile on a match, or in
L720 mode on a mismatch that it counts in cr.integ, after the earlier loads of it; ALOAD loads its source lines and writes one row of the accumulator file with its type. Memory stays. -/
def Says.EngineLoads : Prop :=
  ∀ (s : State) (n : Nat) (serial : BitVec 16) (row : Nat) (k : Command),
    let c := s.coreAt n
    let tload : Instr := .tload n serial
    let got := ofBytes (k.gotBytes 6144 8)
    let judged (t : State) (k1 : Command) : Prop := exec tload s = .next t ∧ t.mem = s.mem ∧ (t.coreAt n).tiles = c.tiles ∧
      (t.coreAt n).outstanding serial = some k1
    c.StoresOk →
    (s.engineHas n serial 4 k →
      (k.unread ≠ [] → (∀ i ∈ k.unread, s.mayLoad k i) → ∃ i ∈ k.unread, s.loadsPiece tload n serial k i) ∧
      (k.unread = [] → k.bad = none → k.checked = 0 → k.loaded 6144 8 = true →
        (got = k.vtag.toNat → ∃ t k1, judged t k1 ∧ k1.checked = 1 ∧ k1.bad = none) ∧
        (got ≠ k.vtag.toNat → s.l720.contains c.ctl.world = false → ∃ t k1, judged t k1 ∧ k1.bad = some 0) ∧
        (got ≠ k.vtag.toNat → s.l720.contains c.ctl.world = true → ∃ t k1, judged t k1 ∧ k1.checked = 1 ∧ k1.bad = none ∧
          (t.coreAt n).ctl = { c.ctl with
            integ := if c.ctl.integ = 0xFFFF then c.ctl.integ else c.ctl.integ + 1,
            integPc := if c.ctl.integ = 0 then k.pc.setWidth 48 else c.ctl.integPc })) ∧
      (k.unread = [] → k.checked = 1 → k.done = [] → c.earlierTile k = false → k.reg < 24 →
        ∃ t k1, exec tload s = .next t ∧ t.mem = s.mem ∧
          s.onlyCore t n (fun a b => b = { a with cmds := b.cmds, tiles := b.tiles, ecc := b.ecc }) ∧
          (t.coreAt n).outstanding serial = some k1 ∧ k1.done = [0] ∧
          pasted c.tiles (t.coreAt n).tiles (6144 * k.reg) (k.gotBytes 0 6144))) ∧
    (s.engineHas n serial 5 k →
      (s.mayLoad k row → s.loadsPiece (.aload n serial (2 * row)) n serial k row) ∧
      (row < k.count → k.done.contains row = false → k.reg + row < 64 → k.loaded (1536 * row) 1536 = true →
        c.earlierRow k (k.reg + row) = false →
        ∃ t k1, exec (.aload n serial (2 * row + 1)) s = .next t ∧ t.mem = s.mem ∧
          s.onlyCore t n (fun a b => b = { a with cmds := b.cmds, acc := b.acc, rowType := b.rowType, ecc := b.ecc }) ∧
          (t.coreAt n).outstanding serial = some k1 ∧ k1.done = row :: k.done ∧
          (t.coreAt n).rowTy (k.reg + row) = (if k.ty then .i32 else .f32) ∧
          pasted c.acc (t.coreAt n).acc (1536 * (k.reg + row)) (k.gotBytes (1536 * row) 1536)))

/-- R173, R185, R191: a command ends once every store of it is issued and performed at its destination: it leaves its engine and
its clock is kept; until then nothing happens. The machine may drop one version that an S stream holds: of a hart, of its core's
firmware, or of a service core. -/
def Says.EngineCommandEnds : Prop :=
  (∀ (s : State) (n : Nat) (serial : BitVec 16),
    let done (k : Command) := k.allIssued = true ∧ ¬ s.egress.any fun p => p.engine == some k.order
    n < 1024 →
    (∀ k before after, (s.coreAt n).ofSerial serial = before ++ k :: after → done k → (∀ x ∈ before, ¬ done x) →
      ∃ t, exec (.engineCommandComplete n serial) s = .next t ∧ t.mem = s.mem ∧ s.onlyCore t n fun a b =>
        b = { a with cmds := a.cmds.filter fun x => x.order != k.order, ended := (serial, k.pts) :: a.ended,
                     mismatch := if k.bad.isSome then (serial, a.hartId) :: a.mismatch else a.mismatch }) ∧
    ((∀ k ∈ (s.coreAt n).ofSerial serial, ¬ done k) → exec (.engineCommandComplete n serial) s = .next s)) ∧
  (∀ (s : State) (n line wts : Nat) (fw : Bool),
    let less (st : Stream) : Stream := { st with held := st.held.filter fun h => h != { line := line, wts := wts } }
    (n < 1024 → ∃ t, exec (.heldVersionDrop n ⟨fw, line, wts⟩) s = .next t ∧
      t = { s with old := t.old, core := t.core, others := t.others } ∧
      s.onlyCore t n fun a b => b = if fw then { a with sF := less a.sF } else { a with sS := less a.sS }) ∧
    (1024 ≤ n → ∃ t, exec (.heldVersionDrop n ⟨fw, line, wts⟩) s = .next t ∧
      t = { s with old := t.old, services := s.services.modify (n - 1024) less }))

/-- The pieces of engine commands, and their end. -/
def Obligations.EngineTransfers : Prop :=
  Says.EngineCopies ∧ Says.EngineStages ∧ Says.EngineLoads ∧ Says.EngineCommandEnds

/-- R264, R268 to R270: flits out of sequence are refused and asked for again; of the flits of a packet those before the first corrupt
one are accepted, and the packet's others asked for again. Once all its flits are accepted, the packet has arrived: a full header, alone
or after the escape, gives the packet and opens its context, a compact one takes the context's header, with the address where its last
packet ended plus 32 times the delta and its own length; a marker closes the contexts. A packet carries no more than its length.
What stands in a packet besides its header, and that a header which opens no context leaves the contexts, is the model's choice (log 20). -/
def Says.LinkReceives : Prop :=
  ∀ (s : State) (k : Nat) (f : Flit),
    let l := s.linkAt k
    s.linkTakes k →
    (f.seq ≠ l.rxSeq → exec (.flitReceive k f) s = .next (s.setLink { l with replay := some l.rxSeq })) ∧
    (∀ j : Nat, f.seq = l.rxSeq → f.bad = some j →
      let n := min j (Flit.flits f - l.part - 1)
      let next := l.rxSeq + BitVec.ofNat 16 n
      exec (.flitReceive k f) s = .next (s.setLink { l with
        rxSeq := next, ack := if n = 0 then l.ack else some (next - 1), part := l.part + n, replay := some next })) ∧
    (f.bad = none → f.seq = l.rxSeq → l.part < Flit.flits f →
      (∀ (h : BitVec 192) (counts : List (BitVec 16)) (body : PacketBody),
        f.header = .full h counts ∨ f.header = .escape h counts →
        bodyOf h (hdrAddr h) (hdrLen h) f.payload = some body →
        ∃ t, exec (.flitReceive k f) s = .next t ∧ s.accepted1 t k f h body ∧
          (hdrOpen h = true → (hdrKind h = 1 ∨ hdrKind h = 3) → (t.linkAt k).ctxAt (hdrCtx h) =
            some { ctx := hdrCtx h, bits := h, next := hdrAddr h + 32 * hdrLen h }) ∧
          (hdrOpen h = false → hdrKind h ≠ 7 → (t.linkAt k).ctxs = l.ctxs) ∧
          (hdrKind h = 7 → (t.linkAt k).ctxs = [])) ∧
      (∀ (ctx : BitVec 6) (len : BitVec 8) (delta : Fin 0xFFFF) (c : LinkCtx) (body : PacketBody),
        f.header = .compact ctx len delta → l.ctxAt ctx.toNat = some c →
        bodyOf c.bits (c.next + 32 * delta.toNat) len.toNat f.payload = some body →
        ∃ t, exec (.flitReceive k f) s = .next t ∧ s.accepted1 t k f c.bits body ∧
          (hdrKind c.bits ≠ 7 → (t.linkAt k).ctxAt ctx.toNat =
            some { c with next := c.next + 32 * delta.toNat + 32 * len.toNat })))

/-- R265, R266, R258: a link that loses lanes retrains at 8 or 4, and goes down below that or when retraining took more
than 50,000 ticks; a link that went down is returned to service by firmware, once that runs. After retraining the flits from the first
unaccepted one on are asked for again. -/
def Says.LinkLanes : Prop :=
  ∀ (s : State) (k lanes : Nat) (begun : Word),
    let l := s.linkAt k
    k < 16 →
    (l.up = true → (lanes = 8 ∨ lanes = 4) → lanes < l.lanes →
      exec (.laneFail k lanes) s = .next (s.setLink { l with lanes := lanes, retrain := some s.time })) ∧
    (l.up = true → lanes < 4 → ∃ t, exec (.laneFail k lanes) s = .next t ∧ s.wentDown t k) ∧
    (l.up = true → ∃ t, exec (.linkDown k) s = .next t ∧ s.wentDown t k) ∧
    (l.up = true → l.retrain = some begun →
      (s.time.toNat ≤ begun.toNat + 50000 → ∃ t, exec (.linkRetrainComplete k) s = .next t ∧
        t.linkAt k = { l with retrain := none, replay := some l.rxSeq } ∧ t.core = s.core ∧ t.mem = s.mem) ∧
      (begun.toNat + 50000 < s.time.toNat → ∃ t, exec (.linkRetrainComplete k) s = .next t ∧ s.wentDown t k)) ∧
    (l.up = false → (lanes = 16 ∨ lanes = 8 ∨ lanes = 4) → s.boot.stage = .running →
      ∃ t, exec (.linkRetrain k lanes) s = .next t ∧ t.core = s.core ∧ t.mem = s.mem ∧
        t.linkAt k = { l with up := true, lanes := lanes, retrain := none, replay := none, part := 0, ctxs := [] })

/-- R272: in every exchange the package sends a time-sync packet on each live link. The first sets its count; after it, a correction
moves the count by at most one tick, and a next one comes 10,000 ticks later at the earliest. That the first only sets the count
forward and a later one adds a tick or holds the count is the model's choice (log 47), as is whom each packet names (log 20). -/
def Says.TimeSync : Prop :=
  ∀ (s : State) (ahead : Bool), ∃ t, exec (.timeSync ahead) s = .next t ∧
    t = { s with ingress := t.ingress, egress := t.egress, nextPacket := t.nextPacket, synced := true, time := t.time,
                 slewed := t.slewed, free := t.free } ∧
    (∀ l ∈ s.links, l.up = true → ∃ e ∈ t.egress, e.body = .timeSync ∧ e.vc = 3 ∧ e.plane = l.num) ∧
    (s.synced = false → (∃ n : Nat, t.time = s.time + BitVec.ofNat 64 (Config.elapsed n)) ∧ t.slewed = t.time) ∧
    (s.synced = true → s.time.toNat < s.slewed.toNat + 10000 → t.time = s.time ∧ t.slewed = s.slewed) ∧
    (s.synced = true → s.slewed.toNat + 10000 ≤ s.time.toNat → t.time = (if ahead then s.time else s.time + 1) ∧
      t.slewed = t.time)

/-- R271, R285, R424: a package that no plane has reached for 1,000,000 ticks (since the last packet from it, log 20) is lost: a launch that it takes part in ends
with status 7, or, when a harvest of it has completed everywhere, waits for its rollback with its harvest abandoned.
A package cut off that long ends its own launches on several packages. -/
def Says.PackageLoss : Prop :=
  (∀ (s : State) (pkg : BitVec 12),
    let s1 : State := { s with lost := s.lost ++ [pkg] }
    pkg ≠ s.pkg → s.lost.contains pkg = false →
    (s.time.toNat < s.lastReached pkg + 1000000 → exec (.packageLost pkg) s = .next s) ∧
    (s.lastReached pkg + 1000000 ≤ s.time.toNat →
      ((∀ l ∈ s.launches, l.state = .running → l.pkgs.contains pkg = false) → exec (.packageLost pkg) s = .next s1) ∧
      (∀ l : Launch, s.launches = [l] → l.state = .running → l.pkgs.contains pkg = true →
        (l.everywhere = 0 → exec (.packageLost pkg) s = .next (s1.endLaunch l 7)) ∧
        (l.everywhere ≠ 0 → exec (.packageLost pkg) s = .next (s1.abandon l))))) ∧
  (∀ (s : State) (t : Word),
    (s.linkless = none → exec .packageCutOff s = .next s) ∧
    (s.linkless = some t → s.time.toNat < t.toNat + 1000000 → exec .packageCutOff s = .next s) ∧
    (s.linkless = some t → t.toNat + 1000000 ≤ s.time.toNat →
      (∀ l : Launch, s.launches = [l] → l.state = .running → (∃ p ∈ l.pkgs, p ≠ s.pkg) →
        exec .packageCutOff s = .next (s.endLaunch l 7)) ∧
      ((∀ l ∈ s.launches, l.state = .running → ∀ p ∈ l.pkgs, p = s.pkg) → exec .packageCutOff s = .next s)))

/-- Links take flits and lose lanes, time is kept, and packages are lost. -/
def Obligations.LinksAndTime : Prop :=
  Says.LinkReceives ∧ Says.LinkLanes ∧ Says.TimeSync ∧ Says.PackageLoss

/-- R304, R307, R308: a doorbell that gives one new entry has it read and judged: the MAC, then the sequence number against
E. A good one is accepted and E grows by one; every other one raises the alarm with its status and is skipped, and a gap
or the last number closes the ring; keying the session afresh opens it and makes E 1. -/
def Says.CommandRing : Prop :=
  ∀ (s : State) (v : BitVec 32) (key : List Byte) (e : Word),
    let p := s.port
    let head := p.chead.toNat % 2 ^ p.csize.toNat
    let b := s.host.bytes (p.cbase.toNat + 128 * head) 128
    let seq := field b 0 8
    let good := (hmac key (b.take 112)).take 16 = (b.drop 112).take 16
    let next := BitVec.ofNat 32 ((head + 1) % 2 ^ p.csize.toNat)
    let read : HostPort := { p with ctail := v, chead := next }
    let alarmed (q : HostPort) (status : BitVec 32) : Prop := exec (.ctailDoorbell v) s =
      .next (({ s with port := { q with alarm := true, msix := q.msix ++ [1] } } : State).post
        { seq := 0, status := status, kind := 6, launch := 0, count := 0, value := BitVec.ofNat 64 seq })
    (∀ k : List Byte, exec (.sessionRekey k) s =
      .next { s with session := some (k, 1), port := { p with opened := true, faulted := false, wrapped := false } }) ∧
    (s.session = some (key, e) → p.en = true → p.opened = true → s.boot.stage = .running →
    1 ≤ p.csize.toNat → p.csize.toNat ≤ 16 → v.toNat % 2 ^ p.csize.toNat = (head + 1) % 2 ^ p.csize.toNat →
    (¬ good → alarmed read 0x10) ∧ (good → seq < e.toNat → alarmed read 0x11) ∧
    (good → e.toNat < seq → alarmed { read with opened := false, faulted := true } 0x12) ∧
    (good → seq = e.toNat → e = -1 → alarmed { read with opened := false, wrapped := true } 0x13) ∧
    (good → seq = e.toNat → e ≠ -1 → exec (.ctailDoorbell v) s =
      .next { s with port := read, session := some (key, e + 1), accepted := s.accepted ++ [parseCommand b] }))

/-- R304, R310, R422: the operation of an entry by its op and payload; a length above 96, a reserved field or an unused
byte that is not zero, or another op makes it an unknown command. That the payload bytes which an op does not use count as reserved is
the model's reading (log 41). -/
def Says.CommandEntries : Prop :=
  ∀ b : List Byte,
    let seq : Word := BitVec.ofNat 64 (field b 0 8)
    let p := (b.drop 16).take 96
    let op := field b 8 2
    let word (o n : Nat) : Nat := field p o n
    (field b 0x0C 4 ≠ 0 ∨ 96 < field b 0x0A 2 ∨ op = 0 ∨ 9 < op → parseCommand b = .unknownCommand seq) ∧
    (field b 0x0C 4 = 0 → field b 0x0A 2 ≤ 96 →
      (op = 1 → zeros p 48 96 = true → parseCommand b =
        .launch seq (BitVec.ofNat 64 (word 0 8)) (BitVec.ofNat 64 (word 8 8)) (digest ((p.drop 16).take 32))) ∧
      (op = 2 → zeros p 4 96 = true → parseCommand b = .endLaunch seq (word 0 4)) ∧
      (op = 3 → zeros p 6 96 = true → parseCommand b = .resumeHart seq (word 0 4) (word 4 2)) ∧
      (op = 4 → zeros p 4 96 = true → parseCommand b = .preEmpt seq (word 0 4)) ∧
      (op = 5 → zeros p 32 96 = true → parseCommand b = .acceptFeatures seq (digest (p.take 32))) ∧
      (op = 6 → zeros p 5 96 = true → parseCommand b = .closeHostFedQueue seq (word 0 4) (word 4 1)) ∧
      (op = 7 → zeros p 4 96 = true → parseCommand b = .setPowerCap seq (word 0 4)) ∧
      (op = 8 → zeros p 72 96 = true → zeros p 5 3 = true →
        parseCommand b = .queueSend seq (word 0 4) (word 4 1) ((p.drop 8).take 64)) ∧
      (op = 9 → zeros p 20 96 = true → zeros p 5 3 = true → parseCommand b =
        .queueTake seq (word 0 4) (word 4 1) (BitVec.ofNat 64 (word 8 8)) (word 16 4)) ∧
      (∀ e ∈ [(1, 48), (2, 4), (3, 6), (4, 4), (5, 32), (6, 5), (7, 4), (8, 72), (9, 20)], op = e.1 →
        zeros p e.2 96 = false → parseCommand b = .unknownCommand seq) ∧
      (op = 8 ∨ op = 9 → zeros p 5 3 = false → parseCommand b = .unknownCommand seq))

/-- R307, R309: a status entry goes to the ring at stail, which moves on, with its interrupt, while the ring has room;
otherwise it is held. Once the host moves shead on, the held entries are written, oldest first, each with its interrupt, until none
is held or the ring is full. -/
def Says.StatusRing : Prop :=
  (∀ (s : State) (e : Status), s.posts = [] →
    let p := s.port
    (p.room = false → s.post e = { s with posts := [e] }) ∧
    (p.room = true → s.post e = { s with
      host := s.host.setMany (place (p.sbase.toNat + 32 * (p.stail.toNat % 2 ^ p.ssize.toNat))
        (toBytes 8 e.seq.toNat ++ toBytes 4 e.status.toNat ++ toBytes 2 e.kind.toNat ++ [0, 0] ++
          toBytes 4 e.launch.toNat ++ toBytes 4 e.count.toNat ++ toBytes 8 e.value.toNat)),
      port := { p with stail := BitVec.ofNat 32 ((p.stail.toNat + 1) % 2 ^ p.ssize.toNat), msix := p.msix ++ [0] } })) ∧
  (∀ (s : State) (v : BitVec 32),
    let n := 2 ^ s.port.ssize.toNat
    let p := { s.port with shead := v }
    let slot (i : Nat) : Nat := p.sbase.toNat + 32 * ((p.stail.toNat + i) % n)
    s.port.ssize.toNat ≤ 16 →
    ∃ t written rest, exec (.sheadDoorbell v) s = .next t ∧ s.posts = written ++ rest ∧ (rest = [] ∨ t.port.room = false) ∧
      t = { s with
        posts := rest,
        port := { p with stail := if written = [] then p.stail else BitVec.ofNat 32 ((p.stail.toNat + written.length) % n),
                         msix := p.msix ++ List.replicate written.length 0 },
        host := written.zipIdx.foldl (fun (m : Mem) e => m.setMany (place (slot e.2) e.1.bytes)) s.host })

/-- R306, R307: the base and size registers take writes while `en` is 0 and ignore them while it is 1; `ctl` sets `en`
only with sizes from 6 to 16 and bases on 4 KiB; a 1 written to the alarm bit clears it; ctail, shead and ctl take a write as their
own operations do; other offsets ignore writes. The host reads a register lowest byte first, and zero at an offset that is not
listed. -/
def Says.HostRegisters : Prop :=
  ∀ (s : State) (v : BitVec 64) (w : BitVec 32) (off : Nat),
    let p := s.port
    let v32 : BitVec 32 := v.extractLsb' 0 32
    let sized := 6 ≤ p.csize.toNat ∧ p.csize.toNat ≤ 16 ∧ 6 ≤ p.ssize.toNat ∧ p.ssize.toNat ≤ 16 ∧
      p.cbase.toNat % 4096 = 0 ∧ p.sbase.toNat % 4096 = 0
    (p.en = false →
      exec (.registerWrite 0x00 v) s = .next { s with port := { p with cbase := v } } ∧
      exec (.registerWrite 0x08 v) s = .next { s with port := { p with csize := v32 } } ∧
      exec (.registerWrite 0x20 v) s = .next { s with port := { p with sbase := v } } ∧
      exec (.registerWrite 0x28 v) s = .next { s with port := { p with ssize := v32 } }) ∧
    (p.en = true → (off = 0 ∨ off = 8 ∨ off = 0x20 ∨ off = 0x28) → exec (.registerWrite off v) s = .next s) ∧
    exec (.registerWrite 0x64 v) s = .next { s with port := { p with alarm := p.alarm && !v.getLsbD 3 } } ∧
    (off ∉ [0, 8, 0x10, 0x20, 0x28, 0x34, 0x60, 0x64] → exec (.registerWrite off v) s = .next s) ∧
    exec (.registerWrite 0x10 v) s = exec (.ctailDoorbell v32) s ∧ exec (.registerWrite 0x34 v) s = exec (.sheadDoorbell v32) s ∧
    exec (.registerWrite 0x60 v) s = exec (.ctlWrite v32) s ∧
    (w.getLsbD 0 = false → exec (.ctlWrite w) s = .next { s with port := { p with en := false } }) ∧
    (w.getLsbD 0 = true → ¬ sized ∨ p.en = true → exec (.ctlWrite w) s = .next s) ∧
    (w.getLsbD 0 = true → sized → p.en = false → s.posts = [] →
      p.chead.toNat % 2 ^ p.csize.toNat = p.ctail.toNat % 2 ^ p.csize.toNat →
      exec (.ctlWrite w) s = .next { s with port := { p with en := true } }) ∧
    (∀ j < 8, p.byteAt j = p.cbase.extractLsb' (8 * j) 8 ∧ p.byteAt (0x20 + j) = p.sbase.extractLsb' (8 * j) 8) ∧
    (∀ j < 32, p.byteAt (0x40 + j) = p.offer.extractLsb' (8 * j) 8) ∧
    (∀ j < 4, p.byteAt (0x08 + j) = p.csize.extractLsb' (8 * j) 8 ∧ p.byteAt (0x10 + j) = p.ctail.extractLsb' (8 * j) 8 ∧
      p.byteAt (0x14 + j) = p.chead.extractLsb' (8 * j) 8 ∧ p.byteAt (0x28 + j) = p.ssize.extractLsb' (8 * j) 8 ∧
      p.byteAt (0x30 + j) = p.stail.extractLsb' (8 * j) 8 ∧ p.byteAt (0x34 + j) = p.shead.extractLsb' (8 * j) 8) ∧
    p.byteAt 0x60 = 0#7 ++ BitVec.ofBool p.en ∧
    p.byteAt 0x64 = 0#4 ++ BitVec.ofBool p.alarm ++ BitVec.ofBool p.wrapped ++ BitVec.ofBool p.faulted ++ BitVec.ofBool p.opened ∧
    (∀ j : Nat, 0x0C ≤ j ∧ j < 0x10 ∨ 0x18 ≤ j ∧ j < 0x20 ∨ 0x2C ≤ j ∧ j < 0x30 ∨ 0x38 ≤ j ∧ j < 0x40 ∨
      0x61 ≤ j ∧ j < 0x64 ∨ 0x65 ≤ j → p.byteAt j = 0)

/-- The rings and registers of the host port. -/
def Obligations.HostPort : Prop :=
  Says.CommandRing ∧ Says.CommandEntries ∧ Says.StatusRing ∧ Says.HostRegisters

/-- R310 to R313, R422: a LAUNCH whose length is out of range or whose descriptor breaks a rule is answered with status 3,
one whose hash differs with 2. The package tells the others that the descriptor names whether it admits it; one that passes
waits for them, and alone, it runs at once, its copies made, with the descriptor's stages, images and queues. That ids ascend from the
last one given is the model's choice (log 41), as is the form of what the packages tell each other (log 60). -/
def Says.LaunchCommand : Prop :=
  ∀ (s : State) (seq addr len : Word) (sha : BitVec 256),
    let d := s.host.bytes addr.toNat len.toNat
    let l := s.launchFrom d seq
    let told (t : State) (admits : Bool) : Prop :=
      t.announced = if ∃ p ∈ l.pkgs, p ≠ s.pkg then s.announced ++ [(l.tag, admits)] else s.announced
    (len.toNat < 256 ∨ 16777216 < len.toNat →
      exec (.launch seq addr len sha) s = .next (s.answer seq 3 0 0)) ∧
    (256 ≤ len.toNat → len.toNat ≤ 16777216 →
      (digest (sha256 d) ≠ sha → exec (.launch seq addr len sha) s = .next (s.answer seq 2 0 0)) ∧
      (digest (sha256 d) = sha → s.judgeLaunch d ≠ 0 → ∃ t : State, told t false ∧
          t = { s with announced := t.announced, heard := s.heard.filter fun h => h.tag != l.tag } ∧
        exec (.launch seq addr len sha) s = .next (t.answer seq (s.judgeLaunch d) 0 0)) ∧
      (digest (sha256 d) = sha → s.judgeLaunch d = 0 → s.heard = [] → (∀ x ∈ s.launches, x.id < s.nextLaunch) →
        ∃ t, exec (.launch seq addr len sha) s = .next t ∧ t.nextLaunch = s.nextLaunch + 1 ∧ told t true ∧
          ((∃ p ∈ l.pkgs, p ≠ s.pkg) → t.launchAt s.nextLaunch =
            some { l with state := .waiting seq s.time } ∧ t.mem = s.mem ∧ t.core = s.core) ∧
          (l.pkgs = [s.pkg] → t.admittedOnce = true ∧ ∃ r, t.launchAt s.nextLaunch = some r ∧ r.copied = [s.pkg] ∧
            r.state = .running ∧ r.stages = l.stages ∧ r.images = l.images ∧ r.queues = l.queues ∧ r.world = l.world)))

/-- R253, R310, R313: once every listed package has admitted a waiting launch this package makes its copies and the launch runs;
one that rejects it, or 1,000,000,000 ticks without the others, rejects it with status 3: at the timeout, or when an admission comes
later, the package rejects it itself. What the packages hear of each other has the model's form (log 60). -/
def Says.Admission : Prop :=
  ∀ (s : State) (pkg : BitVec 12) (l : Launch) (seq first : Word),
    s.launches = [l] → l.state = .waiting seq first → s.heard = [] → pkg ∈ l.pkgs →
    exec (.admissionMessage pkg l.tag false) s = .next (({ s with launches := [] } : State).answer seq 3 0 0) ∧
    (first.toNat + 1000000000 ≤ s.time.toNat → exec (.admissionMessage pkg l.tag true) s =
      .next (({ s.announce l false with launches := [] } : State).answer seq 3 0 0)) ∧
    (s.time.toNat < first.toNat + 1000000000 → (∀ p ∈ l.pkgs, l.admitted.contains p = true ∨ p = pkg) →
      ∃ t, exec (.admissionMessage pkg l.tag true) s = .next t ∧
        ∃ r, t.launchAt l.id = some r ∧ r.state = .running ∧ r.admitted = l.pkgs ∧ r.copied = s.pkg :: l.copied) ∧
    (s.time.toNat < first.toNat + 1000000000 → (∃ p ∈ l.pkgs, l.admitted.contains p = false ∧ p ≠ pkg) →
      ∃ t, exec (.admissionMessage pkg l.tag true) s = .next t ∧ t.launches = s.launches ∧ t.core = s.core ∧
        t.heard = [{ pkg := pkg, tag := l.tag, admits := true, time := s.time }]) ∧
    (first.toNat + 1000000000 ≤ s.time.toNat →
      exec (.admissionTimeout l.tag) s = .next (({ s.announce l false with launches := [] } : State).answer seq 3 0 0)) ∧
    (s.time.toNat < first.toNat + 1000000000 → exec (.admissionTimeout l.tag) s = .next s)

/-- R310, R314: END_LAUNCH stops every hart of a running launch, frees its quads and saves nothing of it; the launch is over
with status 8. A launch that does not run is answered with status 4. It ends on this package only, in the model's reading (log 42). -/
def Says.EndLaunch : Prop :=
  ∀ (s : State) (seq : Word) (launch : Nat),
    (∀ l : Launch, s.launchAt launch = some l → l.state = .running →
      ∃ t r, exec (.endLaunch seq launch) s = .next t ∧ t.launchAt launch = some r ∧ r.state = .done 8 ∧
        t.core.belongs launch = false ∧ (∀ c ∈ t.others, c.belongs launch = false) ∧
        (∀ f ∈ t.flights, f.id.launch ≠ launch) ∧ (∀ v ∈ t.saves, v.flight.launch ≠ launch) ∧
        (∀ p ∈ t.egress ++ t.ingress, p.launch ≠ l.tag.toNat) ∧ (∀ r ∈ t.records, r.launch ≠ launch) ∧ t.mem = s.mem ∧
        (s.core.belongs launch = false → t.core = s.core)) ∧
    (s.runningLaunch launch = none → exec (.endLaunch seq launch) s = .next (s.answer seq 4 0 0))

/-- R310, R215, R228, R230, R315, R319, R422: what the other commands do, and the status they answer with; a parked
hart resumes from the save that its trap made. -/
def Says.HostCommands : Prop :=
  ∀ (s : State) (seq addr : Word) (launch core queue n most : Nat) (bits : BitVec 256) (entry : List Byte),
    let c := s.coreAt core
    let parked := s.saves.find? fun v => v.core.hartId == c.hartId && v.core.run == .parked
    exec (.unknownCommand seq) s = .next (s.answer seq 1 0 0) ∧
    (s.admittedOnce = false → bits &&& ~~~s.port.offer = 0 →
      exec (.acceptFeatures seq bits) s = .next (({ s with feats := bits } : State).answer seq 0 0 0)) ∧
    (s.admittedOnce = true ∨ bits &&& ~~~s.port.offer ≠ 0 →
      exec (.acceptFeatures seq bits) s = .next (s.answer seq 6 0 0)) ∧
    (1200 ≤ n → n ≤ 2600 → exec (.setPowerCap seq n) s = .next (({ s with powerCap := n } : State).answer seq 0 0 0)) ∧
    (n < 1200 ∨ 2600 < n → exec (.setPowerCap seq n) s = .next (s.answer seq 6 0 0)) ∧
    (1023 < core → exec (.resumeHart seq launch core) s = .next (s.answer seq 1 0 0)) ∧
    (s.runningLaunch launch = none →
      exec (.preEmpt seq launch) s = .next (s.answer seq 4 0 0) ∧
      (core ≤ 1023 → exec (.resumeHart seq launch core) s = .next (s.answer seq 4 0 0)) ∧
      exec (.closeHostFedQueue seq launch queue) s = .next (s.answer seq 4 0 0) ∧
      exec (.queueSend seq launch queue entry) s = .next (s.answer seq 4 0 0)) ∧
    (∀ l : Launch, s.runningLaunch launch = some l →
      exec (.preEmpt seq launch) s = .next ((s.preempt launch (s.onQuads launch)).answer seq 0 launch 0) ∧
      (∀ v : Save, core ≤ 1023 → c.belongs launch = true → c.run = .parked → v.core.num = core → parked = some v →
        ∃ t : State, exec (.resumeHart seq launch core) s = .next (t.answer seq 0 launch 0) ∧ v ∉ t.saves ∧
          (t.coreAt core).run = .running ∧ (t.coreAt core).m = v.core.m ∧
          (v.core.notice = false → (t.coreAt core).pc = v.core.pc ∧ (t.coreAt core).ctl.intrap = v.core.ctl.intrap) ∧ (t.coreAt core).ctl.epoch = v.core.ctl.epoch + 1 ∧
          ∀ r : XName, (v.core.readXOf false r).tag ≠ 0x100 → (t.coreAt core).readXOf false r = v.core.readXOf false r) ∧
      (core ≤ 1023 → (c.belongs launch = false ∨ c.run ≠ .parked ∨ parked = none) →
        exec (.resumeHart seq launch core) s = .next (s.answer seq 4 launch 0)) ∧
      (∀ q : Queue, l.queues[queue]? = some q →
        let put (r : Queue) : State := s.setLaunch { l with queues := l.queues.set queue r }
        (q.sender = none → exec (.closeHostFedQueue seq launch queue) s =
          .next ((put { q with closed := true }).answer seq 0 launch 0)) ∧
        (q.sender = none → q.closed = false → entry.length = 64 →
          (q.full = false → exec (.queueSend seq launch queue entry) s =
            .next ((put (q.put { data := entry, clock := 0 })).answer seq 0 launch 0)) ∧
          (q.full = true → exec (.queueSend seq launch queue entry) s = .next (s.answer seq 5 launch 0))) ∧
        (q.receiver = none → 1 ≤ most → most ≤ 65536 → addr.toNat % 64 = 0 →
          exec (.queueTake seq launch queue addr most) s =
            .next (({ put { q with entries := q.entries.drop most } with
              host := s.host.setMany (place addr.toNat ((q.entries.take most).flatMap fun e => e.data)) } : State).answer
                seq 0 launch (min most q.entries.length))))) ∧
    (most = 0 ∨ 65536 < most ∨ addr.toNat % 64 ≠ 0 →
      exec (.queueTake seq launch queue addr most) s = .next (s.answer seq 1 0 0))

/-- R304, R306, R307: where the host's writes complete: in every state a doorbell moves its index, ctl enables or stops the rings,
a register takes its value while the rings stand, a new session opens the ring. Memory and the cores stay. -/
def Says.HostPortCompletes : Prop :=
  ∀ (s : State) (v : BitVec 32) (w : BitVec 64) (off : Nat) (key : List Byte),
    let p := s.port
    let sized := 6 ≤ p.csize.toNat ∧ p.csize.toNat ≤ 16 ∧ 6 ≤ p.ssize.toNat ∧ p.ssize.toNat ≤ 16 ∧
      p.cbase.toNat % 4096 = 0 ∧ p.sbase.toNat % 4096 = 0
    let gives (i : Instr) (f : HostPort → Prop) : Prop :=
      ∃ t, exec i s = .next t ∧ f t.port ∧ t.mem = s.mem ∧ t.core = s.core ∧ t.others = s.others
    gives (.ctailDoorbell v) (fun q => q.ctail = v) ∧ gives (.sheadDoorbell v) (fun q => q.shead = v) ∧
    gives (.ctlWrite v) (fun q => q.en = true ↔ v.getLsbD 0 = true ∧ (p.en = true ∨ sized)) ∧
    gives (.registerWrite 0x10 w) (fun q => q.ctail = w.extractLsb' 0 32) ∧
    gives (.registerWrite 0x34 w) (fun q => q.shead = w.extractLsb' 0 32) ∧
    gives (.registerWrite 0x60 w) (fun q => q.en = true ↔ w.getLsbD 0 = true ∧ (p.en = true ∨ sized)) ∧
    (off ∉ [0x10, 0x34, 0x60] → gives (.registerWrite off w) fun q => q.cbase = (if off = 0 ∧ p.en = false then w else p.cbase) ∧
      q.sbase = (if off = 0x20 ∧ p.en = false then w else p.sbase) ∧
      q.alarm = (p.alarm && !(off == 0x64 && w.getLsbD 3))) ∧
    gives (.sessionRekey key) (fun q => q.opened = true ∧ q.faulted = false ∧ q.wrapped = false)

/-- LAUNCH, its admission, the other commands of the host, and where its writes complete. -/
def Obligations.LaunchesAndCommands : Prop :=
  Says.LaunchCommand ∧ Says.Admission ∧ Says.EndLaunch ∧ Says.HostCommands ∧ Says.HostPortCompletes

/-- R316, R317: package reset leaves the state of reset but for the package number, its fuses and the host's memory. When one
of the first four tries passes its checks, firmware runs with the measurement of that image, the device key is certified, the
feature set is offered and the links are trained; after four that fail the package stays in recovery, before the fourth it is held. A
report carries the measurement, the offer, the fused version, the nonce, and a signature that verifies under the device key. The offer
0xF and links trained at 16 lanes are the model's choice (log 21), as is that a package stays held before the fourth try (log 59) and
how the report's bytes are signed (log 13). -/
def Says.BootAndAttestation : Prop :=
  ∀ (s : State) (tries : List (Option BootImage)) (nonce : BitVec 256),
    let r : State := { State.reset with pkg := s.pkg, host := s.host, free := s.free }
    let passes (i : BootImage) : Prop := imageVerified i s.boot.root = true ∧ s.boot.fused ≤ i.version
    (∀ (l m : List (Option BootImage)) (i : BootImage), tries = l ++ some i :: m → l.length < 4 → passes i →
      (∀ j ∈ l.filterMap id, ¬ passes j) → exec (.packageReset tries) s = .next { r with
        boot := { s.boot with stage := .running,
                              measure := digest (sha256 (List.replicate 32 0 ++ sha256 i.bytes)),
                              certified := some deviceKey },
        port := { r.port with offer := 0xF }, links := (List.range 16).map Link.reset }) ∧
    ((∀ i ∈ (tries.take 4).filterMap id, ¬ passes i) →
      exec (.packageReset tries) s = .next { r with
        boot := { s.boot with stage := if tries.length < 4 then .held else .recovery, measure := 0, certified := none } }) ∧
    (s.boot.stage = .running → ∃ g, exec (.attestationReport nonce) s = .next { s with
        free := s.free + 1
        reports := s.reports ++
          [{ measure := s.boot.measure, offer := s.port.offer, version := s.boot.fused, nonce := nonce, signature := g }] } ∧
      hssVerifies g deviceKey (toBytes 32 s.boot.measure.toNat ++ toBytes 32 s.port.offer.toNat ++ toBytes 8 s.boot.fused ++
        toBytes 32 nonce.toNat) = true) ∧
    (s.boot.stage ≠ .running → exec (.attestationReport nonce) s = .next s ∧ exec .configurationRequest s =
      .next { s with port := { s.port with retries := s.port.retries + 1 } }) ∧
    (s.boot.stage = .running → exec .configurationRequest s = .next s)

/-- R318, R320, R314: an island takes the clock that firmware sets, in steps of 100 MHz from 800 to 2,400; throttled it runs at
800 until it recovers, then at the clock set last. Its count of cycles goes on from where it stands, and cr.time is
unaffected. A thermal stop ends every running launch, drops what waits to run, stops every hart, and holds the package in reset with dead links. -/
def Says.ClocksAndTemperature : Prop :=
  ∀ (s : State) (k mhz : Nat),
    let i := s.islandAt k
    let put (j : Island) : Res := .next (s.setIsland j)
    let at_ (f : Nat) : Island := { i with mhz := f, baseTick := s.time, baseCycle := s.cycle (k / 32 * 256 + k % 32 * 8) }
    (k < 128 → 800 ≤ mhz → mhz ≤ 2400 → mhz % 100 = 0 →
      (i.throttled = false → exec (.islandClockChange k mhz) s = put { at_ mhz with setMhz := mhz }) ∧
      (i.throttled = true → exec (.islandClockChange k mhz) s = put { i with setMhz := mhz })) ∧
    (k < 128 → exec (.thermalThrottle k) s = put { at_ 800 with throttled := true }) ∧
    (k < 128 → i.throttled = true → exec (.thermalRecover k) s = put { at_ i.setMhz with throttled := false }) ∧
    (∃ t, exec .thermalStop s = .next t ∧ t.boot.stage = .stopped ∧ t.core.run = .idle ∧ (∀ c ∈ t.others, c.run = .idle) ∧
      (∀ l ∈ t.links, l.up = false) ∧ t.accepted = [] ∧ t.mem = s.mem ∧ t.time = s.time ∧
      ∀ l : Launch, s.launches = [l] → (l.state = .running → ∃ r, t.launches = [r] ∧ r.state = .done 0xFFFF0001) ∧
        ∀ a b : Word, l.state = .waiting a b → t.launches = [])

/-- R61: a soft error marks one granule of a store of one core: poisoned when it cannot be corrected, which it stays;
nothing else changes. -/
def Says.SoftError : Prop :=
  ∀ (s : State) (n g : Nat) (store : StoreKind) (bad : Bool),
    let c := s.coreAt n
    n < 1024 → g < granulesOf store →
    ∃ t, exec (.softError n store g bad) s = .next t ∧ t = { s with core := t.core, others := t.others } ∧
      s.onlyCore t n (fun a b => b = { a with ecc := b.ecc }) ∧
      ∀ e : EccError, e ∈ (t.coreAt n).ecc ↔
        if e.store = store ∧ e.granule = g then
          e.poisoned = (bad || c.ecc.any fun x => x.store == store && x.granule == g && x.poisoned)
        else e ∈ c.ecc

/-- Boot, attestation, island clocks, temperature and soft errors. -/
def Obligations.BootClocksSoftErrors : Prop :=
  Says.BootAndAttestation ∧ Says.ClocksAndTemperature ∧ Says.SoftError

/-- R64 to R71, R294, R299, R316, R319: what reset leaves where the spec gives a value: the control registers of every core, no feature
accepted, nothing launched, the power cap, no hart running. That all key slots are live is the model's choice (log 3), and that memory
and the register stores of every hart are in canonical form is the model's own form (log 2). -/
def Obligations.ResetState : Prop :=
  let s := State.reset
  (∀ n : Nat,
    let c := (s.coreAt n).ctl
    (s.coreAt n).run = .idle ∧ c.pcnt = 0 ∧ c.intrap = false ∧ c.cecc = false ∧ c.rm = 0 ∧ c.flags = 0 ∧
    c.fx = List.replicate 6 (-1) ∧ c.vl = 0 ∧ c.span = .s1 ∧ c.ew = .e8 ∧ c.estart = 0 ∧ c.rot = 0 ∧ c.gates = 1 ∧
    c.epoch = 0 ∧ c.resid = 0x40000 ∧ c.bank = 0 ∧ c.world = 0 ∧ c.integ = 0 ∧ c.integPc = 0 ∧ c.tsub = 0 ∧ c.tcause = 0 ∧
    c.tpc = 0 ∧ c.tel = 0 ∧ c.tval = 0 ∧ c.thandler = 0 ∧ c.fwshare = 4 ∧ c.qbackoff = 0x0100 ∧ c.jointime = 0x01000000 ∧
    c.rb = false ∧ c.rbFrom = 0 ∧ c.wbind = 0) ∧
  s.time = 0 ∧ s.services.length = 8 ∧ s.feats = 0 ∧ s.live = -1 ∧ s.launches = [] ∧ s.powerCap = 2600 ∧ s.boot.stage = .held ∧
  s.MemOk ∧ s.StoresOk

/-- R157, R151, R299: the check of an access by a user hart through register x: the first failing test decides the fault, and
tval holds the address, as a pod address through a remote slot; an access that passes lands at its address, in the
slot's package when the slot is remote. -/
def Obligations.AccessCheck : Prop :=
  ∀ (s : State) (x : XReg) (off : Int) (size align : Nat) (kind : AccKind),
    let e := s.core.slot x.slot
    let ea : Int := x.val.toNat + off
    let v : Word := if e.rem then (e.pkg.setWidth 64 <<< 48) ||| (BitVec.ofInt 48 ea).setWidth 64 else BitVec.ofInt 64 ea
    let t1 := x.tagged = false
    let t2 := e.v = false
    let t3 := e.world ≠ s.core.ctl.world ∨ (x.slot ≠ 0 ∧ e.rem = false ∧ s.live.getLsbD e.key.toNat = false)
    let t4 := (kind.localOnly = true ∧ e.rem = true) ∨ (kind.remoteOnly = true ∧ e.rem = false)
    let t5 := kind.reads = true ∧ e.r = false
    let t6 := kind.writes = true ∧ e.w = false
    let t7 := kind.isAtomic = true ∧ e.at_ = false
    let t8 := kind = .tileLoad ∧ x.slot ≠ 0
    let t9 := ea < e.base.toNat ∨ e.base.toNat + e.limit.toNat < ea + size
    let t10 := ea.toNat % align ≠ 0
    let fault (cause sub : BitVec 8) (w : Word) : Prop :=
      s.check x off size align kind = .error { cause := cause, sub := sub, val := w }
    s.core.fw = false →
    (t1 → fault 0x03 0x01 (BitVec.ofInt 64 ea)) ∧ (¬ t1 → t2 → fault 0x04 0x02 v) ∧ (¬ t1 → ¬ t2 → t3 → fault 0x0B 0x01 v) ∧
    (¬ (t1 ∨ t2 ∨ t3) → t4 → fault 0x05 0x04 v) ∧ (¬ (t1 ∨ t2 ∨ t3 ∨ t4) → t5 → fault 0x05 0x01 v) ∧
    (¬ (t1 ∨ t2 ∨ t3 ∨ t4 ∨ t5) → t6 → fault 0x05 0x02 v) ∧
    (¬ (t1 ∨ t2 ∨ t3 ∨ t4 ∨ t5 ∨ t6) → t7 → fault 0x05 0x03 v) ∧
    (¬ (t1 ∨ t2 ∨ t3 ∨ t4 ∨ t5 ∨ t6 ∨ t7) → t8 → fault 0x05 0x05 v) ∧
    (¬ (t1 ∨ t2 ∨ t3 ∨ t4 ∨ t5 ∨ t6 ∨ t7 ∨ t8) → t9 → fault 0x04 0x01 v) ∧
    (¬ (t1 ∨ t2 ∨ t3 ∨ t4 ∨ t5 ∨ t6 ∨ t7 ∨ t8 ∨ t9) → t10 → fault 0x06 0x01 v) ∧
    (¬ (t1 ∨ t2 ∨ t3 ∨ t4 ∨ t5 ∨ t6 ∨ t7 ∨ t8 ∨ t9 ∨ t10) → s.check x off size align kind =
      .ok { pkg := if e.rem then some e.pkg else none, addr := ea.toNat % 2 ^ 48 })

/-- R53, and the model's own form of memory (log 2): package and host memory and the register stores of every hart are kept
in canonical form, and no vector length exceeds VLMAX, whatever a step does. -/
def Obligations.CanonicalFormKept : Prop :=
  ∀ s t : State, s.MemOk → s.StoresOk → step s = .next t → t.MemOk ∧ t.StoresOk
end

