-- ==== Sys2Proof/Laws/Memory.lean ====
section
/-! SUPPORT. Laws of sparse stores: reading after writing, and that every operation keeps the canonical form (log 2). -/

namespace Sys2Proof.Machine

/-! The canonical form. -/

theorem Mem.wfAbove_mono {m : Mem} {a b : Nat} (h : m.wfAbove b = true) (l : a ≤ b) : m.wfAbove a = true := by
  cases m with
  | nil => rfl
  | cons c m =>
    simp only [Mem.wfAbove, Bool.and_eq_true, decide_eq_true_eq] at h ⊢
    exact ⟨⟨le_trans l h.1.1, h.1.2⟩, h.2⟩

/-- Below every listed address a store reads zero. -/
theorem Mem.get_of_lt {m : Mem} {a k : Nat} (h : m.wfAbove a = true) (l : k < a) : m.get k = 0 := by
  cases m with
  | nil => rfl
  | cons c m =>
    simp only [Mem.wfAbove, Bool.and_eq_true, decide_eq_true_eq] at h
    simp [Mem.get, show k < c.1 by omega]

theorem Mem.wfAbove_set {m : Mem} {a k : Nat} (v : Byte) (h : m.wfAbove a = true) (l : a ≤ k) :
    (m.set k v).wfAbove a = true := by
  induction m generalizing a with
  | nil => by_cases hv : v = 0#8 <;> simp [Mem.set, Mem.wfAbove, hv, l]
  | cons c m ih =>
    obtain ⟨b, w⟩ := c
    simp only [Mem.wfAbove, Bool.and_eq_true, decide_eq_true_eq, bne_iff_ne] at h
    obtain ⟨⟨hab, hw⟩, hm⟩ := h
    by_cases h1 : k < b
    · by_cases hv : v = 0
      · simp only [Mem.set, h1, if_true, hv, Mem.wfAbove, Bool.and_eq_true, decide_eq_true_eq, bne_iff_ne]
        exact ⟨⟨hab, hw⟩, hm⟩
      · simp only [Mem.set, h1, if_true, hv, if_false, Mem.wfAbove, Bool.and_eq_true, decide_eq_true_eq, bne_iff_ne]
        exact ⟨⟨l, hv⟩, ⟨h1, hw⟩, hm⟩
    · by_cases h2 : k = b
      · subst h2
        by_cases hv : v = 0
        · simp only [Mem.set, hv, if_true, if_neg (Nat.lt_irrefl k)]
          exact Mem.wfAbove_mono hm (by omega)
        · simp only [Mem.set, if_neg (Nat.lt_irrefl k), if_true, hv, if_false, Mem.wfAbove, Bool.and_eq_true,
            decide_eq_true_eq, bne_iff_ne]
          exact ⟨⟨l, hv⟩, hm⟩
      · simp only [Mem.set, if_neg h1, if_neg h2, Mem.wfAbove, Bool.and_eq_true, decide_eq_true_eq, bne_iff_ne]
        exact ⟨⟨hab, hw⟩, ih hm (by omega)⟩

theorem Mem.wf_nil : Mem.wf [] = true := rfl

theorem Mem.wf_set {m : Mem} (k : Nat) (v : Byte) (h : m.wf = true) : (m.set k v).wf = true :=
  Mem.wfAbove_set v h (Nat.zero_le k)

theorem Mem.wf_setMany {m : Mem} (ws : List (Nat × Byte)) (h : m.wf = true) : (m.setMany ws).wf = true := by
  induction ws generalizing m with
  | nil => exact h
  | cons w ws ih => exact ih (Mem.wf_set w.1 w.2 h)

theorem Mem.setMany_append (m : Mem) (a b : List (Nat × Byte)) : m.setMany (a ++ b) = (m.setMany a).setMany b := by
  induction a generalizing m with
  | nil => rfl
  | cons w a ih => exact ih (m.set w.1 w.2)

theorem Mem.wfAbove_filter {m : Mem} {a : Nat} (p : Host.Cell → Bool) (h : m.wfAbove a = true) :
    Mem.wfAbove (m.filter p) a = true := by
  induction m generalizing a with
  | nil => rfl
  | cons c m ih =>
    simp only [Mem.wfAbove, Bool.and_eq_true, decide_eq_true_eq] at h
    simp only [List.filter_cons]
    split
    · simp only [Mem.wfAbove, Bool.and_eq_true, decide_eq_true_eq]
      exact ⟨h.1, ih h.2⟩
    · exact Mem.wfAbove_mono (ih h.2) (by omega)

theorem Mem.wf_clear {m : Mem} (k n : Nat) (h : m.wf = true) : (m.clear k n).wf = true := Mem.wfAbove_filter _ h

theorem Mem.wf_paste {m : Mem} (k n : Nat) (src : Mem) (h : m.wf = true) : (m.paste k n src).wf = true :=
  Mem.wf_setMany src (Mem.wf_clear k n h)

theorem Mem.wfAbove_slice {m : Mem} {a : Nat} (k n j b : Nat) (h : m.wfAbove a = true) (l : ∀ x, a ≤ x → k ≤ x → b ≤ x - k + j) :
    (m.slice k n j).wfAbove b = true := by
  induction m generalizing a b with
  | nil => rfl
  | cons c m ih =>
    simp only [Mem.wfAbove, Bool.and_eq_true, decide_eq_true_eq] at h
    unfold Mem.slice at ih ⊢
    simp only [List.filter_cons]
    by_cases hc : (decide (k ≤ c.1) && decide (c.1 < k + n)) = true
    · simp only [hc, if_true, List.map_cons, Mem.wfAbove, Bool.and_eq_true, decide_eq_true_eq]
      simp only [Bool.and_eq_true, decide_eq_true_eq] at hc
      exact ⟨⟨l c.1 h.1.1 hc.1, h.1.2⟩, ih _ h.2 (fun x hx hk => by omega)⟩
    · simp only [hc]
      exact ih _ h.2 (fun x hx hk => l x (by omega) hk)

theorem Mem.wf_slice {m : Mem} (k n j : Nat) (h : m.wf = true) : (m.slice k n j).wf = true :=
  Mem.wfAbove_slice k n j 0 h fun _ _ _ => Nat.zero_le _

/-! Reading after writing. -/

theorem Mem.get_set_of_wfAbove {m : Mem} {a : Nat} (k j : Nat) (v : Byte) (h : m.wfAbove a = true) :
    (m.set k v).get j = if j = k then v else m.get j := by
  induction m generalizing a with
  | nil =>
    by_cases hv : v = 0#8
    · simp [Mem.set, Mem.get, hv]
    · simp [Mem.set, Mem.get, hv]
      intro h1 h2; omega
  | cons c m ih =>
    obtain ⟨b, w⟩ := c
    simp only [Mem.wfAbove, Bool.and_eq_true, decide_eq_true_eq, bne_iff_ne] at h
    obtain ⟨⟨-, hw⟩, hm⟩ := h
    by_cases h1 : k < b
    · by_cases hv : v = 0
      · simp only [Mem.set, h1, if_true, hv]
        split
        · rename_i e; simp [Mem.get, e, h1]
        · rfl
      · simp only [Mem.set, h1, if_true, hv, if_false, Mem.get]
        by_cases hj : j = k
        · simp [hj]
        · by_cases hl : j < k
          · rw [if_pos hl, if_neg hj, if_pos (by omega)]
          · simp [hl, hj]
    · by_cases h2 : k = b
      · subst h2
        by_cases hv : v = 0
        · simp only [Mem.set, if_neg (Nat.lt_irrefl k), if_true, hv, Mem.get]
          by_cases hj : j = k
          · simp [hj, Mem.get_of_lt hm (Nat.lt_succ_self k)]
          · by_cases hl : j < k
            · simp [hl, hj, Mem.get_of_lt hm (show j < k + 1 by omega)]
            · simp [hl, hj]
        · simp only [Mem.set, if_neg (Nat.lt_irrefl k), if_true, hv, if_false, Mem.get]
          by_cases hj : j = k
          · simp [hj]
          · simp [hj]
      · simp only [Mem.set, if_neg h1, if_neg h2, Mem.get, ih hm]
        by_cases hj : j = k
        · subst hj; simp [h1, h2]
        · simp [hj]

/-- A read after a write gives the value written at its own place, and every other place is left alone. -/
theorem Mem.get_set {m : Mem} (k j : Nat) (v : Byte) (h : m.wf = true) :
    (m.set k v).get j = if j = k then v else m.get j := Mem.get_set_of_wfAbove k j v h

theorem Mem.get_setMany {m : Mem} (ws : List (Nat × Byte)) (j : Nat) (h : m.wf = true) :
    (m.setMany ws).get j = ws.foldl (fun v e => if j = e.1 then e.2 else v) (m.get j) := by
  induction ws generalizing m with
  | nil => rfl
  | cons w ws ih => rw [Mem.setMany, ih (Mem.wf_set w.1 w.2 h), Mem.get_set w.1 j w.2 h]; rfl

theorem Mem.get_setMany_of_not_mem {m : Mem} {ws : List (Nat × Byte)} {j : Nat} (h : m.wf = true)
    (n : ∀ e ∈ ws, e.1 ≠ j) : (m.setMany ws).get j = m.get j := by
  rw [Mem.get_setMany ws j h]
  induction ws with
  | nil => rfl
  | cons w ws ih =>
    rw [List.foldl_cons, if_neg fun e => n w (by simp) e.symm]
    exact ih fun e he => n e (by simp [he])

/-- A stored run of bytes is read back, and every other byte is as before. -/
theorem Mem.get_setMany_place {m : Mem} (k : Nat) (bs : List Byte) (j : Nat) (h : m.wf = true) :
    (m.setMany (place k bs)).get j = if k ≤ j ∧ j < k + bs.length then bs.getD (j - k) 0 else m.get j := by
  induction bs generalizing m k with
  | nil => simp only [place, Mem.setMany, List.length_nil]; rw [if_neg (by omega)]
  | cons b bs ih =>
    rw [place, Mem.setMany, ih (k + 1) (Mem.wf_set k b h), Mem.get_set k j b h, List.length_cons]
    by_cases h1 : k + 1 ≤ j ∧ j < k + 1 + bs.length
    · rw [if_pos h1, if_pos (by omega), show j - k = (j - (k + 1)) + 1 by omega]; rfl
    · rw [if_neg h1]
      by_cases h2 : j = k
      · subst h2; simp
      · rw [if_neg h2, if_neg (by omega)]

theorem Mem.get_clear_of_wfAbove {m : Mem} {a : Nat} (k n j : Nat) (h : m.wfAbove a = true) :
    (m.clear k n).get j = if k ≤ j ∧ j < k + n then 0 else m.get j := by
  induction m generalizing a with
  | nil => simp [Mem.clear, Mem.get]
  | cons c m ih =>
    obtain ⟨b, w⟩ := c
    simp only [Mem.wfAbove, Bool.and_eq_true, decide_eq_true_eq] at h
    have ih := ih h.2
    unfold Mem.clear at ih ⊢
    simp only [List.filter_cons]
    by_cases hc : (decide (b < k) || decide (k + n ≤ b)) = true
    · simp only [hc, if_true, Mem.get, ih]
      simp only [Bool.or_eq_true, decide_eq_true_eq] at hc
      by_cases h1 : j < b
      · simp [h1]
      · by_cases h2 : j = b
        · subst h2; simp [show ¬ (k ≤ j ∧ j < k + n) by omega]
        · simp [h1, h2]
    · simp only [hc, Mem.get]
      simp only [Bool.or_eq_true, decide_eq_true_eq] at hc
      rw [if_neg (by simp), ih]
      by_cases h1 : k ≤ j ∧ j < k + n
      · simp [h1]
      · rw [if_neg h1, if_neg h1]
        by_cases h2 : j < b
        · rw [if_pos h2]; exact Mem.get_of_lt h.2 (by omega)
        · rw [if_neg h2, if_neg (by omega)]

theorem Mem.get_clear {m : Mem} (k n j : Nat) (h : m.wf = true) :
    (m.clear k n).get j = if k ≤ j ∧ j < k + n then 0 else m.get j := Mem.get_clear_of_wfAbove k n j h

theorem Mem.get_slice_of_wfAbove {m : Mem} {a : Nat} (k n i : Nat) (h : m.wfAbove a = true) :
    (m.slice k n 0).get i = if i < n then m.get (k + i) else 0 := by
  induction m generalizing a with
  | nil => simp [Mem.slice, Mem.get]
  | cons c m ih =>
    obtain ⟨b, w⟩ := c
    simp only [Mem.wfAbove, Bool.and_eq_true, decide_eq_true_eq] at h
    have ih := ih h.2
    unfold Mem.slice at ih ⊢
    simp only [List.filter_cons]
    by_cases hc : (decide (k ≤ b) && decide (b < k + n)) = true
    · simp only [hc, if_true, List.map_cons, Mem.get, ih]
      simp only [Bool.and_eq_true, decide_eq_true_eq] at hc
      by_cases h1 : i < b - k + 0
      · rw [if_pos h1, if_pos (by omega), if_pos (by omega)]
      · by_cases h2 : i = b - k + 0
        · rw [if_neg h1, if_pos h2, if_pos (by omega), if_neg (by omega), if_pos (by omega)]
        · rw [if_neg h1, if_neg h2]
          by_cases h3 : i < n
          · rw [if_pos h3, if_pos h3, if_neg (by omega), if_neg (by omega)]
          · rw [if_neg h3, if_neg h3]
    · simp only [hc, Mem.get]
      simp only [Bool.and_eq_true, decide_eq_true_eq] at hc
      rw [if_neg (by simp), ih]
      by_cases h3 : i < n
      · rw [if_pos h3, if_pos h3]
        by_cases h1 : k + i < b
        · rw [if_pos h1]; exact Mem.get_of_lt h.2 (by omega)
        · rw [if_neg h1, if_neg (by omega)]
      · rw [if_neg h3, if_neg h3]

/-- Byte i of a copied extent or region. -/
theorem Mem.get_slice {m : Mem} (k n i : Nat) (h : m.wf = true) :
    (m.slice k n 0).get i = if i < n then m.get (k + i) else 0 := Mem.get_slice_of_wfAbove k n i h

theorem Mem.eq_of_get {m p : Mem} {a b : Nat} (hm : m.wfAbove a = true) (hp : p.wfAbove b = true)
    (h : ∀ k, m.get k = p.get k) : m = p := by
  induction m generalizing a b p with
  | nil =>
    cases p with
    | nil => rfl
    | cons c p =>
      simp only [Mem.wfAbove, Bool.and_eq_true, bne_iff_ne] at hp
      have := h c.1
      simp [Mem.get] at this
      exact absurd this.symm hp.1.2
  | cons c m ih =>
    obtain ⟨x, v⟩ := c
    simp only [Mem.wfAbove, Bool.and_eq_true, decide_eq_true_eq, bne_iff_ne] at hm
    cases p with
    | nil =>
      have := h x
      simp [Mem.get] at this
      exact absurd this hm.1.2
    | cons d p =>
      obtain ⟨y, w⟩ := d
      simp only [Mem.wfAbove, Bool.and_eq_true, decide_eq_true_eq, bne_iff_ne] at hp
      have hxy : x = y := by
        rcases Nat.lt_trichotomy x y with l | l | l
        · have := h x; simp [Mem.get, l] at this; exact absurd this hm.1.2
        · exact l
        · have := h y; simp [Mem.get, l] at this; exact absurd this.symm hp.1.2
      subst hxy
      have hv : v = w := by have := h x; simpa [Mem.get] using this
      subst hv
      congr 1
      refine ih hm.2 hp.2 fun k => ?_
      by_cases hk : k < x + 1
      · rw [Mem.get_of_lt hm.2 hk, Mem.get_of_lt hp.2 hk]
      · have := h k
        simpa [Mem.get, show ¬ k < x by omega, show k ≠ x by omega] using this

/-- Equal memories are equal data. -/
theorem Mem.ext_of_wf {m p : Mem} (hm : m.wf = true) (hp : p.wf = true) (h : ∀ k, m.get k = p.get k) : m = p :=
  Mem.eq_of_get hm hp h

/-- An address that is not listed reads zero. -/
theorem Mem.get_of_not_listed {m : Mem} {k : Nat} (h : ∀ c ∈ m, c.1 ≠ k) : m.get k = 0 := by
  induction m with
  | nil => rfl
  | cons c m ih =>
    simp only [Mem.get, if_neg fun e => h c (by simp) (Eq.symm e), ih fun d hd => h d (by simp [hd]), ite_self]

/-! Numbers as bytes (R2). -/

@[simp] theorem length_toBytes (n w : Nat) : (toBytes n w).length = n := by
  induction n generalizing w with
  | zero => rfl
  | succ n ih => simp [toBytes, ih]

theorem getD_toBytes (n w i : Nat) (h : i < n) : (toBytes n w).getD i 0 = BitVec.ofNat 8 (w / 256 ^ i) := by
  induction n generalizing w i with
  | zero => omega
  | succ n ih =>
    cases i with
    | zero => simp [toBytes]
    | succ i =>
      rw [toBytes, List.getD_cons_succ, ih _ _ (by omega), Nat.div_div_eq_div_mul, Nat.pow_succ, Nat.mul_comm]

theorem ofBytes_toBytes (n w : Nat) : ofBytes (toBytes n w) = w % 256 ^ n := by
  induction n generalizing w with
  | zero => simp [toBytes, ofBytes, Nat.mod_one]
  | succ n ih =>
    rw [toBytes, ofBytes, ih, BitVec.toNat_ofNat, pow_succ' 256 n, Nat.mod_mul]

theorem ofBytes_lt (l : List Byte) : ofBytes l < 256 ^ l.length := by
  induction l with
  | nil => simp [ofBytes]
  | cons b l ih =>
    have := b.isLt
    rw [ofBytes, List.length_cons, Nat.pow_succ]
    omega

@[simp] theorem Mem.length_bytes (m : Mem) (k n : Nat) : (m.bytes k n).length = n := by simp [Mem.bytes]

theorem Mem.read_lt (m : Mem) (k n : Nat) : m.read k n < 256 ^ n := by
  have := ofBytes_lt (m.bytes k n)
  rwa [Mem.length_bytes] at this

/-- A range in which nothing is listed reads zero. -/
theorem Mem.read_of_not_listed {m : Mem} {k n : Nat} (h : ∀ c ∈ m, c.1 < k ∨ k + n ≤ c.1) : m.read k n = 0 := by
  have e : m.bytes k n = List.replicate n 0 := by
    apply List.ext_getElem (by simp)
    intro i h1 h2
    simp only [Mem.length_bytes] at h1
    simp only [Mem.bytes, List.getElem_map, List.getElem_range, List.getElem_replicate]
    exact Mem.get_of_not_listed fun c hc e => by have := h c hc; omega
  rw [Mem.read, e]
  clear e h
  induction n with
  | zero => rfl
  | succ n ih => rw [List.replicate_succ, ofBytes, ih]; rfl

/-- Part of a run of bytes. -/
theorem Mem.bytes_drop_take (m : Mem) (a n o k : Nat) (h : o + k ≤ n) : ((m.bytes a n).drop o).take k = m.bytes (a + o) k := by
  apply List.ext_getElem
  · simp; omega
  · intro i h1 h2
    simp only [Mem.length_bytes] at h2
    simp [Mem.bytes, Nat.add_assoc]

/-- The value stored at a place is read back from it, cut to its width. -/
theorem Mem.read_setMany_cells {m : Mem} (k n w : Nat) (h : m.wf = true) :
    (m.setMany (cells k n w)).read k n = w % 256 ^ n := by
  rw [Mem.read, ← ofBytes_toBytes]
  congr 1
  apply List.ext_getElem
  · simp
  · intro i h1 h2
    simp only [Mem.length_bytes] at h1
    have e := Mem.get_setMany_place k (toBytes n w) (k + i) h
    rw [if_pos (by simp [h1])] at e
    simp only [Mem.bytes, List.getElem_map, List.getElem_range, cells, e, Nat.add_sub_cancel_left]
    exact List.getD_eq_getElem _ _ _

/-- A store of another run of bytes does not change what is read here. -/
theorem Mem.read_setMany_place_of_apart {m : Mem} (k n a : Nat) (bs : List Byte) (h : m.wf = true)
    (l : k + n ≤ a ∨ a + bs.length ≤ k) : (m.setMany (place a bs)).read k n = m.read k n := by
  unfold Mem.read Mem.bytes
  congr 1
  apply List.map_congr_left
  intro i hi
  rw [Mem.get_setMany_place a bs (k + i) h, if_neg (by have := List.mem_range.1 hi; omega)]

end Sys2Proof.Machine
end

