-- ==== Sys2Proof/Laws/Aes.lean ====
section
/-! SUPPORT. The cipher takes a sector of 32 bytes to 32 bytes, and reading an extent under another key changes each of its sectors
by it and nothing else (R298, log 14, log 30). -/

namespace Sys2Proof.Machine

theorem length_xorBytes (a b : List Nat) : (xorBytes a b).length = min a.length b.length := List.length_zipWith

/-- Every word has four bytes. -/
def AllFour (w : List (List Nat)) : Prop := ∀ x ∈ w, x.length = 4

theorem AllFour.getD {w : List (List Nat)} (h : AllFour w) {k : Nat} (l : k < w.length) : (w.getD k []).length = 4 := by
  rw [List.getD_eq_getElem?_getD, List.getElem?_eq_getElem l]; exact h _ (List.getElem_mem l)

theorem length_scheduleWord (n : Nat) {w : List (List Nat)} (h : AllFour w) (l : 8 ≤ w.length) : (scheduleWord n w).length = 4 := by
  have h7 := h.getD (k := 7) (by omega)
  have h0 : (w.headD []).length = 4 := by
    have := h.getD (k := 0) (by omega)
    cases w with
    | nil => simp at l
    | cons a w => simpa using this
  unfold scheduleWord
  rw [length_xorBytes, h7]
  generalize w.headD [] = last at h0 ⊢
  split
  · rw [length_xorBytes]; simp [h0]
  · split <;> simp [h0]

theorem scheduleMore_four (k : Nat) {w : List (List Nat)} (h : AllFour w) (l : 8 ≤ w.length) :
    AllFour (scheduleMore k w) ∧ (scheduleMore k w).length = k + w.length := by
  induction k generalizing w with
  | zero => exact ⟨h, by simp [scheduleMore]⟩
  | succ k ih =>
    have hw : AllFour (scheduleWord w.length w :: w) := by
      intro x hx
      rcases List.mem_cons.1 hx with rfl | hx
      · exact length_scheduleWord _ h l
      · exact h x hx
    obtain ⟨a, b⟩ := ih hw (by simp; omega)
    exact ⟨a, by rw [scheduleMore, b]; simp; omega⟩

theorem length_groups (n k : Nat) (l : List Nat) : (groups n k l).length = k := by
  induction k generalizing l with
  | zero => rfl
  | succ k ih => simp [groups, ih]

theorem groups_each (n k : Nat) (l : List Nat) (h : n * k ≤ l.length) : ∀ x ∈ groups n k l, x.length = n := by
  induction k generalizing l with
  | zero => intro x hx; simp [groups] at hx
  | succ k ih =>
    have e : n * (k + 1) = n * k + n := Nat.mul_succ n k
    intro x hx
    rcases List.mem_cons.1 hx with rfl | hx
    · rw [List.length_take]; omega
    · exact ih _ (by rw [List.length_drop]; omega) x hx

theorem length_flatten_four {w : List (List Nat)} (h : AllFour w) : w.flatten.length = 4 * w.length := by
  induction w with
  | nil => rfl
  | cons a w ih =>
    rw [List.flatten_cons, List.length_append, ih (fun x hx => h x (List.mem_cons_of_mem _ hx)), h a List.mem_cons_self,
      List.length_cons]
    omega

/-- Each round key has 16 bytes. -/
theorem length_roundKey (key : List Nat) (h : key.length = 32) (k : Nat) (hk : k < 15) :
    ((roundKeys key).getD k []).length = 16 := by
  have h4 : AllFour (groups 4 8 key).reverse := by
    intro x hx; exact groups_each 4 8 key (by omega) x (List.mem_reverse.1 hx)
  have h8 : (groups 4 8 key).reverse.length = 8 := by rw [List.length_reverse, length_groups]
  obtain ⟨a, b⟩ := scheduleMore_four 52 h4 (by omega)
  have hf : (scheduleMore 52 (groups 4 8 key).reverse).reverse.flatten.length = 240 := by
    rw [length_flatten_four (fun x hx => a x (List.mem_reverse.1 hx)), List.length_reverse, b, h8]
  have hl : k < (roundKeys key).length := by unfold roundKeys; rw [length_groups]; exact hk
  rw [List.getD_eq_getElem?_getD, List.getElem?_eq_getElem hl]
  exact groups_each 16 15 _ (by omega) _ (List.getElem_mem hl)

theorem length_dataKey (pair : BitVec 512) : (dataKey pair).length = 32 := by simp [dataKey]
theorem length_tweakKey (pair : BitVec 512) : (tweakKey pair).length = 32 := length_dataKey _

theorem length_aesEncrypt (key b : List Nat) (h : key.length = 32) : (aesEncrypt (roundKeys key) b).length = 16 := by
  unfold aesEncrypt
  dsimp only
  rw [length_xorBytes, length_roundKey key h 14 (by omega)]
  simp [shiftRows]

theorem length_aesDecrypt (key b : List Nat) (h : key.length = 32) : (aesDecrypt (roundKeys key) b).length = 16 := by
  unfold aesDecrypt
  dsimp only
  rw [length_xorBytes, length_roundKey key h 0 (by omega)]
  simp [shiftBack]

theorem length_xtsWith (cipher : List Nat → List Nat) (tweak : List Nat) (l : List Byte) (hc : ∀ b, (cipher b).length = 16)
    (ht : tweak.length = 16) : (xtsWith cipher tweak l).length = 32 := by
  have hn : (nextTweak tweak).length = 16 := by simp [nextTweak]
  simp [xtsWith, length_xorBytes, hc, ht, hn]

theorem length_sectorTweak (pair : BitVec 512) (n : Nat) : (sectorTweak pair n).length = 16 :=
  length_aesEncrypt _ _ (length_tweakKey _)
theorem length_xtsEncrypt (pair : BitVec 512) (n : Nat) (l : List Byte) : (xtsEncrypt pair n l).length = 32 :=
  length_xtsWith _ _ _ (fun _ => length_aesEncrypt _ _ (length_dataKey _)) (length_sectorTweak _ _)
theorem length_xtsDecrypt (pair : BitVec 512) (n : Nat) (l : List Byte) : (xtsDecrypt pair n l).length = 32 :=
  length_xtsWith _ _ _ (fun _ => length_aesDecrypt _ _ (length_dataKey _)) (length_sectorTweak _ _)

/-! Reading an extent under another key. -/

section review
variable {m : Mem} (old new : BitVec 512)

/-- What the sector at a becomes. -/
def Mem.reread (m : Mem) (old new : BitVec 512) (a : Nat) : List Byte :=
  xtsDecrypt new (a / 32) (xtsEncrypt old (a / 32) (m.bytes a 32))

theorem Mem.get_review (h : m.wf = true) (a j : Nat) :
    (m.review old new a).get j = if a ≤ j ∧ j < a + 32 then (m.reread old new a).getD (j - a) 0 else m.get j := by
  unfold Mem.review
  rw [Mem.get_setMany_place _ _ _ h, length_xtsDecrypt]; rfl

theorem Mem.wf_review (h : m.wf = true) (a : Nat) : (m.review old new a).wf = true := Mem.wf_setMany _ h

/-- The first n sectors from b on are reread, and every other byte is as before. -/
theorem Mem.review_many (h : m.wf = true) (b n : Nat) :
    let p := (List.range n).foldl (fun (m : Mem) j => m.review old new (b + 32 * j)) m
    p.wf = true ∧ (∀ j, j < n → p.bytes (b + 32 * j) 32 = m.reread old new (b + 32 * j)) ∧
      ∀ k, ¬ (b ≤ k ∧ k < b + 32 * n) → p.get k = m.get k := by
  induction n with
  | zero => exact ⟨h, fun j hj => absurd hj (Nat.not_lt_zero j), fun _ _ => rfl⟩
  | succ n ih =>
    obtain ⟨hw, hs, ho⟩ := ih
    rw [List.range_succ, List.foldl_append]
    dsimp only [List.foldl_cons, List.foldl_nil]
    refine ⟨Mem.wf_review _ _ hw _, fun j hj => ?_, fun k hk => ?_⟩
    · apply List.ext_getElem
      · rw [Mem.length_bytes]; exact (length_xtsDecrypt _ _ _).symm
      · intro i hi hi'
        rw [Mem.length_bytes] at hi
        simp only [Mem.bytes, List.getElem_map, List.getElem_range]
        rw [Mem.get_review _ _ hw]
        by_cases e : j = n
        · subst e
          rw [if_pos (by omega)]
          have hb : (List.foldl (fun (m : Mem) j => m.review old new (b + 32 * j)) m (List.range j)).bytes (b + 32 * j) 32 =
              m.bytes (b + 32 * j) 32 := by
            apply List.map_congr_left
            intro x hx
            exact ho _ (by have := List.mem_range.1 hx; omega)
          unfold Mem.reread
          rw [hb, show b + 32 * j + i - (b + 32 * j) = i by omega]
          exact List.getD_eq_getElem _ _ hi'
        · rw [if_neg (by omega)]
          have hb := hs j (by omega)
          have := congrArg (fun l => l[i]?) hb
          simp only [Mem.bytes, List.getElem?_map, List.getElem?_range hi, Option.map_some] at this
          rw [List.getElem?_eq_getElem hi'] at this
          exact Option.some.inj this
    · rw [Mem.get_review _ _ hw, if_neg (by omega)]
      exact ho k (by omega)

end review

end Sys2Proof.Machine
end

