-- ==== Sys2Proof/Laws/Descriptor.lean ====
section
/-! SUPPORT. Fields and tables of a descriptor that lies in a sparse store (R311, R312). -/

namespace Sys2Proof.Machine

theorem field_bytes (m : Mem) (a n o k : Nat) (h : o + k ≤ n) : field (m.bytes a n) o k = m.read (a + o) k := by
  rw [field, Mem.bytes_drop_take m a n o k h, Mem.read]

theorem table_bytes (m : Mem) (a n o size k : Nat) (h : o + k * size ≤ n) :
    table (m.bytes a n) o size k = (List.range k).map fun j => m.bytes (a + (o + j * size)) size := by
  unfold table
  apply List.map_congr_left
  intro j hj
  have : (j + 1) * size ≤ k * size := Nat.mul_le_mul_right _ (List.mem_range.1 hj)
  rw [Nat.add_mul, Nat.one_mul] at this
  exact Mem.bytes_drop_take m a n _ size (by omega)

end Sys2Proof.Machine
end

