-- ==== Sys2Proof/Laws/Flow.lean ====
section
/-! SUPPORT. What `arrive` changes, and that it does not depend on the x registers. -/

namespace Sys2Proof.Machine

@[simp] theorem State.coreAt_self (s : State) : s.coreAt s.core.num = s.core := by simp [State.coreAt]

theorem State.setCore_self (s : State) (c : Core) (h : s.core.num = c.num) : s.setCore c = { s with core := c } := if_pos h

/-- d is c but for what the flow of control changes in a core. -/
def Core.flowed (c d : Core) : Prop :=
  d = { c with pc := d.pc, fwPc := d.fwPc, line := d.line, fwLine := d.fwLine, heads := d.heads, tested := d.tested,
               loop := d.loop, ctl := { c.ctl with rot := d.ctl.rot, gates := d.ctl.gates } }

theorem Core.goto_eq (c : Core) (pc : Word) (e : Bool) : c.goto pc e = { c with
    pc := (c.goto pc e).pc, fwPc := (c.goto pc e).fwPc, line := (c.goto pc e).line, fwLine := (c.goto pc e).fwLine } := by
  unfold Core.goto; split <;> rfl

theorem Core.flowed.goto {c d : Core} (h : c.flowed d) (pc : Word) (e : Bool) : c.flowed (d.goto pc e) := by
  unfold Core.flowed at *; rw [Core.goto_eq]; rw [h]

theorem Core.flowed.iterationEnd {c d : Core} (h : c.flowed d) (taken : Bool) : c.flowed (d.iterationEnd taken) := by
  unfold Core.iterationEnd
  dsimp only
  split <;> (apply Core.flowed.goto; unfold Core.flowed at h ⊢; rw [h])

/-- An arrival changes the PC, the line entry, the head count, the loop, the rotation and the gates. -/
theorem Core.arrive_flowed (c : Core) (pc : Word) (taken : Bool) : c.flowed (c.arrive pc taken).1 := by
  unfold Core.arrive
  generalize hd : ({ c with heads := if c.fw then c.heads else c.heads + 1, tested := if c.fw then c.tested else false } : Core) = d
  have h0 : c.flowed d := by subst hd; rfl
  clear hd
  dsimp only
  split
  · exact h0.iterationEnd taken
  · apply Core.flowed.goto; unfold Core.flowed at h0 ⊢; rw [h0]

@[simp] theorem Core.arrive_num (c : Core) (pc : Word) (taken : Bool) : (c.arrive pc taken).1.num = c.num := by
  have h := c.arrive_flowed pc taken
  unfold Core.flowed at h; rw [h]

/-! The reel changes the quads alone (R25). -/

theorem State.setQuad_shape {s u : State} (h : ∃ q, u = { s with quads := q }) (k : Quad) :
    ∃ q, u.setQuad k = { s with quads := q } := by
  obtain ⟨q, rfl⟩ := h; exact ⟨_, rfl⟩

theorem State.dropAttached_shape (s : State) (n : Nat) : ∃ q, s.dropAttached n = { s with quads := q } := ⟨_, rfl⟩
theorem State.dropFork_shape (s : State) (n : Nat) : ∃ q, s.dropFork n = { s with quads := q } := ⟨_, rfl⟩
theorem State.trimReel_shape (s : State) (q : Nat) : ∃ k, s.trimReel q = { s with quads := k } := ⟨_, rfl⟩

theorem State.compareTo_shape (s : State) (h : Nat) (pc seq : Word) (x : Bool) (n : Nat) :
    ∃ q, s.compareTo h pc seq x n = { s with quads := q } := by
  unfold State.compareTo
  dsimp only
  split <;> (repeat' split) <;> exact ⟨_, rfl⟩

theorem State.lead_shape (s : State) (n h : Nat) (seq : Word) (x : Bool) :
    ∃ q, s.lead n h seq x = { s with quads := q } := by
  unfold State.lead
  dsimp only
  have g : ∀ (l : List Nat) (u : State) (pc : Word), (∃ q, u = { s with quads := q }) →
      ∃ q, l.foldl (fun s m => s.compareTo h pc seq x m) u = { s with quads := q } := by
    intro l
    induction l with
    | nil => intro u _ h; exact h
    | cons m l ih =>
      intro u pc ⟨q, hu⟩
      obtain ⟨q', hc⟩ := u.compareTo_shape h pc seq x m
      exact ih _ pc ⟨q', by show u.compareTo h pc seq x m = _; rw [hc, hu]⟩
  exact g _ _ _ ⟨_, rfl⟩

theorem State.takeLead_shape (s : State) (q : Nat) : ∃ k, s.takeLead q = { s with quads := k } := by
  unfold State.takeLead
  dsimp only
  split
  · exact ⟨_, rfl⟩
  · exact State.lead_shape (s.dropFork _) ..

theorem State.cutLoose_shape (s : State) (n : Nat) : ∃ q, s.cutLoose n = { s with quads := q } := by
  obtain ⟨q, h⟩ := (s.dropAttached n).takeLead_shape (n / 4)
  exact ⟨_, by unfold State.cutLoose; rw [h]; rfl⟩

/-- What the reel makes of an issued head changes the quads alone. -/
theorem State.reelStep_shape (s : State) (n : Nat) (seq : Word) (x : Bool) :
    ∃ q, s.reelStep n seq x = { s with quads := q } := by
  unfold State.reelStep
  dsimp only
  generalize hp : (Option.getD _ seq) = there
  by_cases h1 : (!(s.quadAt (n / 4)).attached.getLsbD (n % 4)) = true
  · rw [if_pos h1]; exact ⟨_, rfl⟩
  · rw [if_neg h1]
    split
    · split
      · exact s.trimReel_shape _
      · exact s.cutLoose_shape _
    · split
      · obtain ⟨q, h⟩ := s.lead_shape n (s.coreAt n).heads seq x
        rw [h]; exact ⟨_, rfl⟩
      · split <;> exact ⟨_, rfl⟩

section withFiles
variable (c : Core) (x f : Vector XReg 32)

@[simp] theorem Core.withFiles_fw : (c.withFiles x f).fw = c.fw := rfl
@[simp] theorem Core.withFiles_num : (c.withFiles x f).num = c.num := rfl
@[simp] theorem Core.withFiles_pc : (c.withFiles x f).pc = c.pc := rfl
@[simp] theorem Core.withFiles_ctl : (c.withFiles x f).ctl = c.ctl := rfl
@[simp] theorem Core.withFiles_loop : (c.withFiles x f).loop = c.loop := rfl
@[simp] theorem Core.withFiles_curPc : (c.withFiles x f).curPc = c.curPc := rfl
@[simp] theorem Core.withFiles_seqPc : (c.withFiles x f).seqPc = c.seqPc := rfl
@[simp] theorem Core.withFiles_x : (c.withFiles x f).x = x := rfl
@[simp] theorem Core.withFiles_fwX : (c.withFiles x f).fwX = f := rfl

theorem Core.withFiles_goto (pc : Word) (e : Bool) : (c.withFiles x f).goto pc e = (c.goto pc e).withFiles x f := by
  unfold Core.goto; cases h : c.fw <;> simp [h] <;> rfl

theorem Core.withFiles_iterationEnd (taken : Bool) :
    (c.withFiles x f).iterationEnd taken = (c.iterationEnd taken).withFiles x f := by
  unfold Core.iterationEnd
  dsimp only
  rw [apply_ite (fun k => Core.withFiles k x f)]
  refine ite_congr rfl (fun _ => ?_) (fun _ => ?_) <;> (rw [← Core.withFiles_goto]; rfl)

theorem Core.withFiles_arrive (pc : Word) (taken : Bool) :
    (c.withFiles x f).arrive pc taken = ((c.arrive pc taken).1.withFiles x f, (c.arrive pc taken).2) := by
  unfold Core.arrive
  generalize hd : ({ c with heads := if c.fw then c.heads else c.heads + 1, tested := if c.fw then c.tested else false } : Core) = d
  have h0 : ({ c.withFiles x f with
      heads := if (c.withFiles x f).fw then (c.withFiles x f).heads else (c.withFiles x f).heads + 1,
      tested := if (c.withFiles x f).fw then (c.withFiles x f).tested else false } : Core) = d.withFiles x f := by subst hd; rfl
  rw [h0]
  dsimp only [Core.withFiles_loop, Core.withFiles_curPc]
  have hb : ∀ p, (d.withFiles x f).inBody p = d.inBody p := fun _ => rfl
  simp only [hb]
  split
  · rw [Core.withFiles_iterationEnd]
  · rw [← Core.withFiles_goto]; rfl

end withFiles

/-! The reel does not depend on the x registers. -/

section reel
variable (s : State) (x f : Vector XReg 32)

theorem State.withFiles_coreAt (n : Nat) : (s.withFiles x f).coreAt n =
    if s.core.num = n then (s.coreAt n).withFiles x f else s.coreAt n := by
  by_cases h : s.core.num = n
  · subst h; rw [if_pos rfl, State.coreAt_self]; exact State.coreAt_self (s.withFiles x f)
  · rw [if_neg h]; unfold State.coreAt; rw [if_neg h]; exact if_neg h

theorem State.withFiles_heads (n : Nat) : ((s.withFiles x f).coreAt n).heads = (s.coreAt n).heads := by
  rw [State.withFiles_coreAt]; split <;> rfl
theorem State.withFiles_pc (n : Nat) : ((s.withFiles x f).coreAt n).pc = (s.coreAt n).pc := by
  rw [State.withFiles_coreAt]; split <;> rfl

theorem State.withFiles_trimReel (q : Nat) : (s.withFiles x f).trimReel q = (s.trimReel q).withFiles x f := by
  unfold State.trimReel
  simp only [State.withFiles_heads]
  rfl

theorem State.withFiles_compareTo (h : Nat) (pc seq : Word) (b : Bool) (n : Nat) :
    (s.withFiles x f).compareTo h pc seq b n = (s.compareTo h pc seq b n).withFiles x f := by
  unfold State.compareTo
  simp only [State.withFiles_heads, State.withFiles_pc]
  have hf : (s.withFiles x f).forkOf n = s.forkOf n := rfl
  rw [hf]
  cases s.forkOf n <;> (dsimp only; repeat' split) <;> rfl

theorem State.withFiles_lead (n h : Nat) (seq : Word) (b : Bool) :
    (s.withFiles x f).lead n h seq b = (s.lead n h seq b).withFiles x f := by
  unfold State.lead
  simp only [State.withFiles_pc]
  have g : ∀ (pc : Word) (l : List Nat) (u : State),
      l.foldl (fun s m => s.compareTo h pc seq b m) (u.withFiles x f) =
        (l.foldl (fun s m => s.compareTo h pc seq b m) u).withFiles x f := by
    intro pc l
    induction l with
    | nil => intro _; rfl
    | cons m l ih => intro u; rw [List.foldl_cons, List.foldl_cons, State.withFiles_compareTo, ih]
  exact g (s.coreAt n).pc _ (s.setQuad _)

theorem State.withFiles_takeLead (q : Nat) : (s.withFiles x f).takeLead q = (s.takeLead q).withFiles x f := by
  unfold State.takeLead
  simp only [State.withFiles_heads, State.withFiles_pc]
  have hf : ∀ n, (s.withFiles x f).forkOf n = s.forkOf n := fun _ => rfl
  have hq : (s.withFiles x f).quadAt q = s.quadAt q := rfl
  simp only [hf, hq]
  split
  · rfl
  · exact State.withFiles_lead (s.dropFork _) ..

theorem State.withFiles_cutLoose (n : Nat) : (s.withFiles x f).cutLoose n = (s.cutLoose n).withFiles x f := by
  unfold State.cutLoose
  rw [show (s.withFiles x f).dropAttached n = (s.dropAttached n).withFiles x f from rfl, State.withFiles_takeLead,
    State.withFiles_trimReel]

theorem State.withFiles_reelStep (n : Nat) (seq : Word) (b : Bool) :
    (s.withFiles x f).reelStep n seq b = (s.reelStep n seq b).withFiles x f := by
  unfold State.reelStep
  simp only [State.withFiles_heads, State.withFiles_pc]
  have hq : (s.withFiles x f).quadAt (n / 4) = s.quadAt (n / 4) := rfl
  simp only [hq, State.withFiles_trimReel, State.withFiles_cutLoose, State.withFiles_lead]
  by_cases h1 : (!(s.quadAt (n / 4)).attached.getLsbD (n % 4)) = true
  · rw [if_pos h1, if_pos h1]
  · rw [if_neg h1, if_neg h1]
    repeat' split
    all_goals rfl

theorem State.withFiles_arrive (pc : Word) (taken reel : Bool) :
    (s.withFiles x f).arrive pc taken reel = (s.arrive pc taken reel).withFiles x f := by
  unfold State.arrive
  have h := Core.withFiles_arrive s.core x f pc taken
  rw [show (s.withFiles x f).core = s.core.withFiles x f from rfl, h]
  dsimp only [Core.withFiles_fw, Core.withFiles_num, Core.withFiles_seqPc]
  rw [apply_ite (fun u : State => u.withFiles x f), ← State.withFiles_reelStep]
  rfl

end reel

/-! Writing an x register. -/

theorem Core.writeXOf_eq (c : Core) (fw : Bool) (d : XName) (v : XReg) :
    c.writeXOf fw d v = c.withFiles (c.writeXOf fw d v).x (c.writeXOf fw d v).fwX := by
  unfold Core.writeXOf; split
  · rfl
  · split <;> rfl

theorem Core.readXOf_writeXOf (c : Core) (fw : Bool) (d r : XName) (v : XReg) :
    (c.writeXOf fw d v).readXOf fw r = if r = d ∧ d ≠ 0 then v else c.readXOf fw r := by
  unfold Core.readXOf Core.writeXOf Core.file
  by_cases hd : d = 0
  · simp [hd]
  · by_cases hr : r = 0
    · subst hr; simp only [if_true]; rw [if_neg]; rintro ⟨h, h'⟩; exact h' h.symm
    · simp only [hd, if_false, hr]
      by_cases h : r = d
      · subst h; cases fw <;> simp <;> intro h <;> exact absurd h hr
      · have : d.toNat ≠ r.toNat := fun e => h (BitVec.eq_of_toNat_eq e.symm)
        cases fw <;> simp [h, this]

theorem Core.readXOf_writeXOf_other (c : Core) (fw : Bool) (d r : XName) (v : XReg) :
    (c.writeXOf fw d v).readXOf (!fw) r = c.readXOf (!fw) r := by
  unfold Core.readXOf Core.writeXOf Core.file
  by_cases hd : d = 0
  · simp [hd]
  · simp only [hd, if_false]; cases fw <;> rfl

theorem State.setX_eq (s : State) (d : XName) (v : XReg) : s.setX d v =
    s.withFiles (s.core.writeXOf s.core.fw d v).x (s.core.writeXOf s.core.fw d v).fwX := by
  unfold State.setX State.withFiles; rw [← Core.writeXOf_eq]

theorem State.setX_advance (s : State) (d : XName) (v : XReg) : (s.setX d v).advance =
    s.advance.withFiles (s.core.writeXOf s.core.fw d v).x (s.core.writeXOf s.core.fw d v).fwX := by
  unfold State.advance
  rw [State.setX_eq]
  exact State.withFiles_arrive s _ _ _ _ _

end Sys2Proof.Machine
end

