-- ==== Sys2Proof/Laws/Hss.lean ====
section
/-! SUPPORT. What the device signs verifies under its public key (R316, R317). -/

namespace Sys2Proof.Machine

/-- The bytes of a number are as many as asked for. -/
theorem toBytes_length : ∀ n w : Nat, (toBytes n w).length = n
  | 0, _ => rfl
  | n + 1, w => by simp [toBytes, toBytes_length n]

theorem beBytes_length (n w : Nat) : (beBytes n w).length = n := by rw [beBytes, List.length_reverse, toBytes_length]

/-! A digest has 32 bytes. -/

theorem mix_length (k : Nat) (l : List Nat) : (mix k l).length = l.length := by
  unfold mix
  split
  · simp only [List.length_cons]
  · rfl

theorem rounds_length : ∀ ks w v, (rounds ks w v).length = v.length
  | [], _, _ => rfl
  | k :: ks, w, v => by simp [rounds, rounds_length ks, mix_length]

theorem absorb_length : ∀ n m v, (absorb n m v).length = v.length
  | 0, _, _ => rfl
  | n + 1, m, v => by simp [absorb, absorb_length n, rounds_length]

theorem flatMap_length (l : List Nat) : (l.flatMap (beBytes 4)).length = 4 * l.length := by
  induction l with
  | nil => rfl
  | cons a l ih => simp [List.flatMap_cons, beBytes_length, ih]; omega

theorem firstWords_length : firstWords.length = 8 := by decide +kernel

theorem sha256_length (m : List Byte) : (sha256 m).length = 32 := by
  unfold sha256
  rw [flatMap_length, absorb_length, firstWords_length]

/-! One-time signatures: the digits of a digest, and the ends of the chains. -/

theorem hexDigits_length (l : List Byte) : (hexDigits l).length = 2 * l.length := by
  induction l with
  | nil => rfl
  | cons a l ih => simp [hexDigits, List.flatMap_cons] at ih ⊢; omega

theorem hexDigits_lt (l : List Byte) : ∀ a ∈ hexDigits l, a < 16 := by
  intro a h
  simp only [hexDigits, List.mem_flatMap, List.mem_cons, List.not_mem_nil, or_false] at h
  obtain ⟨b, -, rfl | rfl⟩ := h
  · have := b.isLt; omega
  · exact Nat.mod_lt _ (by decide)

theorem otsDigits_length (q : List Byte) (h : q.length = 32) : (otsDigits q).length = 67 := by
  simp [otsDigits, hexDigits_length, beBytes_length, h]

theorem otsDigits_lt (q : List Byte) : ∀ a ∈ otsDigits q, a < 16 := by
  intro a h
  rcases List.mem_append.1 h with h | h
  · exact hexDigits_lt q a h
  · exact hexDigits_lt _ a (List.mem_of_mem_take h)

/-- A chain that a signature opens after a steps comes to its end. -/
theorem otsChain_chainAt (tree leaf i : Nat) : ∀ n a : Nat, a + n = 15 →
    otsChain (treeId tree) leaf i n (chainAt tree leaf i a) = chainAt tree leaf i 15
  | 0, a, h => by obtain rfl : a = 15 := by omega
                  rfl
  | n + 1, a, h => by
    have e : 14 - n = a := by omega
    have := otsChain_chainAt tree leaf i n (a + 1) (by omega)
    simpa [otsChain, e, chainAt] using this

theorem otsKey_sign (tree leaf : Nat) (rand msg : List Byte) :
    otsKey (lmsSign tree leaf rand msg) (treeId tree) msg = leafKey tree leaf := by
  unfold otsKey lmsSign leafKey
  simp only
  congr 4
  have hl := otsDigits_length (sha256 (lmsPrefix (treeId tree) leaf 0x8181 ++ rand ++ msg)) (sha256_length _)
  have hd := otsDigits_lt (sha256 (lmsPrefix (treeId tree) leaf 0x8181 ++ rand ++ msg))
  generalize otsDigits (sha256 (lmsPrefix (treeId tree) leaf 0x8181 ++ rand ++ msg)) = ds at hl hd ⊢
  apply List.ext_getElem
  · simp [hl]
  · intro i h1 h2
    have hi : i < ds.length := by simpa using h1
    simp only [List.getElem_mapIdx, List.getElem_map, List.getElem_range, List.getD_eq_getElem?_getD,
      List.getElem?_mapIdx, List.getElem?_eq_getElem hi, Option.map_some, Option.getD_some]
    exact otsChain_chainAt tree leaf i _ _ (by have := hd _ (List.getElem_mem hi); omega)

/-! The tree. -/

theorem treeNode_up (tree h n : Nat) :
    lmsParent (treeId tree) n (treeNode tree h n) (treeNode tree h (sibling n)) = treeNode tree (h + 1) (n / 2) := by
  unfold sibling
  rcases Nat.mod_two_eq_zero_or_one n with e | e
  · have h2 : 2 * (n / 2) = n := by omega
    rw [if_neg (by omega), treeNode, h2]
  · have h2 : 2 * (n / 2) = n - 1 := by omega
    have h3 : n - 1 + 1 = n := by omega
    have h4 : (n - 1) / 2 = n / 2 := by omega
    have h5 : (n - 1) % 2 = 0 := by omega
    rw [if_pos e, treeNode, h2, h3, lmsParent, lmsParent, if_pos e, if_neg (by omega), h4]

theorem lmsClimb_path (tree : Nat) : ∀ k h n,
    lmsClimb (treeId tree) n (treeNode tree h n) (pathFrom tree k h n) = treeNode tree (h + k) (n / 2 ^ k)
  | 0, h, n => by simp [pathFrom, lmsClimb]
  | k + 1, h, n => by
    rw [pathFrom, lmsClimb, treeNode_up, lmsClimb_path tree k (h + 1) (n / 2), Nat.div_div_eq_div_mul,
      show h + 1 + k = h + (k + 1) by omega, show 2 * 2 ^ k = 2 ^ (k + 1) by ring]

theorem pathFrom_length (tree : Nat) : ∀ k h n, (pathFrom tree k h n).length = k
  | 0, _, _ => rfl
  | k + 1, h, n => by simp [pathFrom, pathFrom_length tree k]

theorem treeNode_length (tree : Nat) : ∀ h n, (treeNode tree h n).length = 32
  | 0, _ => sha256_length _
  | _ + 1, _ => sha256_length _

theorem pathFrom_sized (tree : Nat) : ∀ k h n, ∀ v ∈ pathFrom tree k h n, v.length = 32
  | 0, _, _ => by simp [pathFrom]
  | k + 1, h, n => by
    intro v hv
    rcases List.mem_cons.1 hv with rfl | hv
    · exact treeNode_length tree h _
    · exact pathFrom_sized tree k (h + 1) (n / 2) v hv

theorem chainAt_length (tree leaf i : Nat) : ∀ n, (chainAt tree leaf i n).length = 32
  | 0 => beBytes_length _ _
  | _ + 1 => sha256_length _

/-! Signatures. -/

theorem lmsRoot_sign (tree leaf : Nat) (rand msg : List Byte) (hl : leaf < 2 ^ 15) :
    lmsRoot (lmsSign tree leaf rand msg) (treeId tree) msg = treeNode tree 15 1 := by
  have h1 : (lmsSign tree leaf rand msg).leaf = leaf := by unfold lmsSign; rfl
  have h2 : (lmsSign tree leaf rand msg).path = pathFrom tree 15 0 (2 ^ 15 + leaf) := by unfold lmsSign; rfl
  have h3 : sha256 (lmsPrefix (treeId tree) (2 ^ 15 + leaf) 0x8282 ++ leafKey tree leaf) = treeNode tree 0 (2 ^ 15 + leaf) := by
    rw [treeNode, Nat.add_sub_cancel_left]
  unfold lmsRoot
  simp only [h1, h2, otsKey_sign, h3]
  rw [lmsClimb_path]
  congr 1
  omega

theorem lmsSized_sign (tree leaf : Nat) (rand msg : List Byte) (hl : leaf < 2 ^ 15) (hr : rand.length = 32) :
    lmsSized (lmsSign tree leaf rand msg) = true := by
  have hv := otsDigits_length (sha256 (lmsPrefix (treeId tree) leaf 0x8181 ++ rand ++ msg)) (sha256_length _)
  unfold lmsSized lmsSign
  simp only [List.length_mapIdx, hv, pathFrom_length, hr, hl, decide_true, beq_self_eq_true, Bool.true_and, List.all_append,
    Bool.and_eq_true, List.all_eq_true, beq_iff_eq]
  refine ⟨fun v h => ?_, fun v h => pathFrom_sized tree 15 0 _ v h⟩
  obtain ⟨i, hi, rfl⟩ := List.mem_mapIdx.1 h
  exact chainAt_length ..

theorem lmsAccepts_sign (tree leaf : Nat) (rand msg : List Byte) (hl : leaf < 2 ^ 15) (hr : rand.length = 32) :
    lmsAccepts (treeKey tree) (lmsSign tree leaf rand msg) msg = true := by
  have hi : (treeId tree).length = 16 := beBytes_length _ _
  unfold lmsAccepts treeKey
  simp only [hi, lmsSized_sign tree leaf rand msg hl hr, lmsRoot_sign tree leaf rand msg hl, beq_self_eq_true, Bool.and_self]

/-- R317: what the device signs verifies under the public half of its key. -/
theorem device_signs (n : Nat) (msg : List Byte) : hssVerifies (deviceSign n msg) deviceKey msg = true := by
  have h (k : Nat) : k % 2 ^ 15 < 2 ^ 15 := Nat.mod_lt _ (by decide)
  unfold hssVerifies deviceSign deviceKey
  simp only [lmsAccepts_sign _ _ _ _ (h _) (beBytes_length _ _), Bool.and_self]

end Sys2Proof.Machine
end

