-- ==== Sys2Proof/Laws/Late.lean ====
section
/-! SUPPORT. What the execution of an instruction that waited in the vector queue leaves alone: the hart's place, its scalar registers
and its wait (R33, log 61). -/

namespace Sys2Proof.Machine

@[simp] theorem State.merge_x (s t : State) (vq : List Acc) : (s.merge t vq).core.x = s.core.x := rfl
@[simp] theorem State.merge_fwX (s t : State) (vq : List Acc) : (s.merge t vq).core.fwX = s.core.fwX := rfl
@[simp] theorem State.merge_pc (s t : State) (vq : List Acc) : (s.merge t vq).core.pc = s.core.pc := rfl
@[simp] theorem State.merge_run (s t : State) (vq : List Acc) : (s.merge t vq).core.run = s.core.run := rfl
@[simp] theorem State.merge_line (s t : State) (vq : List Acc) : (s.merge t vq).core.line = s.core.line := rfl
@[simp] theorem State.merge_loop (s t : State) (vq : List Acc) : (s.merge t vq).core.loop = s.core.loop := rfl
@[simp] theorem State.merge_sq (s t : State) (vq : List Acc) : (s.merge t vq).core.sq = s.core.sq := rfl
@[simp] theorem State.merge_quads (s t : State) (vq : List Acc) : (s.merge t vq).quads = s.quads := rfl
@[simp] theorem State.merge_vl (s t : State) (vq : List Acc) : (s.merge t vq).core.ctl.vl = s.core.ctl.vl := rfl
@[simp] theorem State.merge_intrap (s t : State) (vq : List Acc) : (s.merge t vq).core.ctl.intrap = s.core.ctl.intrap := rfl
@[simp] theorem State.merge_vec (s t : State) (vq : List Acc) : (s.merge t vq).core.vec = t.core.vec := rfl
@[simp] theorem State.merge_flags (s t : State) (vq : List Acc) : (s.merge t vq).core.ctl.flags = t.core.ctl.flags := rfl
@[simp] theorem State.merge_mem (s t : State) (vq : List Acc) : (s.merge t vq).mem = t.mem := rfl

/-- Performing the head of the vector queue does nothing, or is the execution of that instruction, merged. -/
theorem State.performLate_eq (s : State) :
    s.performLate = s ∨ ∃ l n t vq, s.runView l n = some t ∧ s.performLate = s.merge t vq := by
  unfold State.performLate
  split
  · split
    · exact .inl rfl
    · split
      · split <;> exact .inr ⟨_, _, _, _, by assumption, rfl⟩
      · exact .inl rfl
  · exact .inl rfl

/-- Whatever it executes, the scalar registers and the PC of the hart stay. -/
theorem State.performLate_scalar (s : State) : s.performLate.core.x = s.core.x ∧ s.performLate.core.pc = s.core.pc := by
  obtain h | ⟨l, n, t, vq, -, h⟩ := s.performLate_eq <;> rw [h] <;> exact ⟨rfl, rfl⟩

end Sys2Proof.Machine
end

