-- ==== Sys2Proof/Laws/State.lean ====
section
/-! SUPPORT. What the plain updates of a state and of a core leave as it was, one lemma per field. -/

set_option Elab.async false

namespace Sys2Proof.Machine

/-! Time passes (log 8). -/

section
variable (s : State) 

@[simp] theorem State.tick_core : (s.tick).core = s.core := rfl
@[simp] theorem State.tick_others : (s.tick).others = s.others := rfl
@[simp] theorem State.tick_pkg : (s.tick).pkg = s.pkg := rfl
@[simp] theorem State.tick_synced : (s.tick).synced = s.synced := rfl
@[simp] theorem State.tick_slewed : (s.tick).slewed = s.slewed := rfl
@[simp] theorem State.tick_mem : (s.tick).mem = s.mem := rfl
@[simp] theorem State.tick_host : (s.tick).host = s.host := rfl
@[simp] theorem State.tick_lines : (s.tick).lines = s.lines := rfl
@[simp] theorem State.tick_old : (s.tick).old = s.old := rfl
@[simp] theorem State.tick_services : (s.tick).services = s.services := rfl
@[simp] theorem State.tick_ptsIn : (s.tick).ptsIn = s.ptsIn := rfl
@[simp] theorem State.tick_extents : (s.tick).extents = s.extents := rfl
@[simp] theorem State.tick_code : (s.tick).code = s.code := rfl
@[simp] theorem State.tick_quads : (s.tick).quads = s.quads := rfl
@[simp] theorem State.tick_barriers : (s.tick).barriers = s.barriers := rfl
@[simp] theorem State.tick_live : (s.tick).live = s.live := rfl
@[simp] theorem State.tick_keyMat : (s.tick).keyMat = s.keyMat := rfl
@[simp] theorem State.tick_revoking : (s.tick).revoking = s.revoking := rfl
@[simp] theorem State.tick_discards : (s.tick).discards = s.discards := rfl
@[simp] theorem State.tick_l720 : (s.tick).l720 = s.l720 := rfl
@[simp] theorem State.tick_feats : (s.tick).feats = s.feats := rfl
@[simp] theorem State.tick_launches : (s.tick).launches = s.launches := rfl
@[simp] theorem State.tick_nextLaunch : (s.tick).nextLaunch = s.nextLaunch := rfl
@[simp] theorem State.tick_admittedOnce : (s.tick).admittedOnce = s.admittedOnce := rfl
@[simp] theorem State.tick_flights : (s.tick).flights = s.flights := rfl
@[simp] theorem State.tick_nextOrder : (s.tick).nextOrder = s.nextOrder := rfl
@[simp] theorem State.tick_saves : (s.tick).saves = s.saves := rfl
@[simp] theorem State.tick_preempts : (s.tick).preempts = s.preempts := rfl
@[simp] theorem State.tick_moves : (s.tick).moves = s.moves := rfl
@[simp] theorem State.tick_nextRound : (s.tick).nextRound = s.nextRound := rfl
@[simp] theorem State.tick_grants : (s.tick).grants = s.grants := rfl
@[simp] theorem State.tick_refills : (s.tick).refills = s.refills := rfl
@[simp] theorem State.tick_buckets : (s.tick).buckets = s.buckets := rfl
@[simp] theorem State.tick_shares : (s.tick).shares = s.shares := rfl
@[simp] theorem State.tick_records : (s.tick).records = s.records := rfl
@[simp] theorem State.tick_nextId : (s.tick).nextId = s.nextId := rfl
@[simp] theorem State.tick_freed : (s.tick).freed = s.freed := rfl
@[simp] theorem State.tick_finalisers : (s.tick).finalisers = s.finalisers := rfl
@[simp] theorem State.tick_ballast : (s.tick).ballast = s.ballast := rfl
@[simp] theorem State.tick_forwards : (s.tick).forwards = s.forwards := rfl
@[simp] theorem State.tick_egress : (s.tick).egress = s.egress := rfl
@[simp] theorem State.tick_ingress : (s.tick).ingress = s.ingress := rfl
@[simp] theorem State.tick_nextPacket : (s.tick).nextPacket = s.nextPacket := rfl
@[simp] theorem State.tick_performed : (s.tick).performed = s.performed := rfl
@[simp] theorem State.tick_combined : (s.tick).combined = s.combined := rfl
@[simp] theorem State.tick_links : (s.tick).links = s.links := rfl
@[simp] theorem State.tick_farDown : (s.tick).farDown = s.farDown := rfl
@[simp] theorem State.tick_lost : (s.tick).lost = s.lost := rfl
@[simp] theorem State.tick_reached : (s.tick).reached = s.reached := rfl
@[simp] theorem State.tick_linkless : (s.tick).linkless = s.linkless := rfl
@[simp] theorem State.tick_port : (s.tick).port = s.port := rfl
@[simp] theorem State.tick_session : (s.tick).session = s.session := rfl
@[simp] theorem State.tick_accepted : (s.tick).accepted = s.accepted := rfl
@[simp] theorem State.tick_announced : (s.tick).announced = s.announced := rfl
@[simp] theorem State.tick_heard : (s.tick).heard = s.heard := rfl
@[simp] theorem State.tick_posts : (s.tick).posts = s.posts := rfl
@[simp] theorem State.tick_boot : (s.tick).boot = s.boot := rfl
@[simp] theorem State.tick_islands : (s.tick).islands = s.islands := rfl
@[simp] theorem State.tick_powerCap : (s.tick).powerCap = s.powerCap := rfl
@[simp] theorem State.tick_reports : (s.tick).reports = s.reports := rfl
@[simp] theorem State.tick_agenda : (s.tick).agenda = s.agenda := rfl
@[simp] theorem State.tick_pick : (s.tick).pick = s.pick := rfl

end

/-! The core after time has passed, and the counter. -/

section
variable (s : State)

@[simp] theorem State.tick_free : s.tick.free = s.free + 1 := rfl

end

/-! A write of an x register of the context that runs (R51). -/

section
variable (s : State) (r : XName) (v : XReg)

@[simp] theorem State.setX_others : (s.setX r v).others = s.others := rfl
@[simp] theorem State.setX_pkg : (s.setX r v).pkg = s.pkg := rfl
@[simp] theorem State.setX_time : (s.setX r v).time = s.time := rfl
@[simp] theorem State.setX_synced : (s.setX r v).synced = s.synced := rfl
@[simp] theorem State.setX_slewed : (s.setX r v).slewed = s.slewed := rfl
@[simp] theorem State.setX_mem : (s.setX r v).mem = s.mem := rfl
@[simp] theorem State.setX_host : (s.setX r v).host = s.host := rfl
@[simp] theorem State.setX_lines : (s.setX r v).lines = s.lines := rfl
@[simp] theorem State.setX_old : (s.setX r v).old = s.old := rfl
@[simp] theorem State.setX_services : (s.setX r v).services = s.services := rfl
@[simp] theorem State.setX_ptsIn : (s.setX r v).ptsIn = s.ptsIn := rfl
@[simp] theorem State.setX_extents : (s.setX r v).extents = s.extents := rfl
@[simp] theorem State.setX_code : (s.setX r v).code = s.code := rfl
@[simp] theorem State.setX_quads : (s.setX r v).quads = s.quads := rfl
@[simp] theorem State.setX_barriers : (s.setX r v).barriers = s.barriers := rfl
@[simp] theorem State.setX_live : (s.setX r v).live = s.live := rfl
@[simp] theorem State.setX_keyMat : (s.setX r v).keyMat = s.keyMat := rfl
@[simp] theorem State.setX_revoking : (s.setX r v).revoking = s.revoking := rfl
@[simp] theorem State.setX_discards : (s.setX r v).discards = s.discards := rfl
@[simp] theorem State.setX_l720 : (s.setX r v).l720 = s.l720 := rfl
@[simp] theorem State.setX_feats : (s.setX r v).feats = s.feats := rfl
@[simp] theorem State.setX_launches : (s.setX r v).launches = s.launches := rfl
@[simp] theorem State.setX_nextLaunch : (s.setX r v).nextLaunch = s.nextLaunch := rfl
@[simp] theorem State.setX_admittedOnce : (s.setX r v).admittedOnce = s.admittedOnce := rfl
@[simp] theorem State.setX_flights : (s.setX r v).flights = s.flights := rfl
@[simp] theorem State.setX_nextOrder : (s.setX r v).nextOrder = s.nextOrder := rfl
@[simp] theorem State.setX_saves : (s.setX r v).saves = s.saves := rfl
@[simp] theorem State.setX_preempts : (s.setX r v).preempts = s.preempts := rfl
@[simp] theorem State.setX_moves : (s.setX r v).moves = s.moves := rfl
@[simp] theorem State.setX_nextRound : (s.setX r v).nextRound = s.nextRound := rfl
@[simp] theorem State.setX_grants : (s.setX r v).grants = s.grants := rfl
@[simp] theorem State.setX_refills : (s.setX r v).refills = s.refills := rfl
@[simp] theorem State.setX_buckets : (s.setX r v).buckets = s.buckets := rfl
@[simp] theorem State.setX_shares : (s.setX r v).shares = s.shares := rfl
@[simp] theorem State.setX_records : (s.setX r v).records = s.records := rfl
@[simp] theorem State.setX_nextId : (s.setX r v).nextId = s.nextId := rfl
@[simp] theorem State.setX_freed : (s.setX r v).freed = s.freed := rfl
@[simp] theorem State.setX_finalisers : (s.setX r v).finalisers = s.finalisers := rfl
@[simp] theorem State.setX_ballast : (s.setX r v).ballast = s.ballast := rfl
@[simp] theorem State.setX_forwards : (s.setX r v).forwards = s.forwards := rfl
@[simp] theorem State.setX_egress : (s.setX r v).egress = s.egress := rfl
@[simp] theorem State.setX_ingress : (s.setX r v).ingress = s.ingress := rfl
@[simp] theorem State.setX_nextPacket : (s.setX r v).nextPacket = s.nextPacket := rfl
@[simp] theorem State.setX_performed : (s.setX r v).performed = s.performed := rfl
@[simp] theorem State.setX_combined : (s.setX r v).combined = s.combined := rfl
@[simp] theorem State.setX_links : (s.setX r v).links = s.links := rfl
@[simp] theorem State.setX_farDown : (s.setX r v).farDown = s.farDown := rfl
@[simp] theorem State.setX_lost : (s.setX r v).lost = s.lost := rfl
@[simp] theorem State.setX_reached : (s.setX r v).reached = s.reached := rfl
@[simp] theorem State.setX_linkless : (s.setX r v).linkless = s.linkless := rfl
@[simp] theorem State.setX_port : (s.setX r v).port = s.port := rfl
@[simp] theorem State.setX_session : (s.setX r v).session = s.session := rfl
@[simp] theorem State.setX_accepted : (s.setX r v).accepted = s.accepted := rfl
@[simp] theorem State.setX_announced : (s.setX r v).announced = s.announced := rfl
@[simp] theorem State.setX_heard : (s.setX r v).heard = s.heard := rfl
@[simp] theorem State.setX_posts : (s.setX r v).posts = s.posts := rfl
@[simp] theorem State.setX_boot : (s.setX r v).boot = s.boot := rfl
@[simp] theorem State.setX_islands : (s.setX r v).islands = s.islands := rfl
@[simp] theorem State.setX_powerCap : (s.setX r v).powerCap = s.powerCap := rfl
@[simp] theorem State.setX_reports : (s.setX r v).reports = s.reports := rfl
@[simp] theorem State.setX_agenda : (s.setX r v).agenda = s.agenda := rfl
@[simp] theorem State.setX_pick : (s.setX r v).pick = s.pick := rfl
@[simp] theorem State.setX_free : (s.setX r v).free = s.free := rfl

end

/-! A write of cr.estart. -/

section
variable (s : State) (e : Nat)

@[simp] theorem State.setEstart_others : (s.setEstart e).others = s.others := rfl
@[simp] theorem State.setEstart_pkg : (s.setEstart e).pkg = s.pkg := rfl
@[simp] theorem State.setEstart_time : (s.setEstart e).time = s.time := rfl
@[simp] theorem State.setEstart_synced : (s.setEstart e).synced = s.synced := rfl
@[simp] theorem State.setEstart_slewed : (s.setEstart e).slewed = s.slewed := rfl
@[simp] theorem State.setEstart_mem : (s.setEstart e).mem = s.mem := rfl
@[simp] theorem State.setEstart_host : (s.setEstart e).host = s.host := rfl
@[simp] theorem State.setEstart_lines : (s.setEstart e).lines = s.lines := rfl
@[simp] theorem State.setEstart_old : (s.setEstart e).old = s.old := rfl
@[simp] theorem State.setEstart_services : (s.setEstart e).services = s.services := rfl
@[simp] theorem State.setEstart_ptsIn : (s.setEstart e).ptsIn = s.ptsIn := rfl
@[simp] theorem State.setEstart_extents : (s.setEstart e).extents = s.extents := rfl
@[simp] theorem State.setEstart_code : (s.setEstart e).code = s.code := rfl
@[simp] theorem State.setEstart_quads : (s.setEstart e).quads = s.quads := rfl
@[simp] theorem State.setEstart_barriers : (s.setEstart e).barriers = s.barriers := rfl
@[simp] theorem State.setEstart_live : (s.setEstart e).live = s.live := rfl
@[simp] theorem State.setEstart_keyMat : (s.setEstart e).keyMat = s.keyMat := rfl
@[simp] theorem State.setEstart_revoking : (s.setEstart e).revoking = s.revoking := rfl
@[simp] theorem State.setEstart_discards : (s.setEstart e).discards = s.discards := rfl
@[simp] theorem State.setEstart_l720 : (s.setEstart e).l720 = s.l720 := rfl
@[simp] theorem State.setEstart_feats : (s.setEstart e).feats = s.feats := rfl
@[simp] theorem State.setEstart_launches : (s.setEstart e).launches = s.launches := rfl
@[simp] theorem State.setEstart_nextLaunch : (s.setEstart e).nextLaunch = s.nextLaunch := rfl
@[simp] theorem State.setEstart_admittedOnce : (s.setEstart e).admittedOnce = s.admittedOnce := rfl
@[simp] theorem State.setEstart_flights : (s.setEstart e).flights = s.flights := rfl
@[simp] theorem State.setEstart_nextOrder : (s.setEstart e).nextOrder = s.nextOrder := rfl
@[simp] theorem State.setEstart_saves : (s.setEstart e).saves = s.saves := rfl
@[simp] theorem State.setEstart_preempts : (s.setEstart e).preempts = s.preempts := rfl
@[simp] theorem State.setEstart_moves : (s.setEstart e).moves = s.moves := rfl
@[simp] theorem State.setEstart_nextRound : (s.setEstart e).nextRound = s.nextRound := rfl
@[simp] theorem State.setEstart_grants : (s.setEstart e).grants = s.grants := rfl
@[simp] theorem State.setEstart_refills : (s.setEstart e).refills = s.refills := rfl
@[simp] theorem State.setEstart_buckets : (s.setEstart e).buckets = s.buckets := rfl
@[simp] theorem State.setEstart_shares : (s.setEstart e).shares = s.shares := rfl
@[simp] theorem State.setEstart_records : (s.setEstart e).records = s.records := rfl
@[simp] theorem State.setEstart_nextId : (s.setEstart e).nextId = s.nextId := rfl
@[simp] theorem State.setEstart_freed : (s.setEstart e).freed = s.freed := rfl
@[simp] theorem State.setEstart_finalisers : (s.setEstart e).finalisers = s.finalisers := rfl
@[simp] theorem State.setEstart_ballast : (s.setEstart e).ballast = s.ballast := rfl
@[simp] theorem State.setEstart_forwards : (s.setEstart e).forwards = s.forwards := rfl
@[simp] theorem State.setEstart_egress : (s.setEstart e).egress = s.egress := rfl
@[simp] theorem State.setEstart_ingress : (s.setEstart e).ingress = s.ingress := rfl
@[simp] theorem State.setEstart_nextPacket : (s.setEstart e).nextPacket = s.nextPacket := rfl
@[simp] theorem State.setEstart_performed : (s.setEstart e).performed = s.performed := rfl
@[simp] theorem State.setEstart_combined : (s.setEstart e).combined = s.combined := rfl
@[simp] theorem State.setEstart_links : (s.setEstart e).links = s.links := rfl
@[simp] theorem State.setEstart_farDown : (s.setEstart e).farDown = s.farDown := rfl
@[simp] theorem State.setEstart_lost : (s.setEstart e).lost = s.lost := rfl
@[simp] theorem State.setEstart_reached : (s.setEstart e).reached = s.reached := rfl
@[simp] theorem State.setEstart_linkless : (s.setEstart e).linkless = s.linkless := rfl
@[simp] theorem State.setEstart_port : (s.setEstart e).port = s.port := rfl
@[simp] theorem State.setEstart_session : (s.setEstart e).session = s.session := rfl
@[simp] theorem State.setEstart_accepted : (s.setEstart e).accepted = s.accepted := rfl
@[simp] theorem State.setEstart_announced : (s.setEstart e).announced = s.announced := rfl
@[simp] theorem State.setEstart_heard : (s.setEstart e).heard = s.heard := rfl
@[simp] theorem State.setEstart_posts : (s.setEstart e).posts = s.posts := rfl
@[simp] theorem State.setEstart_boot : (s.setEstart e).boot = s.boot := rfl
@[simp] theorem State.setEstart_islands : (s.setEstart e).islands = s.islands := rfl
@[simp] theorem State.setEstart_powerCap : (s.setEstart e).powerCap = s.powerCap := rfl
@[simp] theorem State.setEstart_reports : (s.setEstart e).reports = s.reports := rfl
@[simp] theorem State.setEstart_agenda : (s.setEstart e).agenda = s.agenda := rfl
@[simp] theorem State.setEstart_pick : (s.setEstart e).pick = s.pick := rfl
@[simp] theorem State.setEstart_free : (s.setEstart e).free = s.free := rfl

end

/-! The place in program order. -/

section
variable (s : State) 

@[simp] theorem State.bump_others : (s.bump).others = s.others := rfl
@[simp] theorem State.bump_pkg : (s.bump).pkg = s.pkg := rfl
@[simp] theorem State.bump_time : (s.bump).time = s.time := rfl
@[simp] theorem State.bump_synced : (s.bump).synced = s.synced := rfl
@[simp] theorem State.bump_slewed : (s.bump).slewed = s.slewed := rfl
@[simp] theorem State.bump_mem : (s.bump).mem = s.mem := rfl
@[simp] theorem State.bump_host : (s.bump).host = s.host := rfl
@[simp] theorem State.bump_lines : (s.bump).lines = s.lines := rfl
@[simp] theorem State.bump_old : (s.bump).old = s.old := rfl
@[simp] theorem State.bump_services : (s.bump).services = s.services := rfl
@[simp] theorem State.bump_ptsIn : (s.bump).ptsIn = s.ptsIn := rfl
@[simp] theorem State.bump_extents : (s.bump).extents = s.extents := rfl
@[simp] theorem State.bump_code : (s.bump).code = s.code := rfl
@[simp] theorem State.bump_quads : (s.bump).quads = s.quads := rfl
@[simp] theorem State.bump_barriers : (s.bump).barriers = s.barriers := rfl
@[simp] theorem State.bump_live : (s.bump).live = s.live := rfl
@[simp] theorem State.bump_keyMat : (s.bump).keyMat = s.keyMat := rfl
@[simp] theorem State.bump_revoking : (s.bump).revoking = s.revoking := rfl
@[simp] theorem State.bump_discards : (s.bump).discards = s.discards := rfl
@[simp] theorem State.bump_l720 : (s.bump).l720 = s.l720 := rfl
@[simp] theorem State.bump_feats : (s.bump).feats = s.feats := rfl
@[simp] theorem State.bump_launches : (s.bump).launches = s.launches := rfl
@[simp] theorem State.bump_nextLaunch : (s.bump).nextLaunch = s.nextLaunch := rfl
@[simp] theorem State.bump_admittedOnce : (s.bump).admittedOnce = s.admittedOnce := rfl
@[simp] theorem State.bump_flights : (s.bump).flights = s.flights := rfl
@[simp] theorem State.bump_nextOrder : (s.bump).nextOrder = s.nextOrder := rfl
@[simp] theorem State.bump_saves : (s.bump).saves = s.saves := rfl
@[simp] theorem State.bump_preempts : (s.bump).preempts = s.preempts := rfl
@[simp] theorem State.bump_moves : (s.bump).moves = s.moves := rfl
@[simp] theorem State.bump_nextRound : (s.bump).nextRound = s.nextRound := rfl
@[simp] theorem State.bump_grants : (s.bump).grants = s.grants := rfl
@[simp] theorem State.bump_refills : (s.bump).refills = s.refills := rfl
@[simp] theorem State.bump_buckets : (s.bump).buckets = s.buckets := rfl
@[simp] theorem State.bump_shares : (s.bump).shares = s.shares := rfl
@[simp] theorem State.bump_records : (s.bump).records = s.records := rfl
@[simp] theorem State.bump_nextId : (s.bump).nextId = s.nextId := rfl
@[simp] theorem State.bump_freed : (s.bump).freed = s.freed := rfl
@[simp] theorem State.bump_finalisers : (s.bump).finalisers = s.finalisers := rfl
@[simp] theorem State.bump_ballast : (s.bump).ballast = s.ballast := rfl
@[simp] theorem State.bump_forwards : (s.bump).forwards = s.forwards := rfl
@[simp] theorem State.bump_egress : (s.bump).egress = s.egress := rfl
@[simp] theorem State.bump_ingress : (s.bump).ingress = s.ingress := rfl
@[simp] theorem State.bump_nextPacket : (s.bump).nextPacket = s.nextPacket := rfl
@[simp] theorem State.bump_performed : (s.bump).performed = s.performed := rfl
@[simp] theorem State.bump_combined : (s.bump).combined = s.combined := rfl
@[simp] theorem State.bump_links : (s.bump).links = s.links := rfl
@[simp] theorem State.bump_farDown : (s.bump).farDown = s.farDown := rfl
@[simp] theorem State.bump_lost : (s.bump).lost = s.lost := rfl
@[simp] theorem State.bump_reached : (s.bump).reached = s.reached := rfl
@[simp] theorem State.bump_linkless : (s.bump).linkless = s.linkless := rfl
@[simp] theorem State.bump_port : (s.bump).port = s.port := rfl
@[simp] theorem State.bump_session : (s.bump).session = s.session := rfl
@[simp] theorem State.bump_accepted : (s.bump).accepted = s.accepted := rfl
@[simp] theorem State.bump_announced : (s.bump).announced = s.announced := rfl
@[simp] theorem State.bump_heard : (s.bump).heard = s.heard := rfl
@[simp] theorem State.bump_posts : (s.bump).posts = s.posts := rfl
@[simp] theorem State.bump_boot : (s.bump).boot = s.boot := rfl
@[simp] theorem State.bump_islands : (s.bump).islands = s.islands := rfl
@[simp] theorem State.bump_powerCap : (s.bump).powerCap = s.powerCap := rfl
@[simp] theorem State.bump_reports : (s.bump).reports = s.reports := rfl
@[simp] theorem State.bump_agenda : (s.bump).agenda = s.agenda := rfl
@[simp] theorem State.bump_pick : (s.bump).pick = s.pick := rfl
@[simp] theorem State.bump_free : (s.bump).free = s.free := rfl

end

/-! A quad. -/

section
variable (s : State) (q : Quad)

@[simp] theorem State.setQuad_core : (s.setQuad q).core = s.core := rfl
@[simp] theorem State.setQuad_others : (s.setQuad q).others = s.others := rfl
@[simp] theorem State.setQuad_pkg : (s.setQuad q).pkg = s.pkg := rfl
@[simp] theorem State.setQuad_time : (s.setQuad q).time = s.time := rfl
@[simp] theorem State.setQuad_synced : (s.setQuad q).synced = s.synced := rfl
@[simp] theorem State.setQuad_slewed : (s.setQuad q).slewed = s.slewed := rfl
@[simp] theorem State.setQuad_mem : (s.setQuad q).mem = s.mem := rfl
@[simp] theorem State.setQuad_host : (s.setQuad q).host = s.host := rfl
@[simp] theorem State.setQuad_lines : (s.setQuad q).lines = s.lines := rfl
@[simp] theorem State.setQuad_old : (s.setQuad q).old = s.old := rfl
@[simp] theorem State.setQuad_services : (s.setQuad q).services = s.services := rfl
@[simp] theorem State.setQuad_ptsIn : (s.setQuad q).ptsIn = s.ptsIn := rfl
@[simp] theorem State.setQuad_extents : (s.setQuad q).extents = s.extents := rfl
@[simp] theorem State.setQuad_code : (s.setQuad q).code = s.code := rfl
@[simp] theorem State.setQuad_barriers : (s.setQuad q).barriers = s.barriers := rfl
@[simp] theorem State.setQuad_live : (s.setQuad q).live = s.live := rfl
@[simp] theorem State.setQuad_keyMat : (s.setQuad q).keyMat = s.keyMat := rfl
@[simp] theorem State.setQuad_revoking : (s.setQuad q).revoking = s.revoking := rfl
@[simp] theorem State.setQuad_discards : (s.setQuad q).discards = s.discards := rfl
@[simp] theorem State.setQuad_l720 : (s.setQuad q).l720 = s.l720 := rfl
@[simp] theorem State.setQuad_feats : (s.setQuad q).feats = s.feats := rfl
@[simp] theorem State.setQuad_launches : (s.setQuad q).launches = s.launches := rfl
@[simp] theorem State.setQuad_nextLaunch : (s.setQuad q).nextLaunch = s.nextLaunch := rfl
@[simp] theorem State.setQuad_admittedOnce : (s.setQuad q).admittedOnce = s.admittedOnce := rfl
@[simp] theorem State.setQuad_flights : (s.setQuad q).flights = s.flights := rfl
@[simp] theorem State.setQuad_nextOrder : (s.setQuad q).nextOrder = s.nextOrder := rfl
@[simp] theorem State.setQuad_saves : (s.setQuad q).saves = s.saves := rfl
@[simp] theorem State.setQuad_preempts : (s.setQuad q).preempts = s.preempts := rfl
@[simp] theorem State.setQuad_moves : (s.setQuad q).moves = s.moves := rfl
@[simp] theorem State.setQuad_nextRound : (s.setQuad q).nextRound = s.nextRound := rfl
@[simp] theorem State.setQuad_grants : (s.setQuad q).grants = s.grants := rfl
@[simp] theorem State.setQuad_refills : (s.setQuad q).refills = s.refills := rfl
@[simp] theorem State.setQuad_buckets : (s.setQuad q).buckets = s.buckets := rfl
@[simp] theorem State.setQuad_shares : (s.setQuad q).shares = s.shares := rfl
@[simp] theorem State.setQuad_records : (s.setQuad q).records = s.records := rfl
@[simp] theorem State.setQuad_nextId : (s.setQuad q).nextId = s.nextId := rfl
@[simp] theorem State.setQuad_freed : (s.setQuad q).freed = s.freed := rfl
@[simp] theorem State.setQuad_finalisers : (s.setQuad q).finalisers = s.finalisers := rfl
@[simp] theorem State.setQuad_ballast : (s.setQuad q).ballast = s.ballast := rfl
@[simp] theorem State.setQuad_forwards : (s.setQuad q).forwards = s.forwards := rfl
@[simp] theorem State.setQuad_egress : (s.setQuad q).egress = s.egress := rfl
@[simp] theorem State.setQuad_ingress : (s.setQuad q).ingress = s.ingress := rfl
@[simp] theorem State.setQuad_nextPacket : (s.setQuad q).nextPacket = s.nextPacket := rfl
@[simp] theorem State.setQuad_performed : (s.setQuad q).performed = s.performed := rfl
@[simp] theorem State.setQuad_combined : (s.setQuad q).combined = s.combined := rfl
@[simp] theorem State.setQuad_links : (s.setQuad q).links = s.links := rfl
@[simp] theorem State.setQuad_farDown : (s.setQuad q).farDown = s.farDown := rfl
@[simp] theorem State.setQuad_lost : (s.setQuad q).lost = s.lost := rfl
@[simp] theorem State.setQuad_reached : (s.setQuad q).reached = s.reached := rfl
@[simp] theorem State.setQuad_linkless : (s.setQuad q).linkless = s.linkless := rfl
@[simp] theorem State.setQuad_port : (s.setQuad q).port = s.port := rfl
@[simp] theorem State.setQuad_session : (s.setQuad q).session = s.session := rfl
@[simp] theorem State.setQuad_accepted : (s.setQuad q).accepted = s.accepted := rfl
@[simp] theorem State.setQuad_announced : (s.setQuad q).announced = s.announced := rfl
@[simp] theorem State.setQuad_heard : (s.setQuad q).heard = s.heard := rfl
@[simp] theorem State.setQuad_posts : (s.setQuad q).posts = s.posts := rfl
@[simp] theorem State.setQuad_boot : (s.setQuad q).boot = s.boot := rfl
@[simp] theorem State.setQuad_islands : (s.setQuad q).islands = s.islands := rfl
@[simp] theorem State.setQuad_powerCap : (s.setQuad q).powerCap = s.powerCap := rfl
@[simp] theorem State.setQuad_reports : (s.setQuad q).reports = s.reports := rfl
@[simp] theorem State.setQuad_agenda : (s.setQuad q).agenda = s.agenda := rfl
@[simp] theorem State.setQuad_pick : (s.setQuad q).pick = s.pick := rfl
@[simp] theorem State.setQuad_free : (s.setQuad q).free = s.free := rfl

end

/-! A launch. -/

section
variable (s : State) (l : Launch)

@[simp] theorem State.setLaunch_core : (s.setLaunch l).core = s.core := rfl
@[simp] theorem State.setLaunch_others : (s.setLaunch l).others = s.others := rfl
@[simp] theorem State.setLaunch_pkg : (s.setLaunch l).pkg = s.pkg := rfl
@[simp] theorem State.setLaunch_time : (s.setLaunch l).time = s.time := rfl
@[simp] theorem State.setLaunch_synced : (s.setLaunch l).synced = s.synced := rfl
@[simp] theorem State.setLaunch_slewed : (s.setLaunch l).slewed = s.slewed := rfl
@[simp] theorem State.setLaunch_mem : (s.setLaunch l).mem = s.mem := rfl
@[simp] theorem State.setLaunch_host : (s.setLaunch l).host = s.host := rfl
@[simp] theorem State.setLaunch_lines : (s.setLaunch l).lines = s.lines := rfl
@[simp] theorem State.setLaunch_old : (s.setLaunch l).old = s.old := rfl
@[simp] theorem State.setLaunch_services : (s.setLaunch l).services = s.services := rfl
@[simp] theorem State.setLaunch_ptsIn : (s.setLaunch l).ptsIn = s.ptsIn := rfl
@[simp] theorem State.setLaunch_extents : (s.setLaunch l).extents = s.extents := rfl
@[simp] theorem State.setLaunch_code : (s.setLaunch l).code = s.code := rfl
@[simp] theorem State.setLaunch_quads : (s.setLaunch l).quads = s.quads := rfl
@[simp] theorem State.setLaunch_barriers : (s.setLaunch l).barriers = s.barriers := rfl
@[simp] theorem State.setLaunch_live : (s.setLaunch l).live = s.live := rfl
@[simp] theorem State.setLaunch_keyMat : (s.setLaunch l).keyMat = s.keyMat := rfl
@[simp] theorem State.setLaunch_revoking : (s.setLaunch l).revoking = s.revoking := rfl
@[simp] theorem State.setLaunch_discards : (s.setLaunch l).discards = s.discards := rfl
@[simp] theorem State.setLaunch_l720 : (s.setLaunch l).l720 = s.l720 := rfl
@[simp] theorem State.setLaunch_feats : (s.setLaunch l).feats = s.feats := rfl
@[simp] theorem State.setLaunch_nextLaunch : (s.setLaunch l).nextLaunch = s.nextLaunch := rfl
@[simp] theorem State.setLaunch_admittedOnce : (s.setLaunch l).admittedOnce = s.admittedOnce := rfl
@[simp] theorem State.setLaunch_flights : (s.setLaunch l).flights = s.flights := rfl
@[simp] theorem State.setLaunch_nextOrder : (s.setLaunch l).nextOrder = s.nextOrder := rfl
@[simp] theorem State.setLaunch_saves : (s.setLaunch l).saves = s.saves := rfl
@[simp] theorem State.setLaunch_preempts : (s.setLaunch l).preempts = s.preempts := rfl
@[simp] theorem State.setLaunch_moves : (s.setLaunch l).moves = s.moves := rfl
@[simp] theorem State.setLaunch_nextRound : (s.setLaunch l).nextRound = s.nextRound := rfl
@[simp] theorem State.setLaunch_grants : (s.setLaunch l).grants = s.grants := rfl
@[simp] theorem State.setLaunch_refills : (s.setLaunch l).refills = s.refills := rfl
@[simp] theorem State.setLaunch_buckets : (s.setLaunch l).buckets = s.buckets := rfl
@[simp] theorem State.setLaunch_shares : (s.setLaunch l).shares = s.shares := rfl
@[simp] theorem State.setLaunch_records : (s.setLaunch l).records = s.records := rfl
@[simp] theorem State.setLaunch_nextId : (s.setLaunch l).nextId = s.nextId := rfl
@[simp] theorem State.setLaunch_freed : (s.setLaunch l).freed = s.freed := rfl
@[simp] theorem State.setLaunch_finalisers : (s.setLaunch l).finalisers = s.finalisers := rfl
@[simp] theorem State.setLaunch_ballast : (s.setLaunch l).ballast = s.ballast := rfl
@[simp] theorem State.setLaunch_forwards : (s.setLaunch l).forwards = s.forwards := rfl
@[simp] theorem State.setLaunch_egress : (s.setLaunch l).egress = s.egress := rfl
@[simp] theorem State.setLaunch_ingress : (s.setLaunch l).ingress = s.ingress := rfl
@[simp] theorem State.setLaunch_nextPacket : (s.setLaunch l).nextPacket = s.nextPacket := rfl
@[simp] theorem State.setLaunch_performed : (s.setLaunch l).performed = s.performed := rfl
@[simp] theorem State.setLaunch_combined : (s.setLaunch l).combined = s.combined := rfl
@[simp] theorem State.setLaunch_links : (s.setLaunch l).links = s.links := rfl
@[simp] theorem State.setLaunch_farDown : (s.setLaunch l).farDown = s.farDown := rfl
@[simp] theorem State.setLaunch_lost : (s.setLaunch l).lost = s.lost := rfl
@[simp] theorem State.setLaunch_reached : (s.setLaunch l).reached = s.reached := rfl
@[simp] theorem State.setLaunch_linkless : (s.setLaunch l).linkless = s.linkless := rfl
@[simp] theorem State.setLaunch_port : (s.setLaunch l).port = s.port := rfl
@[simp] theorem State.setLaunch_session : (s.setLaunch l).session = s.session := rfl
@[simp] theorem State.setLaunch_accepted : (s.setLaunch l).accepted = s.accepted := rfl
@[simp] theorem State.setLaunch_announced : (s.setLaunch l).announced = s.announced := rfl
@[simp] theorem State.setLaunch_heard : (s.setLaunch l).heard = s.heard := rfl
@[simp] theorem State.setLaunch_posts : (s.setLaunch l).posts = s.posts := rfl
@[simp] theorem State.setLaunch_boot : (s.setLaunch l).boot = s.boot := rfl
@[simp] theorem State.setLaunch_islands : (s.setLaunch l).islands = s.islands := rfl
@[simp] theorem State.setLaunch_powerCap : (s.setLaunch l).powerCap = s.powerCap := rfl
@[simp] theorem State.setLaunch_reports : (s.setLaunch l).reports = s.reports := rfl
@[simp] theorem State.setLaunch_agenda : (s.setLaunch l).agenda = s.agenda := rfl
@[simp] theorem State.setLaunch_pick : (s.setLaunch l).pick = s.pick := rfl
@[simp] theorem State.setLaunch_free : (s.setLaunch l).free = s.free := rfl

end

/-! An extent-table entry. -/

section
variable (s : State) (e : Extent)

@[simp] theorem State.setExtent_core : (s.setExtent e).core = s.core := rfl
@[simp] theorem State.setExtent_others : (s.setExtent e).others = s.others := rfl
@[simp] theorem State.setExtent_pkg : (s.setExtent e).pkg = s.pkg := rfl
@[simp] theorem State.setExtent_time : (s.setExtent e).time = s.time := rfl
@[simp] theorem State.setExtent_synced : (s.setExtent e).synced = s.synced := rfl
@[simp] theorem State.setExtent_slewed : (s.setExtent e).slewed = s.slewed := rfl
@[simp] theorem State.setExtent_mem : (s.setExtent e).mem = s.mem := rfl
@[simp] theorem State.setExtent_host : (s.setExtent e).host = s.host := rfl
@[simp] theorem State.setExtent_lines : (s.setExtent e).lines = s.lines := rfl
@[simp] theorem State.setExtent_old : (s.setExtent e).old = s.old := rfl
@[simp] theorem State.setExtent_services : (s.setExtent e).services = s.services := rfl
@[simp] theorem State.setExtent_ptsIn : (s.setExtent e).ptsIn = s.ptsIn := rfl
@[simp] theorem State.setExtent_code : (s.setExtent e).code = s.code := rfl
@[simp] theorem State.setExtent_quads : (s.setExtent e).quads = s.quads := rfl
@[simp] theorem State.setExtent_barriers : (s.setExtent e).barriers = s.barriers := rfl
@[simp] theorem State.setExtent_live : (s.setExtent e).live = s.live := rfl
@[simp] theorem State.setExtent_keyMat : (s.setExtent e).keyMat = s.keyMat := rfl
@[simp] theorem State.setExtent_revoking : (s.setExtent e).revoking = s.revoking := rfl
@[simp] theorem State.setExtent_discards : (s.setExtent e).discards = s.discards := rfl
@[simp] theorem State.setExtent_l720 : (s.setExtent e).l720 = s.l720 := rfl
@[simp] theorem State.setExtent_feats : (s.setExtent e).feats = s.feats := rfl
@[simp] theorem State.setExtent_launches : (s.setExtent e).launches = s.launches := rfl
@[simp] theorem State.setExtent_nextLaunch : (s.setExtent e).nextLaunch = s.nextLaunch := rfl
@[simp] theorem State.setExtent_admittedOnce : (s.setExtent e).admittedOnce = s.admittedOnce := rfl
@[simp] theorem State.setExtent_flights : (s.setExtent e).flights = s.flights := rfl
@[simp] theorem State.setExtent_nextOrder : (s.setExtent e).nextOrder = s.nextOrder := rfl
@[simp] theorem State.setExtent_saves : (s.setExtent e).saves = s.saves := rfl
@[simp] theorem State.setExtent_preempts : (s.setExtent e).preempts = s.preempts := rfl
@[simp] theorem State.setExtent_moves : (s.setExtent e).moves = s.moves := rfl
@[simp] theorem State.setExtent_nextRound : (s.setExtent e).nextRound = s.nextRound := rfl
@[simp] theorem State.setExtent_grants : (s.setExtent e).grants = s.grants := rfl
@[simp] theorem State.setExtent_refills : (s.setExtent e).refills = s.refills := rfl
@[simp] theorem State.setExtent_buckets : (s.setExtent e).buckets = s.buckets := rfl
@[simp] theorem State.setExtent_shares : (s.setExtent e).shares = s.shares := rfl
@[simp] theorem State.setExtent_records : (s.setExtent e).records = s.records := rfl
@[simp] theorem State.setExtent_nextId : (s.setExtent e).nextId = s.nextId := rfl
@[simp] theorem State.setExtent_freed : (s.setExtent e).freed = s.freed := rfl
@[simp] theorem State.setExtent_finalisers : (s.setExtent e).finalisers = s.finalisers := rfl
@[simp] theorem State.setExtent_ballast : (s.setExtent e).ballast = s.ballast := rfl
@[simp] theorem State.setExtent_forwards : (s.setExtent e).forwards = s.forwards := rfl
@[simp] theorem State.setExtent_egress : (s.setExtent e).egress = s.egress := rfl
@[simp] theorem State.setExtent_ingress : (s.setExtent e).ingress = s.ingress := rfl
@[simp] theorem State.setExtent_nextPacket : (s.setExtent e).nextPacket = s.nextPacket := rfl
@[simp] theorem State.setExtent_performed : (s.setExtent e).performed = s.performed := rfl
@[simp] theorem State.setExtent_combined : (s.setExtent e).combined = s.combined := rfl
@[simp] theorem State.setExtent_links : (s.setExtent e).links = s.links := rfl
@[simp] theorem State.setExtent_farDown : (s.setExtent e).farDown = s.farDown := rfl
@[simp] theorem State.setExtent_lost : (s.setExtent e).lost = s.lost := rfl
@[simp] theorem State.setExtent_reached : (s.setExtent e).reached = s.reached := rfl
@[simp] theorem State.setExtent_linkless : (s.setExtent e).linkless = s.linkless := rfl
@[simp] theorem State.setExtent_port : (s.setExtent e).port = s.port := rfl
@[simp] theorem State.setExtent_session : (s.setExtent e).session = s.session := rfl
@[simp] theorem State.setExtent_accepted : (s.setExtent e).accepted = s.accepted := rfl
@[simp] theorem State.setExtent_announced : (s.setExtent e).announced = s.announced := rfl
@[simp] theorem State.setExtent_heard : (s.setExtent e).heard = s.heard := rfl
@[simp] theorem State.setExtent_posts : (s.setExtent e).posts = s.posts := rfl
@[simp] theorem State.setExtent_boot : (s.setExtent e).boot = s.boot := rfl
@[simp] theorem State.setExtent_islands : (s.setExtent e).islands = s.islands := rfl
@[simp] theorem State.setExtent_powerCap : (s.setExtent e).powerCap = s.powerCap := rfl
@[simp] theorem State.setExtent_reports : (s.setExtent e).reports = s.reports := rfl
@[simp] theorem State.setExtent_agenda : (s.setExtent e).agenda = s.agenda := rfl
@[simp] theorem State.setExtent_pick : (s.setExtent e).pick = s.pick := rfl
@[simp] theorem State.setExtent_free : (s.setExtent e).free = s.free := rfl

end

/-! A line's clocks. -/

section
variable (s : State) (l : LineClock)

@[simp] theorem State.setClock_core : (s.setClock l).core = s.core := rfl
@[simp] theorem State.setClock_others : (s.setClock l).others = s.others := rfl
@[simp] theorem State.setClock_pkg : (s.setClock l).pkg = s.pkg := rfl
@[simp] theorem State.setClock_time : (s.setClock l).time = s.time := rfl
@[simp] theorem State.setClock_synced : (s.setClock l).synced = s.synced := rfl
@[simp] theorem State.setClock_slewed : (s.setClock l).slewed = s.slewed := rfl
@[simp] theorem State.setClock_mem : (s.setClock l).mem = s.mem := rfl
@[simp] theorem State.setClock_host : (s.setClock l).host = s.host := rfl
@[simp] theorem State.setClock_old : (s.setClock l).old = s.old := rfl
@[simp] theorem State.setClock_services : (s.setClock l).services = s.services := rfl
@[simp] theorem State.setClock_ptsIn : (s.setClock l).ptsIn = s.ptsIn := rfl
@[simp] theorem State.setClock_extents : (s.setClock l).extents = s.extents := rfl
@[simp] theorem State.setClock_code : (s.setClock l).code = s.code := rfl
@[simp] theorem State.setClock_quads : (s.setClock l).quads = s.quads := rfl
@[simp] theorem State.setClock_barriers : (s.setClock l).barriers = s.barriers := rfl
@[simp] theorem State.setClock_live : (s.setClock l).live = s.live := rfl
@[simp] theorem State.setClock_keyMat : (s.setClock l).keyMat = s.keyMat := rfl
@[simp] theorem State.setClock_revoking : (s.setClock l).revoking = s.revoking := rfl
@[simp] theorem State.setClock_discards : (s.setClock l).discards = s.discards := rfl
@[simp] theorem State.setClock_l720 : (s.setClock l).l720 = s.l720 := rfl
@[simp] theorem State.setClock_feats : (s.setClock l).feats = s.feats := rfl
@[simp] theorem State.setClock_launches : (s.setClock l).launches = s.launches := rfl
@[simp] theorem State.setClock_nextLaunch : (s.setClock l).nextLaunch = s.nextLaunch := rfl
@[simp] theorem State.setClock_admittedOnce : (s.setClock l).admittedOnce = s.admittedOnce := rfl
@[simp] theorem State.setClock_flights : (s.setClock l).flights = s.flights := rfl
@[simp] theorem State.setClock_nextOrder : (s.setClock l).nextOrder = s.nextOrder := rfl
@[simp] theorem State.setClock_saves : (s.setClock l).saves = s.saves := rfl
@[simp] theorem State.setClock_preempts : (s.setClock l).preempts = s.preempts := rfl
@[simp] theorem State.setClock_moves : (s.setClock l).moves = s.moves := rfl
@[simp] theorem State.setClock_nextRound : (s.setClock l).nextRound = s.nextRound := rfl
@[simp] theorem State.setClock_grants : (s.setClock l).grants = s.grants := rfl
@[simp] theorem State.setClock_refills : (s.setClock l).refills = s.refills := rfl
@[simp] theorem State.setClock_buckets : (s.setClock l).buckets = s.buckets := rfl
@[simp] theorem State.setClock_shares : (s.setClock l).shares = s.shares := rfl
@[simp] theorem State.setClock_records : (s.setClock l).records = s.records := rfl
@[simp] theorem State.setClock_nextId : (s.setClock l).nextId = s.nextId := rfl
@[simp] theorem State.setClock_freed : (s.setClock l).freed = s.freed := rfl
@[simp] theorem State.setClock_finalisers : (s.setClock l).finalisers = s.finalisers := rfl
@[simp] theorem State.setClock_ballast : (s.setClock l).ballast = s.ballast := rfl
@[simp] theorem State.setClock_forwards : (s.setClock l).forwards = s.forwards := rfl
@[simp] theorem State.setClock_egress : (s.setClock l).egress = s.egress := rfl
@[simp] theorem State.setClock_ingress : (s.setClock l).ingress = s.ingress := rfl
@[simp] theorem State.setClock_nextPacket : (s.setClock l).nextPacket = s.nextPacket := rfl
@[simp] theorem State.setClock_performed : (s.setClock l).performed = s.performed := rfl
@[simp] theorem State.setClock_combined : (s.setClock l).combined = s.combined := rfl
@[simp] theorem State.setClock_links : (s.setClock l).links = s.links := rfl
@[simp] theorem State.setClock_farDown : (s.setClock l).farDown = s.farDown := rfl
@[simp] theorem State.setClock_lost : (s.setClock l).lost = s.lost := rfl
@[simp] theorem State.setClock_reached : (s.setClock l).reached = s.reached := rfl
@[simp] theorem State.setClock_linkless : (s.setClock l).linkless = s.linkless := rfl
@[simp] theorem State.setClock_port : (s.setClock l).port = s.port := rfl
@[simp] theorem State.setClock_session : (s.setClock l).session = s.session := rfl
@[simp] theorem State.setClock_accepted : (s.setClock l).accepted = s.accepted := rfl
@[simp] theorem State.setClock_announced : (s.setClock l).announced = s.announced := rfl
@[simp] theorem State.setClock_heard : (s.setClock l).heard = s.heard := rfl
@[simp] theorem State.setClock_posts : (s.setClock l).posts = s.posts := rfl
@[simp] theorem State.setClock_boot : (s.setClock l).boot = s.boot := rfl
@[simp] theorem State.setClock_islands : (s.setClock l).islands = s.islands := rfl
@[simp] theorem State.setClock_powerCap : (s.setClock l).powerCap = s.powerCap := rfl
@[simp] theorem State.setClock_reports : (s.setClock l).reports = s.reports := rfl
@[simp] theorem State.setClock_agenda : (s.setClock l).agenda = s.agenda := rfl
@[simp] theorem State.setClock_pick : (s.setClock l).pick = s.pick := rfl
@[simp] theorem State.setClock_free : (s.setClock l).free = s.free := rfl

end

/-! Superseded versions are dropped. -/

section
variable (s : State) 

@[simp] theorem State.forget_core : (s.forget).core = s.core := rfl
@[simp] theorem State.forget_others : (s.forget).others = s.others := rfl
@[simp] theorem State.forget_pkg : (s.forget).pkg = s.pkg := rfl
@[simp] theorem State.forget_time : (s.forget).time = s.time := rfl
@[simp] theorem State.forget_synced : (s.forget).synced = s.synced := rfl
@[simp] theorem State.forget_slewed : (s.forget).slewed = s.slewed := rfl
@[simp] theorem State.forget_mem : (s.forget).mem = s.mem := rfl
@[simp] theorem State.forget_host : (s.forget).host = s.host := rfl
@[simp] theorem State.forget_lines : (s.forget).lines = s.lines := rfl
@[simp] theorem State.forget_services : (s.forget).services = s.services := rfl
@[simp] theorem State.forget_ptsIn : (s.forget).ptsIn = s.ptsIn := rfl
@[simp] theorem State.forget_extents : (s.forget).extents = s.extents := rfl
@[simp] theorem State.forget_code : (s.forget).code = s.code := rfl
@[simp] theorem State.forget_quads : (s.forget).quads = s.quads := rfl
@[simp] theorem State.forget_barriers : (s.forget).barriers = s.barriers := rfl
@[simp] theorem State.forget_live : (s.forget).live = s.live := rfl
@[simp] theorem State.forget_keyMat : (s.forget).keyMat = s.keyMat := rfl
@[simp] theorem State.forget_revoking : (s.forget).revoking = s.revoking := rfl
@[simp] theorem State.forget_discards : (s.forget).discards = s.discards := rfl
@[simp] theorem State.forget_l720 : (s.forget).l720 = s.l720 := rfl
@[simp] theorem State.forget_feats : (s.forget).feats = s.feats := rfl
@[simp] theorem State.forget_launches : (s.forget).launches = s.launches := rfl
@[simp] theorem State.forget_nextLaunch : (s.forget).nextLaunch = s.nextLaunch := rfl
@[simp] theorem State.forget_admittedOnce : (s.forget).admittedOnce = s.admittedOnce := rfl
@[simp] theorem State.forget_flights : (s.forget).flights = s.flights := rfl
@[simp] theorem State.forget_nextOrder : (s.forget).nextOrder = s.nextOrder := rfl
@[simp] theorem State.forget_saves : (s.forget).saves = s.saves := rfl
@[simp] theorem State.forget_preempts : (s.forget).preempts = s.preempts := rfl
@[simp] theorem State.forget_moves : (s.forget).moves = s.moves := rfl
@[simp] theorem State.forget_nextRound : (s.forget).nextRound = s.nextRound := rfl
@[simp] theorem State.forget_grants : (s.forget).grants = s.grants := rfl
@[simp] theorem State.forget_refills : (s.forget).refills = s.refills := rfl
@[simp] theorem State.forget_buckets : (s.forget).buckets = s.buckets := rfl
@[simp] theorem State.forget_shares : (s.forget).shares = s.shares := rfl
@[simp] theorem State.forget_records : (s.forget).records = s.records := rfl
@[simp] theorem State.forget_nextId : (s.forget).nextId = s.nextId := rfl
@[simp] theorem State.forget_freed : (s.forget).freed = s.freed := rfl
@[simp] theorem State.forget_finalisers : (s.forget).finalisers = s.finalisers := rfl
@[simp] theorem State.forget_ballast : (s.forget).ballast = s.ballast := rfl
@[simp] theorem State.forget_forwards : (s.forget).forwards = s.forwards := rfl
@[simp] theorem State.forget_egress : (s.forget).egress = s.egress := rfl
@[simp] theorem State.forget_ingress : (s.forget).ingress = s.ingress := rfl
@[simp] theorem State.forget_nextPacket : (s.forget).nextPacket = s.nextPacket := rfl
@[simp] theorem State.forget_performed : (s.forget).performed = s.performed := rfl
@[simp] theorem State.forget_combined : (s.forget).combined = s.combined := rfl
@[simp] theorem State.forget_links : (s.forget).links = s.links := rfl
@[simp] theorem State.forget_farDown : (s.forget).farDown = s.farDown := rfl
@[simp] theorem State.forget_lost : (s.forget).lost = s.lost := rfl
@[simp] theorem State.forget_reached : (s.forget).reached = s.reached := rfl
@[simp] theorem State.forget_linkless : (s.forget).linkless = s.linkless := rfl
@[simp] theorem State.forget_port : (s.forget).port = s.port := rfl
@[simp] theorem State.forget_session : (s.forget).session = s.session := rfl
@[simp] theorem State.forget_accepted : (s.forget).accepted = s.accepted := rfl
@[simp] theorem State.forget_announced : (s.forget).announced = s.announced := rfl
@[simp] theorem State.forget_heard : (s.forget).heard = s.heard := rfl
@[simp] theorem State.forget_posts : (s.forget).posts = s.posts := rfl
@[simp] theorem State.forget_boot : (s.forget).boot = s.boot := rfl
@[simp] theorem State.forget_islands : (s.forget).islands = s.islands := rfl
@[simp] theorem State.forget_powerCap : (s.forget).powerCap = s.powerCap := rfl
@[simp] theorem State.forget_reports : (s.forget).reports = s.reports := rfl
@[simp] theorem State.forget_agenda : (s.forget).agenda = s.agenda := rfl
@[simp] theorem State.forget_pick : (s.forget).pick = s.pick := rfl
@[simp] theorem State.forget_free : (s.forget).free = s.free := rfl

end

/-! Another core is replaced, or the focused one. -/

section
variable (s : State) (c : Core)

@[simp] theorem State.setCore_pkg : (s.setCore c).pkg = s.pkg := by unfold State.setCore; split <;> rfl
@[simp] theorem State.setCore_time : (s.setCore c).time = s.time := by unfold State.setCore; split <;> rfl
@[simp] theorem State.setCore_synced : (s.setCore c).synced = s.synced := by unfold State.setCore; split <;> rfl
@[simp] theorem State.setCore_slewed : (s.setCore c).slewed = s.slewed := by unfold State.setCore; split <;> rfl
@[simp] theorem State.setCore_mem : (s.setCore c).mem = s.mem := by unfold State.setCore; split <;> rfl
@[simp] theorem State.setCore_host : (s.setCore c).host = s.host := by unfold State.setCore; split <;> rfl
@[simp] theorem State.setCore_lines : (s.setCore c).lines = s.lines := by unfold State.setCore; split <;> rfl
@[simp] theorem State.setCore_old : (s.setCore c).old = s.old := by unfold State.setCore; split <;> rfl
@[simp] theorem State.setCore_services : (s.setCore c).services = s.services := by unfold State.setCore; split <;> rfl
@[simp] theorem State.setCore_ptsIn : (s.setCore c).ptsIn = s.ptsIn := by unfold State.setCore; split <;> rfl
@[simp] theorem State.setCore_extents : (s.setCore c).extents = s.extents := by unfold State.setCore; split <;> rfl
@[simp] theorem State.setCore_code : (s.setCore c).code = s.code := by unfold State.setCore; split <;> rfl
@[simp] theorem State.setCore_quads : (s.setCore c).quads = s.quads := by unfold State.setCore; split <;> rfl
@[simp] theorem State.setCore_barriers : (s.setCore c).barriers = s.barriers := by unfold State.setCore; split <;> rfl
@[simp] theorem State.setCore_live : (s.setCore c).live = s.live := by unfold State.setCore; split <;> rfl
@[simp] theorem State.setCore_keyMat : (s.setCore c).keyMat = s.keyMat := by unfold State.setCore; split <;> rfl
@[simp] theorem State.setCore_revoking : (s.setCore c).revoking = s.revoking := by unfold State.setCore; split <;> rfl
@[simp] theorem State.setCore_discards : (s.setCore c).discards = s.discards := by unfold State.setCore; split <;> rfl
@[simp] theorem State.setCore_l720 : (s.setCore c).l720 = s.l720 := by unfold State.setCore; split <;> rfl
@[simp] theorem State.setCore_feats : (s.setCore c).feats = s.feats := by unfold State.setCore; split <;> rfl
@[simp] theorem State.setCore_launches : (s.setCore c).launches = s.launches := by unfold State.setCore; split <;> rfl
@[simp] theorem State.setCore_nextLaunch : (s.setCore c).nextLaunch = s.nextLaunch := by unfold State.setCore; split <;> rfl
@[simp] theorem State.setCore_admittedOnce : (s.setCore c).admittedOnce = s.admittedOnce := by unfold State.setCore; split <;> rfl
@[simp] theorem State.setCore_flights : (s.setCore c).flights = s.flights := by unfold State.setCore; split <;> rfl
@[simp] theorem State.setCore_nextOrder : (s.setCore c).nextOrder = s.nextOrder := by unfold State.setCore; split <;> rfl
@[simp] theorem State.setCore_saves : (s.setCore c).saves = s.saves := by unfold State.setCore; split <;> rfl
@[simp] theorem State.setCore_preempts : (s.setCore c).preempts = s.preempts := by unfold State.setCore; split <;> rfl
@[simp] theorem State.setCore_moves : (s.setCore c).moves = s.moves := by unfold State.setCore; split <;> rfl
@[simp] theorem State.setCore_nextRound : (s.setCore c).nextRound = s.nextRound := by unfold State.setCore; split <;> rfl
@[simp] theorem State.setCore_grants : (s.setCore c).grants = s.grants := by unfold State.setCore; split <;> rfl
@[simp] theorem State.setCore_refills : (s.setCore c).refills = s.refills := by unfold State.setCore; split <;> rfl
@[simp] theorem State.setCore_buckets : (s.setCore c).buckets = s.buckets := by unfold State.setCore; split <;> rfl
@[simp] theorem State.setCore_shares : (s.setCore c).shares = s.shares := by unfold State.setCore; split <;> rfl
@[simp] theorem State.setCore_records : (s.setCore c).records = s.records := by unfold State.setCore; split <;> rfl
@[simp] theorem State.setCore_nextId : (s.setCore c).nextId = s.nextId := by unfold State.setCore; split <;> rfl
@[simp] theorem State.setCore_freed : (s.setCore c).freed = s.freed := by unfold State.setCore; split <;> rfl
@[simp] theorem State.setCore_finalisers : (s.setCore c).finalisers = s.finalisers := by unfold State.setCore; split <;> rfl
@[simp] theorem State.setCore_ballast : (s.setCore c).ballast = s.ballast := by unfold State.setCore; split <;> rfl
@[simp] theorem State.setCore_forwards : (s.setCore c).forwards = s.forwards := by unfold State.setCore; split <;> rfl
@[simp] theorem State.setCore_egress : (s.setCore c).egress = s.egress := by unfold State.setCore; split <;> rfl
@[simp] theorem State.setCore_ingress : (s.setCore c).ingress = s.ingress := by unfold State.setCore; split <;> rfl
@[simp] theorem State.setCore_nextPacket : (s.setCore c).nextPacket = s.nextPacket := by unfold State.setCore; split <;> rfl
@[simp] theorem State.setCore_performed : (s.setCore c).performed = s.performed := by unfold State.setCore; split <;> rfl
@[simp] theorem State.setCore_combined : (s.setCore c).combined = s.combined := by unfold State.setCore; split <;> rfl
@[simp] theorem State.setCore_links : (s.setCore c).links = s.links := by unfold State.setCore; split <;> rfl
@[simp] theorem State.setCore_farDown : (s.setCore c).farDown = s.farDown := by unfold State.setCore; split <;> rfl
@[simp] theorem State.setCore_lost : (s.setCore c).lost = s.lost := by unfold State.setCore; split <;> rfl
@[simp] theorem State.setCore_reached : (s.setCore c).reached = s.reached := by unfold State.setCore; split <;> rfl
@[simp] theorem State.setCore_linkless : (s.setCore c).linkless = s.linkless := by unfold State.setCore; split <;> rfl
@[simp] theorem State.setCore_port : (s.setCore c).port = s.port := by unfold State.setCore; split <;> rfl
@[simp] theorem State.setCore_session : (s.setCore c).session = s.session := by unfold State.setCore; split <;> rfl
@[simp] theorem State.setCore_accepted : (s.setCore c).accepted = s.accepted := by unfold State.setCore; split <;> rfl
@[simp] theorem State.setCore_announced : (s.setCore c).announced = s.announced := by unfold State.setCore; split <;> rfl
@[simp] theorem State.setCore_heard : (s.setCore c).heard = s.heard := by unfold State.setCore; split <;> rfl
@[simp] theorem State.setCore_posts : (s.setCore c).posts = s.posts := by unfold State.setCore; split <;> rfl
@[simp] theorem State.setCore_boot : (s.setCore c).boot = s.boot := by unfold State.setCore; split <;> rfl
@[simp] theorem State.setCore_islands : (s.setCore c).islands = s.islands := by unfold State.setCore; split <;> rfl
@[simp] theorem State.setCore_powerCap : (s.setCore c).powerCap = s.powerCap := by unfold State.setCore; split <;> rfl
@[simp] theorem State.setCore_reports : (s.setCore c).reports = s.reports := by unfold State.setCore; split <;> rfl
@[simp] theorem State.setCore_agenda : (s.setCore c).agenda = s.agenda := by unfold State.setCore; split <;> rfl
@[simp] theorem State.setCore_pick : (s.setCore c).pick = s.pick := by unfold State.setCore; split <;> rfl
@[simp] theorem State.setCore_free : (s.setCore c).free = s.free := by unfold State.setCore; split <;> rfl

end

/-! A write of an x register (R51). -/

section
variable (c : Core) (fw : Bool) (r : XName) (v : XReg)

@[simp] theorem Core.writeXOf_num : (c.writeXOf fw r v).num = c.num := by unfold Core.writeXOf; split <;> (try split) <;> rfl
@[simp] theorem Core.writeXOf_run : (c.writeXOf fw r v).run = c.run := by unfold Core.writeXOf; split <;> (try split) <;> rfl
@[simp] theorem Core.writeXOf_fw : (c.writeXOf fw r v).fw = c.fw := by unfold Core.writeXOf; split <;> (try split) <;> rfl
@[simp] theorem Core.writeXOf_flight : (c.writeXOf fw r v).flight = c.flight := by unfold Core.writeXOf; split <;> (try split) <;> rfl
@[simp] theorem Core.writeXOf_pc : (c.writeXOf fw r v).pc = c.pc := by unfold Core.writeXOf; split <;> (try split) <;> rfl
@[simp] theorem Core.writeXOf_fwPc : (c.writeXOf fw r v).fwPc = c.fwPc := by unfold Core.writeXOf; split <;> (try split) <;> rfl
@[simp] theorem Core.writeXOf_line : (c.writeXOf fw r v).line = c.line := by unfold Core.writeXOf; split <;> (try split) <;> rfl
@[simp] theorem Core.writeXOf_fwLine : (c.writeXOf fw r v).fwLine = c.fwLine := by unfold Core.writeXOf; split <;> (try split) <;> rfl
@[simp] theorem Core.writeXOf_ctl : (c.writeXOf fw r v).ctl = c.ctl := by unfold Core.writeXOf; split <;> (try split) <;> rfl
@[simp] theorem Core.writeXOf_loop : (c.writeXOf fw r v).loop = c.loop := by unfold Core.writeXOf; split <;> (try split) <;> rfl
@[simp] theorem Core.writeXOf_m : (c.writeXOf fw r v).m = c.m := by unfold Core.writeXOf; split <;> (try split) <;> rfl
@[simp] theorem Core.writeXOf_vec : (c.writeXOf fw r v).vec = c.vec := by unfold Core.writeXOf; split <;> (try split) <;> rfl
@[simp] theorem Core.writeXOf_tiles : (c.writeXOf fw r v).tiles = c.tiles := by unfold Core.writeXOf; split <;> (try split) <;> rfl
@[simp] theorem Core.writeXOf_acc : (c.writeXOf fw r v).acc = c.acc := by unfold Core.writeXOf; split <;> (try split) <;> rfl
@[simp] theorem Core.writeXOf_rowType : (c.writeXOf fw r v).rowType = c.rowType := by unfold Core.writeXOf; split <;> (try split) <;> rfl
@[simp] theorem Core.writeXOf_ecc : (c.writeXOf fw r v).ecc = c.ecc := by unfold Core.writeXOf; split <;> (try split) <;> rfl
@[simp] theorem Core.writeXOf_slots : (c.writeXOf fw r v).slots = c.slots := by unfold Core.writeXOf; split <;> (try split) <;> rfl
@[simp] theorem Core.writeXOf_sS : (c.writeXOf fw r v).sS = c.sS := by unfold Core.writeXOf; split <;> (try split) <;> rfl
@[simp] theorem Core.writeXOf_sV : (c.writeXOf fw r v).sV = c.sV := by unfold Core.writeXOf; split <;> (try split) <;> rfl
@[simp] theorem Core.writeXOf_sF : (c.writeXOf fw r v).sF = c.sF := by unfold Core.writeXOf; split <;> (try split) <;> rfl
@[simp] theorem Core.writeXOf_sq : (c.writeXOf fw r v).sq = c.sq := by unfold Core.writeXOf; split <;> (try split) <;> rfl
@[simp] theorem Core.writeXOf_fq : (c.writeXOf fw r v).fq = c.fq := by unfold Core.writeXOf; split <;> (try split) <;> rfl
@[simp] theorem Core.writeXOf_vq : (c.writeXOf fw r v).vq = c.vq := by unfold Core.writeXOf; split <;> (try split) <;> rfl
@[simp] theorem Core.writeXOf_stamp : (c.writeXOf fw r v).stamp = c.stamp := by unfold Core.writeXOf; split <;> (try split) <;> rfl
@[simp] theorem Core.writeXOf_waits : (c.writeXOf fw r v).waits = c.waits := by unfold Core.writeXOf; split <;> (try split) <;> rfl
@[simp] theorem Core.writeXOf_remote : (c.writeXOf fw r v).remote = c.remote := by unfold Core.writeXOf; split <;> (try split) <;> rfl
@[simp] theorem Core.writeXOf_planes : (c.writeXOf fw r v).planes = c.planes := by unfold Core.writeXOf; split <;> (try split) <;> rfl
@[simp] theorem Core.writeXOf_flags : (c.writeXOf fw r v).flags = c.flags := by unfold Core.writeXOf; split <;> (try split) <;> rfl
@[simp] theorem Core.writeXOf_ahead : (c.writeXOf fw r v).ahead = c.ahead := by unfold Core.writeXOf; split <;> (try split) <;> rfl
@[simp] theorem Core.writeXOf_window : (c.writeXOf fw r v).window = c.window := by unfold Core.writeXOf; split <;> (try split) <;> rfl
@[simp] theorem Core.writeXOf_posts : (c.writeXOf fw r v).posts = c.posts := by unfold Core.writeXOf; split <;> (try split) <;> rfl
@[simp] theorem Core.writeXOf_heads : (c.writeXOf fw r v).heads = c.heads := by unfold Core.writeXOf; split <;> (try split) <;> rfl
@[simp] theorem Core.writeXOf_stopAt : (c.writeXOf fw r v).stopAt = c.stopAt := by unfold Core.writeXOf; split <;> (try split) <;> rfl
@[simp] theorem Core.writeXOf_tested : (c.writeXOf fw r v).tested = c.tested := by unfold Core.writeXOf; split <;> (try split) <;> rfl
@[simp] theorem Core.writeXOf_taken : (c.writeXOf fw r v).taken = c.taken := by unfold Core.writeXOf; split <;> (try split) <;> rfl
@[simp] theorem Core.writeXOf_shut : (c.writeXOf fw r v).shut = c.shut := by unfold Core.writeXOf; split <;> (try split) <;> rfl
@[simp] theorem Core.writeXOf_serial : (c.writeXOf fw r v).serial = c.serial := by unfold Core.writeXOf; split <;> (try split) <;> rfl
@[simp] theorem Core.writeXOf_cmds : (c.writeXOf fw r v).cmds = c.cmds := by unfold Core.writeXOf; split <;> (try split) <;> rfl
@[simp] theorem Core.writeXOf_owed : (c.writeXOf fw r v).owed = c.owed := by unfold Core.writeXOf; split <;> (try split) <;> rfl
@[simp] theorem Core.writeXOf_ended : (c.writeXOf fw r v).ended = c.ended := by unfold Core.writeXOf; split <;> (try split) <;> rfl
@[simp] theorem Core.writeXOf_mismatch : (c.writeXOf fw r v).mismatch = c.mismatch := by unfold Core.writeXOf; split <;> (try split) <;> rfl
@[simp] theorem Core.writeXOf_refused : (c.writeXOf fw r v).refused = c.refused := by unfold Core.writeXOf; split <;> (try split) <;> rfl
@[simp] theorem Core.writeXOf_fwTrap : (c.writeXOf fw r v).fwTrap = c.fwTrap := by unfold Core.writeXOf; split <;> (try split) <;> rfl
@[simp] theorem Core.writeXOf_inner : (c.writeXOf fw r v).inner = c.inner := by unfold Core.writeXOf; split <;> (try split) <;> rfl
@[simp] theorem Core.writeXOf_doubleTrap : (c.writeXOf fw r v).doubleTrap = c.doubleTrap := by unfold Core.writeXOf; split <;> (try split) <;> rfl
@[simp] theorem Core.writeXOf_barriers : (c.writeXOf fw r v).barriers = c.barriers := by unfold Core.writeXOf; split <;> (try split) <;> rfl
@[simp] theorem Core.writeXOf_notice : (c.writeXOf fw r v).notice = c.notice := by unfold Core.writeXOf; split <;> (try split) <;> rfl
@[simp] theorem Core.writeXOf_switching : (c.writeXOf fw r v).switching = c.switching := by unfold Core.writeXOf; split <;> (try split) <;> rfl
@[simp] theorem Core.writeXOf_ran : (c.writeXOf fw r v).ran = c.ran := by unfold Core.writeXOf; split <;> (try split) <;> rfl

end

/-! The PC moves (R79). -/

section
variable (c : Core) (pc : Word) (e : Bool)

@[simp] theorem Core.goto_num : (c.goto pc e).num = c.num := by unfold Core.goto; split <;> rfl
@[simp] theorem Core.goto_run : (c.goto pc e).run = c.run := by unfold Core.goto; split <;> rfl
@[simp] theorem Core.goto_fw : (c.goto pc e).fw = c.fw := by unfold Core.goto; split <;> rfl
@[simp] theorem Core.goto_flight : (c.goto pc e).flight = c.flight := by unfold Core.goto; split <;> rfl
@[simp] theorem Core.goto_x : (c.goto pc e).x = c.x := by unfold Core.goto; split <;> rfl
@[simp] theorem Core.goto_fwX : (c.goto pc e).fwX = c.fwX := by unfold Core.goto; split <;> rfl
@[simp] theorem Core.goto_ctl : (c.goto pc e).ctl = c.ctl := by unfold Core.goto; split <;> rfl
@[simp] theorem Core.goto_loop : (c.goto pc e).loop = c.loop := by unfold Core.goto; split <;> rfl
@[simp] theorem Core.goto_m : (c.goto pc e).m = c.m := by unfold Core.goto; split <;> rfl
@[simp] theorem Core.goto_vec : (c.goto pc e).vec = c.vec := by unfold Core.goto; split <;> rfl
@[simp] theorem Core.goto_tiles : (c.goto pc e).tiles = c.tiles := by unfold Core.goto; split <;> rfl
@[simp] theorem Core.goto_acc : (c.goto pc e).acc = c.acc := by unfold Core.goto; split <;> rfl
@[simp] theorem Core.goto_rowType : (c.goto pc e).rowType = c.rowType := by unfold Core.goto; split <;> rfl
@[simp] theorem Core.goto_ecc : (c.goto pc e).ecc = c.ecc := by unfold Core.goto; split <;> rfl
@[simp] theorem Core.goto_slots : (c.goto pc e).slots = c.slots := by unfold Core.goto; split <;> rfl
@[simp] theorem Core.goto_sS : (c.goto pc e).sS = c.sS := by unfold Core.goto; split <;> rfl
@[simp] theorem Core.goto_sV : (c.goto pc e).sV = c.sV := by unfold Core.goto; split <;> rfl
@[simp] theorem Core.goto_sF : (c.goto pc e).sF = c.sF := by unfold Core.goto; split <;> rfl
@[simp] theorem Core.goto_sq : (c.goto pc e).sq = c.sq := by unfold Core.goto; split <;> rfl
@[simp] theorem Core.goto_fq : (c.goto pc e).fq = c.fq := by unfold Core.goto; split <;> rfl
@[simp] theorem Core.goto_vq : (c.goto pc e).vq = c.vq := by unfold Core.goto; split <;> rfl
@[simp] theorem Core.goto_stamp : (c.goto pc e).stamp = c.stamp := by unfold Core.goto; split <;> rfl
@[simp] theorem Core.goto_waits : (c.goto pc e).waits = c.waits := by unfold Core.goto; split <;> rfl
@[simp] theorem Core.goto_remote : (c.goto pc e).remote = c.remote := by unfold Core.goto; split <;> rfl
@[simp] theorem Core.goto_planes : (c.goto pc e).planes = c.planes := by unfold Core.goto; split <;> rfl
@[simp] theorem Core.goto_flags : (c.goto pc e).flags = c.flags := by unfold Core.goto; split <;> rfl
@[simp] theorem Core.goto_ahead : (c.goto pc e).ahead = c.ahead := by unfold Core.goto; split <;> rfl
@[simp] theorem Core.goto_window : (c.goto pc e).window = c.window := by unfold Core.goto; split <;> rfl
@[simp] theorem Core.goto_posts : (c.goto pc e).posts = c.posts := by unfold Core.goto; split <;> rfl
@[simp] theorem Core.goto_heads : (c.goto pc e).heads = c.heads := by unfold Core.goto; split <;> rfl
@[simp] theorem Core.goto_stopAt : (c.goto pc e).stopAt = c.stopAt := by unfold Core.goto; split <;> rfl
@[simp] theorem Core.goto_tested : (c.goto pc e).tested = c.tested := by unfold Core.goto; split <;> rfl
@[simp] theorem Core.goto_taken : (c.goto pc e).taken = c.taken := by unfold Core.goto; split <;> rfl
@[simp] theorem Core.goto_shut : (c.goto pc e).shut = c.shut := by unfold Core.goto; split <;> rfl
@[simp] theorem Core.goto_serial : (c.goto pc e).serial = c.serial := by unfold Core.goto; split <;> rfl
@[simp] theorem Core.goto_cmds : (c.goto pc e).cmds = c.cmds := by unfold Core.goto; split <;> rfl
@[simp] theorem Core.goto_owed : (c.goto pc e).owed = c.owed := by unfold Core.goto; split <;> rfl
@[simp] theorem Core.goto_ended : (c.goto pc e).ended = c.ended := by unfold Core.goto; split <;> rfl
@[simp] theorem Core.goto_mismatch : (c.goto pc e).mismatch = c.mismatch := by unfold Core.goto; split <;> rfl
@[simp] theorem Core.goto_refused : (c.goto pc e).refused = c.refused := by unfold Core.goto; split <;> rfl
@[simp] theorem Core.goto_fwTrap : (c.goto pc e).fwTrap = c.fwTrap := by unfold Core.goto; split <;> rfl
@[simp] theorem Core.goto_inner : (c.goto pc e).inner = c.inner := by unfold Core.goto; split <;> rfl
@[simp] theorem Core.goto_doubleTrap : (c.goto pc e).doubleTrap = c.doubleTrap := by unfold Core.goto; split <;> rfl
@[simp] theorem Core.goto_barriers : (c.goto pc e).barriers = c.barriers := by unfold Core.goto; split <;> rfl
@[simp] theorem Core.goto_notice : (c.goto pc e).notice = c.notice := by unfold Core.goto; split <;> rfl
@[simp] theorem Core.goto_switching : (c.goto pc e).switching = c.switching := by unfold Core.goto; split <;> rfl
@[simp] theorem Core.goto_ran : (c.goto pc e).ran = c.ran := by unfold Core.goto; split <;> rfl

end

/-! A context's S stream. -/

section
variable (c : Core) (fw : Bool) (st : Stream)

@[simp] theorem Core.setStream_num : (c.setStream fw st).num = c.num := by unfold Core.setStream; split <;> rfl
@[simp] theorem Core.setStream_run : (c.setStream fw st).run = c.run := by unfold Core.setStream; split <;> rfl
@[simp] theorem Core.setStream_fw : (c.setStream fw st).fw = c.fw := by unfold Core.setStream; split <;> rfl
@[simp] theorem Core.setStream_flight : (c.setStream fw st).flight = c.flight := by unfold Core.setStream; split <;> rfl
@[simp] theorem Core.setStream_x : (c.setStream fw st).x = c.x := by unfold Core.setStream; split <;> rfl
@[simp] theorem Core.setStream_fwX : (c.setStream fw st).fwX = c.fwX := by unfold Core.setStream; split <;> rfl
@[simp] theorem Core.setStream_pc : (c.setStream fw st).pc = c.pc := by unfold Core.setStream; split <;> rfl
@[simp] theorem Core.setStream_fwPc : (c.setStream fw st).fwPc = c.fwPc := by unfold Core.setStream; split <;> rfl
@[simp] theorem Core.setStream_line : (c.setStream fw st).line = c.line := by unfold Core.setStream; split <;> rfl
@[simp] theorem Core.setStream_fwLine : (c.setStream fw st).fwLine = c.fwLine := by unfold Core.setStream; split <;> rfl
@[simp] theorem Core.setStream_ctl : (c.setStream fw st).ctl = c.ctl := by unfold Core.setStream; split <;> rfl
@[simp] theorem Core.setStream_loop : (c.setStream fw st).loop = c.loop := by unfold Core.setStream; split <;> rfl
@[simp] theorem Core.setStream_m : (c.setStream fw st).m = c.m := by unfold Core.setStream; split <;> rfl
@[simp] theorem Core.setStream_vec : (c.setStream fw st).vec = c.vec := by unfold Core.setStream; split <;> rfl
@[simp] theorem Core.setStream_tiles : (c.setStream fw st).tiles = c.tiles := by unfold Core.setStream; split <;> rfl
@[simp] theorem Core.setStream_acc : (c.setStream fw st).acc = c.acc := by unfold Core.setStream; split <;> rfl
@[simp] theorem Core.setStream_rowType : (c.setStream fw st).rowType = c.rowType := by unfold Core.setStream; split <;> rfl
@[simp] theorem Core.setStream_ecc : (c.setStream fw st).ecc = c.ecc := by unfold Core.setStream; split <;> rfl
@[simp] theorem Core.setStream_slots : (c.setStream fw st).slots = c.slots := by unfold Core.setStream; split <;> rfl
@[simp] theorem Core.setStream_sV : (c.setStream fw st).sV = c.sV := by unfold Core.setStream; split <;> rfl
@[simp] theorem Core.setStream_sq : (c.setStream fw st).sq = c.sq := by unfold Core.setStream; split <;> rfl
@[simp] theorem Core.setStream_fq : (c.setStream fw st).fq = c.fq := by unfold Core.setStream; split <;> rfl
@[simp] theorem Core.setStream_vq : (c.setStream fw st).vq = c.vq := by unfold Core.setStream; split <;> rfl
@[simp] theorem Core.setStream_stamp : (c.setStream fw st).stamp = c.stamp := by unfold Core.setStream; split <;> rfl
@[simp] theorem Core.setStream_waits : (c.setStream fw st).waits = c.waits := by unfold Core.setStream; split <;> rfl
@[simp] theorem Core.setStream_remote : (c.setStream fw st).remote = c.remote := by unfold Core.setStream; split <;> rfl
@[simp] theorem Core.setStream_planes : (c.setStream fw st).planes = c.planes := by unfold Core.setStream; split <;> rfl
@[simp] theorem Core.setStream_flags : (c.setStream fw st).flags = c.flags := by unfold Core.setStream; split <;> rfl
@[simp] theorem Core.setStream_ahead : (c.setStream fw st).ahead = c.ahead := by unfold Core.setStream; split <;> rfl
@[simp] theorem Core.setStream_window : (c.setStream fw st).window = c.window := by unfold Core.setStream; split <;> rfl
@[simp] theorem Core.setStream_posts : (c.setStream fw st).posts = c.posts := by unfold Core.setStream; split <;> rfl
@[simp] theorem Core.setStream_heads : (c.setStream fw st).heads = c.heads := by unfold Core.setStream; split <;> rfl
@[simp] theorem Core.setStream_stopAt : (c.setStream fw st).stopAt = c.stopAt := by unfold Core.setStream; split <;> rfl
@[simp] theorem Core.setStream_tested : (c.setStream fw st).tested = c.tested := by unfold Core.setStream; split <;> rfl
@[simp] theorem Core.setStream_taken : (c.setStream fw st).taken = c.taken := by unfold Core.setStream; split <;> rfl
@[simp] theorem Core.setStream_shut : (c.setStream fw st).shut = c.shut := by unfold Core.setStream; split <;> rfl
@[simp] theorem Core.setStream_serial : (c.setStream fw st).serial = c.serial := by unfold Core.setStream; split <;> rfl
@[simp] theorem Core.setStream_cmds : (c.setStream fw st).cmds = c.cmds := by unfold Core.setStream; split <;> rfl
@[simp] theorem Core.setStream_owed : (c.setStream fw st).owed = c.owed := by unfold Core.setStream; split <;> rfl
@[simp] theorem Core.setStream_ended : (c.setStream fw st).ended = c.ended := by unfold Core.setStream; split <;> rfl
@[simp] theorem Core.setStream_mismatch : (c.setStream fw st).mismatch = c.mismatch := by unfold Core.setStream; split <;> rfl
@[simp] theorem Core.setStream_refused : (c.setStream fw st).refused = c.refused := by unfold Core.setStream; split <;> rfl
@[simp] theorem Core.setStream_fwTrap : (c.setStream fw st).fwTrap = c.fwTrap := by unfold Core.setStream; split <;> rfl
@[simp] theorem Core.setStream_inner : (c.setStream fw st).inner = c.inner := by unfold Core.setStream; split <;> rfl
@[simp] theorem Core.setStream_doubleTrap : (c.setStream fw st).doubleTrap = c.doubleTrap := by unfold Core.setStream; split <;> rfl
@[simp] theorem Core.setStream_barriers : (c.setStream fw st).barriers = c.barriers := by unfold Core.setStream; split <;> rfl
@[simp] theorem Core.setStream_notice : (c.setStream fw st).notice = c.notice := by unfold Core.setStream; split <;> rfl
@[simp] theorem Core.setStream_switching : (c.setStream fw st).switching = c.switching := by unfold Core.setStream; split <;> rfl
@[simp] theorem Core.setStream_ran : (c.setStream fw st).ran = c.ran := by unfold Core.setStream; split <;> rfl

end

/-! Vector registers are written. -/

section
variable (c : Core) (ws : List (Nat × Byte))

@[simp] theorem Core.writeVec_num : (c.writeVec ws).num = c.num := rfl
@[simp] theorem Core.writeVec_run : (c.writeVec ws).run = c.run := rfl
@[simp] theorem Core.writeVec_fw : (c.writeVec ws).fw = c.fw := rfl
@[simp] theorem Core.writeVec_flight : (c.writeVec ws).flight = c.flight := rfl
@[simp] theorem Core.writeVec_x : (c.writeVec ws).x = c.x := rfl
@[simp] theorem Core.writeVec_fwX : (c.writeVec ws).fwX = c.fwX := rfl
@[simp] theorem Core.writeVec_pc : (c.writeVec ws).pc = c.pc := rfl
@[simp] theorem Core.writeVec_fwPc : (c.writeVec ws).fwPc = c.fwPc := rfl
@[simp] theorem Core.writeVec_line : (c.writeVec ws).line = c.line := rfl
@[simp] theorem Core.writeVec_fwLine : (c.writeVec ws).fwLine = c.fwLine := rfl
@[simp] theorem Core.writeVec_ctl : (c.writeVec ws).ctl = c.ctl := rfl
@[simp] theorem Core.writeVec_loop : (c.writeVec ws).loop = c.loop := rfl
@[simp] theorem Core.writeVec_m : (c.writeVec ws).m = c.m := rfl
@[simp] theorem Core.writeVec_tiles : (c.writeVec ws).tiles = c.tiles := rfl
@[simp] theorem Core.writeVec_acc : (c.writeVec ws).acc = c.acc := rfl
@[simp] theorem Core.writeVec_rowType : (c.writeVec ws).rowType = c.rowType := rfl
@[simp] theorem Core.writeVec_slots : (c.writeVec ws).slots = c.slots := rfl
@[simp] theorem Core.writeVec_sS : (c.writeVec ws).sS = c.sS := rfl
@[simp] theorem Core.writeVec_sV : (c.writeVec ws).sV = c.sV := rfl
@[simp] theorem Core.writeVec_sF : (c.writeVec ws).sF = c.sF := rfl
@[simp] theorem Core.writeVec_sq : (c.writeVec ws).sq = c.sq := rfl
@[simp] theorem Core.writeVec_fq : (c.writeVec ws).fq = c.fq := rfl
@[simp] theorem Core.writeVec_vq : (c.writeVec ws).vq = c.vq := rfl
@[simp] theorem Core.writeVec_stamp : (c.writeVec ws).stamp = c.stamp := rfl
@[simp] theorem Core.writeVec_waits : (c.writeVec ws).waits = c.waits := rfl
@[simp] theorem Core.writeVec_remote : (c.writeVec ws).remote = c.remote := rfl
@[simp] theorem Core.writeVec_planes : (c.writeVec ws).planes = c.planes := rfl
@[simp] theorem Core.writeVec_flags : (c.writeVec ws).flags = c.flags := rfl
@[simp] theorem Core.writeVec_ahead : (c.writeVec ws).ahead = c.ahead := rfl
@[simp] theorem Core.writeVec_window : (c.writeVec ws).window = c.window := rfl
@[simp] theorem Core.writeVec_posts : (c.writeVec ws).posts = c.posts := rfl
@[simp] theorem Core.writeVec_heads : (c.writeVec ws).heads = c.heads := rfl
@[simp] theorem Core.writeVec_stopAt : (c.writeVec ws).stopAt = c.stopAt := rfl
@[simp] theorem Core.writeVec_tested : (c.writeVec ws).tested = c.tested := rfl
@[simp] theorem Core.writeVec_taken : (c.writeVec ws).taken = c.taken := rfl
@[simp] theorem Core.writeVec_shut : (c.writeVec ws).shut = c.shut := rfl
@[simp] theorem Core.writeVec_serial : (c.writeVec ws).serial = c.serial := rfl
@[simp] theorem Core.writeVec_cmds : (c.writeVec ws).cmds = c.cmds := rfl
@[simp] theorem Core.writeVec_owed : (c.writeVec ws).owed = c.owed := rfl
@[simp] theorem Core.writeVec_ended : (c.writeVec ws).ended = c.ended := rfl
@[simp] theorem Core.writeVec_mismatch : (c.writeVec ws).mismatch = c.mismatch := rfl
@[simp] theorem Core.writeVec_refused : (c.writeVec ws).refused = c.refused := rfl
@[simp] theorem Core.writeVec_fwTrap : (c.writeVec ws).fwTrap = c.fwTrap := rfl
@[simp] theorem Core.writeVec_inner : (c.writeVec ws).inner = c.inner := rfl
@[simp] theorem Core.writeVec_doubleTrap : (c.writeVec ws).doubleTrap = c.doubleTrap := rfl
@[simp] theorem Core.writeVec_barriers : (c.writeVec ws).barriers = c.barriers := rfl
@[simp] theorem Core.writeVec_notice : (c.writeVec ws).notice = c.notice := rfl
@[simp] theorem Core.writeVec_switching : (c.writeVec ws).switching = c.switching := rfl
@[simp] theorem Core.writeVec_ran : (c.writeVec ws).ran = c.ran := rfl

end

/-! Tiles are written. -/

section
variable (c : Core) (ws : List (Nat × Byte))

@[simp] theorem Core.writeTiles_num : (c.writeTiles ws).num = c.num := rfl
@[simp] theorem Core.writeTiles_run : (c.writeTiles ws).run = c.run := rfl
@[simp] theorem Core.writeTiles_fw : (c.writeTiles ws).fw = c.fw := rfl
@[simp] theorem Core.writeTiles_flight : (c.writeTiles ws).flight = c.flight := rfl
@[simp] theorem Core.writeTiles_x : (c.writeTiles ws).x = c.x := rfl
@[simp] theorem Core.writeTiles_fwX : (c.writeTiles ws).fwX = c.fwX := rfl
@[simp] theorem Core.writeTiles_pc : (c.writeTiles ws).pc = c.pc := rfl
@[simp] theorem Core.writeTiles_fwPc : (c.writeTiles ws).fwPc = c.fwPc := rfl
@[simp] theorem Core.writeTiles_line : (c.writeTiles ws).line = c.line := rfl
@[simp] theorem Core.writeTiles_fwLine : (c.writeTiles ws).fwLine = c.fwLine := rfl
@[simp] theorem Core.writeTiles_ctl : (c.writeTiles ws).ctl = c.ctl := rfl
@[simp] theorem Core.writeTiles_loop : (c.writeTiles ws).loop = c.loop := rfl
@[simp] theorem Core.writeTiles_m : (c.writeTiles ws).m = c.m := rfl
@[simp] theorem Core.writeTiles_vec : (c.writeTiles ws).vec = c.vec := rfl
@[simp] theorem Core.writeTiles_acc : (c.writeTiles ws).acc = c.acc := rfl
@[simp] theorem Core.writeTiles_rowType : (c.writeTiles ws).rowType = c.rowType := rfl
@[simp] theorem Core.writeTiles_slots : (c.writeTiles ws).slots = c.slots := rfl
@[simp] theorem Core.writeTiles_sS : (c.writeTiles ws).sS = c.sS := rfl
@[simp] theorem Core.writeTiles_sV : (c.writeTiles ws).sV = c.sV := rfl
@[simp] theorem Core.writeTiles_sF : (c.writeTiles ws).sF = c.sF := rfl
@[simp] theorem Core.writeTiles_sq : (c.writeTiles ws).sq = c.sq := rfl
@[simp] theorem Core.writeTiles_fq : (c.writeTiles ws).fq = c.fq := rfl
@[simp] theorem Core.writeTiles_vq : (c.writeTiles ws).vq = c.vq := rfl
@[simp] theorem Core.writeTiles_stamp : (c.writeTiles ws).stamp = c.stamp := rfl
@[simp] theorem Core.writeTiles_waits : (c.writeTiles ws).waits = c.waits := rfl
@[simp] theorem Core.writeTiles_remote : (c.writeTiles ws).remote = c.remote := rfl
@[simp] theorem Core.writeTiles_planes : (c.writeTiles ws).planes = c.planes := rfl
@[simp] theorem Core.writeTiles_flags : (c.writeTiles ws).flags = c.flags := rfl
@[simp] theorem Core.writeTiles_ahead : (c.writeTiles ws).ahead = c.ahead := rfl
@[simp] theorem Core.writeTiles_window : (c.writeTiles ws).window = c.window := rfl
@[simp] theorem Core.writeTiles_posts : (c.writeTiles ws).posts = c.posts := rfl
@[simp] theorem Core.writeTiles_heads : (c.writeTiles ws).heads = c.heads := rfl
@[simp] theorem Core.writeTiles_stopAt : (c.writeTiles ws).stopAt = c.stopAt := rfl
@[simp] theorem Core.writeTiles_tested : (c.writeTiles ws).tested = c.tested := rfl
@[simp] theorem Core.writeTiles_taken : (c.writeTiles ws).taken = c.taken := rfl
@[simp] theorem Core.writeTiles_shut : (c.writeTiles ws).shut = c.shut := rfl
@[simp] theorem Core.writeTiles_serial : (c.writeTiles ws).serial = c.serial := rfl
@[simp] theorem Core.writeTiles_cmds : (c.writeTiles ws).cmds = c.cmds := rfl
@[simp] theorem Core.writeTiles_owed : (c.writeTiles ws).owed = c.owed := rfl
@[simp] theorem Core.writeTiles_ended : (c.writeTiles ws).ended = c.ended := rfl
@[simp] theorem Core.writeTiles_mismatch : (c.writeTiles ws).mismatch = c.mismatch := rfl
@[simp] theorem Core.writeTiles_refused : (c.writeTiles ws).refused = c.refused := rfl
@[simp] theorem Core.writeTiles_fwTrap : (c.writeTiles ws).fwTrap = c.fwTrap := rfl
@[simp] theorem Core.writeTiles_inner : (c.writeTiles ws).inner = c.inner := rfl
@[simp] theorem Core.writeTiles_doubleTrap : (c.writeTiles ws).doubleTrap = c.doubleTrap := rfl
@[simp] theorem Core.writeTiles_barriers : (c.writeTiles ws).barriers = c.barriers := rfl
@[simp] theorem Core.writeTiles_notice : (c.writeTiles ws).notice = c.notice := rfl
@[simp] theorem Core.writeTiles_switching : (c.writeTiles ws).switching = c.switching := rfl
@[simp] theorem Core.writeTiles_ran : (c.writeTiles ws).ran = c.ran := rfl

end

/-! Accumulator rows are written. -/

section
variable (c : Core) (ws : List (Nat × Byte))

@[simp] theorem Core.writeAcc_num : (c.writeAcc ws).num = c.num := rfl
@[simp] theorem Core.writeAcc_run : (c.writeAcc ws).run = c.run := rfl
@[simp] theorem Core.writeAcc_fw : (c.writeAcc ws).fw = c.fw := rfl
@[simp] theorem Core.writeAcc_flight : (c.writeAcc ws).flight = c.flight := rfl
@[simp] theorem Core.writeAcc_x : (c.writeAcc ws).x = c.x := rfl
@[simp] theorem Core.writeAcc_fwX : (c.writeAcc ws).fwX = c.fwX := rfl
@[simp] theorem Core.writeAcc_pc : (c.writeAcc ws).pc = c.pc := rfl
@[simp] theorem Core.writeAcc_fwPc : (c.writeAcc ws).fwPc = c.fwPc := rfl
@[simp] theorem Core.writeAcc_line : (c.writeAcc ws).line = c.line := rfl
@[simp] theorem Core.writeAcc_fwLine : (c.writeAcc ws).fwLine = c.fwLine := rfl
@[simp] theorem Core.writeAcc_ctl : (c.writeAcc ws).ctl = c.ctl := rfl
@[simp] theorem Core.writeAcc_loop : (c.writeAcc ws).loop = c.loop := rfl
@[simp] theorem Core.writeAcc_m : (c.writeAcc ws).m = c.m := rfl
@[simp] theorem Core.writeAcc_vec : (c.writeAcc ws).vec = c.vec := rfl
@[simp] theorem Core.writeAcc_tiles : (c.writeAcc ws).tiles = c.tiles := rfl
@[simp] theorem Core.writeAcc_rowType : (c.writeAcc ws).rowType = c.rowType := rfl
@[simp] theorem Core.writeAcc_slots : (c.writeAcc ws).slots = c.slots := rfl
@[simp] theorem Core.writeAcc_sS : (c.writeAcc ws).sS = c.sS := rfl
@[simp] theorem Core.writeAcc_sV : (c.writeAcc ws).sV = c.sV := rfl
@[simp] theorem Core.writeAcc_sF : (c.writeAcc ws).sF = c.sF := rfl
@[simp] theorem Core.writeAcc_sq : (c.writeAcc ws).sq = c.sq := rfl
@[simp] theorem Core.writeAcc_fq : (c.writeAcc ws).fq = c.fq := rfl
@[simp] theorem Core.writeAcc_vq : (c.writeAcc ws).vq = c.vq := rfl
@[simp] theorem Core.writeAcc_stamp : (c.writeAcc ws).stamp = c.stamp := rfl
@[simp] theorem Core.writeAcc_waits : (c.writeAcc ws).waits = c.waits := rfl
@[simp] theorem Core.writeAcc_remote : (c.writeAcc ws).remote = c.remote := rfl
@[simp] theorem Core.writeAcc_planes : (c.writeAcc ws).planes = c.planes := rfl
@[simp] theorem Core.writeAcc_flags : (c.writeAcc ws).flags = c.flags := rfl
@[simp] theorem Core.writeAcc_ahead : (c.writeAcc ws).ahead = c.ahead := rfl
@[simp] theorem Core.writeAcc_window : (c.writeAcc ws).window = c.window := rfl
@[simp] theorem Core.writeAcc_posts : (c.writeAcc ws).posts = c.posts := rfl
@[simp] theorem Core.writeAcc_heads : (c.writeAcc ws).heads = c.heads := rfl
@[simp] theorem Core.writeAcc_stopAt : (c.writeAcc ws).stopAt = c.stopAt := rfl
@[simp] theorem Core.writeAcc_tested : (c.writeAcc ws).tested = c.tested := rfl
@[simp] theorem Core.writeAcc_taken : (c.writeAcc ws).taken = c.taken := rfl
@[simp] theorem Core.writeAcc_shut : (c.writeAcc ws).shut = c.shut := rfl
@[simp] theorem Core.writeAcc_serial : (c.writeAcc ws).serial = c.serial := rfl
@[simp] theorem Core.writeAcc_cmds : (c.writeAcc ws).cmds = c.cmds := rfl
@[simp] theorem Core.writeAcc_owed : (c.writeAcc ws).owed = c.owed := rfl
@[simp] theorem Core.writeAcc_ended : (c.writeAcc ws).ended = c.ended := rfl
@[simp] theorem Core.writeAcc_mismatch : (c.writeAcc ws).mismatch = c.mismatch := rfl
@[simp] theorem Core.writeAcc_refused : (c.writeAcc ws).refused = c.refused := rfl
@[simp] theorem Core.writeAcc_fwTrap : (c.writeAcc ws).fwTrap = c.fwTrap := rfl
@[simp] theorem Core.writeAcc_inner : (c.writeAcc ws).inner = c.inner := rfl
@[simp] theorem Core.writeAcc_doubleTrap : (c.writeAcc ws).doubleTrap = c.doubleTrap := rfl
@[simp] theorem Core.writeAcc_barriers : (c.writeAcc ws).barriers = c.barriers := rfl
@[simp] theorem Core.writeAcc_notice : (c.writeAcc ws).notice = c.notice := rfl
@[simp] theorem Core.writeAcc_switching : (c.writeAcc ws).switching = c.switching := rfl
@[simp] theorem Core.writeAcc_ran : (c.writeAcc ws).ran = c.ran := rfl

end

/-! Mask bits are written. -/

section
variable (c : Core) (m : MName) (l : List (Nat × Bool))

@[simp] theorem Core.putMask_num : (c.putMask m l).num = c.num := rfl
@[simp] theorem Core.putMask_run : (c.putMask m l).run = c.run := rfl
@[simp] theorem Core.putMask_fw : (c.putMask m l).fw = c.fw := rfl
@[simp] theorem Core.putMask_flight : (c.putMask m l).flight = c.flight := rfl
@[simp] theorem Core.putMask_x : (c.putMask m l).x = c.x := rfl
@[simp] theorem Core.putMask_fwX : (c.putMask m l).fwX = c.fwX := rfl
@[simp] theorem Core.putMask_pc : (c.putMask m l).pc = c.pc := rfl
@[simp] theorem Core.putMask_fwPc : (c.putMask m l).fwPc = c.fwPc := rfl
@[simp] theorem Core.putMask_line : (c.putMask m l).line = c.line := rfl
@[simp] theorem Core.putMask_fwLine : (c.putMask m l).fwLine = c.fwLine := rfl
@[simp] theorem Core.putMask_ctl : (c.putMask m l).ctl = c.ctl := rfl
@[simp] theorem Core.putMask_loop : (c.putMask m l).loop = c.loop := rfl
@[simp] theorem Core.putMask_vec : (c.putMask m l).vec = c.vec := rfl
@[simp] theorem Core.putMask_tiles : (c.putMask m l).tiles = c.tiles := rfl
@[simp] theorem Core.putMask_acc : (c.putMask m l).acc = c.acc := rfl
@[simp] theorem Core.putMask_rowType : (c.putMask m l).rowType = c.rowType := rfl
@[simp] theorem Core.putMask_ecc : (c.putMask m l).ecc = c.ecc := rfl
@[simp] theorem Core.putMask_slots : (c.putMask m l).slots = c.slots := rfl
@[simp] theorem Core.putMask_sS : (c.putMask m l).sS = c.sS := rfl
@[simp] theorem Core.putMask_sV : (c.putMask m l).sV = c.sV := rfl
@[simp] theorem Core.putMask_sF : (c.putMask m l).sF = c.sF := rfl
@[simp] theorem Core.putMask_sq : (c.putMask m l).sq = c.sq := rfl
@[simp] theorem Core.putMask_fq : (c.putMask m l).fq = c.fq := rfl
@[simp] theorem Core.putMask_vq : (c.putMask m l).vq = c.vq := rfl
@[simp] theorem Core.putMask_stamp : (c.putMask m l).stamp = c.stamp := rfl
@[simp] theorem Core.putMask_waits : (c.putMask m l).waits = c.waits := rfl
@[simp] theorem Core.putMask_remote : (c.putMask m l).remote = c.remote := rfl
@[simp] theorem Core.putMask_planes : (c.putMask m l).planes = c.planes := rfl
@[simp] theorem Core.putMask_flags : (c.putMask m l).flags = c.flags := rfl
@[simp] theorem Core.putMask_ahead : (c.putMask m l).ahead = c.ahead := rfl
@[simp] theorem Core.putMask_window : (c.putMask m l).window = c.window := rfl
@[simp] theorem Core.putMask_posts : (c.putMask m l).posts = c.posts := rfl
@[simp] theorem Core.putMask_heads : (c.putMask m l).heads = c.heads := rfl
@[simp] theorem Core.putMask_stopAt : (c.putMask m l).stopAt = c.stopAt := rfl
@[simp] theorem Core.putMask_tested : (c.putMask m l).tested = c.tested := rfl
@[simp] theorem Core.putMask_taken : (c.putMask m l).taken = c.taken := rfl
@[simp] theorem Core.putMask_shut : (c.putMask m l).shut = c.shut := rfl
@[simp] theorem Core.putMask_serial : (c.putMask m l).serial = c.serial := rfl
@[simp] theorem Core.putMask_cmds : (c.putMask m l).cmds = c.cmds := rfl
@[simp] theorem Core.putMask_owed : (c.putMask m l).owed = c.owed := rfl
@[simp] theorem Core.putMask_ended : (c.putMask m l).ended = c.ended := rfl
@[simp] theorem Core.putMask_mismatch : (c.putMask m l).mismatch = c.mismatch := rfl
@[simp] theorem Core.putMask_refused : (c.putMask m l).refused = c.refused := rfl
@[simp] theorem Core.putMask_fwTrap : (c.putMask m l).fwTrap = c.fwTrap := rfl
@[simp] theorem Core.putMask_inner : (c.putMask m l).inner = c.inner := rfl
@[simp] theorem Core.putMask_doubleTrap : (c.putMask m l).doubleTrap = c.doubleTrap := rfl
@[simp] theorem Core.putMask_barriers : (c.putMask m l).barriers = c.barriers := rfl
@[simp] theorem Core.putMask_notice : (c.putMask m l).notice = c.notice := rfl
@[simp] theorem Core.putMask_switching : (c.putMask m l).switching = c.switching := rfl
@[simp] theorem Core.putMask_ran : (c.putMask m l).ran = c.ran := rfl

end

/-! Flags are merged (R65). -/

section
variable (c : Core) (l : List (Nat × FlagSet))

@[simp] theorem Core.mergeFlags_num : (c.mergeFlags l).num = c.num := rfl
@[simp] theorem Core.mergeFlags_run : (c.mergeFlags l).run = c.run := rfl
@[simp] theorem Core.mergeFlags_fw : (c.mergeFlags l).fw = c.fw := rfl
@[simp] theorem Core.mergeFlags_flight : (c.mergeFlags l).flight = c.flight := rfl
@[simp] theorem Core.mergeFlags_x : (c.mergeFlags l).x = c.x := rfl
@[simp] theorem Core.mergeFlags_fwX : (c.mergeFlags l).fwX = c.fwX := rfl
@[simp] theorem Core.mergeFlags_pc : (c.mergeFlags l).pc = c.pc := rfl
@[simp] theorem Core.mergeFlags_fwPc : (c.mergeFlags l).fwPc = c.fwPc := rfl
@[simp] theorem Core.mergeFlags_line : (c.mergeFlags l).line = c.line := rfl
@[simp] theorem Core.mergeFlags_fwLine : (c.mergeFlags l).fwLine = c.fwLine := rfl
@[simp] theorem Core.mergeFlags_loop : (c.mergeFlags l).loop = c.loop := rfl
@[simp] theorem Core.mergeFlags_m : (c.mergeFlags l).m = c.m := rfl
@[simp] theorem Core.mergeFlags_vec : (c.mergeFlags l).vec = c.vec := rfl
@[simp] theorem Core.mergeFlags_tiles : (c.mergeFlags l).tiles = c.tiles := rfl
@[simp] theorem Core.mergeFlags_acc : (c.mergeFlags l).acc = c.acc := rfl
@[simp] theorem Core.mergeFlags_rowType : (c.mergeFlags l).rowType = c.rowType := rfl
@[simp] theorem Core.mergeFlags_ecc : (c.mergeFlags l).ecc = c.ecc := rfl
@[simp] theorem Core.mergeFlags_slots : (c.mergeFlags l).slots = c.slots := rfl
@[simp] theorem Core.mergeFlags_sS : (c.mergeFlags l).sS = c.sS := rfl
@[simp] theorem Core.mergeFlags_sV : (c.mergeFlags l).sV = c.sV := rfl
@[simp] theorem Core.mergeFlags_sF : (c.mergeFlags l).sF = c.sF := rfl
@[simp] theorem Core.mergeFlags_sq : (c.mergeFlags l).sq = c.sq := rfl
@[simp] theorem Core.mergeFlags_fq : (c.mergeFlags l).fq = c.fq := rfl
@[simp] theorem Core.mergeFlags_vq : (c.mergeFlags l).vq = c.vq := rfl
@[simp] theorem Core.mergeFlags_stamp : (c.mergeFlags l).stamp = c.stamp := rfl
@[simp] theorem Core.mergeFlags_waits : (c.mergeFlags l).waits = c.waits := rfl
@[simp] theorem Core.mergeFlags_remote : (c.mergeFlags l).remote = c.remote := rfl
@[simp] theorem Core.mergeFlags_planes : (c.mergeFlags l).planes = c.planes := rfl
@[simp] theorem Core.mergeFlags_flags : (c.mergeFlags l).flags = c.flags := rfl
@[simp] theorem Core.mergeFlags_ahead : (c.mergeFlags l).ahead = c.ahead := rfl
@[simp] theorem Core.mergeFlags_window : (c.mergeFlags l).window = c.window := rfl
@[simp] theorem Core.mergeFlags_posts : (c.mergeFlags l).posts = c.posts := rfl
@[simp] theorem Core.mergeFlags_heads : (c.mergeFlags l).heads = c.heads := rfl
@[simp] theorem Core.mergeFlags_stopAt : (c.mergeFlags l).stopAt = c.stopAt := rfl
@[simp] theorem Core.mergeFlags_tested : (c.mergeFlags l).tested = c.tested := rfl
@[simp] theorem Core.mergeFlags_taken : (c.mergeFlags l).taken = c.taken := rfl
@[simp] theorem Core.mergeFlags_shut : (c.mergeFlags l).shut = c.shut := rfl
@[simp] theorem Core.mergeFlags_serial : (c.mergeFlags l).serial = c.serial := rfl
@[simp] theorem Core.mergeFlags_cmds : (c.mergeFlags l).cmds = c.cmds := rfl
@[simp] theorem Core.mergeFlags_owed : (c.mergeFlags l).owed = c.owed := rfl
@[simp] theorem Core.mergeFlags_ended : (c.mergeFlags l).ended = c.ended := rfl
@[simp] theorem Core.mergeFlags_mismatch : (c.mergeFlags l).mismatch = c.mismatch := rfl
@[simp] theorem Core.mergeFlags_refused : (c.mergeFlags l).refused = c.refused := rfl
@[simp] theorem Core.mergeFlags_fwTrap : (c.mergeFlags l).fwTrap = c.fwTrap := rfl
@[simp] theorem Core.mergeFlags_inner : (c.mergeFlags l).inner = c.inner := rfl
@[simp] theorem Core.mergeFlags_doubleTrap : (c.mergeFlags l).doubleTrap = c.doubleTrap := rfl
@[simp] theorem Core.mergeFlags_barriers : (c.mergeFlags l).barriers = c.barriers := rfl
@[simp] theorem Core.mergeFlags_notice : (c.mergeFlags l).notice = c.notice := rfl
@[simp] theorem Core.mergeFlags_switching : (c.mergeFlags l).switching = c.switching := rfl
@[simp] theorem Core.mergeFlags_ran : (c.mergeFlags l).ran = c.ran := rfl

end

/-! Control arrives somewhere (R77, R79). -/

/-- An arrival changes the focused core and the quads alone. -/
theorem State.arrive_shape (s : State) (pc : Word) (taken reel : Bool) : ∃ q, s.arrive pc taken reel =
    { s with quads := q, core := (s.core.arrive pc taken).1 } := by
  unfold State.arrive
  dsimp only
  split
  · exact ⟨s.quads, rfl⟩
  · exact State.reelStep_shape { s with core := (s.core.arrive pc taken).1 } ..

section
variable (s : State) (pc : Word) (taken reel : Bool)

@[simp] theorem State.arrive_others : (s.arrive pc taken reel).others = s.others := by obtain ⟨q, h⟩ := s.arrive_shape pc taken reel; rw [h]
@[simp] theorem State.arrive_pkg : (s.arrive pc taken reel).pkg = s.pkg := by obtain ⟨q, h⟩ := s.arrive_shape pc taken reel; rw [h]
@[simp] theorem State.arrive_time : (s.arrive pc taken reel).time = s.time := by obtain ⟨q, h⟩ := s.arrive_shape pc taken reel; rw [h]
@[simp] theorem State.arrive_synced : (s.arrive pc taken reel).synced = s.synced := by obtain ⟨q, h⟩ := s.arrive_shape pc taken reel; rw [h]
@[simp] theorem State.arrive_slewed : (s.arrive pc taken reel).slewed = s.slewed := by obtain ⟨q, h⟩ := s.arrive_shape pc taken reel; rw [h]
@[simp] theorem State.arrive_mem : (s.arrive pc taken reel).mem = s.mem := by obtain ⟨q, h⟩ := s.arrive_shape pc taken reel; rw [h]
@[simp] theorem State.arrive_host : (s.arrive pc taken reel).host = s.host := by obtain ⟨q, h⟩ := s.arrive_shape pc taken reel; rw [h]
@[simp] theorem State.arrive_lines : (s.arrive pc taken reel).lines = s.lines := by obtain ⟨q, h⟩ := s.arrive_shape pc taken reel; rw [h]
@[simp] theorem State.arrive_old : (s.arrive pc taken reel).old = s.old := by obtain ⟨q, h⟩ := s.arrive_shape pc taken reel; rw [h]
@[simp] theorem State.arrive_services : (s.arrive pc taken reel).services = s.services := by obtain ⟨q, h⟩ := s.arrive_shape pc taken reel; rw [h]
@[simp] theorem State.arrive_ptsIn : (s.arrive pc taken reel).ptsIn = s.ptsIn := by obtain ⟨q, h⟩ := s.arrive_shape pc taken reel; rw [h]
@[simp] theorem State.arrive_extents : (s.arrive pc taken reel).extents = s.extents := by obtain ⟨q, h⟩ := s.arrive_shape pc taken reel; rw [h]
@[simp] theorem State.arrive_code : (s.arrive pc taken reel).code = s.code := by obtain ⟨q, h⟩ := s.arrive_shape pc taken reel; rw [h]
@[simp] theorem State.arrive_barriers : (s.arrive pc taken reel).barriers = s.barriers := by obtain ⟨q, h⟩ := s.arrive_shape pc taken reel; rw [h]
@[simp] theorem State.arrive_live : (s.arrive pc taken reel).live = s.live := by obtain ⟨q, h⟩ := s.arrive_shape pc taken reel; rw [h]
@[simp] theorem State.arrive_keyMat : (s.arrive pc taken reel).keyMat = s.keyMat := by obtain ⟨q, h⟩ := s.arrive_shape pc taken reel; rw [h]
@[simp] theorem State.arrive_revoking : (s.arrive pc taken reel).revoking = s.revoking := by obtain ⟨q, h⟩ := s.arrive_shape pc taken reel; rw [h]
@[simp] theorem State.arrive_discards : (s.arrive pc taken reel).discards = s.discards := by obtain ⟨q, h⟩ := s.arrive_shape pc taken reel; rw [h]
@[simp] theorem State.arrive_l720 : (s.arrive pc taken reel).l720 = s.l720 := by obtain ⟨q, h⟩ := s.arrive_shape pc taken reel; rw [h]
@[simp] theorem State.arrive_feats : (s.arrive pc taken reel).feats = s.feats := by obtain ⟨q, h⟩ := s.arrive_shape pc taken reel; rw [h]
@[simp] theorem State.arrive_launches : (s.arrive pc taken reel).launches = s.launches := by obtain ⟨q, h⟩ := s.arrive_shape pc taken reel; rw [h]
@[simp] theorem State.arrive_nextLaunch : (s.arrive pc taken reel).nextLaunch = s.nextLaunch := by obtain ⟨q, h⟩ := s.arrive_shape pc taken reel; rw [h]
@[simp] theorem State.arrive_admittedOnce : (s.arrive pc taken reel).admittedOnce = s.admittedOnce := by obtain ⟨q, h⟩ := s.arrive_shape pc taken reel; rw [h]
@[simp] theorem State.arrive_flights : (s.arrive pc taken reel).flights = s.flights := by obtain ⟨q, h⟩ := s.arrive_shape pc taken reel; rw [h]
@[simp] theorem State.arrive_nextOrder : (s.arrive pc taken reel).nextOrder = s.nextOrder := by obtain ⟨q, h⟩ := s.arrive_shape pc taken reel; rw [h]
@[simp] theorem State.arrive_saves : (s.arrive pc taken reel).saves = s.saves := by obtain ⟨q, h⟩ := s.arrive_shape pc taken reel; rw [h]
@[simp] theorem State.arrive_preempts : (s.arrive pc taken reel).preempts = s.preempts := by obtain ⟨q, h⟩ := s.arrive_shape pc taken reel; rw [h]
@[simp] theorem State.arrive_moves : (s.arrive pc taken reel).moves = s.moves := by obtain ⟨q, h⟩ := s.arrive_shape pc taken reel; rw [h]
@[simp] theorem State.arrive_nextRound : (s.arrive pc taken reel).nextRound = s.nextRound := by obtain ⟨q, h⟩ := s.arrive_shape pc taken reel; rw [h]
@[simp] theorem State.arrive_grants : (s.arrive pc taken reel).grants = s.grants := by obtain ⟨q, h⟩ := s.arrive_shape pc taken reel; rw [h]
@[simp] theorem State.arrive_refills : (s.arrive pc taken reel).refills = s.refills := by obtain ⟨q, h⟩ := s.arrive_shape pc taken reel; rw [h]
@[simp] theorem State.arrive_buckets : (s.arrive pc taken reel).buckets = s.buckets := by obtain ⟨q, h⟩ := s.arrive_shape pc taken reel; rw [h]
@[simp] theorem State.arrive_shares : (s.arrive pc taken reel).shares = s.shares := by obtain ⟨q, h⟩ := s.arrive_shape pc taken reel; rw [h]
@[simp] theorem State.arrive_records : (s.arrive pc taken reel).records = s.records := by obtain ⟨q, h⟩ := s.arrive_shape pc taken reel; rw [h]
@[simp] theorem State.arrive_nextId : (s.arrive pc taken reel).nextId = s.nextId := by obtain ⟨q, h⟩ := s.arrive_shape pc taken reel; rw [h]
@[simp] theorem State.arrive_freed : (s.arrive pc taken reel).freed = s.freed := by obtain ⟨q, h⟩ := s.arrive_shape pc taken reel; rw [h]
@[simp] theorem State.arrive_finalisers : (s.arrive pc taken reel).finalisers = s.finalisers := by obtain ⟨q, h⟩ := s.arrive_shape pc taken reel; rw [h]
@[simp] theorem State.arrive_ballast : (s.arrive pc taken reel).ballast = s.ballast := by obtain ⟨q, h⟩ := s.arrive_shape pc taken reel; rw [h]
@[simp] theorem State.arrive_forwards : (s.arrive pc taken reel).forwards = s.forwards := by obtain ⟨q, h⟩ := s.arrive_shape pc taken reel; rw [h]
@[simp] theorem State.arrive_egress : (s.arrive pc taken reel).egress = s.egress := by obtain ⟨q, h⟩ := s.arrive_shape pc taken reel; rw [h]
@[simp] theorem State.arrive_ingress : (s.arrive pc taken reel).ingress = s.ingress := by obtain ⟨q, h⟩ := s.arrive_shape pc taken reel; rw [h]
@[simp] theorem State.arrive_nextPacket : (s.arrive pc taken reel).nextPacket = s.nextPacket := by obtain ⟨q, h⟩ := s.arrive_shape pc taken reel; rw [h]
@[simp] theorem State.arrive_performed : (s.arrive pc taken reel).performed = s.performed := by obtain ⟨q, h⟩ := s.arrive_shape pc taken reel; rw [h]
@[simp] theorem State.arrive_combined : (s.arrive pc taken reel).combined = s.combined := by obtain ⟨q, h⟩ := s.arrive_shape pc taken reel; rw [h]
@[simp] theorem State.arrive_links : (s.arrive pc taken reel).links = s.links := by obtain ⟨q, h⟩ := s.arrive_shape pc taken reel; rw [h]
@[simp] theorem State.arrive_farDown : (s.arrive pc taken reel).farDown = s.farDown := by obtain ⟨q, h⟩ := s.arrive_shape pc taken reel; rw [h]
@[simp] theorem State.arrive_lost : (s.arrive pc taken reel).lost = s.lost := by obtain ⟨q, h⟩ := s.arrive_shape pc taken reel; rw [h]
@[simp] theorem State.arrive_reached : (s.arrive pc taken reel).reached = s.reached := by obtain ⟨q, h⟩ := s.arrive_shape pc taken reel; rw [h]
@[simp] theorem State.arrive_linkless : (s.arrive pc taken reel).linkless = s.linkless := by obtain ⟨q, h⟩ := s.arrive_shape pc taken reel; rw [h]
@[simp] theorem State.arrive_port : (s.arrive pc taken reel).port = s.port := by obtain ⟨q, h⟩ := s.arrive_shape pc taken reel; rw [h]
@[simp] theorem State.arrive_session : (s.arrive pc taken reel).session = s.session := by obtain ⟨q, h⟩ := s.arrive_shape pc taken reel; rw [h]
@[simp] theorem State.arrive_accepted : (s.arrive pc taken reel).accepted = s.accepted := by obtain ⟨q, h⟩ := s.arrive_shape pc taken reel; rw [h]
@[simp] theorem State.arrive_announced : (s.arrive pc taken reel).announced = s.announced := by obtain ⟨q, h⟩ := s.arrive_shape pc taken reel; rw [h]
@[simp] theorem State.arrive_heard : (s.arrive pc taken reel).heard = s.heard := by obtain ⟨q, h⟩ := s.arrive_shape pc taken reel; rw [h]
@[simp] theorem State.arrive_posts : (s.arrive pc taken reel).posts = s.posts := by obtain ⟨q, h⟩ := s.arrive_shape pc taken reel; rw [h]
@[simp] theorem State.arrive_boot : (s.arrive pc taken reel).boot = s.boot := by obtain ⟨q, h⟩ := s.arrive_shape pc taken reel; rw [h]
@[simp] theorem State.arrive_islands : (s.arrive pc taken reel).islands = s.islands := by obtain ⟨q, h⟩ := s.arrive_shape pc taken reel; rw [h]
@[simp] theorem State.arrive_powerCap : (s.arrive pc taken reel).powerCap = s.powerCap := by obtain ⟨q, h⟩ := s.arrive_shape pc taken reel; rw [h]
@[simp] theorem State.arrive_reports : (s.arrive pc taken reel).reports = s.reports := by obtain ⟨q, h⟩ := s.arrive_shape pc taken reel; rw [h]
@[simp] theorem State.arrive_agenda : (s.arrive pc taken reel).agenda = s.agenda := by obtain ⟨q, h⟩ := s.arrive_shape pc taken reel; rw [h]
@[simp] theorem State.arrive_pick : (s.arrive pc taken reel).pick = s.pick := by obtain ⟨q, h⟩ := s.arrive_shape pc taken reel; rw [h]
@[simp] theorem State.arrive_free : (s.arrive pc taken reel).free = s.free := by obtain ⟨q, h⟩ := s.arrive_shape pc taken reel; rw [h]

@[simp] theorem Core.arrive_run (c : Core) : (c.arrive pc taken).1.run = c.run := by have h := c.arrive_flowed pc taken; unfold Core.flowed at h; rw [h]
@[simp] theorem Core.arrive_fw (c : Core) : (c.arrive pc taken).1.fw = c.fw := by have h := c.arrive_flowed pc taken; unfold Core.flowed at h; rw [h]
@[simp] theorem Core.arrive_flight (c : Core) : (c.arrive pc taken).1.flight = c.flight := by have h := c.arrive_flowed pc taken; unfold Core.flowed at h; rw [h]
@[simp] theorem Core.arrive_x (c : Core) : (c.arrive pc taken).1.x = c.x := by have h := c.arrive_flowed pc taken; unfold Core.flowed at h; rw [h]
@[simp] theorem Core.arrive_fwX (c : Core) : (c.arrive pc taken).1.fwX = c.fwX := by have h := c.arrive_flowed pc taken; unfold Core.flowed at h; rw [h]
@[simp] theorem Core.arrive_m (c : Core) : (c.arrive pc taken).1.m = c.m := by have h := c.arrive_flowed pc taken; unfold Core.flowed at h; rw [h]
@[simp] theorem Core.arrive_vec (c : Core) : (c.arrive pc taken).1.vec = c.vec := by have h := c.arrive_flowed pc taken; unfold Core.flowed at h; rw [h]
@[simp] theorem Core.arrive_tiles (c : Core) : (c.arrive pc taken).1.tiles = c.tiles := by have h := c.arrive_flowed pc taken; unfold Core.flowed at h; rw [h]
@[simp] theorem Core.arrive_acc (c : Core) : (c.arrive pc taken).1.acc = c.acc := by have h := c.arrive_flowed pc taken; unfold Core.flowed at h; rw [h]
@[simp] theorem Core.arrive_rowType (c : Core) : (c.arrive pc taken).1.rowType = c.rowType := by have h := c.arrive_flowed pc taken; unfold Core.flowed at h; rw [h]
@[simp] theorem Core.arrive_ecc (c : Core) : (c.arrive pc taken).1.ecc = c.ecc := by have h := c.arrive_flowed pc taken; unfold Core.flowed at h; rw [h]
@[simp] theorem Core.arrive_slots (c : Core) : (c.arrive pc taken).1.slots = c.slots := by have h := c.arrive_flowed pc taken; unfold Core.flowed at h; rw [h]
@[simp] theorem Core.arrive_sS (c : Core) : (c.arrive pc taken).1.sS = c.sS := by have h := c.arrive_flowed pc taken; unfold Core.flowed at h; rw [h]
@[simp] theorem Core.arrive_sV (c : Core) : (c.arrive pc taken).1.sV = c.sV := by have h := c.arrive_flowed pc taken; unfold Core.flowed at h; rw [h]
@[simp] theorem Core.arrive_sF (c : Core) : (c.arrive pc taken).1.sF = c.sF := by have h := c.arrive_flowed pc taken; unfold Core.flowed at h; rw [h]
@[simp] theorem Core.arrive_sq (c : Core) : (c.arrive pc taken).1.sq = c.sq := by have h := c.arrive_flowed pc taken; unfold Core.flowed at h; rw [h]
@[simp] theorem Core.arrive_fq (c : Core) : (c.arrive pc taken).1.fq = c.fq := by have h := c.arrive_flowed pc taken; unfold Core.flowed at h; rw [h]
@[simp] theorem Core.arrive_vq (c : Core) : (c.arrive pc taken).1.vq = c.vq := by have h := c.arrive_flowed pc taken; unfold Core.flowed at h; rw [h]
@[simp] theorem Core.arrive_stamp (c : Core) : (c.arrive pc taken).1.stamp = c.stamp := by have h := c.arrive_flowed pc taken; unfold Core.flowed at h; rw [h]
@[simp] theorem Core.arrive_waits (c : Core) : (c.arrive pc taken).1.waits = c.waits := by have h := c.arrive_flowed pc taken; unfold Core.flowed at h; rw [h]
@[simp] theorem Core.arrive_remote (c : Core) : (c.arrive pc taken).1.remote = c.remote := by have h := c.arrive_flowed pc taken; unfold Core.flowed at h; rw [h]
@[simp] theorem Core.arrive_planes (c : Core) : (c.arrive pc taken).1.planes = c.planes := by have h := c.arrive_flowed pc taken; unfold Core.flowed at h; rw [h]
@[simp] theorem Core.arrive_flags (c : Core) : (c.arrive pc taken).1.flags = c.flags := by have h := c.arrive_flowed pc taken; unfold Core.flowed at h; rw [h]
@[simp] theorem Core.arrive_ahead (c : Core) : (c.arrive pc taken).1.ahead = c.ahead := by have h := c.arrive_flowed pc taken; unfold Core.flowed at h; rw [h]
@[simp] theorem Core.arrive_window (c : Core) : (c.arrive pc taken).1.window = c.window := by have h := c.arrive_flowed pc taken; unfold Core.flowed at h; rw [h]
@[simp] theorem Core.arrive_posts (c : Core) : (c.arrive pc taken).1.posts = c.posts := by have h := c.arrive_flowed pc taken; unfold Core.flowed at h; rw [h]
@[simp] theorem Core.arrive_stopAt (c : Core) : (c.arrive pc taken).1.stopAt = c.stopAt := by have h := c.arrive_flowed pc taken; unfold Core.flowed at h; rw [h]
@[simp] theorem Core.arrive_taken (c : Core) : (c.arrive pc taken).1.taken = c.taken := by have h := c.arrive_flowed pc taken; unfold Core.flowed at h; rw [h]
@[simp] theorem Core.arrive_shut (c : Core) : (c.arrive pc taken).1.shut = c.shut := by have h := c.arrive_flowed pc taken; unfold Core.flowed at h; rw [h]
@[simp] theorem Core.arrive_serial (c : Core) : (c.arrive pc taken).1.serial = c.serial := by have h := c.arrive_flowed pc taken; unfold Core.flowed at h; rw [h]
@[simp] theorem Core.arrive_cmds (c : Core) : (c.arrive pc taken).1.cmds = c.cmds := by have h := c.arrive_flowed pc taken; unfold Core.flowed at h; rw [h]
@[simp] theorem Core.arrive_owed (c : Core) : (c.arrive pc taken).1.owed = c.owed := by have h := c.arrive_flowed pc taken; unfold Core.flowed at h; rw [h]
@[simp] theorem Core.arrive_ended (c : Core) : (c.arrive pc taken).1.ended = c.ended := by have h := c.arrive_flowed pc taken; unfold Core.flowed at h; rw [h]
@[simp] theorem Core.arrive_mismatch (c : Core) : (c.arrive pc taken).1.mismatch = c.mismatch := by have h := c.arrive_flowed pc taken; unfold Core.flowed at h; rw [h]
@[simp] theorem Core.arrive_refused (c : Core) : (c.arrive pc taken).1.refused = c.refused := by have h := c.arrive_flowed pc taken; unfold Core.flowed at h; rw [h]
@[simp] theorem Core.arrive_fwTrap (c : Core) : (c.arrive pc taken).1.fwTrap = c.fwTrap := by have h := c.arrive_flowed pc taken; unfold Core.flowed at h; rw [h]
@[simp] theorem Core.arrive_inner (c : Core) : (c.arrive pc taken).1.inner = c.inner := by have h := c.arrive_flowed pc taken; unfold Core.flowed at h; rw [h]
@[simp] theorem Core.arrive_doubleTrap (c : Core) : (c.arrive pc taken).1.doubleTrap = c.doubleTrap := by have h := c.arrive_flowed pc taken; unfold Core.flowed at h; rw [h]
@[simp] theorem Core.arrive_barriers (c : Core) : (c.arrive pc taken).1.barriers = c.barriers := by have h := c.arrive_flowed pc taken; unfold Core.flowed at h; rw [h]
@[simp] theorem Core.arrive_notice (c : Core) : (c.arrive pc taken).1.notice = c.notice := by have h := c.arrive_flowed pc taken; unfold Core.flowed at h; rw [h]
@[simp] theorem Core.arrive_switching (c : Core) : (c.arrive pc taken).1.switching = c.switching := by have h := c.arrive_flowed pc taken; unfold Core.flowed at h; rw [h]
@[simp] theorem Core.arrive_ran (c : Core) : (c.arrive pc taken).1.ran = c.ran := by have h := c.arrive_flowed pc taken; unfold Core.flowed at h; rw [h]

@[simp] theorem State.arrive_core_num : (s.arrive pc taken reel).core.num = s.core.num := by obtain ⟨q, h⟩ := s.arrive_shape pc taken reel; rw [h]; exact Core.arrive_num ..
@[simp] theorem State.arrive_core_run : (s.arrive pc taken reel).core.run = s.core.run := by obtain ⟨q, h⟩ := s.arrive_shape pc taken reel; rw [h]; exact Core.arrive_run ..
@[simp] theorem State.arrive_core_fw : (s.arrive pc taken reel).core.fw = s.core.fw := by obtain ⟨q, h⟩ := s.arrive_shape pc taken reel; rw [h]; exact Core.arrive_fw ..
@[simp] theorem State.arrive_core_flight : (s.arrive pc taken reel).core.flight = s.core.flight := by obtain ⟨q, h⟩ := s.arrive_shape pc taken reel; rw [h]; exact Core.arrive_flight ..
@[simp] theorem State.arrive_core_x : (s.arrive pc taken reel).core.x = s.core.x := by obtain ⟨q, h⟩ := s.arrive_shape pc taken reel; rw [h]; exact Core.arrive_x ..
@[simp] theorem State.arrive_core_fwX : (s.arrive pc taken reel).core.fwX = s.core.fwX := by obtain ⟨q, h⟩ := s.arrive_shape pc taken reel; rw [h]; exact Core.arrive_fwX ..
@[simp] theorem State.arrive_core_m : (s.arrive pc taken reel).core.m = s.core.m := by obtain ⟨q, h⟩ := s.arrive_shape pc taken reel; rw [h]; exact Core.arrive_m ..
@[simp] theorem State.arrive_core_vec : (s.arrive pc taken reel).core.vec = s.core.vec := by obtain ⟨q, h⟩ := s.arrive_shape pc taken reel; rw [h]; exact Core.arrive_vec ..
@[simp] theorem State.arrive_core_tiles : (s.arrive pc taken reel).core.tiles = s.core.tiles := by obtain ⟨q, h⟩ := s.arrive_shape pc taken reel; rw [h]; exact Core.arrive_tiles ..
@[simp] theorem State.arrive_core_acc : (s.arrive pc taken reel).core.acc = s.core.acc := by obtain ⟨q, h⟩ := s.arrive_shape pc taken reel; rw [h]; exact Core.arrive_acc ..
@[simp] theorem State.arrive_core_rowType : (s.arrive pc taken reel).core.rowType = s.core.rowType := by obtain ⟨q, h⟩ := s.arrive_shape pc taken reel; rw [h]; exact Core.arrive_rowType ..
@[simp] theorem State.arrive_core_ecc : (s.arrive pc taken reel).core.ecc = s.core.ecc := by obtain ⟨q, h⟩ := s.arrive_shape pc taken reel; rw [h]; exact Core.arrive_ecc ..
@[simp] theorem State.arrive_core_slots : (s.arrive pc taken reel).core.slots = s.core.slots := by obtain ⟨q, h⟩ := s.arrive_shape pc taken reel; rw [h]; exact Core.arrive_slots ..
@[simp] theorem State.arrive_core_sS : (s.arrive pc taken reel).core.sS = s.core.sS := by obtain ⟨q, h⟩ := s.arrive_shape pc taken reel; rw [h]; exact Core.arrive_sS ..
@[simp] theorem State.arrive_core_sV : (s.arrive pc taken reel).core.sV = s.core.sV := by obtain ⟨q, h⟩ := s.arrive_shape pc taken reel; rw [h]; exact Core.arrive_sV ..
@[simp] theorem State.arrive_core_sF : (s.arrive pc taken reel).core.sF = s.core.sF := by obtain ⟨q, h⟩ := s.arrive_shape pc taken reel; rw [h]; exact Core.arrive_sF ..
@[simp] theorem State.arrive_core_sq : (s.arrive pc taken reel).core.sq = s.core.sq := by obtain ⟨q, h⟩ := s.arrive_shape pc taken reel; rw [h]; exact Core.arrive_sq ..
@[simp] theorem State.arrive_core_fq : (s.arrive pc taken reel).core.fq = s.core.fq := by obtain ⟨q, h⟩ := s.arrive_shape pc taken reel; rw [h]; exact Core.arrive_fq ..
@[simp] theorem State.arrive_core_vq : (s.arrive pc taken reel).core.vq = s.core.vq := by obtain ⟨q, h⟩ := s.arrive_shape pc taken reel; rw [h]; exact Core.arrive_vq ..
@[simp] theorem State.arrive_core_stamp : (s.arrive pc taken reel).core.stamp = s.core.stamp := by obtain ⟨q, h⟩ := s.arrive_shape pc taken reel; rw [h]; exact Core.arrive_stamp ..
@[simp] theorem State.arrive_core_waits : (s.arrive pc taken reel).core.waits = s.core.waits := by obtain ⟨q, h⟩ := s.arrive_shape pc taken reel; rw [h]; exact Core.arrive_waits ..
@[simp] theorem State.arrive_core_remote : (s.arrive pc taken reel).core.remote = s.core.remote := by obtain ⟨q, h⟩ := s.arrive_shape pc taken reel; rw [h]; exact Core.arrive_remote ..
@[simp] theorem State.arrive_core_planes : (s.arrive pc taken reel).core.planes = s.core.planes := by obtain ⟨q, h⟩ := s.arrive_shape pc taken reel; rw [h]; exact Core.arrive_planes ..
@[simp] theorem State.arrive_core_flags : (s.arrive pc taken reel).core.flags = s.core.flags := by obtain ⟨q, h⟩ := s.arrive_shape pc taken reel; rw [h]; exact Core.arrive_flags ..
@[simp] theorem State.arrive_core_ahead : (s.arrive pc taken reel).core.ahead = s.core.ahead := by obtain ⟨q, h⟩ := s.arrive_shape pc taken reel; rw [h]; exact Core.arrive_ahead ..
@[simp] theorem State.arrive_core_window : (s.arrive pc taken reel).core.window = s.core.window := by obtain ⟨q, h⟩ := s.arrive_shape pc taken reel; rw [h]; exact Core.arrive_window ..
@[simp] theorem State.arrive_core_posts : (s.arrive pc taken reel).core.posts = s.core.posts := by obtain ⟨q, h⟩ := s.arrive_shape pc taken reel; rw [h]; exact Core.arrive_posts ..
@[simp] theorem State.arrive_core_stopAt : (s.arrive pc taken reel).core.stopAt = s.core.stopAt := by obtain ⟨q, h⟩ := s.arrive_shape pc taken reel; rw [h]; exact Core.arrive_stopAt ..
@[simp] theorem State.arrive_core_taken : (s.arrive pc taken reel).core.taken = s.core.taken := by obtain ⟨q, h⟩ := s.arrive_shape pc taken reel; rw [h]; exact Core.arrive_taken ..
@[simp] theorem State.arrive_core_shut : (s.arrive pc taken reel).core.shut = s.core.shut := by obtain ⟨q, h⟩ := s.arrive_shape pc taken reel; rw [h]; exact Core.arrive_shut ..
@[simp] theorem State.arrive_core_serial : (s.arrive pc taken reel).core.serial = s.core.serial := by obtain ⟨q, h⟩ := s.arrive_shape pc taken reel; rw [h]; exact Core.arrive_serial ..
@[simp] theorem State.arrive_core_cmds : (s.arrive pc taken reel).core.cmds = s.core.cmds := by obtain ⟨q, h⟩ := s.arrive_shape pc taken reel; rw [h]; exact Core.arrive_cmds ..
@[simp] theorem State.arrive_core_owed : (s.arrive pc taken reel).core.owed = s.core.owed := by obtain ⟨q, h⟩ := s.arrive_shape pc taken reel; rw [h]; exact Core.arrive_owed ..
@[simp] theorem State.arrive_core_ended : (s.arrive pc taken reel).core.ended = s.core.ended := by obtain ⟨q, h⟩ := s.arrive_shape pc taken reel; rw [h]; exact Core.arrive_ended ..
@[simp] theorem State.arrive_core_mismatch : (s.arrive pc taken reel).core.mismatch = s.core.mismatch := by obtain ⟨q, h⟩ := s.arrive_shape pc taken reel; rw [h]; exact Core.arrive_mismatch ..
@[simp] theorem State.arrive_core_refused : (s.arrive pc taken reel).core.refused = s.core.refused := by obtain ⟨q, h⟩ := s.arrive_shape pc taken reel; rw [h]; exact Core.arrive_refused ..
@[simp] theorem State.arrive_core_fwTrap : (s.arrive pc taken reel).core.fwTrap = s.core.fwTrap := by obtain ⟨q, h⟩ := s.arrive_shape pc taken reel; rw [h]; exact Core.arrive_fwTrap ..
@[simp] theorem State.arrive_core_inner : (s.arrive pc taken reel).core.inner = s.core.inner := by obtain ⟨q, h⟩ := s.arrive_shape pc taken reel; rw [h]; exact Core.arrive_inner ..
@[simp] theorem State.arrive_core_doubleTrap : (s.arrive pc taken reel).core.doubleTrap = s.core.doubleTrap := by obtain ⟨q, h⟩ := s.arrive_shape pc taken reel; rw [h]; exact Core.arrive_doubleTrap ..
@[simp] theorem State.arrive_core_barriers : (s.arrive pc taken reel).core.barriers = s.core.barriers := by obtain ⟨q, h⟩ := s.arrive_shape pc taken reel; rw [h]; exact Core.arrive_barriers ..
@[simp] theorem State.arrive_core_notice : (s.arrive pc taken reel).core.notice = s.core.notice := by obtain ⟨q, h⟩ := s.arrive_shape pc taken reel; rw [h]; exact Core.arrive_notice ..
@[simp] theorem State.arrive_core_switching : (s.arrive pc taken reel).core.switching = s.core.switching := by obtain ⟨q, h⟩ := s.arrive_shape pc taken reel; rw [h]; exact Core.arrive_switching ..
@[simp] theorem State.arrive_core_ran : (s.arrive pc taken reel).core.ran = s.core.ran := by obtain ⟨q, h⟩ := s.arrive_shape pc taken reel; rw [h]; exact Core.arrive_ran ..

end

/-! The next head in sequence. -/

section
variable (s : State)

@[simp] theorem State.advance_others : (s.advance).others = s.others := State.arrive_others ..
@[simp] theorem State.advance_pkg : (s.advance).pkg = s.pkg := State.arrive_pkg ..
@[simp] theorem State.advance_time : (s.advance).time = s.time := State.arrive_time ..
@[simp] theorem State.advance_synced : (s.advance).synced = s.synced := State.arrive_synced ..
@[simp] theorem State.advance_slewed : (s.advance).slewed = s.slewed := State.arrive_slewed ..
@[simp] theorem State.advance_mem : (s.advance).mem = s.mem := State.arrive_mem ..
@[simp] theorem State.advance_host : (s.advance).host = s.host := State.arrive_host ..
@[simp] theorem State.advance_lines : (s.advance).lines = s.lines := State.arrive_lines ..
@[simp] theorem State.advance_old : (s.advance).old = s.old := State.arrive_old ..
@[simp] theorem State.advance_services : (s.advance).services = s.services := State.arrive_services ..
@[simp] theorem State.advance_ptsIn : (s.advance).ptsIn = s.ptsIn := State.arrive_ptsIn ..
@[simp] theorem State.advance_extents : (s.advance).extents = s.extents := State.arrive_extents ..
@[simp] theorem State.advance_code : (s.advance).code = s.code := State.arrive_code ..
@[simp] theorem State.advance_barriers : (s.advance).barriers = s.barriers := State.arrive_barriers ..
@[simp] theorem State.advance_live : (s.advance).live = s.live := State.arrive_live ..
@[simp] theorem State.advance_keyMat : (s.advance).keyMat = s.keyMat := State.arrive_keyMat ..
@[simp] theorem State.advance_revoking : (s.advance).revoking = s.revoking := State.arrive_revoking ..
@[simp] theorem State.advance_discards : (s.advance).discards = s.discards := State.arrive_discards ..
@[simp] theorem State.advance_l720 : (s.advance).l720 = s.l720 := State.arrive_l720 ..
@[simp] theorem State.advance_feats : (s.advance).feats = s.feats := State.arrive_feats ..
@[simp] theorem State.advance_launches : (s.advance).launches = s.launches := State.arrive_launches ..
@[simp] theorem State.advance_nextLaunch : (s.advance).nextLaunch = s.nextLaunch := State.arrive_nextLaunch ..
@[simp] theorem State.advance_admittedOnce : (s.advance).admittedOnce = s.admittedOnce := State.arrive_admittedOnce ..
@[simp] theorem State.advance_flights : (s.advance).flights = s.flights := State.arrive_flights ..
@[simp] theorem State.advance_nextOrder : (s.advance).nextOrder = s.nextOrder := State.arrive_nextOrder ..
@[simp] theorem State.advance_saves : (s.advance).saves = s.saves := State.arrive_saves ..
@[simp] theorem State.advance_preempts : (s.advance).preempts = s.preempts := State.arrive_preempts ..
@[simp] theorem State.advance_moves : (s.advance).moves = s.moves := State.arrive_moves ..
@[simp] theorem State.advance_nextRound : (s.advance).nextRound = s.nextRound := State.arrive_nextRound ..
@[simp] theorem State.advance_grants : (s.advance).grants = s.grants := State.arrive_grants ..
@[simp] theorem State.advance_refills : (s.advance).refills = s.refills := State.arrive_refills ..
@[simp] theorem State.advance_buckets : (s.advance).buckets = s.buckets := State.arrive_buckets ..
@[simp] theorem State.advance_shares : (s.advance).shares = s.shares := State.arrive_shares ..
@[simp] theorem State.advance_records : (s.advance).records = s.records := State.arrive_records ..
@[simp] theorem State.advance_nextId : (s.advance).nextId = s.nextId := State.arrive_nextId ..
@[simp] theorem State.advance_freed : (s.advance).freed = s.freed := State.arrive_freed ..
@[simp] theorem State.advance_finalisers : (s.advance).finalisers = s.finalisers := State.arrive_finalisers ..
@[simp] theorem State.advance_ballast : (s.advance).ballast = s.ballast := State.arrive_ballast ..
@[simp] theorem State.advance_forwards : (s.advance).forwards = s.forwards := State.arrive_forwards ..
@[simp] theorem State.advance_egress : (s.advance).egress = s.egress := State.arrive_egress ..
@[simp] theorem State.advance_ingress : (s.advance).ingress = s.ingress := State.arrive_ingress ..
@[simp] theorem State.advance_nextPacket : (s.advance).nextPacket = s.nextPacket := State.arrive_nextPacket ..
@[simp] theorem State.advance_performed : (s.advance).performed = s.performed := State.arrive_performed ..
@[simp] theorem State.advance_combined : (s.advance).combined = s.combined := State.arrive_combined ..
@[simp] theorem State.advance_links : (s.advance).links = s.links := State.arrive_links ..
@[simp] theorem State.advance_farDown : (s.advance).farDown = s.farDown := State.arrive_farDown ..
@[simp] theorem State.advance_lost : (s.advance).lost = s.lost := State.arrive_lost ..
@[simp] theorem State.advance_reached : (s.advance).reached = s.reached := State.arrive_reached ..
@[simp] theorem State.advance_linkless : (s.advance).linkless = s.linkless := State.arrive_linkless ..
@[simp] theorem State.advance_port : (s.advance).port = s.port := State.arrive_port ..
@[simp] theorem State.advance_session : (s.advance).session = s.session := State.arrive_session ..
@[simp] theorem State.advance_accepted : (s.advance).accepted = s.accepted := State.arrive_accepted ..
@[simp] theorem State.advance_announced : (s.advance).announced = s.announced := State.arrive_announced ..
@[simp] theorem State.advance_heard : (s.advance).heard = s.heard := State.arrive_heard ..
@[simp] theorem State.advance_posts : (s.advance).posts = s.posts := State.arrive_posts ..
@[simp] theorem State.advance_boot : (s.advance).boot = s.boot := State.arrive_boot ..
@[simp] theorem State.advance_islands : (s.advance).islands = s.islands := State.arrive_islands ..
@[simp] theorem State.advance_powerCap : (s.advance).powerCap = s.powerCap := State.arrive_powerCap ..
@[simp] theorem State.advance_reports : (s.advance).reports = s.reports := State.arrive_reports ..
@[simp] theorem State.advance_agenda : (s.advance).agenda = s.agenda := State.arrive_agenda ..
@[simp] theorem State.advance_pick : (s.advance).pick = s.pick := State.arrive_pick ..
@[simp] theorem State.advance_free : (s.advance).free = s.free := State.arrive_free ..
@[simp] theorem State.advance_core_num : (s.advance).core.num = s.core.num := State.arrive_core_num ..
@[simp] theorem State.advance_core_run : (s.advance).core.run = s.core.run := State.arrive_core_run ..
@[simp] theorem State.advance_core_fw : (s.advance).core.fw = s.core.fw := State.arrive_core_fw ..
@[simp] theorem State.advance_core_flight : (s.advance).core.flight = s.core.flight := State.arrive_core_flight ..
@[simp] theorem State.advance_core_x : (s.advance).core.x = s.core.x := State.arrive_core_x ..
@[simp] theorem State.advance_core_fwX : (s.advance).core.fwX = s.core.fwX := State.arrive_core_fwX ..
@[simp] theorem State.advance_core_m : (s.advance).core.m = s.core.m := State.arrive_core_m ..
@[simp] theorem State.advance_core_vec : (s.advance).core.vec = s.core.vec := State.arrive_core_vec ..
@[simp] theorem State.advance_core_tiles : (s.advance).core.tiles = s.core.tiles := State.arrive_core_tiles ..
@[simp] theorem State.advance_core_acc : (s.advance).core.acc = s.core.acc := State.arrive_core_acc ..
@[simp] theorem State.advance_core_rowType : (s.advance).core.rowType = s.core.rowType := State.arrive_core_rowType ..
@[simp] theorem State.advance_core_ecc : (s.advance).core.ecc = s.core.ecc := State.arrive_core_ecc ..
@[simp] theorem State.advance_core_slots : (s.advance).core.slots = s.core.slots := State.arrive_core_slots ..
@[simp] theorem State.advance_core_sS : (s.advance).core.sS = s.core.sS := State.arrive_core_sS ..
@[simp] theorem State.advance_core_sV : (s.advance).core.sV = s.core.sV := State.arrive_core_sV ..
@[simp] theorem State.advance_core_sF : (s.advance).core.sF = s.core.sF := State.arrive_core_sF ..
@[simp] theorem State.advance_core_sq : (s.advance).core.sq = s.core.sq := State.arrive_core_sq ..
@[simp] theorem State.advance_core_fq : (s.advance).core.fq = s.core.fq := State.arrive_core_fq ..
@[simp] theorem State.advance_core_vq : (s.advance).core.vq = s.core.vq := State.arrive_core_vq ..
@[simp] theorem State.advance_core_stamp : (s.advance).core.stamp = s.core.stamp := State.arrive_core_stamp ..
@[simp] theorem State.advance_core_waits : (s.advance).core.waits = s.core.waits := State.arrive_core_waits ..
@[simp] theorem State.advance_core_remote : (s.advance).core.remote = s.core.remote := State.arrive_core_remote ..
@[simp] theorem State.advance_core_planes : (s.advance).core.planes = s.core.planes := State.arrive_core_planes ..
@[simp] theorem State.advance_core_flags : (s.advance).core.flags = s.core.flags := State.arrive_core_flags ..
@[simp] theorem State.advance_core_ahead : (s.advance).core.ahead = s.core.ahead := State.arrive_core_ahead ..
@[simp] theorem State.advance_core_window : (s.advance).core.window = s.core.window := State.arrive_core_window ..
@[simp] theorem State.advance_core_posts : (s.advance).core.posts = s.core.posts := State.arrive_core_posts ..
@[simp] theorem State.advance_core_stopAt : (s.advance).core.stopAt = s.core.stopAt := State.arrive_core_stopAt ..
@[simp] theorem State.advance_core_taken : (s.advance).core.taken = s.core.taken := State.arrive_core_taken ..
@[simp] theorem State.advance_core_shut : (s.advance).core.shut = s.core.shut := State.arrive_core_shut ..
@[simp] theorem State.advance_core_serial : (s.advance).core.serial = s.core.serial := State.arrive_core_serial ..
@[simp] theorem State.advance_core_cmds : (s.advance).core.cmds = s.core.cmds := State.arrive_core_cmds ..
@[simp] theorem State.advance_core_owed : (s.advance).core.owed = s.core.owed := State.arrive_core_owed ..
@[simp] theorem State.advance_core_ended : (s.advance).core.ended = s.core.ended := State.arrive_core_ended ..
@[simp] theorem State.advance_core_mismatch : (s.advance).core.mismatch = s.core.mismatch := State.arrive_core_mismatch ..
@[simp] theorem State.advance_core_refused : (s.advance).core.refused = s.core.refused := State.arrive_core_refused ..
@[simp] theorem State.advance_core_fwTrap : (s.advance).core.fwTrap = s.core.fwTrap := State.arrive_core_fwTrap ..
@[simp] theorem State.advance_core_inner : (s.advance).core.inner = s.core.inner := State.arrive_core_inner ..
@[simp] theorem State.advance_core_doubleTrap : (s.advance).core.doubleTrap = s.core.doubleTrap := State.arrive_core_doubleTrap ..
@[simp] theorem State.advance_core_barriers : (s.advance).core.barriers = s.core.barriers := State.arrive_core_barriers ..
@[simp] theorem State.advance_core_notice : (s.advance).core.notice = s.core.notice := State.arrive_core_notice ..
@[simp] theorem State.advance_core_switching : (s.advance).core.switching = s.core.switching := State.arrive_core_switching ..
@[simp] theorem State.advance_core_ran : (s.advance).core.ran = s.core.ran := State.arrive_core_ran ..

end

/-! A taken transfer. -/

section
variable (s : State) (pc : Word)

@[simp] theorem State.jump_others : (s.jump pc).others = s.others := State.arrive_others ..
@[simp] theorem State.jump_pkg : (s.jump pc).pkg = s.pkg := State.arrive_pkg ..
@[simp] theorem State.jump_time : (s.jump pc).time = s.time := State.arrive_time ..
@[simp] theorem State.jump_synced : (s.jump pc).synced = s.synced := State.arrive_synced ..
@[simp] theorem State.jump_slewed : (s.jump pc).slewed = s.slewed := State.arrive_slewed ..
@[simp] theorem State.jump_mem : (s.jump pc).mem = s.mem := State.arrive_mem ..
@[simp] theorem State.jump_host : (s.jump pc).host = s.host := State.arrive_host ..
@[simp] theorem State.jump_lines : (s.jump pc).lines = s.lines := State.arrive_lines ..
@[simp] theorem State.jump_old : (s.jump pc).old = s.old := State.arrive_old ..
@[simp] theorem State.jump_services : (s.jump pc).services = s.services := State.arrive_services ..
@[simp] theorem State.jump_ptsIn : (s.jump pc).ptsIn = s.ptsIn := State.arrive_ptsIn ..
@[simp] theorem State.jump_extents : (s.jump pc).extents = s.extents := State.arrive_extents ..
@[simp] theorem State.jump_code : (s.jump pc).code = s.code := State.arrive_code ..
@[simp] theorem State.jump_barriers : (s.jump pc).barriers = s.barriers := State.arrive_barriers ..
@[simp] theorem State.jump_live : (s.jump pc).live = s.live := State.arrive_live ..
@[simp] theorem State.jump_keyMat : (s.jump pc).keyMat = s.keyMat := State.arrive_keyMat ..
@[simp] theorem State.jump_revoking : (s.jump pc).revoking = s.revoking := State.arrive_revoking ..
@[simp] theorem State.jump_discards : (s.jump pc).discards = s.discards := State.arrive_discards ..
@[simp] theorem State.jump_l720 : (s.jump pc).l720 = s.l720 := State.arrive_l720 ..
@[simp] theorem State.jump_feats : (s.jump pc).feats = s.feats := State.arrive_feats ..
@[simp] theorem State.jump_launches : (s.jump pc).launches = s.launches := State.arrive_launches ..
@[simp] theorem State.jump_nextLaunch : (s.jump pc).nextLaunch = s.nextLaunch := State.arrive_nextLaunch ..
@[simp] theorem State.jump_admittedOnce : (s.jump pc).admittedOnce = s.admittedOnce := State.arrive_admittedOnce ..
@[simp] theorem State.jump_flights : (s.jump pc).flights = s.flights := State.arrive_flights ..
@[simp] theorem State.jump_nextOrder : (s.jump pc).nextOrder = s.nextOrder := State.arrive_nextOrder ..
@[simp] theorem State.jump_saves : (s.jump pc).saves = s.saves := State.arrive_saves ..
@[simp] theorem State.jump_preempts : (s.jump pc).preempts = s.preempts := State.arrive_preempts ..
@[simp] theorem State.jump_moves : (s.jump pc).moves = s.moves := State.arrive_moves ..
@[simp] theorem State.jump_nextRound : (s.jump pc).nextRound = s.nextRound := State.arrive_nextRound ..
@[simp] theorem State.jump_grants : (s.jump pc).grants = s.grants := State.arrive_grants ..
@[simp] theorem State.jump_refills : (s.jump pc).refills = s.refills := State.arrive_refills ..
@[simp] theorem State.jump_buckets : (s.jump pc).buckets = s.buckets := State.arrive_buckets ..
@[simp] theorem State.jump_shares : (s.jump pc).shares = s.shares := State.arrive_shares ..
@[simp] theorem State.jump_records : (s.jump pc).records = s.records := State.arrive_records ..
@[simp] theorem State.jump_nextId : (s.jump pc).nextId = s.nextId := State.arrive_nextId ..
@[simp] theorem State.jump_freed : (s.jump pc).freed = s.freed := State.arrive_freed ..
@[simp] theorem State.jump_finalisers : (s.jump pc).finalisers = s.finalisers := State.arrive_finalisers ..
@[simp] theorem State.jump_ballast : (s.jump pc).ballast = s.ballast := State.arrive_ballast ..
@[simp] theorem State.jump_forwards : (s.jump pc).forwards = s.forwards := State.arrive_forwards ..
@[simp] theorem State.jump_egress : (s.jump pc).egress = s.egress := State.arrive_egress ..
@[simp] theorem State.jump_ingress : (s.jump pc).ingress = s.ingress := State.arrive_ingress ..
@[simp] theorem State.jump_nextPacket : (s.jump pc).nextPacket = s.nextPacket := State.arrive_nextPacket ..
@[simp] theorem State.jump_performed : (s.jump pc).performed = s.performed := State.arrive_performed ..
@[simp] theorem State.jump_combined : (s.jump pc).combined = s.combined := State.arrive_combined ..
@[simp] theorem State.jump_links : (s.jump pc).links = s.links := State.arrive_links ..
@[simp] theorem State.jump_farDown : (s.jump pc).farDown = s.farDown := State.arrive_farDown ..
@[simp] theorem State.jump_lost : (s.jump pc).lost = s.lost := State.arrive_lost ..
@[simp] theorem State.jump_reached : (s.jump pc).reached = s.reached := State.arrive_reached ..
@[simp] theorem State.jump_linkless : (s.jump pc).linkless = s.linkless := State.arrive_linkless ..
@[simp] theorem State.jump_port : (s.jump pc).port = s.port := State.arrive_port ..
@[simp] theorem State.jump_session : (s.jump pc).session = s.session := State.arrive_session ..
@[simp] theorem State.jump_accepted : (s.jump pc).accepted = s.accepted := State.arrive_accepted ..
@[simp] theorem State.jump_announced : (s.jump pc).announced = s.announced := State.arrive_announced ..
@[simp] theorem State.jump_heard : (s.jump pc).heard = s.heard := State.arrive_heard ..
@[simp] theorem State.jump_posts : (s.jump pc).posts = s.posts := State.arrive_posts ..
@[simp] theorem State.jump_boot : (s.jump pc).boot = s.boot := State.arrive_boot ..
@[simp] theorem State.jump_islands : (s.jump pc).islands = s.islands := State.arrive_islands ..
@[simp] theorem State.jump_powerCap : (s.jump pc).powerCap = s.powerCap := State.arrive_powerCap ..
@[simp] theorem State.jump_reports : (s.jump pc).reports = s.reports := State.arrive_reports ..
@[simp] theorem State.jump_agenda : (s.jump pc).agenda = s.agenda := State.arrive_agenda ..
@[simp] theorem State.jump_pick : (s.jump pc).pick = s.pick := State.arrive_pick ..
@[simp] theorem State.jump_free : (s.jump pc).free = s.free := State.arrive_free ..
@[simp] theorem State.jump_core_num : (s.jump pc).core.num = s.core.num := State.arrive_core_num ..
@[simp] theorem State.jump_core_run : (s.jump pc).core.run = s.core.run := State.arrive_core_run ..
@[simp] theorem State.jump_core_fw : (s.jump pc).core.fw = s.core.fw := State.arrive_core_fw ..
@[simp] theorem State.jump_core_flight : (s.jump pc).core.flight = s.core.flight := State.arrive_core_flight ..
@[simp] theorem State.jump_core_x : (s.jump pc).core.x = s.core.x := State.arrive_core_x ..
@[simp] theorem State.jump_core_fwX : (s.jump pc).core.fwX = s.core.fwX := State.arrive_core_fwX ..
@[simp] theorem State.jump_core_m : (s.jump pc).core.m = s.core.m := State.arrive_core_m ..
@[simp] theorem State.jump_core_vec : (s.jump pc).core.vec = s.core.vec := State.arrive_core_vec ..
@[simp] theorem State.jump_core_tiles : (s.jump pc).core.tiles = s.core.tiles := State.arrive_core_tiles ..
@[simp] theorem State.jump_core_acc : (s.jump pc).core.acc = s.core.acc := State.arrive_core_acc ..
@[simp] theorem State.jump_core_rowType : (s.jump pc).core.rowType = s.core.rowType := State.arrive_core_rowType ..
@[simp] theorem State.jump_core_ecc : (s.jump pc).core.ecc = s.core.ecc := State.arrive_core_ecc ..
@[simp] theorem State.jump_core_slots : (s.jump pc).core.slots = s.core.slots := State.arrive_core_slots ..
@[simp] theorem State.jump_core_sS : (s.jump pc).core.sS = s.core.sS := State.arrive_core_sS ..
@[simp] theorem State.jump_core_sV : (s.jump pc).core.sV = s.core.sV := State.arrive_core_sV ..
@[simp] theorem State.jump_core_sF : (s.jump pc).core.sF = s.core.sF := State.arrive_core_sF ..
@[simp] theorem State.jump_core_sq : (s.jump pc).core.sq = s.core.sq := State.arrive_core_sq ..
@[simp] theorem State.jump_core_fq : (s.jump pc).core.fq = s.core.fq := State.arrive_core_fq ..
@[simp] theorem State.jump_core_vq : (s.jump pc).core.vq = s.core.vq := State.arrive_core_vq ..
@[simp] theorem State.jump_core_stamp : (s.jump pc).core.stamp = s.core.stamp := State.arrive_core_stamp ..
@[simp] theorem State.jump_core_waits : (s.jump pc).core.waits = s.core.waits := State.arrive_core_waits ..
@[simp] theorem State.jump_core_remote : (s.jump pc).core.remote = s.core.remote := State.arrive_core_remote ..
@[simp] theorem State.jump_core_planes : (s.jump pc).core.planes = s.core.planes := State.arrive_core_planes ..
@[simp] theorem State.jump_core_flags : (s.jump pc).core.flags = s.core.flags := State.arrive_core_flags ..
@[simp] theorem State.jump_core_ahead : (s.jump pc).core.ahead = s.core.ahead := State.arrive_core_ahead ..
@[simp] theorem State.jump_core_window : (s.jump pc).core.window = s.core.window := State.arrive_core_window ..
@[simp] theorem State.jump_core_posts : (s.jump pc).core.posts = s.core.posts := State.arrive_core_posts ..
@[simp] theorem State.jump_core_stopAt : (s.jump pc).core.stopAt = s.core.stopAt := State.arrive_core_stopAt ..
@[simp] theorem State.jump_core_taken : (s.jump pc).core.taken = s.core.taken := State.arrive_core_taken ..
@[simp] theorem State.jump_core_shut : (s.jump pc).core.shut = s.core.shut := State.arrive_core_shut ..
@[simp] theorem State.jump_core_serial : (s.jump pc).core.serial = s.core.serial := State.arrive_core_serial ..
@[simp] theorem State.jump_core_cmds : (s.jump pc).core.cmds = s.core.cmds := State.arrive_core_cmds ..
@[simp] theorem State.jump_core_owed : (s.jump pc).core.owed = s.core.owed := State.arrive_core_owed ..
@[simp] theorem State.jump_core_ended : (s.jump pc).core.ended = s.core.ended := State.arrive_core_ended ..
@[simp] theorem State.jump_core_mismatch : (s.jump pc).core.mismatch = s.core.mismatch := State.arrive_core_mismatch ..
@[simp] theorem State.jump_core_refused : (s.jump pc).core.refused = s.core.refused := State.arrive_core_refused ..
@[simp] theorem State.jump_core_fwTrap : (s.jump pc).core.fwTrap = s.core.fwTrap := State.arrive_core_fwTrap ..
@[simp] theorem State.jump_core_inner : (s.jump pc).core.inner = s.core.inner := State.arrive_core_inner ..
@[simp] theorem State.jump_core_doubleTrap : (s.jump pc).core.doubleTrap = s.core.doubleTrap := State.arrive_core_doubleTrap ..
@[simp] theorem State.jump_core_barriers : (s.jump pc).core.barriers = s.core.barriers := State.arrive_core_barriers ..
@[simp] theorem State.jump_core_notice : (s.jump pc).core.notice = s.core.notice := State.arrive_core_notice ..
@[simp] theorem State.jump_core_switching : (s.jump pc).core.switching = s.core.switching := State.arrive_core_switching ..
@[simp] theorem State.jump_core_ran : (s.jump pc).core.ran = s.core.ran := State.arrive_core_ran ..

end

end Sys2Proof.Machine
end

