-- ==== Sys2Proof/Laws/Ops.lean ====
section
/-! SUPPORT. The keyed tables of the state read back what was put into them, and what the accesses of the ordering
machine do to memory and to the register stores. -/

namespace Sys2Proof.Machine

set_option Elab.async false

/-! Keyed lists. -/

theorem upsert_find {α : Type} (key : α → Nat) (l : List α) (a : α) (n : Nat) :
    (upsert key l a).find? (fun x => key x == n) = if n = key a then some a else l.find? fun x => key x == n := by
  unfold upsert
  by_cases hex : (l.any fun b => key b == key a) = true
  · rw [if_pos hex]
    by_cases hn : n = key a
    · subst hn
      rw [if_pos rfl]
      induction l with
      | nil => simp at hex
      | cons b r ih =>
        by_cases hb : key b = key a
        · simp [hb]
        · have hr : (r.any fun b => key b == key a) = true := by
            simpa [hb] using hex
          have hb' : (key b == key a) = false := by simpa using hb
          simp only [List.map_cons, hb', Bool.false_eq_true, if_false, List.find?_cons, ih hr]
    · rw [if_neg hn]
      clear hex
      induction l with
      | nil => rfl
      | cons b r ih =>
        simp only [List.map_cons, List.find?_cons, ih]
        by_cases hb : key b = key a
        · have ha : (key a == n) = false := by simpa using fun h => hn h.symm
          simp [hb, ha]
        · have hb' : (key b == key a) = false := by simpa using hb
          simp [hb']
  · rw [if_neg hex]
    by_cases hn : n = key a
    · subst hn; simp
    · have ha : (key a == n) = false := by simpa using fun h => hn h.symm
      rw [if_neg hn, List.find?_cons, ha]

theorem putCore_find (l : List Core) (c : Core) (n : Nat) :
    (putCore l c).find? (fun x => x.num == n) = if n = c.num then some c else l.find? fun x => x.num == n := by
  induction l with
  | nil =>
    by_cases h : c.num = n
    · simp [putCore, h]
    · have h' : (c.num == n) = false := by simpa using h
      have h2 : n ≠ c.num := fun e => h e.symm
      simp [putCore, h', h2]
  | cons k r ih =>
    unfold putCore
    split
    · rename_i hk
      by_cases h : c.num = n
      · simp [h]
      · have h1 : (c.num == n) = false := by simpa using h
        have h2 : (k.num == n) = false := by rw [hk]; exact h1
        have h3 : n ≠ c.num := fun e => h e.symm
        simp [h1, h2, h3]
    · rename_i hk
      split
      · by_cases h : c.num = n
        · simp [h]
        · have h1 : (c.num == n) = false := by simpa using h
          have h3 : n ≠ c.num := fun e => h e.symm
          rw [List.find?_cons, h1, if_neg h3]
      · rw [List.find?_cons, List.find?_cons, ih]
        by_cases h : n = c.num
        · have h1 : (k.num == n) = false := by rw [h]; simpa using hk
          rw [h1, if_pos h]
        · rw [if_neg h, if_neg h]

theorem mem_putCore {l : List Core} {c d : Core} (h : d ∈ putCore l c) : d = c ∨ d ∈ l := by
  induction l with
  | nil => exact .inl (by simpa [putCore] using h)
  | cons k r ih =>
    unfold putCore at h
    split at h
    · rcases List.mem_cons.1 h with h | h
      · exact .inl h
      · exact .inr (List.mem_cons_of_mem _ h)
    · split at h
      · rcases List.mem_cons.1 h with h | h
        · exact .inl h
        · exact .inr h
      · rcases List.mem_cons.1 h with h | h
        · exact .inr (h ▸ List.mem_cons_self)
        · rcases ih h with h | h
          · exact .inl h
          · exact .inr (List.mem_cons_of_mem _ h)

/-! The tables of the state. -/

theorem State.coreAt_setCore (s : State) (c : Core) (n : Nat) :
    (s.setCore c).coreAt n = if n = c.num then c else s.coreAt n := by
  unfold State.setCore State.coreAt
  by_cases hc : s.core.num = c.num
  · rw [if_pos hc]
    by_cases hn : n = c.num
    · rw [if_pos hn, if_pos hn.symm]
    · rw [if_neg hn, if_neg (fun e => hn e.symm), if_neg (fun e => hn (e.symm.trans hc))]
  · rw [if_neg hc]
    by_cases hs : s.core.num = n
    · rw [if_pos hs, if_pos hs, if_neg (fun e => hc (hs.trans e))]
    · rw [if_neg hs, if_neg hs, putCore_find]
      by_cases hn : n = c.num
      · rw [if_pos hn, if_pos hn]; rfl
      · rw [if_neg hn, if_neg hn]

theorem State.mem_cores_setCore {s : State} {c d : Core} (h : d ∈ (s.setCore c).cores) : d = c ∨ d ∈ s.cores := by
  unfold State.setCore State.cores at *
  split at h
  · rcases List.mem_cons.1 h with h | h
    · exact .inl h
    · exact .inr (List.mem_cons_of_mem _ h)
  · rcases List.mem_cons.1 h with h | h
    · exact .inr (h ▸ List.mem_cons_self)
    · rcases mem_putCore h with h | h
      · exact .inl h
      · exact .inr (List.mem_cons_of_mem _ h)

theorem State.quadAt_setQuad (s : State) (q : Quad) (n : Nat) :
    (s.setQuad q).quadAt n = if n = q.num then q else s.quadAt n := by
  show ((upsert Quad.num s.quads q).find? fun k => k.num == n).getD (.reset n) = _
  rw [upsert_find]
  by_cases h : n = q.num
  · rw [if_pos h, if_pos h]; rfl
  · rw [if_neg h, if_neg h]; rfl

theorem State.launchAt_setLaunch (s : State) (l : Launch) (n : Nat) :
    (s.setLaunch l).launchAt n = if n = l.id then some l else s.launchAt n :=
  upsert_find Launch.id s.launches l n

theorem State.extentAt_setExtent (s : State) (e : Extent) (n : Nat) :
    (s.setExtent e).extentAt n = if n = e.num then e else s.extentAt n := by
  show ((upsert Extent.num s.extents e).find? fun k => k.num == n).getD _ = _
  rw [upsert_find]
  by_cases h : n = e.num
  · rw [if_pos h, if_pos h]; rfl
  · rw [if_neg h, if_neg h]; rfl

theorem State.clockAt_setClock (s : State) (l : LineClock) (n : Nat) :
    (s.setClock l).clockAt n = if n = l.line then l else s.clockAt n := by
  show ((upsert LineClock.line s.lines l).find? fun k => k.line == n).getD _ = _
  rw [upsert_find]
  by_cases h : n = l.line
  · rw [if_pos h, if_pos h]; rfl
  · rw [if_neg h, if_neg h]; rfl

/-! Memory regions. -/

/-- An access that goes on lies in memory at both ends. -/
theorem guardAddr_next {a n : Nat} {k : Res} {t : State} (h : guardAddr a n k = .next t) :
    k = .next t ∧ ((region a = .dram ∨ region a = .table) ∧ (region (a + (n - 1)) = .dram ∨ region (a + (n - 1)) = .table) ∨
      region a = .scratch ∧ region (a + (n - 1)) = .scratch) := by
  unfold guardAddr at h
  split at h
  all_goals first | cases h; done | (rename_i h1 h2; exact ⟨h, by rw [h1, h2]; decide⟩)

theorem guardAddr_dram {a n : Nat} (k : Res) (h1 : region a = .dram) (h2 : region (a + (n - 1)) = .dram) :
    guardAddr a n k = k := by unfold guardAddr; rw [h1, h2]

theorem guardAddr_scratch {a n : Nat} (k : Res) (h1 : region a = .scratch) (h2 : region (a + (n - 1)) = .scratch) :
    guardAddr a n k = k := by unfold guardAddr; rw [h1, h2]

/-! The ordering machine and memory. A load changes clocks and streams; a store changes the bytes it lists. -/

section ordering
variable (s : State)

@[simp] theorem State.touch_mem (a : Nat) : (s.touch a).mem = s.mem := by unfold State.touch; split <;> rfl
@[simp] theorem State.touch_host (a : Nat) : (s.touch a).host = s.host := by unfold State.touch; split <;> rfl
@[simp] theorem State.touch_core (a : Nat) : (s.touch a).core = s.core := by unfold State.touch; split <;> rfl
@[simp] theorem State.touch_others (a : Nat) : (s.touch a).others = s.others := by unfold State.touch; split <;> rfl
@[simp] theorem State.touch_saves (a : Nat) : (s.touch a).saves = s.saves := by unfold State.touch; split <;> rfl
@[simp] theorem State.touch_launches (a : Nat) : (s.touch a).launches = s.launches := by
  unfold State.touch; split <;> rfl

@[simp] theorem State.snapCode_mem (w : Option Nat) (n : Nat) : (s.snapCode w n).mem = s.mem := by unfold State.snapCode; split <;> rfl
@[simp] theorem State.snapCode_host (w : Option Nat) (n : Nat) : (s.snapCode w n).host = s.host := by unfold State.snapCode; split <;> rfl
@[simp] theorem State.snapCode_core (w : Option Nat) (n : Nat) : (s.snapCode w n).core = s.core := by unfold State.snapCode; split <;> rfl
@[simp] theorem State.snapCode_others (w : Option Nat) (n : Nat) : (s.snapCode w n).others = s.others := by
  unfold State.snapCode; split <;> rfl
@[simp] theorem State.snapCode_saves (w : Option Nat) (n : Nat) : (s.snapCode w n).saves = s.saves := by
  unfold State.snapCode; split <;> rfl
@[simp] theorem State.snapCode_launches (w : Option Nat) (n : Nat) : (s.snapCode w n).launches = s.launches := by
  unfold State.snapCode; split <;> rfl

@[simp] theorem State.leaseLine_mem (p n : Nat) : (s.leaseLine p n).1.mem = s.mem := rfl
@[simp] theorem State.leaseLine_host (p n : Nat) : (s.leaseLine p n).1.host = s.host := rfl
@[simp] theorem State.leaseLine_core (p n : Nat) : (s.leaseLine p n).1.core = s.core := rfl
@[simp] theorem State.leaseLine_others (p n : Nat) : (s.leaseLine p n).1.others = s.others := rfl
@[simp] theorem State.leaseLine_saves (p n : Nat) : (s.leaseLine p n).1.saves = s.saves := rfl
@[simp] theorem State.leaseLine_launches (p n : Nat) : (s.leaseLine p n).1.launches = s.launches := rfl

/-- The state after a load of a line: the lease of the line and the free counter. -/
theorem State.loadLine_state (st : Stream) (n : Nat) :
    (s.loadLine st n).1 = s ∨ ∃ p, (s.loadLine st n).1 = (s.leaseLine p n).1 := by
  unfold State.loadLine
  dsimp only
  split
  · exact .inl rfl
  · exact .inr ⟨_, rfl⟩

@[simp] theorem State.loadLine_mem (st : Stream) (n : Nat) : (s.loadLine st n).1.mem = s.mem := by
  rcases s.loadLine_state st n with h | ⟨p, h⟩ <;> (rw [h]; try rfl)
@[simp] theorem State.loadLine_host (st : Stream) (n : Nat) : (s.loadLine st n).1.host = s.host := by
  rcases s.loadLine_state st n with h | ⟨p, h⟩ <;> (rw [h]; try rfl)
@[simp] theorem State.loadLine_core (st : Stream) (n : Nat) : (s.loadLine st n).1.core = s.core := by
  rcases s.loadLine_state st n with h | ⟨p, h⟩ <;> (rw [h]; try rfl)
@[simp] theorem State.loadLine_others (st : Stream) (n : Nat) : (s.loadLine st n).1.others = s.others := by
  rcases s.loadLine_state st n with h | ⟨p, h⟩ <;> (rw [h]; try rfl)
@[simp] theorem State.loadLine_saves (st : Stream) (n : Nat) : (s.loadLine st n).1.saves = s.saves := by
  rcases s.loadLine_state st n with h | ⟨p, h⟩ <;> (rw [h]; try rfl)
@[simp] theorem State.loadLine_launches (st : Stream) (n : Nat) : (s.loadLine st n).1.launches = s.launches := by
  rcases s.loadLine_state st n with h | ⟨p, h⟩ <;> (rw [h]; try rfl)

/-- Re-reading an extent under another key writes its memory. -/
theorem State.review_shape (e : Nat) (old new : BitVec 512) :
    ∃ ws, s.review e old new = { s with mem := s.mem.setMany ws } := by
  unfold State.review
  split
  · exact ⟨[], rfl⟩
  · have g : ∀ (l : List Nat) (m : Mem), ∃ ws,
        l.foldl (fun (m : Mem) j => m.review old new (e * Config.extentBytes + 32 * j)) m = m.setMany ws := by
      intro l
      induction l with
      | nil => intro m; exact ⟨[], rfl⟩
      | cons j l ih =>
        intro m
        obtain ⟨ws, h⟩ := ih (m.review old new (e * Config.extentBytes + 32 * j))
        exact ⟨_, by rw [List.foldl_cons, h]; exact (Mem.setMany_append _ _ _).symm⟩
    obtain ⟨ws, h⟩ := g (List.range (Config.extentBytes / 32)) s.mem
    exact ⟨ws, by rw [h]⟩

theorem State.markExtent_shape (e : Extent) :
    ∃ l x, s.markExtent e = { s with mem := s.mem.setMany l, extents := x } := by
  obtain ⟨l, h⟩ := s.review_shape e.num (s.material (s.extentAt e.num).key) (s.material e.key)
  exact ⟨l, upsert Extent.num s.extents e, by unfold State.markExtent; rw [h]; rfl⟩

/-- A write of a byte changes memory and the extent table alone. -/
theorem State.putByte_shape (w : Nat × Byte) :
    ∃ l e, s.putByte w = { s with mem := s.mem.setMany l, extents := e } := by
  unfold State.putByte
  split
  · exact s.markExtent_shape _
  · exact ⟨[w], s.extents, rfl⟩

/-- A write of bytes changes memory and the extent table alone. -/
theorem State.putBytes_shape (ws : List (Nat × Byte)) :
    ∃ l e, s.putBytes ws = { s with mem := s.mem.setMany l, extents := e } := by
  have many : ∀ (ws : List (Nat × Byte)) (u : State), ∃ l e,
      ws.foldl State.putByte u = { u with mem := u.mem.setMany l, extents := e } := by
    intro ws
    induction ws with
    | nil => intro u; exact ⟨[], u.extents, rfl⟩
    | cons w ws ih =>
      intro u
      obtain ⟨l, e, h⟩ := u.putByte_shape w
      obtain ⟨l', e', h'⟩ := ih (u.putByte w)
      exact ⟨l ++ l', e', by rw [List.foldl_cons, h', h]; simp only [Mem.setMany_append]⟩
  unfold State.putBytes
  split
  · exact many _ s
  · exact ⟨_, s.extents, rfl⟩

/-- Bytes outside the extent tables are written as they are listed. -/
theorem State.putBytes_plain (ws : List (Nat × Byte)) (h : ∀ w ∈ ws, region w.1 ≠ .table) :
    s.putBytes ws = { s with mem := s.mem.setMany ws } :=
  if_neg (by simpa using h)

theorem State.storeLine_mem (w : Option Nat) (p n : Nat) (ws : List (Nat × Byte)) :
    ∃ l, (s.storeLine w p n ws).1.mem = s.mem.setMany l := by
  unfold State.storeLine
  dsimp only
  obtain ⟨l, e, h⟩ := State.putBytes_shape (((State.snapCode (if s.isHeld { line := n, wts := (s.clockAt n).wts } = true then
    { s with old := { line := n, wts := (s.clockAt n).wts, rts := (s.clockAt n).rts, bytes := s.lineBytes n } :: s.old }
    else s) w n).setClock { line := n, wts := max p ((s.clockAt n).rts + 1), rts := max p ((s.clockAt n).rts + 1) }).touch
      (128 * n)) ws
  refine ⟨l, ?_⟩
  rw [h]
  simp only [State.touch_mem, State.setClock_mem, State.snapCode_mem]
  split <;> rfl

/-- A store outside the extent tables writes exactly the bytes it lists. -/
theorem State.storeLine_mem_plain (w : Option Nat) (p n : Nat) (ws : List (Nat × Byte))
    (h : ∀ w ∈ ws, region w.1 ≠ .table) : (s.storeLine w p n ws).1.mem = s.mem.setMany ws := by
  unfold State.storeLine
  dsimp only
  rw [State.putBytes_plain _ ws h]
  simp only [State.touch_mem, State.setClock_mem, State.snapCode_mem]
  split <;> rfl

@[simp] theorem State.putBytes_host (ws : List (Nat × Byte)) : (s.putBytes ws).host = s.host := by
  obtain ⟨l, e, h⟩ := s.putBytes_shape ws; rw [h]
@[simp] theorem State.putBytes_core (ws : List (Nat × Byte)) : (s.putBytes ws).core = s.core := by
  obtain ⟨l, e, h⟩ := s.putBytes_shape ws; rw [h]
@[simp] theorem State.putBytes_others (ws : List (Nat × Byte)) : (s.putBytes ws).others = s.others := by
  obtain ⟨l, e, h⟩ := s.putBytes_shape ws; rw [h]
@[simp] theorem State.putBytes_saves (ws : List (Nat × Byte)) : (s.putBytes ws).saves = s.saves := by
  obtain ⟨l, e, h⟩ := s.putBytes_shape ws; rw [h]
@[simp] theorem State.putBytes_launches (ws : List (Nat × Byte)) : (s.putBytes ws).launches = s.launches := by
  obtain ⟨l, e, h⟩ := s.putBytes_shape ws; rw [h]
@[simp] theorem State.storeLine_host (w : Option Nat) (p n : Nat) (ws : List (Nat × Byte)) :
    (s.storeLine w p n ws).1.host = s.host := by
  unfold State.storeLine; dsimp only
  simp only [State.putBytes_host, State.touch_host, State.setClock_host, State.snapCode_host]
  split <;> rfl
@[simp] theorem State.storeLine_core (w : Option Nat) (p n : Nat) (ws : List (Nat × Byte)) :
    (s.storeLine w p n ws).1.core = s.core := by
  unfold State.storeLine; dsimp only
  simp only [State.putBytes_core, State.touch_core, State.setClock_core, State.snapCode_core]
  split <;> rfl
@[simp] theorem State.storeLine_others (w : Option Nat) (p n : Nat) (ws : List (Nat × Byte)) :
    (s.storeLine w p n ws).1.others = s.others := by
  unfold State.storeLine; dsimp only
  simp only [State.putBytes_others, State.touch_others, State.setClock_others, State.snapCode_others]
  split <;> rfl
@[simp] theorem State.storeLine_saves (w : Option Nat) (p n : Nat) (ws : List (Nat × Byte)) :
    (s.storeLine w p n ws).1.saves = s.saves := by
  unfold State.storeLine; dsimp only
  simp only [State.putBytes_saves, State.touch_saves, State.setClock_saves, State.snapCode_saves]
  split <;> rfl
@[simp] theorem State.storeLine_launches (w : Option Nat) (p n : Nat) (ws : List (Nat × Byte)) :
    (s.storeLine w p n ws).1.launches = s.launches := by
  unfold State.storeLine; dsimp only
  simp only [State.putBytes_launches, State.touch_launches, State.setClock_launches, State.snapCode_launches]
  split <;> rfl

/-- What an access takes from a bucket changes the buckets alone (R221). -/
theorem State.spend_shape (n : Nat) (l : List Nat) : ∃ b, s.spend n l = { s with buckets := b } := by
  unfold State.spend State.traffic
  dsimp only
  split
  · exact ⟨_, rfl⟩
  · split <;> exact ⟨_, rfl⟩
@[simp] theorem State.spend_mem (n : Nat) (l : List Nat) : (s.spend n l).mem = s.mem := by
  obtain ⟨b, h⟩ := s.spend_shape n l; rw [h]
@[simp] theorem State.spend_core (n : Nat) (l : List Nat) : (s.spend n l).core = s.core := by
  obtain ⟨b, h⟩ := s.spend_shape n l; rw [h]
@[simp] theorem State.spend_others (n : Nat) (l : List Nat) : (s.spend n l).others = s.others := by
  obtain ⟨b, h⟩ := s.spend_shape n l; rw [h]
@[simp] theorem State.spend_extents (n : Nat) (l : List Nat) : (s.spend n l).extents = s.extents := by
  obtain ⟨b, h⟩ := s.spend_shape n l; rw [h]

/-- A store within one line is a store to that line. -/
theorem State.storeCells_line (w : Option Nat) (p a : Nat) (ws : List (Nat × Byte)) (h : ∀ x ∈ ws, x.1 / 128 = a / 128) :
    s.storeCells w p a ws = s.storeLine w p (a / 128) ws := if_pos (by simpa using h)

theorem State.storeCells_mem (w : Option Nat) (p a : Nat) (ws : List (Nat × Byte)) :
    ∃ l, (s.storeCells w p a ws).1.mem = s.mem.setMany l := by
  unfold State.storeCells
  split
  · exact s.storeLine_mem ..
  · dsimp only
    obtain ⟨l, h⟩ := s.storeLine_mem w p (a / 128) (ws.filter fun x => x.1 / 128 == a / 128)
    obtain ⟨l', h'⟩ := (s.storeLine w p (a / 128) (ws.filter fun x => x.1 / 128 == a / 128)).1.storeLine_mem w
      (s.storeLine w p (a / 128) (ws.filter fun x => x.1 / 128 == a / 128)).2 (a / 128 + 1)
      (ws.filter fun x => x.1 / 128 != a / 128)
    exact ⟨l ++ l', by rw [h', h, Mem.setMany_append]⟩

/-- A scalar load changes no memory. -/
theorem State.loadScalar_mem (st : Stream) (a n : Nat) : (s.loadScalar st a n).1.mem = s.mem := by
  unfold State.loadScalar
  dsimp only
  split
  · exact s.loadLine_mem ..
  · exact (State.loadLine_mem ..).trans (s.loadLine_mem ..)

/-- A line that the V stream loads changes no memory. -/
theorem State.loadVector_mem (n line : Nat) (write : Core → (Nat → Byte) → Core) :
    (s.loadVector n line write).mem = s.mem := by
  unfold State.loadVector
  dsimp only
  split
  · exact State.setCore_mem ..
  · exact (State.setCore_mem ..).trans (s.leaseLine_mem _ _)

/-- A piece that is performed changes memory by some list of writes, and no launch, save or host byte. -/
theorem State.perform_mem (n : Nat) (fw vector : Bool) (op : AccOp) :
    ∃ ws, (s.perform n fw vector op).mem = s.mem.setMany ws := by
  unfold State.perform
  dsimp only
  split
  · exact ⟨[], by simp [State.loadScalar_mem, Mem.setMany]⟩
  · exact ⟨[], rfl⟩
  · split
    · obtain ⟨l, h⟩ := State.storeCells_mem (s.spend n _) _ _ _ _; exact ⟨l, by simpa using h⟩
    · obtain ⟨l, h⟩ := s.storeCells_mem _ _ _ _; exact ⟨l, by simpa using h⟩
  · obtain ⟨l, h⟩ := s.storeCells_mem _ _ _ _; exact ⟨l, by simpa using h⟩
  · obtain ⟨l, h⟩ := s.storeCells_mem _ _ _ _; exact ⟨l, by simpa using h⟩
  · exact ⟨[], rfl⟩
  · exact ⟨[], (State.loadVector_mem ..).trans (s.spend_mem ..)⟩
  · exact ⟨[], rfl⟩
  · exact ⟨[], s.loadVector_mem ..⟩
  · obtain ⟨l, h⟩ := State.storeCells_mem (s.spend n _) _ _ _ _; exact ⟨l, by simpa using h⟩
  · exact ⟨[], rfl⟩

theorem State.perform_mem_wf (n : Nat) (fw vector : Bool) (op : AccOp) (h : s.mem.wf = true) :
    (s.perform n fw vector op).mem.wf = true := by
  obtain ⟨ws, e⟩ := s.perform_mem n fw vector op
  rw [e]; exact Mem.wf_setMany ws h

end ordering

/-- Accesses that are performed keep memory canonical. -/
theorem State.runS_mem_wf (n : Nat) (fw : Bool) (k : Nat) (s : State) (h : s.mem.wf = true) :
    (s.runS n fw k).mem.wf = true := by
  induction k generalizing s with
  | zero => exact h
  | succ k ih =>
    unfold State.runS
    dsimp only
    split
    · exact h
    · split
      · exact h
      · apply ih; apply State.perform_mem_wf; rw [State.setCore_mem]; exact h

theorem State.runV_mem_wf (n : Nat) (k : Nat) (s : State) (h : s.mem.wf = true) : (s.runV n k).mem.wf = true := by
  induction k generalizing s with
  | zero => exact h
  | succ k ih =>
    unfold State.runV
    dsimp only
    split
    · exact h
    · split
      · exact h
      · apply ih; apply State.perform_mem_wf; rw [State.setCore_mem]; exact h

theorem State.issueS_mem_wf (s : State) (op : AccOp) (h : s.mem.wf = true) : (s.issueS op).mem.wf = true := by
  unfold State.issueS
  dsimp only
  split
  · exact h
  · exact State.runS_mem_wf _ _ _ _ h

theorem State.issueV_mem_wf (s : State) (b : Bool) (ops : List AccOp) (h : s.mem.wf = true) : (s.issueV b ops).mem.wf = true := by
  unfold State.issueV
  dsimp only
  split
  · exact h
  · exact State.runV_mem_wf _ _ _ h

theorem State.settle_mem_wf (s : State) (n : Nat) (h : s.mem.wf = true) : (s.settle n).mem.wf = true := by
  unfold State.settle State.settleV State.settleS
  exact State.runV_mem_wf _ _ _ (State.runS_mem_wf _ _ _ _ h)

/-! The register stores: a write keeps their canonical form. -/

theorem Core.writeVec_wf (c : Core) (ws : List (Nat × Byte)) (h : c.vec.wf = true) : (c.writeVec ws).vec.wf = true :=
  Mem.wf_setMany ws h
theorem Core.writeTiles_wf (c : Core) (ws : List (Nat × Byte)) (h : c.tiles.wf = true) :
    (c.writeTiles ws).tiles.wf = true := Mem.wf_setMany ws h
theorem Core.writeAcc_wf (c : Core) (ws : List (Nat × Byte)) (h : c.acc.wf = true) : (c.writeAcc ws).acc.wf = true :=
  Mem.wf_setMany ws h

end Sys2Proof.Machine
end

