-- ==== Sys2Proof/Laws/PerInstr.lean ====
section
/-! SUPPORT. The family RoundTrip: the fields an instruction is encoded in decode to that instruction. First
the fields of an encoding one by one, then a lemma per constructor; an event has no encoding. -/

namespace Sys2Proof.Laws.RoundTrip

set_option Elab.async false

open Sys2Proof

/-- The fields that encode a well-formed instruction decode to it. -/
def Statement (i : Instr) : Prop := i.wf = true → ∀ q, i.fields = some q → decodeFields q = .ok i

/-! The codes of the modifier fields read back. -/

@[simp] theorem nb_code (x : Nb) : Nb.ofCode x.code = some x := by cases x <;> rfl
@[simp] theorem edge_code (x : Edge) : Edge.ofCode x.code = some x := by cases x <;> rfl
@[simp] theorem size_code (x : Size) : Size.ofCode x.code = x := by cases x <;> rfl
@[simp] theorem asize_bit (x : ASize) : ASize.ofBit x.bit = x := by cases x <;> rfl
@[simp] theorem ew_code (x : Ew) : Ew.ofCode x.code = x := by cases x <;> rfl
@[simp] theorem span_code (x : Span) : Span.ofCode x.code = x := by cases x <;> rfl
@[simp] theorem amoOp_code (x : AmoOp) : AmoOp.ofCode x.code = some x := by cases x <;> rfl
@[simp] theorem cond_code (x : Cond) : Cond.ofCode x.code = some x := by cases x <;> rfl
@[simp] theorem fCond_code (x : FCond) : FCond.ofCode x.code = some x := by cases x <;> rfl
@[simp] theorem rm_code (x : Rm) : Rm.ofCode x.code = some x := by cases x <;> rfl
@[simp] theorem fmt_code (x : Fmt) : Fmt.ofCode x.code = some x := by cases x <;> rfl
@[simp] theorem neg_code (x : Neg) : Neg.ofCode x.code = x := by cases x <;> rfl
@[simp] theorem red_code (x : Red) : Red.ofCode x.code = some x := by
  cases x <;> first | rfl | (rename_i u; cases u <;> rfl)
@[simp] theorem fenceForm_code (x : FenceForm) : FenceForm.ofCode x.code = some x := by cases x <;> rfl
@[simp] theorem barKind_code (x : BarKind) : BarKind.ofCode x.code = some x := by cases x <;> rfl
@[simp] theorem scope_code (x : Scope) : Scope.ofCode x.code = some x := by cases x <;> rfl
@[simp] theorem part_code (x : Part) : Part.ofCode x.code = some x := by cases x <;> rfl

/-! A register name in a wider field reads back. -/

@[simp] theorem narrow5 (d : BitVec 5) : (d.setWidth 6).setWidth 5 = d := by revert d; decide
@[simp] theorem narrow5_lt (d : BitVec 5) : (d.setWidth 6).toNat < 32 := by revert d; decide
@[simp] theorem narrow3 (d : BitVec 3) : (d.setWidth 6).setWidth 3 = d := by revert d; decide
@[simp] theorem narrow3_lt (d : BitVec 3) : (d.setWidth 6).toNat < 8 := by revert d; decide
@[simp] theorem narrow53 (d : BitVec 3) : (d.setWidth 5).setWidth 3 = d := by revert d; decide
@[simp] theorem narrow53_lt (d : BitVec 3) : (d.setWidth 5).toNat < 8 := by revert d; decide
@[simp] theorem narrow54 (d : BitVec 4) : (d.setWidth 5).setWidth 4 = d := by revert d; decide
@[simp] theorem narrow54_lt (d : BitVec 4) : (d.setWidth 5).toNat < 16 := by revert d; decide
@[simp] theorem narrow64 (d : BitVec 4) : (d.setWidth 6).setWidth 4 = d := by revert d; decide
@[simp] theorem narrow64_lt (d : BitVec 4) : (d.setWidth 6).toNat < 16 := by revert d; decide

/-! The parts of f (R85). -/

@[simp] theorem bit_lt (c : Bool) : (bit c).toNat < 2 := by revert c; decide
@[simp] theorem bit_get (c : Bool) : (bit c).getLsbD 0 = c := by revert c; decide

/-- A three-bit code and a bit below it, in f[3:0]. -/
@[simp] theorem codeBit_code (r : BitVec 3) (c : Bool) :
    (0#2 ++ r ++ BitVec.ofBool c).extractLsb' 1 3 = r := by revert r c; decide
@[simp] theorem codeBit_bit (r : BitVec 3) (c : Bool) :
    (0#2 ++ r ++ BitVec.ofBool c).getLsbD 0 = c := by revert r c; decide
@[simp] theorem codeBit_lt (r : BitVec 3) (c : Bool) :
    (0#2 ++ r ++ BitVec.ofBool c).toNat < 16 := by revert r c; decide
@[simp] theorem codeZero_code (r : BitVec 3) : (0#2 ++ r ++ 0#1).extractLsb' 1 3 = r := by revert r; decide
@[simp] theorem codeZero_bit (r : BitVec 3) : (0#2 ++ r ++ 0#1).getLsbD 0 = false := by revert r; decide
@[simp] theorem codeZero_lt (r : BitVec 3) : (0#2 ++ r ++ 0#1).toNat < 16 := by revert r; decide

/-- Two bits in f[1:0]. -/
@[simp] theorem bits2_lt (u c : Bool) : (0#4 ++ BitVec.ofBool u ++ BitVec.ofBool c).toNat < 4 := by
  revert u c; decide
@[simp] theorem bits2_low (u c : Bool) : (0#4 ++ BitVec.ofBool u ++ BitVec.ofBool c).getLsbD 0 = c := by
  revert u c; decide
@[simp] theorem bits2_high (u c : Bool) : (0#4 ++ BitVec.ofBool u ++ BitVec.ofBool c).getLsbD 1 = u := by
  revert u c; decide

/-- Span and element width in f[3:0]. -/
@[simp] theorem cfg_lt (s e : BitVec 2) : (0#2 ++ s ++ e).toNat < 16 := by revert s e; decide
@[simp] theorem cfg_low (s e : BitVec 2) : (0#2 ++ s ++ e).setWidth 2 = e := by revert s e; decide
@[simp] theorem cfg_high (s e : BitVec 2) : (0#2 ++ s ++ e).extractLsb' 2 2 = s := by revert s e; decide

/-! Parts of a concatenation. -/

/-- A field wholly in the low part of a concatenation. -/
theorem extract_low {v w : Nat} (x : BitVec v) (y : BitVec w) (s n : Nat) (h : s + n ≤ w) :
    (x ++ y).extractLsb' s n = y.extractLsb' s n := by
  apply BitVec.eq_of_getLsbD_eq
  intro i hi
  simp [BitVec.getLsbD_append, hi, show s + i < w by omega]
theorem extract_high {v w : Nat} (x : BitVec v) (y : BitVec w) (s n : Nat) (h : w ≤ s) :
    (x ++ y).extractLsb' s n = x.extractLsb' (s - w) n := by
  apply BitVec.eq_of_getLsbD_eq
  intro i hi
  simp [BitVec.getLsbD_append, hi, show ¬ s + i < w by omega, show s + i - w = s - w + i by omega]
theorem extract_all {w : Nat} (x : BitVec w) : x.extractLsb' 0 w = x := by simp

/-! Control halfwords (R82). -/

@[simp] theorem ctrlBits_read (c : CtrlBits) : CtrlBits.ofBits c.bits = c := by
  obtain ⟨me, m, g, nb, edge, e⟩ := c
  simp (disch := omega) only [CtrlBits.ofBits, CtrlBits.bits, extract_low, extract_high, Nat.sub_self, extract_all]
theorem hi2_ctrl {l k d a b f} (c : CtrlBits) : (Fields.mk l k d a b f c.hi2).ctrl2 = c := by
  simp (disch := omega) only [Fields.ctrl2, CtrlBits.hi2, extract_low, extract_all, ctrlBits_read]
theorem hi3_ctrl {l k d a b f off} (c : CtrlBits) : (Fields.mk l k d a b f (c.hi3 off)).ctrl3 = c := by
  simp (disch := omega) only [Fields.ctrl3, CtrlBits.hi3, extract_high, Nat.sub_self, extract_all, ctrlBits_read]
theorem hi3_off {l k d a b f off} (c : CtrlBits) : (Fields.mk l k d a b f (c.hi3 off)).off = off := by
  simp (disch := omega) only [Fields.off, CtrlBits.hi3, extract_low, extract_all]

@[simp] theorem ofBool_me (c : Bool) : (BitVec.ofBool c == 1) = c := by revert c; decide

theorem gov_read (g : Gov) (h : g.wf = true) : g.bits.gov = some g := by
  simp only [CtrlBits.gov, CtrlBits.govOf, Gov.bits, ofBool_me, h, and_self, if_true]
theorem ctrlOf_read (c : Ctrl) (h : c.wf = true) (e : BitVec 5) : (c.bits.withC e).ctrlOf = some c := by
  simp only [CtrlBits.ctrlOf, CtrlBits.withC, Ctrl.bits, CtrlBits.govOf, ofBool_me, nb_code, edge_code, h, if_true]
theorem ctrl_read (c : Ctrl) (h : c.wf = true) : c.bits.ctrl = some c := by
  simp only [CtrlBits.ctrl, CtrlBits.ctrlOf, Ctrl.bits, CtrlBits.govOf, ofBool_me, nb_code, edge_code, h, if_true]
theorem sel_read (s : Sel) (e : BitVec 5) : (s.bits.withC e).selOf = some s := by
  simp [CtrlBits.selOf, CtrlBits.withC, Sel.bits]

theorem withCtrl_read {l k d a b f} (c : Ctrl) (h : c.wf = true) (g : Ctrl → Option Instr) :
    withCtrl (Fields.mk l k d a b f c.bits.hi2) g = g c := by
  simp [withCtrl, hi2_ctrl, ctrl_read c h]
theorem withCtrl3_read {l k d a b f e} (c : Ctrl) (h : c.wf = true) (g : Ctrl → BitVec 5 → Option Instr) :
    withCtrl3 (Fields.mk l k d a b f (c.bits.withC e).hi2) g = g c e := by
  simp only [withCtrl3, hi2_ctrl, ctrlOf_read c h]
  rfl
theorem withGov2_read {l k d a b f} (v : Gov) (h : v.wf = true) (g : Gov → Option Instr) :
    withGov2 (Fields.mk l k d a b f v.bits.hi2) g = g v := by
  simp [withGov2, hi2_ctrl, gov_read v h]
theorem withGov3_read {l k d a b f off} (v : Gov) (h : v.wf = true) (g : Gov → Option Instr) :
    withGov3 (Fields.mk l k d a b f (v.bits.hi3 off)) g = g v := by
  simp [withGov3, hi3_ctrl, gov_read v h]
theorem withSelC_read {l k d a b f e} (s : Sel) (g : Sel → BitVec 5 → Option Instr) :
    withSelC (Fields.mk l k d a b f (s.bits.withC e).hi2) g = g s e := by
  simp only [withSelC, hi2_ctrl, sel_read]
  rfl

/-! Branch targets (R78). -/

theorem target_read {l k d a b f} (t : Target) : Target.ofHi (Fields.mk l k d a b f t.hi) = t := by
  obtain ⟨line, slot⟩ := t
  simp (disch := omega) only [Target.ofHi, Target.hi, extract_low, extract_high, Nat.sub_self, extract_all]
theorem targetJ_read {l k d a b f} (t : TargetJ) : TargetJ.ofHi (Fields.mk l k d a b f t.hi) = t := by
  obtain ⟨line, slot⟩ := t
  simp (disch := omega) only [TargetJ.ofHi, TargetJ.hi, extract_low, extract_high, Nat.sub_self, extract_all]

/-! A row whose checks hold gives its instruction. -/

theorem row_ok {l k d a b f h} (i : Instr) : row (Fields.mk l k d a b f h) l true (some i) = .ok i := by
  simp [row]
theorem keep_true (i : Instr) : keep true i = some i := rfl
theorem d5_of {l k a b f h} (d : BitVec 5) : (Fields.mk l k (d.setWidth 6) a b f h).d5 = d := narrow5 d
theorem d5ok_of {l k a b f h} (d : BitVec 5) : (Fields.mk l k (d.setWidth 6) a b f h).d5ok = true :=
  decide_eq_true (narrow5_lt d)
theorem d3_of {l k a b f h} (d : BitVec 3) : (Fields.mk l k (d.setWidth 6) a b f h).d3 = d := narrow3 d
theorem d3ok_of {l k a b f h} (d : BitVec 3) : (Fields.mk l k (d.setWidth 6) a b f h).d3ok = true :=
  decide_eq_true (narrow3_lt d)
theorem a3_of {l k d b f h} (a : BitVec 3) : (Fields.mk l k d (a.setWidth 5) b f h).a3 = a := narrow53 a
theorem a3ok_of {l k d b f h} (a : BitVec 3) : (Fields.mk l k d (a.setWidth 5) b f h).a3ok = true :=
  decide_eq_true (narrow53_lt a)
theorem b3_of {l k d a f h} (b : BitVec 3) : (Fields.mk l k d a (b.setWidth 5) f h).b3 = b := narrow53 b
theorem b3ok_of {l k d a f h} (b : BitVec 3) : (Fields.mk l k d a (b.setWidth 5) f h).b3ok = true :=
  decide_eq_true (narrow53_lt b)

/-! Fields of single rows. -/

theorem ld_lt (sz : Size) (sx : Bool) (h : (!(sx && sz == .d)) = true) :
    (0#3 ++ BitVec.ofBool sx ++ sz.code).toNat < 7 := by
  cases sz <;> cases sx <;> first | decide | exact absurd h (by decide)
theorem ld_size (sz : Size) (sx : Bool) : (0#3 ++ BitVec.ofBool sx ++ sz.code).setWidth 2 = sz.code := by
  cases sz <;> cases sx <;> rfl
theorem ld_sx (sz : Size) (sx : Bool) : (0#3 ++ BitVec.ofBool sx ++ sz.code).getLsbD 2 = sx := by
  cases sz <;> cases sx <;> rfl
theorem st_lt (sz : Size) (fl : Bool) : (0#2 ++ BitVec.ofBool fl ++ 0#1 ++ sz.code).toNat < 16 := by
  cases sz <;> cases fl <;> decide
theorem st_size (sz : Size) (fl : Bool) :
    (0#2 ++ BitVec.ofBool fl ++ 0#1 ++ sz.code).setWidth 2 = sz.code := by cases sz <;> cases fl <;> rfl
theorem st_gap (sz : Size) (fl : Bool) : (0#2 ++ BitVec.ofBool fl ++ 0#1 ++ sz.code).getLsbD 2 = false := by
  cases sz <;> cases fl <;> rfl
theorem st_flag (sz : Size) (fl : Bool) : (0#2 ++ BitVec.ofBool fl ++ 0#1 ++ sz.code).getLsbD 3 = fl := by
  cases sz <;> cases fl <;> rfl
theorem amo_lt (op : AmoOp) (w : Bool) : (0#1 ++ BitVec.ofBool w ++ op.code).toNat < 32 := by
  cases op <;> cases w <;> decide
theorem amo_op (op : AmoOp) (w : Bool) : (0#1 ++ BitVec.ofBool w ++ op.code).setWidth 4 = op.code := by
  cases op <;> cases w <;> rfl
theorem amo_size (op : AmoOp) (w : Bool) : (0#1 ++ BitVec.ofBool w ++ op.code).getLsbD 4 = w := by
  cases op <;> cases w <;> rfl
theorem bar_lt (k : BarKind) (s : Scope) : (0#1 ++ s.code ++ k.code).toNat < 32 := by
  cases k <;> cases s <;> decide
theorem bar_kind (k : BarKind) (s : Scope) : (0#1 ++ s.code ++ k.code).setWidth 2 = k.code := by
  cases k <;> cases s <;> rfl
theorem bar_scope (k : BarKind) (s : Scope) : (0#1 ++ s.code ++ k.code).extractLsb' 2 3 = s.code := by
  cases k <;> cases s <;> rfl
theorem vfma_rm (g : Neg) (r : Rm) (c : Bool) :
    (g.code ++ r.code ++ BitVec.ofBool c).extractLsb' 1 3 = r.code := by
  cases g <;> cases r <;> cases c <;> rfl
theorem vfma_neg (g : Neg) (r : Rm) (c : Bool) :
    (g.code ++ r.code ++ BitVec.ofBool c).extractLsb' 4 2 = g.code := by
  cases g <;> cases r <;> cases c <;> rfl
theorem vfma_bit (g : Neg) (r : Rm) (c : Bool) : (g.code ++ r.code ++ BitVec.ofBool c).getLsbD 0 = c := by
  cases g <;> cases r <;> cases c <;> rfl

/-- A small value in the immediate is read back whole, and nothing lies above it. -/
theorem wide_lt {n : Nat} (x : BitVec n) (h : n ≤ 32) : (x.setWidth 32).toNat < 2 ^ n := by
  rw [BitVec.toNat_setWidth_of_le h]
  exact x.isLt
theorem wide_read {n : Nat} (x : BitVec n) (h : n ≤ 32) : (x.setWidth 32).setWidth n = x := by
  rw [BitVec.setWidth_setWidth_of_le _ h, BitVec.setWidth_eq]
theorem setWidth_low {v w : Nat} (x : BitVec v) (y : BitVec w) (n : Nat) (h : n ≤ w) :
    (x ++ y).setWidth n = y.setWidth n := by
  rw [BitVec.setWidth_eq_extractLsb' (by omega), BitVec.setWidth_eq_extractLsb' h]
  exact extract_low x y 0 n (by omega)
theorem zero_append_lt {v w : Nat} (y : BitVec w) : (0#v ++ y).toNat < 2 ^ w := by
  simpa [BitVec.toNat_append] using y.isLt
theorem gov_of (g : Gov) (e : BitVec 5) : (g.bits.withC e).govOf = g := by
  simp only [CtrlBits.govOf, CtrlBits.withC, Gov.bits, ofBool_me]
/-- The formats, cb and rep of a row step, in imm [17:0] (R85). -/
theorem rowStep_fields (fa fb : Fmt) (cb rep : BitVec 5) :
    (rep ++ cb ++ fb.code ++ fa.code).setWidth 4 = fa.code ∧
    (rep ++ cb ++ fb.code ++ fa.code).extractLsb' 4 4 = fb.code ∧
    (rep ++ cb ++ fb.code ++ fa.code).extractLsb' 8 5 = cb ∧
    (rep ++ cb ++ fb.code ++ fa.code).extractLsb' 13 5 = rep := by
  refine ⟨?_, ?_, ?_, ?_⟩ <;>
    simp (disch := omega) only [extract_low, extract_high, setWidth_low, Nat.sub_self, Nat.reduceSub, extract_all,
      BitVec.setWidth_eq]
/-- The source row, part and shift of MROWA, in imm [31:18] (R85). -/
theorem rowStepA_fields (as : AName) (part : Part) (shift : BitVec 5) (low : BitVec 18) :
    (shift ++ part.code ++ as ++ low).extractLsb' 18 6 = as ∧
    (shift ++ part.code ++ as ++ low).extractLsb' 24 3 = part.code ∧
    (shift ++ part.code ++ as ++ low).extractLsb' 27 5 = shift := by
  refine ⟨?_, ?_, ?_⟩ <;>
    simp (disch := omega) only [extract_low, extract_high, Nat.sub_self, Nat.reduceSub, extract_all]

/-! A lemma for each constructor. -/

theorem nop : Statement (.nop) := by
  intro hw q hq; cases hq
  rfl
theorem add (d a b : XName) : Statement (.add d a b) := by
  intro hw q hq; cases hq
  show row _ _ _ _ = _
  simp only [row_ok, keep_true, d5_of, d5ok_of, beq_self_eq_true]
theorem sub (d a b : XName) : Statement (.sub d a b) := by
  intro hw q hq; cases hq
  show row _ _ _ _ = _
  simp only [row_ok, keep_true, d5_of, d5ok_of, beq_self_eq_true]
theorem and (d a b : XName) : Statement (.and d a b) := by
  intro hw q hq; cases hq
  show row _ _ _ _ = _
  simp only [row_ok, keep_true, d5_of, d5ok_of, beq_self_eq_true]
theorem or (d a b : XName) : Statement (.or d a b) := by
  intro hw q hq; cases hq
  show row _ _ _ _ = _
  simp only [row_ok, keep_true, d5_of, d5ok_of, beq_self_eq_true]
theorem xor (d a b : XName) : Statement (.xor d a b) := by
  intro hw q hq; cases hq
  show row _ _ _ _ = _
  simp only [row_ok, keep_true, d5_of, d5ok_of, beq_self_eq_true]
theorem sll (d a b : XName) (n : BitVec 6) : Statement (.sll d a b n) := by
  intro hw q hq; cases hq
  have hw : shiftWf b n = true := hw
  show row _ _ _ _ = _
  simp only [hw, row_ok, keep_true, d5_of, d5ok_of]
theorem srl (d a b : XName) (n : BitVec 6) : Statement (.srl d a b n) := by
  intro hw q hq; cases hq
  have hw : shiftWf b n = true := hw
  show row _ _ _ _ = _
  simp only [hw, row_ok, keep_true, d5_of, d5ok_of]
theorem sra (d a b : XName) (n : BitVec 6) : Statement (.sra d a b n) := by
  intro hw q hq; cases hq
  have hw : shiftWf b n = true := hw
  show row _ _ _ _ = _
  simp only [hw, row_ok, keep_true, d5_of, d5ok_of]
theorem slt (d a b : XName) (u : Bool) : Statement (.slt d a b u) := by
  intro hw q hq; cases hq
  show row _ _ _ _ = _
  simp only [row_ok, keep_true, d5_of, d5ok_of, Fields.f0, bit_lt, bit_get, decide_true]
theorem mul (d a b : XName) : Statement (.mul d a b) := by
  intro hw q hq; cases hq
  show row _ _ _ _ = _
  simp only [row_ok, keep_true, d5_of, d5ok_of, beq_self_eq_true]
theorem mulh (d a b : XName) : Statement (.mulh d a b) := by
  intro hw q hq; cases hq
  show row _ _ _ _ = _
  simp only [row_ok, keep_true, d5_of, d5ok_of, beq_self_eq_true]
theorem div (d a b : XName) (u : Bool) : Statement (.div d a b u) := by
  intro hw q hq; cases hq
  show row _ _ _ _ = _
  simp only [row_ok, keep_true, d5_of, d5ok_of, Fields.f0, bit_lt, bit_get, decide_true]
theorem rem (d a b : XName) (u : Bool) : Statement (.rem d a b u) := by
  intro hw q hq; cases hq
  show row _ _ _ _ = _
  simp only [row_ok, keep_true, d5_of, d5ok_of, Fields.f0, bit_lt, bit_get, decide_true]
theorem min (d a b : XName) : Statement (.min d a b) := by
  intro hw q hq; cases hq
  show row _ _ _ _ = _
  simp only [row_ok, keep_true, d5_of, d5ok_of, beq_self_eq_true]
theorem max (d a b : XName) : Statement (.max d a b) := by
  intro hw q hq; cases hq
  show row _ _ _ _ = _
  simp only [row_ok, keep_true, d5_of, d5ok_of, beq_self_eq_true]
theorem clz (d a : XName) : Statement (.clz d a) := by
  intro hw q hq; cases hq
  show row _ _ _ _ = _
  simp only [row_ok, keep_true, d5_of, d5ok_of, beq_self_eq_true, Bool.and_self]
theorem popc (d a : XName) : Statement (.popc d a) := by
  intro hw q hq; cases hq
  show row _ _ _ _ = _
  simp only [row_ok, keep_true, d5_of, d5ok_of, beq_self_eq_true, Bool.and_self]
theorem addi (d a : XName) (imm : BitVec 32) : Statement (.addi d a imm) := by
  intro hw q hq; cases hq
  show row _ _ _ _ = _
  simp only [row_ok, keep_true, d5_of, d5ok_of, beq_self_eq_true, Bool.and_self]
theorem andi (d a : XName) (imm : BitVec 32) : Statement (.andi d a imm) := by
  intro hw q hq; cases hq
  show row _ _ _ _ = _
  simp only [row_ok, keep_true, d5_of, d5ok_of, beq_self_eq_true, Bool.and_self]
theorem ori (d a : XName) (imm : BitVec 32) : Statement (.ori d a imm) := by
  intro hw q hq; cases hq
  show row _ _ _ _ = _
  simp only [row_ok, keep_true, d5_of, d5ok_of, beq_self_eq_true, Bool.and_self]
theorem xori (d a : XName) (imm : BitVec 32) : Statement (.xori d a imm) := by
  intro hw q hq; cases hq
  show row _ _ _ _ = _
  simp only [row_ok, keep_true, d5_of, d5ok_of, beq_self_eq_true, Bool.and_self]
theorem li (d : XName) (imm : BitVec 32) : Statement (.li d imm) := by
  intro hw q hq; cases hq
  show row _ _ _ _ = _
  simp only [row_ok, keep_true, d5_of, d5ok_of, beq_self_eq_true, Bool.and_self]
theorem ld (d a : XName) (imm : BitVec 32) (sz : Size) (sx : Bool) : Statement (.ld d a imm sz sx) := by
  intro hw q hq; cases hq
  have h := ld_lt sz sx hw
  show row _ _ _ _ = _
  simp only [Fields.f2, h, ld_size, ld_sx, size_code, row_ok, keep_true, d5_of, d5ok_of, beq_self_eq_true,
    Bool.and_self, decide_true]
theorem st (src a : XName) (imm : BitVec 32) (sz : Size) (flag : Bool) : Statement (.st src a imm sz flag) := by
  intro hw q hq; cases hq
  show row _ _ _ _ = _
  simp only [Fields.f2, Fields.f3, st_lt, st_size, st_gap, st_flag, size_code, row_ok, keep_true, d5_of,
    d5ok_of, beq_self_eq_true, Bool.and_self, Bool.not_false, decide_true]
theorem ldslot (d : XName) (slot : BitVec 8) : Statement (.ldslot d slot) := by
  intro hw q hq; cases hq
  show row _ _ _ _ = _
  simp only [wide_read slot (by decide), show (slot.setWidth 32).toNat < 256 from wide_lt slot (by decide),
    row_ok, keep_true, d5_of, d5ok_of, beq_self_eq_true, Bool.and_self, decide_true]
theorem amo (d a b : XName) (op : AmoOp) (sz : ASize) : Statement (.amo d a b op sz) := by
  intro hw q hq; cases hq
  simp only [decodeFields, BitVec.reduceToNat, row_ok, keep_true, d5_of, d5ok_of, Fields.f4, amo_lt, amo_op,
    amo_size, amoOp_code, asize_bit, decide_true]
theorem cas (d a b c : XName) (sz : ASize) : Statement (.cas d a b c sz) := by
  intro hw q hq; cases hq
  show row _ _ _ _ = _
  simp only [Fields.f0, wide_read c (by decide), show (c.setWidth 32).toNat < 32 from wide_lt c (by decide),
    bit_lt, bit_get, asize_bit, row_ok, keep_true, d5_of, d5ok_of, Bool.and_self, decide_true]
theorem b (a b : XName) (cond : Cond) (t : Target) : Statement (.b a b cond t) := by
  intro hw q hq; cases hq
  simp only [decodeFields, BitVec.reduceToNat, row_ok, keep_true, narrow3, narrow3_lt, cond_code,
    target_read, beq_self_eq_true, decide_true]
theorem j (t : Target) : Statement (.j t) := by
  intro hw q hq; cases hq
  exact congrArg (fun t => Except.ok (Instr.j t)) (target_read t)
theorem jal (d : XName) (t : TargetJ) : Statement (.jal d t) := by
  intro hw q hq; cases hq
  show row _ _ _ _ = _
  simp only [row_ok, keep_true, d5_of, d5ok_of, beq_self_eq_true, Bool.and_self, targetJ_read]
theorem jalr (d a : XName) (imm : BitVec 32) : Statement (.jalr d a imm) := by
  intro hw q hq; cases hq
  show row _ _ _ _ = _
  simp only [row_ok, keep_true, d5_of, d5ok_of, beq_self_eq_true, Bool.and_self]
theorem loop (a : XName) (stages : BitVec 3) (t : Target) : Statement (.loop a stages t) := by
  intro hw q hq; cases hq
  simp only [decodeFields, BitVec.reduceToNat, row_ok, keep_true, narrow3, narrow3_lt, target_read,
    beq_self_eq_true, Bool.and_self, decide_true]
theorem setvlb (d a : XName) (ew : Ew) (span : Span) (t : Target) : Statement (.setvlb d a ew span t) := by
  intro hw q hq; cases hq
  show row _ _ _ _ = _
  simp only [target_read, cfg_lt, cfg_low, cfg_high, ew_code, span_code, row_ok, keep_true, d5_of, d5ok_of,
    beq_self_eq_true, Bool.and_self, decide_true]
theorem setvl (d a : XName) (ew : Ew) (span : Span) : Statement (.setvl d a ew span) := by
  intro hw q hq; cases hq
  show row _ _ _ _ = _
  simp only [cfg_lt, cfg_low, cfg_high, ew_code, span_code, row_ok, keep_true, d5_of, d5ok_of,
    beq_self_eq_true, Bool.and_self, decide_true]
theorem join (mask : BitVec 4) (id : BitVec 8) : Statement (.join mask id) := by
  intro hw q hq; cases hq
  have h0 : (0#20 ++ (id ++ mask)).toNat < 4096 := zero_append_lt (id ++ mask)
  have h1 : (0#20 ++ (id ++ mask)).setWidth 4 = mask := by
    rw [setWidth_low _ _ _ (by decide), setWidth_low _ _ _ (by decide), BitVec.setWidth_eq]
  have h2 : (0#20 ++ (id ++ mask)).extractLsb' 4 8 = id := by
    rw [extract_low _ _ _ _ (by decide), extract_high _ _ _ _ (by decide)]
    exact extract_all id
  simp only [decodeFields, BitVec.reduceToNat, row_ok, keep_true, h0, h1, h2, beq_self_eq_true,
    Bool.and_self, decide_true]
theorem detach : Statement (.detach) := by
  intro hw q hq; cases hq
  rfl
theorem exit : Statement (.exit) := by
  intro hw q hq; cases hq
  rfl
theorem crrd (d : XName) (num : BitVec 12) : Statement (.crrd d num) := by
  intro hw q hq; cases hq
  show row _ _ _ _ = _
  simp only [wide_read num (by decide), show (num.setWidth 32).toNat < 4096 from wide_lt num (by decide),
    row_ok, keep_true, d5_of, d5ok_of, beq_self_eq_true, Bool.and_self, decide_true]
theorem crwr (a : XName) (num : BitVec 12) : Statement (.crwr a num) := by
  intro hw q hq; cases hq
  simp only [wide_read num (by decide), show (num.setWidth 32).toNat < 4096 from wide_lt num (by decide),
    decodeFields, BitVec.reduceToNat, row_ok, keep_true, beq_self_eq_true, Bool.and_self, decide_true]
theorem eret : Statement (.eret) := by
  intro hw q hq; cases hq
  rfl
theorem trap (imm : BitVec 32) : Statement (.trap imm) := by
  intro hw q hq; cases hq
  have h1 : imm ≠ 0x80000021 := by rintro rfl; exact absurd hw (by decide)
  have h2 : imm ≠ 0x80000022 := by rintro rfl; exact absurd hw (by decide)
  simp only [decodeFields, BitVec.reduceToNat, trapWord, h1, h2, if_false, row_ok, keep_true, beq_self_eq_true,
    Bool.and_self]
theorem livePackages : Statement (.livePackages) := by
  intro hw q hq; cases hq
  rfl
theorem clearDeferredIntegrity : Statement (.clearDeferredIntegrity) := by
  intro hw q hq; cases hq
  rfl
theorem cwb (a b : XName) : Statement (.cwb a b) := by
  intro hw q hq; cases hq
  rfl
theorem cinv (a b : XName) : Statement (.cinv a b) := by
  intro hw q hq; cases hq
  rfl
theorem iinv (a b : XName) : Statement (.iinv a b) := by
  intro hw q hq; cases hq
  rfl
theorem ifence : Statement (.ifence) := by
  intro hw q hq; cases hq
  rfl
theorem fence (form : FenceForm) : Statement (.fence form) := by
  intro hw q hq; cases hq
  simp only [decodeFields, BitVec.reduceToNat, row_ok, keep_true, fenceForm_code, beq_self_eq_true,
    Bool.and_self]
theorem sleep (a : XName) : Statement (.sleep a) := by
  intro hw q hq; cases hq
  rfl
theorem wswitch (a : XName) : Statement (.wswitch a) := by
  intro hw q hq; cases hq
  rfl
theorem wrel (a : XName) : Statement (.wrel a) := by
  intro hw q hq; cases hq
  rfl
theorem bar (kind : BarKind) (scope : Scope) : Statement (.bar kind scope) := by
  intro hw q hq; cases hq
  simp only [decodeFields, BitVec.reduceToNat, row_ok, keep_true, bar_lt, bar_kind, bar_scope, barKind_code,
    scope_code, beq_self_eq_true, Bool.and_self, decide_true]
theorem safe : Statement (.safe) := by
  intro hw q hq; cases hq
  rfl
theorem qsend (a : XName) (b : VName) : Statement (.qsend a b) := by
  intro hw q hq; cases hq
  rfl
theorem qrecv (d : VName) (a : XName) : Statement (.qrecv d a) := by
  intro hw q hq; cases hq
  show row _ _ _ _ = _
  simp only [row_ok, keep_true, d5_of, d5ok_of, beq_self_eq_true, Bool.and_self]
theorem qstat (d a : XName) : Statement (.qstat d a) := by
  intro hw q hq; cases hq
  show row _ _ _ _ = _
  simp only [row_ok, keep_true, d5_of, d5ok_of, beq_self_eq_true, Bool.and_self]
theorem hnew (d a : XName) (stage : BitVec 4) (exp : BitVec 6) (t : TargetJ) :
    Statement (.hnew d a stage exp t) := by
  intro hw q hq; cases hq
  have hw : (decide (2 ≤ exp.toNat) && decide (exp.toNat ≤ 32)) = true := hw
  show row _ _ _ _ = _
  simp only [hw, narrow54, narrow54_lt, targetJ_read, row_ok, keep_true, d5_of, d5ok_of, Bool.and_self,
    decide_true]
theorem hcopy (d a : XName) : Statement (.hcopy d a) := by
  intro hw q hq; cases hq
  show row _ _ _ _ = _
  simp only [row_ok, keep_true, d5_of, d5ok_of, beq_self_eq_true, Bool.and_self]
theorem hdrop (a : XName) : Statement (.hdrop a) := by
  intro hw q hq; cases hq
  rfl
theorem hbase (d a : XName) : Statement (.hbase d a) := by
  intro hw q hq; cases hq
  show row _ _ _ _ = _
  simp only [row_ok, keep_true, d5_of, d5ok_of, beq_self_eq_true, Bool.and_self]
theorem snap (a : XName) : Statement (.snap a) := by
  intro hw q hq; cases hq
  rfl
theorem vadd (d a b : VName) (vx : Bool) (c : Ctrl) : Statement (.vadd d a b vx c) := by
  intro hw q hq; cases hq
  have hw : c.wf = true := hw
  show row _ _ _ _ = _
  simp only [row_ok, keep_true, d5_of, d5ok_of, Fields.f0, bit_lt, bit_get, decide_true, withCtrl_read c hw]
theorem vsub (d a b : VName) (vx : Bool) (c : Ctrl) : Statement (.vsub d a b vx c) := by
  intro hw q hq; cases hq
  have hw : c.wf = true := hw
  show row _ _ _ _ = _
  simp only [row_ok, keep_true, d5_of, d5ok_of, Fields.f0, bit_lt, bit_get, decide_true, withCtrl_read c hw]
theorem vmul (d a b : VName) (vx : Bool) (c : Ctrl) : Statement (.vmul d a b vx c) := by
  intro hw q hq; cases hq
  have hw : c.wf = true := hw
  show row _ _ _ _ = _
  simp only [row_ok, keep_true, d5_of, d5ok_of, Fields.f0, bit_lt, bit_get, decide_true, withCtrl_read c hw]
theorem vmulh (d a b : VName) (vx u : Bool) (c : Ctrl) : Statement (.vmulh d a b vx u c) := by
  intro hw q hq; cases hq
  have hw : c.wf = true := hw
  show row _ _ _ _ = _
  simp only [row_ok, keep_true, d5_of, d5ok_of, Fields.f0, Fields.f1, bits2_lt, bits2_low, bits2_high,
    decide_true, withCtrl_read c hw]
theorem vmacc (d a b : VName) (vx : Bool) (c : Ctrl) : Statement (.vmacc d a b vx c) := by
  intro hw q hq; cases hq
  have hw : c.wf = true := hw
  show row _ _ _ _ = _
  simp only [row_ok, keep_true, d5_of, d5ok_of, Fields.f0, bit_lt, bit_get, decide_true, withCtrl_read c hw]
theorem vmin (d a b : VName) (vx u : Bool) (c : Ctrl) : Statement (.vmin d a b vx u c) := by
  intro hw q hq; cases hq
  have hw : c.wf = true := hw
  show row _ _ _ _ = _
  simp only [row_ok, keep_true, d5_of, d5ok_of, Fields.f0, Fields.f1, bits2_lt, bits2_low, bits2_high,
    decide_true, withCtrl_read c hw]
theorem vmax (d a b : VName) (vx u : Bool) (c : Ctrl) : Statement (.vmax d a b vx u c) := by
  intro hw q hq; cases hq
  have hw : c.wf = true := hw
  show row _ _ _ _ = _
  simp only [row_ok, keep_true, d5_of, d5ok_of, Fields.f0, Fields.f1, bits2_lt, bits2_low, bits2_high,
    decide_true, withCtrl_read c hw]
theorem vand (d a b : VName) (vx : Bool) (c : Ctrl) : Statement (.vand d a b vx c) := by
  intro hw q hq; cases hq
  have hw : c.wf = true := hw
  show row _ _ _ _ = _
  simp only [row_ok, keep_true, d5_of, d5ok_of, Fields.f0, bit_lt, bit_get, decide_true, withCtrl_read c hw]
theorem vor (d a b : VName) (vx : Bool) (c : Ctrl) : Statement (.vor d a b vx c) := by
  intro hw q hq; cases hq
  have hw : c.wf = true := hw
  show row _ _ _ _ = _
  simp only [row_ok, keep_true, d5_of, d5ok_of, Fields.f0, bit_lt, bit_get, decide_true, withCtrl_read c hw]
theorem vxor (d a b : VName) (vx : Bool) (c : Ctrl) : Statement (.vxor d a b vx c) := by
  intro hw q hq; cases hq
  have hw : c.wf = true := hw
  show row _ _ _ _ = _
  simp only [row_ok, keep_true, d5_of, d5ok_of, Fields.f0, bit_lt, bit_get, decide_true, withCtrl_read c hw]
theorem vsll (d a b : VName) (vx : Bool) (c : Ctrl) : Statement (.vsll d a b vx c) := by
  intro hw q hq; cases hq
  have hw : c.wf = true := hw
  show row _ _ _ _ = _
  simp only [row_ok, keep_true, d5_of, d5ok_of, Fields.f0, bit_lt, bit_get, decide_true, withCtrl_read c hw]
theorem vsrl (d a b : VName) (vx : Bool) (c : Ctrl) : Statement (.vsrl d a b vx c) := by
  intro hw q hq; cases hq
  have hw : c.wf = true := hw
  show row _ _ _ _ = _
  simp only [row_ok, keep_true, d5_of, d5ok_of, Fields.f0, bit_lt, bit_get, decide_true, withCtrl_read c hw]
theorem vsra (d a b : VName) (vx : Bool) (c : Ctrl) : Statement (.vsra d a b vx c) := by
  intro hw q hq; cases hq
  have hw : c.wf = true := hw
  show row _ _ _ _ = _
  simp only [row_ok, keep_true, d5_of, d5ok_of, Fields.f0, bit_lt, bit_get, decide_true, withCtrl_read c hw]
theorem vfadd (d a b : VName) (vx : Bool) (rm : Rm) (c : Ctrl) : Statement (.vfadd d a b vx rm c) := by
  intro hw q hq; cases hq
  have hw : c.wf = true := hw
  simp only [decodeFields, BitVec.reduceToNat, row_ok, keep_true, d5_of, d5ok_of, Fields.f0, Fields.rm,
    codeBit_code, codeBit_bit, codeBit_lt, rm_code, decide_true, withCtrl_read c hw]
theorem vfsub (d a b : VName) (vx : Bool) (rm : Rm) (c : Ctrl) : Statement (.vfsub d a b vx rm c) := by
  intro hw q hq; cases hq
  have hw : c.wf = true := hw
  simp only [decodeFields, BitVec.reduceToNat, row_ok, keep_true, d5_of, d5ok_of, Fields.f0, Fields.rm,
    codeBit_code, codeBit_bit, codeBit_lt, rm_code, decide_true, withCtrl_read c hw]
theorem vfmul (d a b : VName) (vx : Bool) (rm : Rm) (c : Ctrl) : Statement (.vfmul d a b vx rm c) := by
  intro hw q hq; cases hq
  have hw : c.wf = true := hw
  simp only [decodeFields, BitVec.reduceToNat, row_ok, keep_true, d5_of, d5ok_of, Fields.f0, Fields.rm,
    codeBit_code, codeBit_bit, codeBit_lt, rm_code, decide_true, withCtrl_read c hw]
theorem vfdiv (d a b : VName) (vx : Bool) (rm : Rm) (c : Ctrl) : Statement (.vfdiv d a b vx rm c) := by
  intro hw q hq; cases hq
  have hw : c.wf = true := hw
  simp only [decodeFields, BitVec.reduceToNat, row_ok, keep_true, d5_of, d5ok_of, Fields.f0, Fields.rm,
    codeBit_code, codeBit_bit, codeBit_lt, rm_code, decide_true, withCtrl_read c hw]
theorem vfma (d a b e : VName) (vx : Bool) (rm : Rm) (neg : Neg) (c : Ctrl) :
    Statement (.vfma d a b e vx rm neg c) := by
  intro hw q hq; cases hq
  have hw : c.wf = true := hw
  simp only [decodeFields, BitVec.reduceToNat, row_ok, keep_true, d5_of, d5ok_of, Fields.f0, Fields.rm,
    vfma_rm, vfma_neg, vfma_bit, rm_code, neg_code, withCtrl3_read c hw]
theorem vfmin (d a b : VName) (vx : Bool) (c : Ctrl) : Statement (.vfmin d a b vx c) := by
  intro hw q hq; cases hq
  have hw : c.wf = true := hw
  show row _ _ _ _ = _
  simp only [row_ok, keep_true, d5_of, d5ok_of, Fields.f0, bit_lt, bit_get, decide_true, withCtrl_read c hw]
theorem vfmax (d a b : VName) (vx : Bool) (c : Ctrl) : Statement (.vfmax d a b vx c) := by
  intro hw q hq; cases hq
  have hw : c.wf = true := hw
  show row _ _ _ _ = _
  simp only [row_ok, keep_true, d5_of, d5ok_of, Fields.f0, bit_lt, bit_get, decide_true, withCtrl_read c hw]
theorem vfsqrt (d a : VName) (rm : Rm) (c : Ctrl) : Statement (.vfsqrt d a rm c) := by
  intro hw q hq; cases hq
  have hw : c.wf = true := hw
  simp only [decodeFields, BitVec.reduceToNat, row_ok, keep_true, d5_of, d5ok_of, Fields.f0, Fields.rm,
    codeZero_code, codeZero_bit, codeZero_lt, rm_code, withCtrl_read c hw, beq_self_eq_true, Bool.and_self,
    Bool.not_false, decide_true]
theorem vfrcp (d a : VName) (rm : Rm) (c : Ctrl) : Statement (.vfrcp d a rm c) := by
  intro hw q hq; cases hq
  have hw : c.wf = true := hw
  simp only [decodeFields, BitVec.reduceToNat, row_ok, keep_true, d5_of, d5ok_of, Fields.f0, Fields.rm,
    codeZero_code, codeZero_bit, codeZero_lt, rm_code, withCtrl_read c hw, beq_self_eq_true, Bool.and_self,
    Bool.not_false, decide_true]
theorem vfrsq (d a : VName) (rm : Rm) (c : Ctrl) : Statement (.vfrsq d a rm c) := by
  intro hw q hq; cases hq
  have hw : c.wf = true := hw
  simp only [decodeFields, BitVec.reduceToNat, row_ok, keep_true, d5_of, d5ok_of, Fields.f0, Fields.rm,
    codeZero_code, codeZero_bit, codeZero_lt, rm_code, withCtrl_read c hw, beq_self_eq_true, Bool.and_self,
    Bool.not_false, decide_true]
theorem vfexp2 (d a : VName) (rm : Rm) (c : Ctrl) : Statement (.vfexp2 d a rm c) := by
  intro hw q hq; cases hq
  have hw : c.wf = true := hw
  simp only [decodeFields, BitVec.reduceToNat, row_ok, keep_true, d5_of, d5ok_of, Fields.f0, Fields.rm,
    codeZero_code, codeZero_bit, codeZero_lt, rm_code, withCtrl_read c hw, beq_self_eq_true, Bool.and_self,
    Bool.not_false, decide_true]
theorem vflog2 (d a : VName) (rm : Rm) (c : Ctrl) : Statement (.vflog2 d a rm c) := by
  intro hw q hq; cases hq
  have hw : c.wf = true := hw
  simp only [decodeFields, BitVec.reduceToNat, row_ok, keep_true, d5_of, d5ok_of, Fields.f0, Fields.rm,
    codeZero_code, codeZero_bit, codeZero_lt, rm_code, withCtrl_read c hw, beq_self_eq_true, Bool.and_self,
    Bool.not_false, decide_true]
theorem vcmp (d : MName) (a b : VName) (vx : Bool) (cond : Cond) (c : Ctrl) :
    Statement (.vcmp d a b vx cond c) := by
  intro hw q hq; cases hq
  have hw : c.wf = true := hw
  simp only [decodeFields, BitVec.reduceToNat, row_ok, keep_true, d3_of, d3ok_of, Fields.f0, Fields.rm,
    codeBit_code, codeBit_bit, codeBit_lt, cond_code, decide_true, withCtrl_read c hw]
theorem vfcmp (d : MName) (a b : VName) (vx : Bool) (cond : FCond) (c : Ctrl) :
    Statement (.vfcmp d a b vx cond c) := by
  intro hw q hq; cases hq
  have hw : c.wf = true := hw
  simp only [decodeFields, BitVec.reduceToNat, row_ok, keep_true, d3_of, d3ok_of, Fields.f0, Fields.rm,
    codeBit_code, codeBit_bit, codeBit_lt, fCond_code, decide_true, withCtrl_read c hw]
theorem vcvt (d a : VName) (fs fd : Fmt) (rm : Rm) (inf ovf : Bool) (gov : Gov) :
    Statement (.vcvt d a fs fd rm inf ovf gov) := by
  intro hw q hq; cases hq
  have h3 (o i : Bool) (r : Rm) : (BitVec.ofBool o ++ BitVec.ofBool i ++ r.code).setWidth 3 = r.code ∧
      (BitVec.ofBool o ++ BitVec.ofBool i ++ r.code).getLsbD 3 = i ∧
      (BitVec.ofBool o ++ BitVec.ofBool i ++ r.code).getLsbD 4 = o := by
    cases o <;> cases i <;> cases r <;> decide
  have hb := gov_of gov (BitVec.ofBool ovf ++ BitVec.ofBool inf ++ rm.code)
  have hc (e : BitVec 5) : (gov.bits.withC e).c = e ∧ (gov.bits.withC e).nb = 0 ∧ (gov.bits.withC e).edge = 0 :=
    ⟨rfl, rfl, rfl⟩
  show row _ _ _ (vcvtBody _) = _
  simp only [vcvtBody, hi2_ctrl, hb, narrow54, narrow54_lt, narrow64, narrow64_lt, fmt_code, (hc _).1,
    (hc _).2.1,
    (hc _).2.2, (h3 ovf inf rm).1, (h3 ovf inf rm).2.1, (h3 ovf inf rm).2.2, rm_code, hw, keep_true, row_ok,
    d5_of,
    d5ok_of, beq_self_eq_true, Bool.and_self, decide_true]
theorem vmerge (d a b : VName) (vx : Bool) (sel : Sel) (nb : Nb) (edge : Edge) :
    Statement (.vmerge d a b vx sel nb edge) := by
  intro hw q hq; cases hq
  have hw : nbWf nb edge = true := hw
  show row _ _ _ (vmergeBody _) = _
  simp only [vmergeBody, hi2_ctrl, Sel.bits, CtrlBits.withNb, Fields.f0, bit_lt, bit_get, nb_code, edge_code,
    hw,
    keep_true, row_ok, d5_of, d5ok_of, beq_self_eq_true, Bool.and_self, decide_true]
theorem vmv (d a : VName) (c : Ctrl) : Statement (.vmv d a c) := by
  intro hw q hq; cases hq
  have hw : c.wf = true := hw
  show row _ _ _ _ = _
  simp only [row_ok, keep_true, d5_of, d5ok_of, beq_self_eq_true, Bool.and_self, withCtrl_read c hw]
theorem vsplat (d : VName) (a : XName) (gov : Gov) : Statement (.vsplat d a gov) := by
  intro hw q hq; cases hq
  have hw : gov.wf = true := hw
  show row _ _ _ _ = _
  simp only [row_ok, keep_true, d5_of, d5ok_of, beq_self_eq_true, Bool.and_self, withGov2_read gov hw]
theorem vred (d a : VName) (op : Red) (gov : Gov) : Statement (.vred d a op gov) := by
  intro hw q hq; cases hq
  have hw : gov.wf = true := hw
  simp only [decodeFields, BitVec.reduceToNat, row_ok, keep_true, d5_of, d5ok_of, red_code,
    withGov2_read gov hw, beq_self_eq_true, Bool.and_self]
theorem vslide (d a : VName) (b : XName) (dn : Bool) (gov : Gov) : Statement (.vslide d a b dn gov) := by
  intro hw q hq; cases hq
  have hw : gov.wf = true := hw
  show row _ _ _ _ = _
  simp only [row_ok, keep_true, d5_of, d5ok_of, Fields.f0, bit_lt, bit_get, decide_true, withGov2_read gov hw]
theorem vgather (d a b : VName) (gov : Gov) : Statement (.vgather d a b gov) := by
  intro hw q hq; cases hq
  have hw : gov.wf = true := hw
  show row _ _ _ _ = _
  simp only [row_ok, keep_true, d5_of, d5ok_of, beq_self_eq_true, withGov2_read gov hw]
theorem vcompress (d a : VName) (cnt : XName) (sel : Sel) : Statement (.vcompress d a cnt sel) := by
  intro hw q hq; cases hq
  show row _ _ _ _ = _
  simp only [row_ok, keep_true, d5_of, d5ok_of, beq_self_eq_true, Bool.and_self, withSelC_read]
theorem vreshape (d a : VName) (b : XName) (gov : Gov) : Statement (.vreshape d a b gov) := by
  intro hw q hq; cases hq
  have hw : gov.wf = true := hw
  show row _ _ _ _ = _
  simp only [row_ok, keep_true, d5_of, d5ok_of, beq_self_eq_true, withGov2_read gov hw]
theorem viota (d : VName) (sel : Sel) : Statement (.viota d sel) := by
  intro hw q hq; cases hq
  show row _ _ _ _ = _
  
  show row _ _ _ (withSelC (Fields.mk _ _ _ _ _ _ (sel.bits.withC 0).hi2) _) = _
  simp only [withSelC_read, row_ok, keep_true, d5_of, d5ok_of, beq_self_eq_true, Bool.and_self]
theorem vid (d : VName) (gov : Gov) : Statement (.vid d gov) := by
  intro hw q hq; cases hq
  have hw : gov.wf = true := hw
  show row _ _ _ _ = _
  simp only [row_ok, keep_true, d5_of, d5ok_of, beq_self_eq_true, Bool.and_self, withGov2_read gov hw]
theorem mand (d a b : MName) : Statement (.mand d a b) := by
  intro hw q hq; cases hq
  show row _ _ _ _ = _
  simp only [d3_of, d3ok_of, a3_of, a3ok_of, b3_of, b3ok_of, row_ok, keep_true, beq_self_eq_true, Bool.and_self]
theorem mandn (d a b : MName) : Statement (.mandn d a b) := by
  intro hw q hq; cases hq
  show row _ _ _ _ = _
  simp only [d3_of, d3ok_of, a3_of, a3ok_of, b3_of, b3ok_of, row_ok, keep_true, beq_self_eq_true, Bool.and_self]
theorem mor (d a b : MName) : Statement (.mor d a b) := by
  intro hw q hq; cases hq
  show row _ _ _ _ = _
  simp only [d3_of, d3ok_of, a3_of, a3ok_of, b3_of, b3ok_of, row_ok, keep_true, beq_self_eq_true, Bool.and_self]
theorem mxor (d a b : MName) : Statement (.mxor d a b) := by
  intro hw q hq; cases hq
  show row _ _ _ _ = _
  simp only [d3_of, d3ok_of, a3_of, a3ok_of, b3_of, b3ok_of, row_ok, keep_true, beq_self_eq_true, Bool.and_self]
theorem mnot (d a : MName) : Statement (.mnot d a) := by
  intro hw q hq; cases hq
  show row _ _ _ _ = _
  simp only [row_ok, keep_true, d3_of, d3ok_of, a3_of, a3ok_of, beq_self_eq_true, Bool.and_self]
theorem mcount (d : XName) (a : MName) : Statement (.mcount d a) := by
  intro hw q hq; cases hq
  show row _ _ _ _ = _
  simp only [row_ok, keep_true, d5_of, d5ok_of, a3_of, a3ok_of, beq_self_eq_true, Bool.and_self]
theorem mfirst (d : XName) (a : MName) : Statement (.mfirst d a) := by
  intro hw q hq; cases hq
  show row _ _ _ _ = _
  simp only [row_ok, keep_true, d5_of, d5ok_of, a3_of, a3ok_of, beq_self_eq_true, Bool.and_self]
theorem vld (d : VName) (a : XName) (off : BitVec 16) (gov : Gov) : Statement (.vld d a off gov) := by
  intro hw q hq; cases hq
  have hw : gov.wf = true := hw
  show row _ _ _ _ = _
  simp only [row_ok, keep_true, d5_of, d5ok_of, beq_self_eq_true, Bool.and_self, withGov3_read gov hw, hi3_off]
theorem vlds (d : VName) (a b : XName) (off : BitVec 16) (gov : Gov) : Statement (.vlds d a b off gov) := by
  intro hw q hq; cases hq
  have hw : gov.wf = true := hw
  show row _ _ _ _ = _
  simp only [row_ok, keep_true, d5_of, d5ok_of, beq_self_eq_true, withGov3_read gov hw, hi3_off]
theorem vldx (d : VName) (a : XName) (b : VName) (off : BitVec 16) (gov : Gov) :
    Statement (.vldx d a b off gov) := by
  intro hw q hq; cases hq
  have hw : gov.wf = true := hw
  show row _ _ _ _ = _
  simp only [row_ok, keep_true, d5_of, d5ok_of, beq_self_eq_true, withGov3_read gov hw, hi3_off]
theorem vldr (d : VName) (a : XName) (off : BitVec 16) (gov : Gov) : Statement (.vldr d a off gov) := by
  intro hw q hq; cases hq
  have hw : gov.wf = true := hw
  show row _ _ _ _ = _
  simp only [row_ok, keep_true, d5_of, d5ok_of, beq_self_eq_true, Bool.and_self, withGov3_read gov hw, hi3_off]
theorem vst (src : VName) (a : XName) (off : BitVec 16) (gov : Gov) : Statement (.vst src a off gov) := by
  intro hw q hq; cases hq
  have hw : gov.wf = true := hw
  show row _ _ _ _ = _
  simp only [row_ok, keep_true, d5_of, d5ok_of, beq_self_eq_true, Bool.and_self, withGov3_read gov hw, hi3_off]
theorem vsts (src : VName) (a b : XName) (off : BitVec 16) (gov : Gov) : Statement (.vsts src a b off gov) := by
  intro hw q hq; cases hq
  have hw : gov.wf = true := hw
  show row _ _ _ _ = _
  simp only [row_ok, keep_true, d5_of, d5ok_of, beq_self_eq_true, withGov3_read gov hw, hi3_off]
theorem vstx (src : VName) (a : XName) (b : VName) (off : BitVec 16) (gov : Gov) :
    Statement (.vstx src a b off gov) := by
  intro hw q hq; cases hq
  have hw : gov.wf = true := hw
  show row _ _ _ _ = _
  simp only [row_ok, keep_true, d5_of, d5ok_of, beq_self_eq_true, withGov3_read gov hw, hi3_off]
theorem vstr (src : VName) (a : XName) (off : BitVec 16) (flag : Bool) (gov : Gov) :
    Statement (.vstr src a off flag gov) := by
  intro hw q hq; cases hq
  have hw : gov.wf = true := hw
  show row _ _ _ _ = _
  simp only [Fields.f0, bit_lt, bit_get, withGov3_read gov hw, hi3_off, row_ok, keep_true, d5_of, d5ok_of,
    beq_self_eq_true, Bool.and_self, decide_true]
theorem vamo (d : VName) (a : XName) (b : VName) (off : BitVec 16) (op : AmoOp) (gov : Gov) :
    Statement (.vamo d a b off op gov) := by
  intro hw q hq; cases hq
  have hw : gov.wf = true := hw
  simp only [decodeFields, BitVec.reduceToNat, row_ok, keep_true, d5_of, d5ok_of, narrow64, narrow64_lt,
    amoOp_code, withGov3_read gov hw, hi3_off, decide_true]
theorem mrow (ad : AName) (vs : VName) (t : TName) (fa fb : Fmt) (cb rep : BitVec 5) (rv inf : Bool) :
    Statement (.mrow ad vs t fa fb cb rep rv inf) := by
  intro hw q hq; cases hq
  have hw : rowStepWf fa fb cb rep inf = true := hw
  have h0 : (0#14 ++ (rep ++ cb ++ fb.code ++ fa.code)).toNat < 2 ^ 18 := zero_append_lt _
  have h1 := rowStep_fields fa fb cb rep
  show row _ _ _ (mrowBody _) = _
  simp (disch := omega) only [mrowBody, setWidth_low (0#14), extract_low (0#14), h1, fmt_code, Fields.f0,
    Fields.f1,
    bits2_lt, bits2_low, bits2_high, h0, Instr.wf, hw, keep_true, row_ok, Bool.and_self, decide_true]
theorem mrowa (ad as : AName) (t : TName) (fa fb : Fmt) (cb rep : BitVec 5) (rv inf ovf : Bool) (part : Part) (shift : BitVec 5) :
    Statement (.mrowa ad as t fa fb cb rep rv inf ovf part shift) := by
  intro hw q hq; cases hq
  have h1 := rowStep_fields fa fb cb rep
  have h2 (o i r : Bool) : (0#3 ++ BitVec.ofBool o ++ BitVec.ofBool i ++ BitVec.ofBool r).toNat < 8 ∧
      (0#3 ++ BitVec.ofBool o ++ BitVec.ofBool i ++ BitVec.ofBool r).getLsbD 0 = r ∧
      (0#3 ++ BitVec.ofBool o ++ BitVec.ofBool i ++ BitVec.ofBool r).getLsbD 1 = i ∧
      (0#3 ++ BitVec.ofBool o ++ BitVec.ofBool i ++ BitVec.ofBool r).getLsbD 2 = o := by
    cases o <;> cases i <;> cases r <;> decide
  have h3 := rowStepA_fields as part shift (rep ++ cb ++ fb.code ++ fa.code)
  show row _ _ _ (mrowaBody _) = _
  simp (disch := omega) only [mrowaBody, setWidth_low (shift ++ part.code ++ as),
    extract_low (shift ++ part.code ++ as) _ 4 4, extract_low (shift ++ part.code ++ as) _ 8 5,
    extract_low (shift ++ part.code ++ as) _ 13 5, h1, h3, fmt_code, part_code, Fields.f0, Fields.f1, Fields.f2,
    (h2 ovf inf rv).1, (h2 ovf inf rv).2.1, (h2 ovf inf rv).2.2.1, (h2 ovf inf rv).2.2.2, hw, keep_true, row_ok,
    beq_self_eq_true, Bool.and_self, decide_true]
theorem aclr (d : AName) (cnt : BitVec 6) : Statement (.aclr d cnt) := by
  intro hw q hq; cases hq
  have hw : decide (d.toNat + cnt.toNat ≤ 63) = true := hw
  show row _ _ _ (keep (_ && _ && decide _) _) = _
  simp only [hw, row_ok, keep_true, beq_self_eq_true, Bool.and_self]
theorem ard (d : VName) (row : AName) : Statement (.ard d row) := by
  intro hw q hq; cases hq
  show Sys2Proof.row _ _ _ _ = _
  simp only [row_ok, keep_true, d5_of, d5ok_of, beq_self_eq_true, Bool.and_self]
theorem awr (d : AName) (a : VName) (int : Bool) : Statement (.awr d a int) := by
  intro hw q hq; cases hq
  simp only [decodeFields, BitVec.reduceToNat, row_ok, keep_true, Fields.f0, bit_lt, bit_get,
    beq_self_eq_true, decide_true]
theorem ascale (ad as : AName) (form : ScaleForm) (clr : Bool) : Statement (.ascale ad as form clr) := by
  intro hw q hq; cases hq
  have h0 : (as.setWidth 32).toNat < 64 := wide_lt as (by decide)
  have h1 := wide_read as (by decide)
  show row _ _ _ (ascaleBody _) = _
  cases form <;> cases clr <;> simp only [ascaleBody, h0, h1, ScaleForm.aField, ScaleForm.bField,
    decide_true] <;>
    simp [row, keep, Fields.f2, ScaleForm.code]
theorem tld (t : TName) (a : XName) (imm : BitVec 32) : Statement (.tld t a imm) := by
  intro hw q hq; cases hq
  show row _ _ _ _ = _
  simp only [row_ok, keep_true, d5_of, d5ok_of, beq_self_eq_true, Bool.and_self]
theorem tfill (t : TName) (a : VName) (hi : Bool) : Statement (.tfill t a hi) := by
  intro hw q hq; cases hq
  show row _ _ _ _ = _
  simp only [Fields.f0, bit_lt, bit_get, row_ok, keep_true, d5_of, d5ok_of, beq_self_eq_true, Bool.and_self,
    decide_true]
theorem eissue (md : MName) (a b : VName) (m : MName) : Statement (.eissue md a b m) := by
  intro hw q hq; cases hq
  have hs : (Sel.bits ⟨m, 0⟩).selOf = some ⟨m, 0⟩ := sel_read ⟨m, 0⟩ 0
  have hc : (Sel.bits ⟨m, 0⟩).c = 0 := rfl
  have hw : (Instr.eissue md a b m).wf = true := hw
  show row _ _ _ (eissueBody _) = _
  simp only [eissueBody, hi2_ctrl, hs, hc, hw, d3_of, d3ok_of, row_ok, keep_true, beq_self_eq_true,
    Bool.and_self]
theorem ewait (a : VName) (m : MName) : Statement (.ewait a m) := by
  intro hw q hq; cases hq
  have hs : (Sel.bits ⟨m, 0⟩).selOf = some ⟨m, 0⟩ := sel_read ⟨m, 0⟩ 0
  have hc : (Sel.bits ⟨m, 0⟩).c = 0 := rfl
  have hw : (Instr.ewait a m).wf = true := hw
  show row _ _ _ (ewaitBody _) = _
  simp only [ewaitBody, hi2_ctrl, hs, hc, hw, row_ok, keep_true, beq_self_eq_true, Bool.and_self]
theorem pfadd (d a b : XName) (imm : BitVec 32) : Statement (.pfadd d a b imm) := by
  intro hw q hq; cases hq
  show row _ _ _ _ = _
  simp only [row_ok, keep_true, d5_of, d5ok_of, beq_self_eq_true]
theorem joinTimeout (quad : Nat) (pc : Word) : Statement (.joinTimeout quad pc) := by
  intro _ q h; cases h
theorem sleepWake (core : Nat) : Statement (.sleepWake core) := by
  intro _ q h; cases h
theorem ewaitWake (core : Nat) : Statement (.ewaitWake core) := by
  intro _ q h; cases h
theorem qrecvWake (core : Nat) : Statement (.qrecvWake core) := by
  intro _ q h; cases h
theorem heldVersionDrop (core : Nat) (version : HeldVersion) : Statement (.heldVersionDrop core version) := by
  intro _ q h; cases h
theorem copy (core : Nat) (serial : BitVec 16) (piece : Nat) : Statement (.copy core serial piece) := by
  intro _ q h; cases h
theorem fill (core : Nat) (serial : BitVec 16) (piece : Nat) : Statement (.fill core serial piece) := by
  intro _ q h; cases h
theorem stage (core : Nat) (serial : BitVec 16) (piece : Nat) : Statement (.stage core serial piece) := by
  intro _ q h; cases h
theorem tload (core : Nat) (serial : BitVec 16) : Statement (.tload core serial) := by
  intro _ q h; cases h
theorem aload (core : Nat) (serial : BitVec 16) (row : Nat) : Statement (.aload core serial row) := by
  intro _ q h; cases h
theorem engineCommandComplete (core : Nat) (serial : BitVec 16) :
    Statement (.engineCommandComplete core serial) := by
  intro _ q h; cases h
theorem remoteStorePerform (k : Nat) : Statement (.remoteStorePerform k) := by
  intro _ q h; cases h
theorem pfaddPerform (k : Nat) : Statement (.pfaddPerform k) := by
  intro _ q h; cases h
theorem pfaddCombine (i j : Nat) : Statement (.pfaddCombine i j) := by
  intro _ q h; cases h
theorem pfaddReply (k : Nat) : Statement (.pfaddReply k) := by
  intro _ q h; cases h
theorem vldrRequestPerform (k : Nat) : Statement (.vldrRequestPerform k) := by
  intro _ q h; cases h
theorem vldrReply (k : Nat) : Statement (.vldrReply k) := by
  intro _ q h; cases h
theorem ballastPostIssue (core : Nat) : Statement (.ballastPostIssue core) := by
  intro _ q h; cases h
theorem ballastPost (k : Nat) : Statement (.ballastPost k) := by
  intro _ q h; cases h
theorem finaliserStart (k quad : Nat) : Statement (.finaliserStart k quad) := by
  intro _ q h; cases h
theorem queuePlace (core k : Nat) : Statement (.queuePlace core k) := by
  intro _ q h; cases h
theorem qsendResend (core queue : Nat) : Statement (.qsendResend core queue) := by
  intro _ q h; cases h
theorem queueUnmap (launch queue : Nat) : Statement (.queueUnmap launch queue) := by
  intro _ q h; cases h
theorem queueRemap (launch queue : Nat) : Statement (.queueRemap launch queue) := by
  intro _ q h; cases h
theorem stageRetire (launch stage : Nat) : Statement (.stageRetire launch stage) := by
  intro _ q h; cases h
theorem launchComplete (launch : Nat) : Statement (.launchComplete launch) := by
  intro _ q h; cases h
theorem schedulerRound (place : List Nat) : Statement (.schedulerRound place) := by
  intro _ q h; cases h
theorem flightStart (f : FlightId) (quad : Nat) : Statement (.flightStart f quad) := by
  intro _ q h; cases h
theorem flightPark (f : FlightId) : Statement (.flightPark f) := by
  intro _ q h; cases h
theorem flightResume (f : FlightId) (quad : Nat) : Statement (.flightResume f quad) := by
  intro _ q h; cases h
theorem flightRestore (f : FlightId) (quad : Nat) : Statement (.flightRestore f quad) := by
  intro _ q h; cases h
theorem bandwidthRefill (die : Nat) : Statement (.bandwidthRefill die) := by
  intro _ q h; cases h
theorem preemptRequest (launch : Nat) (flights : List FlightId) :
    Statement (.preemptRequest launch flights) := by
  intro _ q h; cases h
theorem preemptRung2 (k : Nat) : Statement (.preemptRung2 k) := by
  intro _ q h; cases h
theorem preemptRung3 (k : Nat) : Statement (.preemptRung3 k) := by
  intro _ q h; cases h
theorem contextSave (core : Nat) : Statement (.contextSave core) := by
  intro _ q h; cases h
theorem moveStart (old new len : Nat) : Statement (.moveStart old new len) := by
  intro _ q h; cases h
theorem movePark (core : Nat) : Statement (.movePark core) := by
  intro _ q h; cases h
theorem moveRelease (old : Nat) : Statement (.moveRelease old) := by
  intro _ q h; cases h
theorem keyRevoke (key : BitVec 6) : Statement (.keyRevoke key) := by
  intro _ q h; cases h
theorem keyRevokeComplete (key : BitVec 6) : Statement (.keyRevokeComplete key) := by
  intro _ q h; cases h
theorem markerArrival (k : Nat) : Statement (.markerArrival k) := by
  intro _ q h; cases h
theorem sealedExtentWrite (ext : Nat) : Statement (.sealedExtentWrite ext) := by
  intro _ q h; cases h
theorem sealedExtentCopy (ext : Nat) : Statement (.sealedExtentCopy ext) := by
  intro _ q h; cases h
theorem harvestComplete (launch : Nat) : Statement (.harvestComplete launch) := by
  intro _ q h; cases h
theorem rollback (launch : Nat) (place : List Nat) : Statement (.rollback launch place) := by
  intro _ q h; cases h
theorem migrationStart (launch target : Nat) : Statement (.migrationStart launch target) := by
  intro _ q h; cases h
theorem migrationStop (launch : Nat) : Statement (.migrationStop launch) := by
  intro _ q h; cases h
theorem migrationRelease (launch : Nat) : Statement (.migrationRelease launch) := by
  intro _ q h; cases h
theorem flitReceive (link : Nat) (flit : Flit) : Statement (.flitReceive link flit) := by
  intro _ q h; cases h
theorem laneFail (link : Nat) (lanes : Nat) : Statement (.laneFail link lanes) := by
  intro _ q h; cases h
theorem linkRetrainComplete (link : Nat) : Statement (.linkRetrainComplete link) := by
  intro _ q h; cases h
theorem linkDown (link : Nat) : Statement (.linkDown link) := by
  intro _ q h; cases h
theorem linkRetrain (link lanes : Nat) : Statement (.linkRetrain link lanes) := by
  intro _ q h; cases h
theorem timeSync (ahead : Bool) : Statement (.timeSync ahead) := by
  intro _ q h; cases h
theorem packageLost (pkg : BitVec 12) : Statement (.packageLost pkg) := by
  intro _ q h; cases h
theorem packageCutOff : Statement (.packageCutOff) := by
  intro _ q h; cases h
theorem ctailDoorbell (v : BitVec 32) : Statement (.ctailDoorbell v) := by
  intro _ q h; cases h
theorem sheadDoorbell (v : BitVec 32) : Statement (.sheadDoorbell v) := by
  intro _ q h; cases h
theorem ctlWrite (v : BitVec 32) : Statement (.ctlWrite v) := by
  intro _ q h; cases h
theorem registerWrite (off : Nat) (v : BitVec 64) : Statement (.registerWrite off v) := by
  intro _ q h; cases h
theorem sessionRekey (key : List Byte) : Statement (.sessionRekey key) := by
  intro _ q h; cases h
theorem launch (seq addr len : Word) (sha : BitVec 256) : Statement (.launch seq addr len sha) := by
  intro _ q h; cases h
theorem admissionMessage (pkg : BitVec 12) (tag : Word) (admits : Bool) :
    Statement (.admissionMessage pkg tag admits) := by
  intro _ q h; cases h
theorem admissionTimeout (tag : Word) : Statement (.admissionTimeout tag) := by
  intro _ q h; cases h
theorem endLaunch (seq : Word) (launch : Nat) : Statement (.endLaunch seq launch) := by
  intro _ q h; cases h
theorem resumeHart (seq : Word) (launch core : Nat) : Statement (.resumeHart seq launch core) := by
  intro _ q h; cases h
theorem preEmpt (seq : Word) (launch : Nat) : Statement (.preEmpt seq launch) := by
  intro _ q h; cases h
theorem acceptFeatures (seq : Word) (bits : BitVec 256) : Statement (.acceptFeatures seq bits) := by
  intro _ q h; cases h
theorem closeHostFedQueue (seq : Word) (launch queue : Nat) :
    Statement (.closeHostFedQueue seq launch queue) := by
  intro _ q h; cases h
theorem setPowerCap (seq : Word) (watts : Nat) : Statement (.setPowerCap seq watts) := by
  intro _ q h; cases h
theorem queueSend (seq : Word) (launch queue : Nat) (entry : List Byte) :
    Statement (.queueSend seq launch queue entry) := by
  intro _ q h; cases h
theorem queueTake (seq : Word) (launch queue : Nat) (addr : Word) (most : Nat) :
    Statement (.queueTake seq launch queue addr most) := by
  intro _ q h; cases h
theorem unknownCommand (seq : Word) : Statement (.unknownCommand seq) := by
  intro _ q h; cases h
theorem packageReset (tries : List (Option BootImage)) : Statement (.packageReset tries) := by
  intro _ q h; cases h
theorem attestationReport (nonce : BitVec 256) : Statement (.attestationReport nonce) := by
  intro _ q h; cases h
theorem islandClockChange (island mhz : Nat) : Statement (.islandClockChange island mhz) := by
  intro _ q h; cases h
theorem thermalThrottle (island : Nat) : Statement (.thermalThrottle island) := by
  intro _ q h; cases h
theorem thermalRecover (island : Nat) : Statement (.thermalRecover island) := by
  intro _ q h; cases h
theorem thermalStop : Statement (.thermalStop) := by
  intro _ q h; cases h
theorem acknowledgement (k : Nat) : Statement (.acknowledgement k) := by
  intro _ q h; cases h
theorem configurationRequest : Statement (.configurationRequest) := by
  intro _ q h; cases h
theorem softError (core : Nat) (store : StoreKind) (granule : Nat) (uncorrectable : Bool) :
    Statement (.softError core store granule uncorrectable) := by
  intro _ q h; cases h

end Sys2Proof.Laws.RoundTrip
end

