-- ==== Sys2Proof/Tests/Slice0.lean ====
section
/-! SUPPORT. Tests: an ill-formed term for each check of `Instr.wf`, words of every family decoded, the spec's worked
examples, and for every statement with hypotheses a state and operands that meet them all. -/

set_option autoImplicit false

namespace Sys2Proof.Tests
set_option Elab.async false
open Sys2Proof Sys2Proof.Machine

/-! States. -/

/-- Core n with a running hart whose PC is the first head of the line at 0x40, and which has a handler. -/
def running (n : Nat) : Core :=
  { Core.reset n with run := .running, pc := 0x42, ctl := { Ctl.reset with thandler := 0x1002 } }

/-- The package with that hart on core 0. -/
def s0 : State := { State.reset with core := running 0 }

/-- A state with another core in focus. -/
def withCore (c : Core) : State := { State.reset with core := c }

/-- x r of the user hart set. -/
def setX (c : Core) (r : XName) (val : Word) (tag : BitVec 9) : Core := c.writeXOf false r { val := val, tag := tag }

/-- Core 0 with vl and element width set. -/
def vcore (vl : Nat) (ew : Ew) (span : Span) : Core :=
  { running 0 with ctl := { (running 0).ctl with vl := BitVec.ofNat 12 vl, ew := ew, span := span } }

/-- The address of core 0's scratchpad. -/
def pad : Word := 0x100000000000

/-- A register based in slot 0 at an offset of the scratchpad. -/
def inPad (off : Nat) : XReg := { val := pad + BitVec.ofNat 64 off, tag := 0x100 }

/-- An entry of the slot table: all rights, in world 0 under key 1. -/
def slotTo (base limit : Nat) : SlotEntry :=
  { gen := 0, key := 1, world := 0, pkg := 0, mov := true, rem := false, eng := true, at_ := true, w := true, r := true,
    v := true, limit := BitVec.ofNat 48 limit, base := BitVec.ofNat 48 base }

/-- An entry for a region of package 2. -/
def farSlot : SlotEntry := { slotTo 0x10000 0x10000 with rem := true, pkg := 2, mov := false }

/-- Core 0 with a local slot 1, a remote slot 2, and x5 to x8 based at them: x5 in the scratchpad, x6 in slot 1, x7 in
slot 2, x8 untagged. -/
def based : Core :=
  let c : Core := { running 0 with slots := [(1, slotTo 0x20000 0x10000), (2, farSlot)] }
  setX (setX (setX (setX c 5 pad 0x100) 6 0x20000 0x101) 7 0x10000 0x102) 8 3 0

def sb : State := withCore based

def noCtrl : Ctrl := { gov := { me := false, m := 0, g := 0 }, nb := .none, edge := .ez }
def noGov : Gov := { me := false, m := 0, g := 0 }

/-! Ill-formed terms, one for each check (R82, R85, R86, R141, R143, R194, R215, R243, R326, R353, R387). -/

theorem test_wf_shift_amount_with_register : (Instr.sll 1 2 3 4).wf = false ∧ (Instr.srl 1 2 3 1).wf = false ∧
    (Instr.sra 1 2 31 63).wf = false ∧ (Instr.sra 1 2 0 63).wf = true := by decide
theorem test_wf_load_double_signed : (Instr.ld 1 2 0 .d true).wf = false ∧ (Instr.ld 1 2 0 .w true).wf = true := by decide
theorem test_wf_trap_services : (Instr.trap 0x80000021).wf = false ∧ (Instr.trap 0x80000022).wf = false ∧
    (Instr.trap 0x80000020).wf = true := by decide
theorem test_wf_hnew_exponent : (Instr.hnew 1 2 0 1 { line := 0, slot := 1 }).wf = false ∧
    (Instr.hnew 1 2 0 33 { line := 0, slot := 1 }).wf = false ∧ (Instr.hnew 1 2 0 32 { line := 0, slot := 1 }).wf = true := by
  decide
theorem test_wf_mask_without_me :
    (Instr.vadd 1 2 3 false { noCtrl with gov := { me := false, m := 1, g := 0 } }).wf = false ∧
    (Instr.vmulh 1 2 3 false true { noCtrl with gov := { me := false, m := 7, g := 0 } }).wf = false ∧
    (Instr.vfadd 1 2 3 false .dyn { noCtrl with gov := { me := false, m := 1, g := 0 } }).wf = false ∧
    (Instr.vld 1 2 0 { me := false, m := 1, g := 0 }).wf = false ∧
    (Instr.vld 1 2 0 { me := true, m := 1, g := 0 }).wf = true := by decide
theorem test_wf_edge_without_neighbour :
    (Instr.vadd 1 2 3 false { noCtrl with edge := .er }).wf = false ∧
    (Instr.vfma 1 2 3 4 false .dyn .plain { noCtrl with edge := .ew }).wf = false ∧
    (Instr.vcmp 1 2 3 false .eq { noCtrl with edge := .ew }).wf = false ∧
    (Instr.vmv 1 2 { noCtrl with edge := .er }).wf = false ∧
    (Instr.vmerge 1 2 3 false { m := 0, g := 0 } .none .er).wf = false ∧
    (Instr.vmerge 1 2 3 false { m := 0, g := 0 } .l .er).wf = true := by decide
theorem test_wf_convert : (Instr.vcvt 1 2 .b32 .i8 .dyn true false noGov).wf = false ∧
    (Instr.vcvt 1 2 .b32 .ui8 .dyn false true noGov).wf = false ∧
    (Instr.vcvt 1 2 .b32 .b16 .dyn true false noGov).wf = false ∧
    (Instr.vcvt 1 2 .b32 .b8p3 .dyn true true noGov).wf = true := by decide
theorem test_wf_row_step : (Instr.mrow 0 0 0 .b16 .bf16 0 1 false false).wf = false ∧
    (Instr.mrow 0 0 0 .i8 .i8 24 1 false false).wf = false ∧ (Instr.mrow 0 0 0 .i8 .i8 0 0 false false).wf = false ∧
    (Instr.mrow 0 0 0 .i8 .i8 0 25 false false).wf = false ∧ (Instr.mrow 0 0 0 .i8 .ui8 0 1 false true).wf = false ∧
    (Instr.mrow 0 0 0 .b64 .b64 0 1 false false).wf = false ∧ (Instr.mrow 0 0 0 .i8 .ui8 23 24 false false).wf = true := by
  decide
theorem test_wf_row_step_from_accumulators :
    (Instr.mrowa 0 1 0 .b16 .b16 0 1 false false false .none 0).wf = false ∧
    (Instr.mrowa 0 1 0 .b32 .b32 0 1 false false false .lo 0).wf = false ∧
    (Instr.mrowa 0 1 0 .b16 .b16 0 1 false false false .lo 1).wf = false ∧
    (Instr.mrowa 0 1 0 .i8 .i8 0 1 false false true .none 0).wf = false ∧
    (Instr.mrowa 0 1 0 .i8 .i8 0 1 false false false .none 31).wf = true := by decide
theorem test_wf_clear_past_last_row : (Instr.aclr 63 1).wf = false ∧ (Instr.aclr 63 0).wf = true := by decide
theorem test_wf_engine_groups : (Instr.eissue 0 4 2 0).wf = false ∧ (Instr.eissue 0 8 3 0).wf = false ∧
    (Instr.ewait 1 0).wf = false ∧ (Instr.eissue 0 8 2 0).wf = true := by decide
theorem test_wf_queue_entry_length : (Instr.queueSend 0 1 0 [1, 2]).wf = false := by decide

/-! Words of every family, written out from R73, R74, R81, R82, R84 and R85. -/

def hd (l : BitVec 2) (major : BitVec 8) (d : BitVec 6) : BitVec 16 := l ++ major ++ d
def t1 (a b : BitVec 5) (f : BitVec 6) : BitVec 48 := 0#32 ++ (a ++ b ++ f)
def t2 (me : BitVec 1) (m g : BitVec 3) (nb edge : BitVec 2) (c a b : BitVec 5) (f : BitVec 6) : BitVec 48 :=
  0#16 ++ ((me ++ m ++ g ++ nb ++ edge ++ c) ++ (a ++ b ++ f))
def t3 (imm : BitVec 32) (a b : BitVec 5) (f : BitVec 6) : BitVec 48 := imm ++ (a ++ b ++ f)
def t3c (me : BitVec 1) (m g : BitVec 3) (off : BitVec 16) (a b : BitVec 5) (f : BitVec 6) : BitVec 48 :=
  (me ++ m ++ g ++ 0#9) ++ off ++ (a ++ b ++ f)
def tb (line : BitVec 11) (slot a b : BitVec 5) (f : BitVec 6) : BitVec 48 := 0#16 ++ (line ++ slot ++ (a ++ b ++ f))
def tj (line : BitVec 27) (slot : BitVec 5) : BitVec 48 := line ++ slot ++ 0#16

theorem test_decode_scalar : decode (hd 0 0x00 0) 0 = .ok .nop ∧
    decode (hd 1 0x02 31) (t1 30 29 0) = .ok (.sub 31 30 29) ∧
    decode (hd 1 0x06 1) (t1 2 0 63) = .ok (.sll 1 2 0 63) ∧
    decode (hd 1 0x08 1) (t1 2 3 0) = .ok (.sra 1 2 3 0) ∧
    decode (hd 1 0x09 4) (t1 5 6 1) = .ok (.slt 4 5 6 true) ∧
    decode 0x4305 0x31C1 = .ok (.div 5 6 7 true) ∧
    decode (hd 1 0x11 4) (t1 9 0 0) = .ok (.popc 4 9) ∧
    decode (hd 3 0x15 4) (t3 0x80000001 9 0 0) = .ok (.xori 4 9 0x80000001) := by decide +kernel

theorem test_decode_memory : decode (hd 3 0x20 4) (t3 0xFFFFFFF8 9 0 0b110) = .ok (.ld 4 9 0xFFFFFFF8 .w true) ∧
    decode (hd 3 0x21 4) (t3 8 9 0 0b1011) = .ok (.st 4 9 8 .d true) ∧
    decode (hd 3 0x22 4) (t3 255 0 0 0) = .ok (.ldslot 4 255) ∧
    decode (hd 1 0x23 4) (t1 9 7 0b11000) = .ok (.amo 4 9 7 .swap .d) ∧
    decode (hd 2 0x24 4) (t2 0 0 0 0 0 12 9 7 1) = .ok (.cas 4 9 7 12 .d) ∧
    decode (hd 3 0x22 4) (t3 256 0 0 0) = .error .field := by decide +kernel

theorem test_decode_control : decode (hd 2 0x30 0) (tb 0x7FF 5 9 7 2) = .ok (.b 9 7 .lt { line := 0x7FF, slot := 5 }) ∧
    decode (hd 2 0x31 0) (tb 3 31 0 0 0) = .ok (.j { line := 3, slot := 31 }) ∧
    decode (hd 3 0x32 1) (tj 0x4000000 17) = .ok (.jal 1 { line := 0x4000000, slot := 17 }) ∧
    decode (hd 3 0x33 1) (t3 4 9 0 0) = .ok (.jalr 1 9 4) ∧
    decode (hd 2 0x34 0) (tb 1 2 9 0 7) = .ok (.loop 9 7 { line := 1, slot := 2 }) ∧
    decode (hd 2 0x35 4) (tb 1 2 9 0 0b0110) = .ok (.setvlb 4 9 .e32 .s2 { line := 1, slot := 2 }) ∧
    decode 0xCD80 0x0000005F0000 = .ok (.join 0b1111 5) ∧
    decode (hd 0 0x37 0) 0 = .ok .detach ∧ decode (hd 0 0x38 0) 0 = .ok .exit := by decide +kernel

theorem test_decode_system : decode (hd 3 0x40 4) (t3 0x7FF 0 0 0) = .ok (.crrd 4 0x7FF) ∧
    decode (hd 3 0x41 0) (t3 1 9 0 0) = .ok (.crwr 9 1) ∧ decode (hd 0 0x42 0) 0 = .ok .eret ∧
    decode (hd 3 0x43 0) (t3 7 0 0 0) = .ok (.trap 7) ∧
    decode (hd 3 0x43 0) (t3 0x80000021 0 0 0) = .ok .livePackages ∧
    decode (hd 3 0x43 0) (t3 0x80000022 0 0 0) = .ok .clearDeferredIntegrity ∧
    decode (hd 1 0x46 0) (t1 9 7 0) = .ok (.iinv 9 7) ∧ decode (hd 0 0x47 0) 0 = .ok .ifence ∧
    decode (hd 1 0x48 0) (t1 0 0 5) = .ok (.fence .all) ∧ decode (hd 1 0x49 0) (t1 9 0 0) = .ok (.sleep 9) ∧
    decode 0x5280 0x2800 = .ok (.wswitch 5) ∧ decode 0x52C0 0x3000 = .ok (.wrel 6) ∧
    decode (hd 1 0x4C 4) (t1 9 0 0b1100) = .ok (.setvl 4 9 .e8 .s8) ∧
    decode (hd 3 0x40 4) (t3 0x1000 0 0 0) = .error .field ∧ decode (hd 1 0x48 0) (t1 0 0 6) = .error .func := by
  decide +kernel

theorem test_decode_sync : decode (hd 1 0x50 0) (t1 0 0 0b10010) = .ok (.bar .full .pod) ∧
    decode (hd 0 0x51 0) 0 = .ok .safe ∧ decode (hd 1 0x52 0) (t1 9 7 0) = .ok (.qsend 9 7) ∧
    decode (hd 1 0x53 4) (t1 9 0 0) = .ok (.qrecv 4 9) ∧ decode (hd 1 0x54 4) (t1 9 0 0) = .ok (.qstat 4 9) ∧
    decode (hd 3 0x55 4) (t3 (0x7FFFFFF#27 ++ 3#5) 9 15 32) = .ok (.hnew 4 9 15 32 { line := 0x7FFFFFF, slot := 3 }) ∧
    decode (hd 1 0x56 4) (t1 9 0 0) = .ok (.hcopy 4 9) ∧ decode (hd 1 0x57 0) (t1 9 0 0) = .ok (.hdrop 9) ∧
    decode (hd 1 0x58 4) (t1 9 0 0) = .ok (.hbase 4 9) ∧ decode (hd 1 0x59 0) (t1 9 0 0) = .ok (.snap 9) ∧
    decode (hd 3 0x55 4) (t3 3 9 15 33) = .error .func := by decide +kernel

theorem test_decode_vector :
    decode (hd 2 0x60 4) (t2 1 5 2 1 2 0 9 7 1) =
      .ok (.vadd 4 9 7 true { gov := { me := true, m := 5, g := 2 }, nb := .l, edge := .ew }) ∧
    decode (hd 2 0x63 4) (t2 0 0 0 0 0 0 9 7 2) = .ok (.vmulh 4 9 7 false true noCtrl) ∧
    decode 0x9A48 0x2180 = .ok (.vxor 8 4 6 false noCtrl) ∧ decode 0x9A88 0x2141 = .ok (.vsll 8 4 5 true noCtrl) ∧
    decode (hd 2 0x70 4) (t2 0 0 0 0 0 0 9 7 0b0100) = .ok (.vfadd 4 9 7 false .rz noCtrl) ∧
    decode (hd 2 0x74 4) (t2 0 0 0 2 1 31 9 7 0b111000) =
      .ok (.vfma 4 9 7 31 false .rd .ns { noCtrl with nb := .r, edge := .er }) ∧
    decode (hd 2 0x7B 4) (t2 0 0 0 0 0 0 9 0 2) = .ok (.vflog2 4 9 .rne noCtrl) ∧
    decode 0xA002 0x2003 = .ok (.vcmp 2 4 0 true .ne noCtrl) ∧
    decode (hd 2 0x81 7) (t2 0 0 0 0 0 0 9 7 12) = .ok (.vfcmp 7 9 7 false .un noCtrl) ∧
    decode (hd 2 0x82 4) (t2 0 0 0 0 0 0b11001 9 0b01101 0b000101) =
      .ok (.vcvt 4 9 .b32 .b8p4 .rne true true noGov) ∧
    decode (hd 2 0x83 4) (t2 1 3 0 0 0 0 9 7 0) = .ok (.vmerge 4 9 7 false { m := 3, g := 0 } .none .ez) ∧
    decode (hd 2 0x86 4) (t2 0 0 0 0 0 0 9 0 0b011000) = .ok (.vred 4 9 (.fsum true) noGov) ∧
    decode (hd 2 0x83 4) (t2 0 0 0 0 0 0 9 7 0) = .error .field ∧
    decode (hd 2 0x60 4) (t2 0 0 0 3 0 0 9 7 0) = .error .field ∧
    decode (hd 2 0x85 4) (t2 0 0 0 1 0 0 9 0 0) = .error .field := by decide +kernel

theorem test_decode_mask : decode (hd 1 0xA1 7) (t1 5 6 0) = .ok (.mandn 7 5 6) ∧
    decode (hd 1 0xA6 4) (t1 7 0 0) = .ok (.mfirst 4 7) ∧
    decode (hd 2 0xA7 4) (t2 0 0 1 0 0 0 9 7 1) = .ok (.vslide 4 9 7 true { noGov with g := 1 }) ∧
    decode (hd 2 0xA9 4) (t2 1 2 0 0 0 12 9 0 0) = .ok (.vcompress 4 9 12 { m := 2, g := 0 }) ∧
    decode (hd 2 0xAB 4) (t2 1 2 0 0 0 0 0 0 0) = .ok (.viota 4 { m := 2, g := 0 }) ∧
    decode (hd 1 0xA0 8) (t1 5 6 0) = .error .field := by decide +kernel

/-- R86: SNAP lists no function field, so check 3 gives 0x03; VCOMPRESS gives 0x04 by R385 (log 62). -/
theorem test_decode_unused_function : decode (hd 1 0x59 0) (t1 5 0 0) = .ok (.snap 5) ∧
    decode (hd 1 0x59 0) (t1 5 0 1) = .error .func ∧
    decode (hd 2 0xA9 4) (t2 1 2 0 0 0 12 9 0 1) = .error .field ∧ Bad.func.sub = 0x03 ∧ Bad.field.sub = 0x04 := by
  decide +kernel

theorem test_decode_vector_memory :
    decode (hd 3 0xB0 4) (t3c 1 3 2 0xFFF0 9 0 0) = .ok (.vld 4 9 0xFFF0 { me := true, m := 3, g := 2 }) ∧
    decode (hd 3 0xB6 4) (t3c 0 0 0 16 9 7 0) = .ok (.vstx 4 9 7 16 noGov) ∧
    decode (hd 3 0xB7 4) (t3c 0 0 0 16 9 0 1) = .ok (.vstr 4 9 16 true noGov) ∧
    decode (hd 3 0xB8 4) (t3c 0 0 0 16 9 7 7) = .ok (.vamo 4 9 7 16 .maxu noGov) := by decide +kernel

theorem test_decode_matrix :
    decode (hd 3 0xC0 0) (t3 0b00011_00000_0101_0101 4 2 0) = .ok (.mrow 0 4 2 .b8p4 .b8p4 0 3 false false) ∧
    decode (hd 3 0xC1 63) (t3 (0#5 ++ 0b101#3 ++ 7#6 ++ 24#5 ++ 23#5 ++ 0xD#4 ++ 0xD#4) 0 31 0b101) =
      .ok (.mrowa 63 7 31 .b32 .b32 23 24 true false true .q1 0) ∧
    decode (hd 1 0xC2 0) (t1 0 0 15) = .ok (.aclr 0 15) ∧ decode (hd 1 0xC3 4) (t1 0 0 7) = .ok (.ard 4 7) ∧
    decode (hd 1 0xC4 3) (t1 8 0 1) = .ok (.awr 3 8 true) ∧
    decode (hd 3 0xC5 9) (t3 1 4 0 0b100) = .ok (.ascale 9 1 (.row 4) true) ∧
    decode (hd 3 0xC6 2) (t3 64 9 0 0) = .ok (.tld 2 9 64) ∧ decode (hd 1 0xC7 2) (t1 16 0 1) = .ok (.tfill 2 16 true) ∧
    decode (hd 1 0xC2 49) (t1 0 0 15) = .error .field := by decide +kernel

theorem test_decode_engine : decode (hd 2 0xD0 3) (t2 1 1 0 0 0 0 8 2 0) = .ok (.eissue 3 8 2 1) ∧
    decode (hd 2 0xD1 0) (t2 1 7 0 0 0 0 30 0 0) = .ok (.ewait 30 7) ∧
    decode (hd 3 0xD2 4) (t3 8 9 7 0) = .ok (.pfadd 4 9 7 8) ∧
    decode (hd 2 0xD0 3) (t2 0 0 0 0 0 0 8 2 0) = .error .field := by decide +kernel

/-! The spec's worked examples. -/

/-- The value that an instruction leaves in x 4, from x 5 = a and x 6 = b. -/
def x4 (i : Instr) (a b : Word) : Option Word :=
  match exec i (withCore (setX (setX (running 0) 5 a 0) 6 b 0)) with
  | .next t => some (t.x 4).val
  | _ => none

/-- R355, R356: −3 times 5. -/
theorem test_mul : x4 (.mul 4 5 6) (-3) 5 = some (-15) ∧ x4 (.mulh 4 5 6) (-3) 5 = some (-1) := by decide +kernel
/-- R336, R363: −7 by 2. -/
theorem test_div_rem : x4 (.div 4 5 6 false) (-7) 2 = some (-3) ∧ x4 (.rem 4 5 6 false) (-7) 2 = some (-1) ∧
    x4 (.div 4 5 6 false) 7 0 = some (-1) ∧ x4 (.rem 4 5 6 true) 7 0 = some 7 := by decide +kernel
/-- R363: the most negative value by −1. -/
theorem test_div_overflow : x4 (.div 4 5 6 false) 0x8000000000000000 (-1) = some 0x8000000000000000 ∧
    x4 (.rem 4 5 6 false) 0x8000000000000000 (-1) = some 0 := by decide +kernel
/-- R367: a shift by register takes its low six bits. -/
theorem test_shift_low_bits : x4 (.sll 4 5 6 0) 1 65 = some 2 ∧ x4 (.sra 4 5 0 63) 0x8000000000000000 9 = some (-1) := by
  decide +kernel
/-- R333: 64 for zero. -/
theorem test_clz : x4 (.clz 4 5) 0 0 = some 64 ∧ x4 (.clz 4 5) 1 0 = some 63 ∧ x4 (.clz 4 5) (-1) 0 = some 0 := by decide +kernel

/-- Element 0 of v4 after an instruction on v5 and v6, whose elements 0 hold a and b. -/
def v4 (ew : Ew) (i : Instr) (a b : Nat) : Option Nat :=
  let c := ((vcore 1 ew .s1).putElems 5 (Ew.bytes ew) [(0, a)]).putElems 6 (Ew.bytes ew) [(0, b)]
  match exec i (withCore c) with
  | .next t => some (t.core.elem 4 (Ew.bytes ew) 0)
  | _ => none

/-- R404: 0x90 at e8, shifted right arithmetically by the low three bits of 0x0B. -/
theorem test_vsra : v4 .e8 (.vsra 4 5 6 false noCtrl) 0x90 0x0B = some 0xF2 := by decide +kernel
/-- R400, R401: 0xFFFF times 2 at e16. -/
theorem test_vmul : v4 .e16 (.vmul 4 5 6 false noCtrl) 0xFFFF 2 = some 0xFFFE ∧
    v4 .e16 (.vmulh 4 5 6 false false noCtrl) 0xFFFF 2 = some 0xFFFF ∧
    v4 .e16 (.vmulh 4 5 6 false true noCtrl) 0xFFFF 2 = some 1 := by decide +kernel

/-- R2, R346, R370: a store of four bytes, and the signed load of the upper two. -/
theorem test_store_then_load :
    (match exec (.st 8 5 8 .w false) sb with
     | .next t => match exec (.ld 9 5 10 .h true) ({ t with core := setX t.core 5 pad 0x100 } : State) with
       | .next u => some ((u.x 9).val, t.mem)
       | _ => none
     | _ => none) = some (0, [(0x100000000008, 3)]) := by decide +kernel

/-- FIPS 197, appendix C.3: AES-256 with the key 00 01 … 1f (log 30). -/
theorem test_aes256 : aesEncrypt (roundKeys (List.range 32)) ((List.range 16).map (17 * ·)) =
    [0x8E, 0xA2, 0xB7, 0xCA, 0x51, 0x67, 0x45, 0xBF, 0xEA, 0xFC, 0x49, 0x90, 0x4B, 0x49, 0x60, 0x89] := by decide +kernel

/-- FIPS 180-4's example "abc" (log 13). -/
theorem test_sha256 : ((sha256 [0x61, 0x62, 0x63]).take 4).map BitVec.toNat = [0xba, 0x78, 0x16, 0xbf] := by decide +kernel

/-- R73, R86: a NOP, fetched and run, leaves the PC at the next head. -/
theorem test_step_nop : (match step (State.reset.withFetchWord 16 0) with
    | .next t => some t.core.pc
    | _ => none) = some 66 := by decide +kernel

/-! Launches. -/

def stage0 : StageInfo :=
  { image := 0, fused := false, pinned := false, least := 1, most := 4, started := 1, retired := false }

/-- An image whose code lies in slot 3 at 0x40000, with a data slot 1. -/
def image0 : Image :=
  { entry := 0x40002, codeSlot := 3, codeLen := 64,
    slots := [(1, slotTo 0x20000 0x10000), (3, { slotTo 0x40000 0x10000 with mov := false })] }

def queueOf (sender receiver : Option Nat) : Queue :=
  { sender := sender, receiver := receiver, depth := 2, entries := [], holding := [], closed := false, unmapped := false,
    wake := 0, signal := false }

/-- A queue entry of 64 bytes. -/
def entry (v : Byte) : QueueEntry := { data := List.replicate 64 v, clock := 3 }

/-- A launch of one stage on this package: queue 0 from the stage to itself, 1 from the host, 2 to the host. -/
def l0 : Launch :=
  { id := 1, tag := 7, world := 0, prio := 0, t1 := 200000, t2 := 2000000, comp := 0x1000, pkgs := [0], admitted := [0],
    uses := 0, loads := [], stages := [stage0], images := [image0],
    queues := [queueOf (some 0) (some 0), queueOf none (some 0), queueOf (some 0) none], weight := 1, deficit := 0,
    state := .running, colour := false, busy := false, last := 0, everywhere := 0, harvests := [], sent := [],
    received := [], migration := none, copied := [0], elsewhere := [], blocked := false, halted := false, grow := { num := 1, den := 2 } }

def f0 : FlightId := { launch := 1, stage := 0, index := 0 }

/-- The first hart of that flight. -/
def hart4 : HartId := { flight := f0, k := 0 }

/-- Core n as hart of flight f0. -/
def inFlight (n : Nat) : Core := { running n with flight := some f0, slots := image0.slots }

/-- The launch with its one flight on quad 0, core 0 in focus. -/
def launched : State :=
  { State.reset with core := inFlight 0, launches := [l0], nextLaunch := 2, admittedOnce := true,
                     boot := { State.reset.boot with stage := .running },
                     flights := [{ id := f0, place := .quad 0, order := 0, due := false }] }

/-- That launch with l in place of l0. -/
def withLaunch (l : Launch) : State := { launched with launches := [l] }

/-! States that meet the hypotheses of the statements, in the statements' order. -/

/-- A line entry at 0x40 of two heads, NOP and ADD x5, x6, x7. -/
def twoHeads : LineEntry :=
  { base := 0x40, halves := (List.range 32).map fun k =>
      if k = 0 then 0x1000 else if k = 2 then hd 1 0x01 5 else if k = 31 then (t1 6 7 0).setWidth 16 else 0 }

def inLine (slot : Word) (e : LineEntry) : State :=
  { s0 with core := { running 0 with pc := 0x40 + 2 * slot, line := some e } }

theorem witness_StepRunsDecoded_in_line :
    let s := inLine 2 twoHeads
    let u := s.ready
    s.mayIssue ∧ u.core.curLine = some twoHeads ∧ twoHeads.base = lineBase u.core.curPc ∧
      decode (lineHead twoHeads.halves (slotOf u.core.curPc)) (lineTail twoHeads.halves (slotOf u.core.curPc)) =
        .ok (.add 5 6 7) ∧ u.held (.add 5 6 7) = false := by unfold State.mayIssue; decide +kernel

def after (r : Res) : State := match r with
  | .next t => t
  | _ => s0

/-- A line of a VADD of v4 with itself. -/
def vaddLine : LineEntry := { base := 0x40, halves := oneHeadLine (hd 2 0x60 6) (t2 0 0 0 0 0 0 4 4 0) }

/-- A VLD of two elements to v4 whose pieces the V stream has not performed; the head behind it is that VADD. -/
def loading : State :=
  let s : State := { sb with core := { based with ctl := { (vcore 2 .e64 .s1).ctl with vl := 2 } },
                             pick := { sb.pick with deferV := true, late := true }, mem := sb.mem.setMany (place 0x20000 [7]) }
  let t := after (exec (.vld 4 6 0 noGov) s)
  { t with core := { t.core with pc := 0x42, line := some vaddLine } }

theorem witness_StepRunsDecoded_late :
    let u := loading.ready
    loading.mayIssue ∧ u.core.curLine = some vaddLine ∧ vaddLine.base = lineBase u.core.curPc ∧
      decode (lineHead vaddLine.halves (slotOf u.core.curPc)) (lineTail vaddLine.halves (slotOf u.core.curPc)) =
        .ok (.vadd 6 4 4 false noCtrl) ∧ u.held (.vadd 6 4 4 false noCtrl) = true ∧ u.goesLate (.vadd 6 4 4 false noCtrl) = true := by
  unfold State.mayIssue; decide +kernel

/-- The VADD waits in the vector queue, and runs there once the load has filled v4 (R33, R380). -/
theorem test_late_waits : (after (step loading)).core.vq.length = loading.core.vq.length + 1 ∧
    (after (step loading)).core.curPc = 0x82 ∧ (after (step loading)).core.elem 6 8 0 = 0 := by decide +kernel
theorem test_late_runs :
    let s := { after (step loading) with agenda := List.replicate (loading.core.vq.length + 1) (.performV 0) }
    let t := (List.range (loading.core.vq.length + 1)).foldl (fun s _ => after (step s)) s
    t.core.vq = [] ∧ t.core.elem 6 8 0 = 14 ∧ t.core.elem 4 8 0 = 7 := by decide +kernel

theorem witness_StepRunsDecoded_entering :
    let s := State.reset.withFetchWord 16 0
    let u := s.ready
    let r := u.entryLine
    s.mayIssue ∧ u.core.curLine = none ∧ lineFault r.2.halves u.core.curPc = none ∧
      decode (lineHead r.2.halves (slotOf u.core.curPc)) (lineTail r.2.halves (slotOf u.core.curPc)) = .ok .nop ∧
      (r.1.setLine r.2).held .nop = false := by unfold State.mayIssue; decide +kernel

/-- The reel has not fetched the line of the next entry, and it has. -/
theorem witness_LineEntries :
    (s0.core.fw = false ∧ s0.attached s0.core.num = true ∧ s0.reelLine (s0.quadAt s0.core.quadNum) s0.core.heads = none) ∧
    (let s : State := { s0 with quads := [{ Quad.reset 0 with reel := { (Quad.reset 0).reel with lines := [(0, twoHeads)] } }] }
     s.core.fw = false ∧ s.attached s.core.num = true ∧
       s.reelLine (s.quadAt s.core.quadNum) s.core.heads = some twoHeads) ∧
    (let s := withCore { running 0 with fw := true }
     ¬ (s.core.fw = false ∧ s.attached s.core.num = true)) := by decide +kernel

theorem witness_StepOrder :
    (let s : State := { s0 with agenda := [.event .thermalStop] }
     s.agenda = .event .thermalStop :: [] ∧ s.boot.stage ≠ .stopped) ∧
    (let s : State := { s0 with accepted := [.unknownCommand 0] }
     s.agenda = [] ∧ s.boot.stage ≠ .stopped ∧ s.accepted = .unknownCommand 0 :: []) ∧
    (let s : State := { (withLaunch { l0 with queues := [{ queueOf (some 0) (some 0) with closed := true }] }) with
        core := { inFlight 0 with run := .waiting (.queue 0 4) } }
     s.agenda = [] ∧ s.boot.stage ≠ .stopped ∧ s.accepted = [] ∧ s.core.fw = false ∧ s.core.lates = [] ∧ s.core.run = .waiting (.queue 0 4) ∧
       s.tick.wakeRow (.queue 0 4) = some (.qrecvWake 0)) ∧
    (let s : State := { s0 with boot := { s0.boot with stage := .stopped } }
     s.boot.stage = .stopped ∧ s.agenda = [] ∧
       ({ s with agenda := [.focus 1] } : State).agenda = .focus 1 :: [] ∧
       ({ s with agenda := [.event (.packageReset [])] } : State).agenda = .event (.packageReset []) :: []) := by
  decide +kernel

theorem witness_IllegalAndLineTraps :
    (let e : LineEntry := { base := 0x40, halves := oneHeadLine 0x0001 0 }
     let s := inLine 1 e
     let u := s.ready
     s.mayIssue ∧ u.core.curLine = some e ∧ e.base = lineBase u.core.curPc ∧
       decode (lineHead e.halves (slotOf u.core.curPc)) (lineTail e.halves (slotOf u.core.curPc)) = .error .field) ∧
    (s0.mayIssue ∧ s0.ready.core.curLine = none ∧ lineFault s0.ready.entryLine.2.halves s0.ready.core.curPc = some 0x02) := by
  unfold State.mayIssue; decide +kernel

theorem witness_RoundTrip : (Instr.hnew 31 30 15 32 { line := 0x4000000, slot := 31 }).wf = true ∧
    encode (.hnew 31 30 15 32 { line := 0x4000000, slot := 31 }) =
      some (hd 3 0x55 31, t3 (0x4000000#27 ++ 31#5) 30 15 32) := by decide +kernel

theorem witness_DecodeWellFormed : decode (hd 1 0x01 5) (t1 6 7 0) = .ok (.add 5 6 7) := by decide +kernel

theorem witness_SequentialFlow :
    (let s := inLine 1 twoHeads
     s.core.curLine = some twoHeads ∧ s.core.loop.active = false ∧ lineBase s.core.curPc = twoHeads.base ∧
       s.core.curPc.getLsbD 0 = false ∧ lineHeads twoHeads.halves ≤ 31 ∧
       slotOf s.core.curPc < lineHeads twoHeads.halves) ∧
    (let s := inLine 2 twoHeads
     s.core.curLine = some twoHeads ∧ s.core.loop.active = false ∧ lineBase s.core.curPc = twoHeads.base ∧
       s.core.curPc.getLsbD 0 = false ∧ lineHeads twoHeads.halves ≤ slotOf s.core.curPc) := by decide +kernel

/-- Core 0 in iteration j of 2 of a loop of two stages over the head at 0x42, trip count 1, or 2 with `trip`. -/
def looping (j n trip : Word) : Core :=
  { running 0 with loop := { active := true, start := 0x42, stop := (running 0).seqPc, j := j, n := n, trip := trip, stages := 1 } }

theorem witness_TakenTransfer : s0.core.loop.active = false ∧
    ((withCore (looping 1 2 1)).core.loop.active = true ∧ (0x42 : Word) ≠ (looping 1 2 1).loop.stop) := by decide +kernel

theorem witness_LoopStart :
    (let s := withCore (looping 1 2 1); s.core.loop.active = true) ∧
    (let t : Target := { line := 0, slot := 1 }
     (s0.core.target t).toNat ≤ s0.core.seqPc.toNat) ∧
    (let t : Target := { line := 1, slot := 1 }
     s0.core.loop.active = false ∧ s0.core.seqPc.toNat < (s0.core.target t).toNat ∧
       (s0.x 5).val.toNat + (7 : BitVec 3).toNat < 2 ^ 64 ∧ (s0.x 5).val = 0 ∧
       (let s := withCore (setX (running 0) 5 (-1) 0)
        2 ^ 64 ≤ (s.x 5).val.toNat + (1 : BitVec 3).toNat ∧
        (s.x 5).val.toNat + (0 : BitVec 3).toNat < 2 ^ 64 ∧ (s.x 5).val ≠ 0 ∧ s.core.loop.active = false ∧
        s.core.seqPc.toNat < (s.core.target t).toNat)) := by decide +kernel

theorem witness_LoopIteration :
    (let s := withCore (looping 2 2 1)
     s.core.loop.active = true ∧ s.core.seqPc = s.core.loop.stop ∧ 0 < s.core.loop.trip.toNat ∧
       s.core.loop.j = s.core.loop.n) ∧
    (let s := withCore (looping 1 2 1)
     s.core.loop.active = true ∧ s.core.seqPc = s.core.loop.stop ∧ 0 < s.core.loop.trip.toNat ∧
       s.core.loop.j ≠ s.core.loop.n) := by decide +kernel

/-- Quad 0 whose pilot has issued n heads, the transfers among them in `path`. -/
def led (n : Nat) (path : List (Nat × Word)) : State :=
  { s0 with quads := [{ Quad.reset 0 with reel := { (Quad.reset 0).reel with led := n, path := path } }] }

theorem witness_ReelFollowsPilot :
    (let s := led 5 [(1, 0x82)]
     s.core.fw = false ∧ s.core.loop.active = false ∧ s.attached s.core.num = true ∧
       s.core.heads + 1 ≤ (s.quadAt s.core.quadNum).reel.led) ∧
    (let s := led 0 []
     s.core.fw = false ∧ s.core.loop.active = false ∧ s.attached s.core.num = true ∧
       (s.quadAt s.core.quadNum).reel.led < s.core.heads + 1 ∧
       s.core.num % 4 = pilotOf (s.quadAt s.core.quadNum).attached ∧ 1 / 4 = s.core.num / 4 ∧ 1 ≠ s.core.num ∧
       s.attached 1 = true ∧ s.forkOf 1 = none) := by decide +kernel

theorem witness_DetachCutsLoose : s0.core.fw = false ∧ s0.core.loop.active = false ∧ s0.attached s0.core.num = true ∧
    (let s : State := { s0 with quads := [{ Quad.reset 0 with attached := 0xE }] }
     s.attached s.core.num = false) := by decide +kernel
theorem witness_Shifts : (65 % 64 = if (0 : XName) = 0 then (1 : BitVec 6).toNat
      else (((withCore (setX (running 0) 6 65 0)).x 0).val.extractLsb' 0 6).toNat) ∧
    (1 = if (6 : XName) = 0 then (0 : BitVec 6).toNat
      else (((withCore (setX (running 0) 6 65 0)).x 6).val.extractLsb' 0 6).toNat) := by decide +kernel

theorem witness_DivRem :
    let s := withCore (setX (setX (running 0) 5 0x8000000000000000 0) 6 (-1) 0)
    (s.x 5).val = BitVec.intMin 64 ∧ (s.x 6).val = -1 := by decide +kernel

theorem witness_LoadSlot :
    ((sb.core.slot 1).v = true ∧ (sb.core.slot 1).world = sb.core.ctl.world) ∧ (sb.core.slot 255).v = false ∧
    (let s := withCore { based with slots := [(1, { slotTo 0x20000 0x10000 with world := 5 })] }
     (s.core.slot 1).v = true ∧ (s.core.slot 1).world ≠ s.core.ctl.world) := by decide +kernel

/-- Firmware of core 0 with x8 untagged, at a. -/
def fwAt (a : Nat) : State :=
  withCore { running 0 with fw := true, fwX := (running 0).fwX.set 8 { val := BitVec.ofNat 64 a, tag := 0 } }

/-- Eight bytes at the end of the scratchpad, one at the start of slot 1, and eight of firmware over the end of an extent. -/
theorem witness_LoadResult :
    (sb.promptS ∧ sb.landsLocal (sb.x 5) (0x1FFFF8 : BitVec 32).toInt (Size.bytes .d) .load 0x1000001FFFF8 ∧
      sb.owned (0x1000001FFFF8 / 128) = false ∧ sb.owned ((0x1000001FFFF8 + 7) / 128) = false) ∧
    (sb.promptS ∧ sb.landsLocal (sb.x 6) (0 : BitVec 32).toInt (Size.bytes .b) .load 0x20000 ∧
      sb.owned (0x20000 / 128) = false ∧ sb.core.fw = false) ∧
    (let s := fwAt 0x2FFFC
     s.promptS ∧ s.landsLocal (s.x 8) (0 : BitVec 32).toInt (Size.bytes .d) .load 0x2FFFC ∧
       s.owned (0x2FFFC / 128) = false ∧ s.owned ((0x2FFFC + 7) / 128) = false ∧ 128 < 0x2FFFC % 128 + 8 ∧
       ∀ k < 8, s.savedByte? (0x2FFFC + k) = none) := by
  unfold State.promptS State.landsLocal; decide +kernel

theorem witness_StoreResult :
    (sb.MemOk ∧ sb.promptS ∧ sb.landsLocal (sb.x 6) (0xFFFC : BitVec 32).toInt (Size.bytes .w) .store 0x2FFFC ∧
      sb.storeAllowed 0x2FFFC ∧ sb.storeAllowed (0x2FFFC + 3)) ∧
    (let s := fwAt 0x2FFFC
     s.MemOk ∧ s.promptS ∧ s.landsLocal (s.x 8) (0 : BitVec 32).toInt (Size.bytes .d) .store 0x2FFFC ∧
       s.storeAllowed 0x2FFFC ∧ s.storeAllowed (0x2FFFC + 7) ∧ 0x2FFFC / 65536 ≠ (0x2FFFC + 7) / 65536) := by
  unfold State.MemOk State.promptS State.landsLocal State.storeAllowed; decide +kernel

/-- The trace bits of both extents that an unaligned store of firmware touches (R160), and what its load finds in the next line. -/
theorem test_store_traces_both :
    let t := after (exec (.st 8 8 0 .d false) (fwAt 0x2FFFC))
    (t.extentAt 2).trace = 0xF ∧ (t.extentAt 3).trace = 0xF ∧ t.mem.read 0x2FFFC 8 = 0x2FFFC := by decide +kernel

/-- Firmware, with x8 at the entry of extent 5 of die 0, and x9 an entry under key 1, whose material is loaded. -/
theorem witness_ExtentTableAccess :
    let p := Config.dieUser + 40
    let x := ((Core.reset 0).fwX.set 8 { val := BitVec.ofNat 64 p, tag := 0 }).set 9 { val := 0x40000000000, tag := 0 }
    let s : State := { withCore { running 0 with fw := true, fwX := x } with keyMat := [(1, 7)] }
    s.promptS ∧ s.MemOk ∧ s.core.fw = true ∧ (s.x 8).tagged = false ∧ (s.x 8).val.toNat = p ∧ p % 8 = 0 ∧ region p = .table ∧
      s.owned (p / 128) = false ∧ (∀ k < 8, s.savedByte? (p + k) = none) ∧ entryAt p = 5 ∧
      s.material (s.extentAt (entryAt p)).key = s.material ((s.x 0).val.extractLsb' 42 6) ∧
      s.material (s.extentAt (entryAt p)).key ≠ s.material ((s.x 9).val.extractLsb' 42 6) := by
  unfold State.promptS State.MemOk; decide +kernel

theorem witness_AtomicResult :
    (sb.MemOk ∧ sb.promptS ∧ sb.landsLocal (sb.x 6) 0 (ASize.bytes .d) .atomic 0x20000 ∧ sb.storeAllowed 0x20000 ∧
      sb.storeAllowed (0x20000 + 7)) ∧
    (let s := fwAt 0x2FFFC
     s.MemOk ∧ s.promptS ∧ s.landsLocal (s.x 8) (0 : BitVec 32).toInt 8 .remoteAtomic 0x2FFFC ∧ s.storeAllowed 0x2FFFC ∧
       s.storeAllowed (0x2FFFC + 7)) := by
  unfold State.MemOk State.promptS State.landsLocal State.storeAllowed; decide +kernel

/-- sb with every link up, so that each plane is live. -/
def linked : State := { sb with links := (List.range 16).map Link.reset }
/-- The same with plane 3 alone. -/
def plane3 : State :=
  { sb with links := (List.range 16).map fun k => if k = 3 then Link.reset 3 else Link.down k }

theorem witness_RemoteIssue_store :
    plane3.doneS = true ∧
      plane3.landsRemote (plane3.x 7) (0xFFF8 : BitVec 32).toInt (Size.bytes .d) .store 2 0x1FFF8 ∧
      plane3.anyPlane 2 = some 3 ∧ plane3.core.mayCount 2 3 = true := by
  refine ⟨by decide, by unfold State.landsRemote; decide +kernel, ?_, by decide +kernel⟩
  have h : ∀ k < 16, plane3.remap 2 k = some 3 := by decide +kernel
  exact h _ (Nat.mod_lt _ (by decide))

/-- An ordered-flag store behind 65,535 accesses on its plane, and one to the sixteenth destination. -/
theorem witness_RemoteIssue_flag :
    let s : State := { plane3 with core := { plane3.core with
      planes := [{ pkg := 2, counts := (List.replicate 16 0).set 3 65535, numbers := List.replicate 16 0 }],
      remote := [{ serial := 0, pkg := 2, plane := 3, stamp := 0, maps := [] }] } }
    (s.doneS = true ∧ s.landsRemote (s.x 7) (0xFFF8 : BitVec 32).toInt (Size.bytes .d) .store 2 0x1FFF8 ∧
      s.core.destinations.contains 2 = true ∧ s.core.mayCount 2 3 = false) ∧
    plane3.core.destinations.contains 2 = false ∧ plane3.core.destinations.length < 16 := by
  unfold State.landsRemote; decide +kernel

theorem witness_RemoteIssue_pfadd :
    linked.doneS = true ∧
      linked.landsRemote (linked.x 7) (8 : BitVec 32).toInt 8 .remoteAtomic 2 0x10008 ∧
      linked.remap 2 (hashPlane (podAddr 2 0x10008)) = some (hashPlane (podAddr 2 0x10008)) ∧ linked.core.remote = [] ∧
      linked.core.mayCount 2 (hashPlane (podAddr 2 0x10008)) = true := by
  unfold State.landsRemote; decide +kernel

/-- Two elements of eight bytes each, at the start of the region that x7 names. -/
def farVector : State :=
  { linked with core := { based with ctl := { (vcore 2 .e64 .s1).ctl with vl := 2 } } }

theorem witness_VectorRemote :
    farVector.core.StoresOk ∧ farVector.core.ecc = [] ∧ farVector.core.vq = [] ∧ farVector.core.govAligned noGov = true ∧
      aligned (4 : VName).toNat farVector.core.spanOf = true ∧ farVector.anyPlane 2 ≠ none ∧ farVector.active noGov = [0, 1] ∧
      farVector.core.activeAll noGov = [0, 1] ∧
      (∀ k ∈ farVector.core.activeAll noGov, farVector.landsRemote (farVector.x 7) ((0 : BitVec 16).toInt + (k * farVector.core.eb : Nat))
        farVector.core.eb .remoteLoad 2 (0x10000 + 8 * k)) ∧
      (∀ k ∈ farVector.active noGov, farVector.landsRemote (farVector.x 7) ((0 : BitVec 16).toInt + (k * farVector.core.eb : Nat))
        farVector.core.eb .remoteStore 2 (0x10000 + 8 * k)) ∧
      farVector.core.destinations.length < 16 ∧ ∀ k : Nat, (farVector.core.planeCounts 2).getD k 0 < 65000 := by
  refine ⟨by unfold Core.StoresOk; decide +kernel, by decide, by decide, by decide +kernel, by decide +kernel,
    ?_, by decide +kernel, by decide +kernel, by unfold State.landsRemote; decide +kernel,
    by unfold State.landsRemote; decide +kernel, by decide +kernel, fun k => ?_⟩
  · have h : ∀ k < 16, farVector.remap 2 k ≠ none := by decide +kernel
    exact h _ (Nat.mod_lt _ (by decide))
  have h : farVector.core.planeCounts 2 = List.replicate 16 0 := by decide +kernel
  rw [h]
  simp only [List.getD_eq_getElem?_getD, List.getElem?_replicate]
  split <;> simp

theorem witness_BranchesAndJumps :
    let s := withCore (setX (running 0) 5 (-1) 0)
    ((s.x 5).val.toInt < (s.x 0).val.toInt) ∧ ¬ ((s.x 5).val.toNat < (s.x 0).val.toNat) := by decide +kernel

/-- The quad of core 0 with an attached set. -/
def quad0 (attached : BitVec 4) (s : State) : State :=
  { s with quads := [{ Quad.reset 0 with attached := attached }] }

theorem witness_JoinWaitsForParticipants :
    (let s := quad0 1 s0
     s.calm ∧ (s.quadAt s.core.quadNum).joins = [] ∧ s.core.loop.active = false ∧ s.core.run = .running ∧
       (∀ i : Nat, i < 4 → i ≠ s.core.num % 4 → ((1 : BitVec 4) ||| (s.quadAt s.core.quadNum).attached).getLsbD i = false) ∧
       s.joinIssues = true ∧
       ∃ i : Nat, i < 4 ∧ ((8 : BitVec 4) ||| (s.quadAt s.core.quadNum).attached).getLsbD i = true ∧
         4 * s.core.quadNum + i ∉ s.joiners ∧
         (s.coreAt (4 * s.core.quadNum + i)).run ≠ .exited ∧ (s.coreAt (4 * s.core.quadNum + i)).run ≠ .parked) ∧
    (s0.calm ∧ (s0.quadAt s0.core.quadNum).joins = [] ∧ s0.core.loop.active = false ∧ s0.core.run = .running ∧
      s0.attached s0.core.num = true ∧ ∃ n ∈ (s0.quadAt s0.core.quadNum).attachedCores, n ≠ s0.core.num ∧
        (s0.coreAt n).run ≠ .running) := by
  unfold State.calm
  refine ⟨⟨by decide +kernel, by decide +kernel, by decide, by decide, by decide +kernel, by decide +kernel, 3, by decide +kernel⟩,
    ⟨by decide +kernel, by decide +kernel, by decide, by decide, by decide +kernel, 3, by decide +kernel⟩⟩

theorem witness_JoinTimeout :
    let s : State := { withCore { running 3 with run := .waiting (.join 255) } with
      quads := [{ Quad.reset 0 with
                  joins := [{ pc := 0x42, arrived := [(3, 255)], members := 0xF, limit := some 0, started := 0, late := 0 }] }] }
    s.calm ∧ s.handled ∧ s.core.num < Config.cores ∧ s.core.run = .waiting (.join 255) ∧
      (s.quadAt s.core.quadNum).joins = [{ pc := s.core.pc, arrived := [(s.core.num % 4, 255)], members := 0xF,
                                           limit := some 0, started := 0, late := 0 }] ∧
      0 + 0 ≤ s.cycle (4 * s.core.quadNum) := by
  unfold State.calm State.handled; decide +kernel

theorem witness_ExitRetires : s0.calm ∧ s0.core.cmds = [] ∧ s0.integPassed := by
  unfold State.calm State.integPassed; decide +kernel

theorem witness_TrapEntry : s0.calm ∧ s0.handled ∧ toFirmware 0x0F = false := by
  unfold State.calm State.handled; decide +kernel

theorem witness_EretResumes : s0.calm := by unfold State.calm; decide +kernel

theorem witness_TrapAndServices : (0x7FFFFFFF : BitVec 32).getLsbD 31 = false ∧ s0.calm ∧ s0.handled ∧
    (0x80000000 : BitVec 32).getLsbD 31 = true := by
  unfold State.calm State.handled; decide +kernel

theorem witness_TrapCompletes : s0.calm ∧ s0.handled ∧ (0x7FFFFFFF : BitVec 32).getLsbD 31 = false ∧
    (0x80000021 : BitVec 32).getLsbD 31 = true := by unfold State.calm State.handled; decide +kernel

/-- With nothing outstanding, and with an engine command. -/
theorem witness_FirmwareTrapParks :
    (s0.calm ∧ (0x0B : BitVec 8) ≠ 0x10 ∧ (0x0B : BitVec 8) ≠ 0x0D ∧ toFirmware 0x0B = true ∧ (0x0B : BitVec 8) ≠ 0x0C ∧
      s0.core.cmds = [] ∧ s0.core.sq = [] ∧ s0.core.waits = []) ∧
    (let s := withCore { running 0 with ctl := Ctl.reset, cmds := [Command.ofBytes []] }
     s.calm ∧ s.core.ctl.intrap = false ∧ s.core.ctl.thandler = 0 ∧ (0x0F : BitVec 8) ≠ 0x10 ∧ (0x0F : BitVec 8) ≠ 0x0D ∧
       (0x0F : BitVec 8) ≠ 0x0C ∧ s.core.cmds ≠ []) := by
  unfold State.calm; decide +kernel

theorem witness_DoubleTrapParks :
    let s := withCore { running 0 with ctl := { (running 0).ctl with intrap := true } }
    let k := withCore { s.core with cmds := [Command.ofBytes []] }
    (s.calm ∧ s.core.ctl.intrap = true ∧ toFirmware 0x01 = false ∧ s.core.cmds = [] ∧ s.core.sq = [] ∧ s.core.waits = []) ∧
      k.calm ∧ k.core.ctl.intrap = true ∧ k.core.cmds ≠ [] := by unfold State.calm; decide +kernel

theorem witness_ControlRegisterRead : s0.core.vq = [] ∧ userNumber 0x044 = true ∧ s0.core.fw = false ∧
    userNumber 0x070 = false ∧ 0x800 ≤ (0x800 : BitVec 12).toNat := by decide +kernel

/-- Firmware with x5 naming world 3 and bank 2 in bits [17:16], or world 0 and bank 0. -/
def firmware (v : Word) : State := withCore { running 0 with fw := true, fwX := (running 0).fwX.set 5 { val := v, tag := 0 } }

theorem witness_ControlRegisterFields : launched.launchOf launched.core = some l0 ∧
    !(launched.quadAt launched.core.quadNum).attached.getLsbD (launched.core.num % 4) = false ∧
    (let s := quad0 0xE s0
     !(s.quadAt s.core.quadNum).attached.getLsbD (s.core.num % 4) = true) := by decide +kernel

/-- Every number of a register that a user hart may write, and firmware's. -/
theorem witness_ControlRegisterWrite : s0.core.ctl.fx.length = 6 ∧ (firmware 0).core.ctl.fx.length = 6 ∧ (firmware 0).core.fw = true ∧
    userNumber 0x000 = true ∧ userNumber 0x001 = true ∧ userNumber 0x012 = true ∧ userNumber 0x013 = true ∧
    userNumber 0x014 = true ∧ userNumber 0x030 = true ∧ userNumber 0x041 = true ∧ userNumber 0x043 = true ∧
    userNumber 0x044 = true ∧ userNumber 0x061 = true ∧ userNumber 0x020 = true ∧ userNumber 0x008 = true ∧
    userNumber 0x00D = true ∧ userNumber 0x040 = true ∧ userNumber 0x042 = true ∧ userNumber 0x051 = true ∧
    userNumber 0x052 = true := by decide +kernel

theorem witness_CacheMaintenance :
    ((sb.x 0).val.toNat = 0) ∧
    ((sb.x 8).val.toNat ≠ 0 ∧ sb.check (sb.x 6) 0 (sb.x 8).val.toNat 1 .maintain = .ok { pkg := none, addr := 0x20000 } ∧
      sb.doneS = true) ∧
    ((sb.x 8).val.toNat ≠ 0 ∧ sb.check (sb.x 7) 0 (sb.x 8).val.toNat 1 .maintain =
      .error { cause := 0x05, sub := 0x04, val := 0x2000000010000 }) := by decide +kernel

/-- A store of core 0 to the line at 0x20000 has its earlier bytes kept. -/
theorem witness_CodeSequence :
    let s : State := { sb with code := [{ base := 0x20000, bytes := [], core := some 0, back := false }] }
    (s.x 8).val.toNat ≠ 0 ∧ s.doneS = true ∧
      s.check (s.x 6) 0 (s.x 8).val.toNat 1 .maintain = .ok { pkg := none, addr := 0x20000 } ∧
      inLines 0x20000 (s.x 8).val.toNat 0x20000 = true ∧ s.oneL1 s.core.num 0 = true := by decide +kernel

theorem witness_InstructionFence : s0.core.loop.active = false := by decide

theorem witness_FencesRaiseClocks : s0.calm ∧ s0.core.sq = [] ∧ s0.core.cmds = [] ∧ s0.revoking = [] ∧
    s0.core.switching = false ∧ s0.core.remote = [] ∧ s0.core.waits = [] ∧ s0.integPassed := by
  unfold State.calm State.integPassed; decide +kernel

/-- A COPY of 256 bytes from 0x20000 to 0x28000 through slot 1 (R193); as accepted, with serial 5 and nothing done. -/
def copyBits : BitVec 512 := BitVec.ofNat 512 (0x1 + 0x1 * 2 ^ 8 + 0x1 * 2 ^ 16 + 256 * 2 ^ 32 + 0x8000 * 2 ^ 64)
def command (bits : BitVec 512) (src dst : Nat) : Command :=
  { serial := 5, bits := bits, stage := false, src := src, dst := dst, dstPkg := none, due := 10, pts := 0, pc := 0x42,
    stamp := 0, order := 0, done := [], read := [], got := [], checked := 0, bad := none }
def copyCommand : Command := command copyBits 0x20000 0x28000

theorem witness_FencesWait :
    (let s := withCore { running 0 with cmds := [copyCommand], switching := true }
     s.calm ∧ s.core.sq = [] ∧ s.integPassed ∧ s.core.cmds ≠ [] ∧ s.core.switching = true) ∧
    ({ s0 with revoking := [1] } : State).revoking ≠ [] ∧
    (withCore { running 0 with remote := [{ serial := 0, pkg := 2, plane := 3, stamp := 0, maps := [] }] }).core.remote ≠ [] := by
  unfold State.calm State.integPassed; decide +kernel

theorem witness_DeferredIntegrity :
    let s : State := { withCore { running 0 with ctl := { (running 0).ctl with integ := 1 } } with l720 := [0] }
    s.calm ∧ s.handled ∧ s.deferred = true ∧ s.core.ctl.integ ≠ 0 ∧ s.core.tested = false ∧ s.core.cmds = [] := by
  unfold State.calm State.handled; decide +kernel

theorem witness_WorldInstructionsAreFirmwares : s0.core.fw = false := by decide

theorem witness_WorldSwitch :
    (let s := firmware 0x20003
     s.core.fw = true ∧ s.core.sq = [] ∧ s.core.vq = [] ∧ s.core.cmds = [] ∧ s.core.loop.active = false ∧
       s.core.ctl.bound 2 = false ∧ ((s.x 5).val.extractLsb' 0 10 : BitVec 10) ≠ s.core.ctl.world ∧
       ((s.x 5).val.extractLsb' 16 2 : BitVec 2) = 2) ∧
    (let s := firmware 0
     (s.core.ctl.bound 0 = true → s.core.ctl.boundWorld 0 = 0) ∧ s.core.fw = true ∧ s.core.sq = [] ∧ s.core.vq = [] ∧ s.core.cmds = [] ∧
       s.core.loop.active = false ∧ ((s.x 5).val.extractLsb' 0 10 : BitVec 10) = s.core.ctl.world) := by decide +kernel

theorem witness_WorldRelease :
    let s := firmware 0x30000
    s.core.fw = true ∧ s.core.vq = [] ∧ s.core.cmds = [] ∧ s.core.vec.wf = true ∧
      ((s.x 5).val.extractLsb' 16 2).toNat ≠ s.core.ctl.bank.toNat := by decide +kernel

theorem witness_KeyRevocation :
    (∃ c ∈ (after (step loading)).cores, c.lates ≠ []) ∧ (∀ c ∈ sb.cores, c.lates = []) ∧
    (sb.x 6).tagged = true ∧ (sb.x 6).slot ≠ 0 ∧ (sb.core.slot (sb.x 6).slot).v = true ∧
      (sb.core.slot (sb.x 6).slot).rem = false ∧ (sb.core.slot (sb.x 6).slot).key = 1 := by decide +kernel

theorem witness_KeyRevocationCompletes :
    let s : State := { s0 with revoking := [63], extents := [{ num := 2, world := 0, key := 63, trace := 0, sealed := false, pin := false }] }
    s.MemOk ∧ (63 : BitVec 6) ∈ s.revoking ∧ (∀ c ∈ s.cores, c.sq = [] ∧ c.vq = [] ∧ c.fq = [] ∧ c.cmds = []) ∧
      s.saves = [] ∧ s.extentsOf 63 = [2] := by unfold State.MemOk; decide +kernel

theorem witness_SafePoint : s0.core.fw = false ∧ s0.core.loop.active = false ∧ s0.mustStop s0.core = false ∧
    (let s : State := { launched with
        preempts := [{ launch := 1, flights := [f0], t0 := 0, rung := 1, saved := [] }] }
     s.core.fw = false ∧ s.core.loop.active = false ∧ s.mustStop s.core = true) := by decide +kernel

theorem witness_Sleep : s0.calm ∧ (s0.x 5).val.toNat ≤ s0.time.toNat ∧
    (let s := withCore (setX (running 0) 5 1 0)
     s.calm ∧ s.time.toNat < (s.x 5).val.toNat) ∧
    (let s : State := { s0 with others := [{ running 1023 with run := .waiting (.sleep 0) }] }
     1023 < Config.cores ∧ (s.coreAt 1023).run = .waiting (.sleep 0) ∧ (0 : Word).toNat ≤ s.time.toNat ∧
       (s.coreAt 1023).loop.active = false ∧ (s.coreAt 1023).fw = false) := by
  unfold State.calm; decide +kernel

/-- The launch of four harts, all on quad 0. -/
def four : State := { launched with others := [inFlight 1, inFlight 2, inFlight 3] }

theorem witness_BarrierArrival :
    four.calm ∧ four.core.sq = [] ∧ four.integPassed ∧
      (∀ sc ∈ [Scope.quad, Scope.pod], (four.barrierAt four.core sc (four.instOf sc)).opened = none ∧
        (∃ h ∈ four.participants four.core sc, h ≠ four.core.hartId) ∧ four.core.lastGen sc = none) ∧
      four.core.remote = [] ∧ four.core.waits = [] := by unfold State.calm State.integPassed; decide +kernel

theorem witness_CoreBarrierReconciles :
    let b := four.barrierAt four.core .core (four.instOf .core)
    four.calm ∧ four.core.sq = [] ∧ four.integPassed ∧ b.opened = none ∧
      b.clocks.length = b.gen := by unfold State.calm State.integPassed; decide +kernel

/-- Core 0 waits for generation 0 of its quad's barrier, of which n have completed. -/
def atBarrier (n : Nat) (again : Bool) : State :=
  { launched with
    core := { inFlight 0 with run := .waiting (.barrier .quad 0 0 again) },
    barriers := [{ launch := 1, stage := 0, scope := .quad, inst := 0, gen := n, opened := none,
                   clocks := List.replicate n 9 }] }

theorem witness_BarrierRelease :
    (∀ s ∈ [atBarrier 0 false, atBarrier 1 false, atBarrier 1 true], s.agenda = [] ∧ s.accepted = [] ∧ s.boot.stage ≠ .stopped ∧ s.core.fw = false ∧
      s.core.lates = []) ∧
    (atBarrier 0 false).core.run = .waiting (.barrier .quad 0 0 false) ∧
    ((atBarrier 0 false).barrierAt (atBarrier 0 false).core .quad 0).gen = 0 ∧
    ((atBarrier 1 false).barrierAt (atBarrier 1 false).core .quad 0).gen = 1 ∧
    (atBarrier 1 true).core.run = .waiting (.barrier .quad 0 0 true) ∧
    ((atBarrier 1 true).barrierAt (atBarrier 1 true).core .quad 0).gen = 1 := by decide +kernel

theorem witness_QueueSendPuts :
    launched.calm ∧ launched.integPassed ∧
      (launched.queueOf launched.core 0 = some (queueOf (some 0) (some 0)) ∧
        (queueOf (some 0) (some 0)).sender = some launched.core.stageNum ∧
        launched.core.poisonIn .vector (launched.core.regCell 31) 64 = none ∧ launched.core.window.length < 8) ∧
      launched.queueOf launched.core 3 = none ∧
      (launched.queueOf launched.core 1 = some (queueOf none (some 0)) ∧
        (queueOf none (some 0)).sender ≠ some launched.core.stageNum) := by unfold State.calm State.integPassed; decide +kernel

/-- The launch with entries in queue 0, and queue 0 closed or not. -/
def queued (l : List QueueEntry) (closed : Bool) : Queue :=
  { queueOf (some 0) (some 0) with entries := l, closed := closed }
def withQueue (k : Queue) : State := withLaunch { l0 with queues := [k] }

theorem witness_QueueReceiveTakes :
    (∀ k ∈ [queued [entry 1] false, queued [] true, queued [] false],
      let s := withQueue k
      s.calm ∧ s.core.vec.wf = true ∧ (∀ e ∈ k.entries, e.data.length = 64) ∧
        s.queueOf s.core (s.x 5).val.toNat = some k ∧ k.receiver = some s.core.stageNum) ∧
    ((withQueue (queued [entry 1] false)).reserved 0 ≤ ([] : List QueueEntry).length) ∧
    (let l : LateOp := { instr := .qrecv 4 5, pc := 0x42, x := (inFlight 1).x, ctl := (inFlight 1).ctl }
     let c : Core := { inFlight 1 with vq := [{ stamp := 0, sluice := false, op := .late l }] }
     let s : State := { withQueue (queued [entry 1] false) with others := [c] }
     s.calm ∧ s.queueOf s.core (s.x 5).val.toNat = some (queued [entry 1] false) ∧ ([] : List QueueEntry).length < s.reserved 0) ∧
    (let s : State := { withQueue (queued [entry 1] false) with
        core := { inFlight 0 with run := .waiting (.queue 0 31) } }
     s.reserved 0 ≤ ([] : List QueueEntry).length ∧ s.calm ∧ s.core.vec.wf = true ∧ s.queueOf s.core 0 = some (queued [entry 1] false) ∧ s.core.run = .waiting (.queue 0 31) ∧
       s.core.num < Config.cores) := by unfold State.calm; decide +kernel

theorem witness_QueueStatus :
    let k := { queued [entry 1, entry 2] true with depth := 65536 }
    (withQueue k).queueOf (withQueue k).core ((withQueue k).x 5).val.toNat = some k ∧ k.depth < 2 ^ 17 ∧
      k.entries.length < 2 ^ 17 := by decide +kernel

/-- Core 0's window holds one entry for queue 0. -/
def offering (k : Queue) (hold : Nat) : State :=
  { withQueue k with
    core := { inFlight 0 with window := [{ queue := 0, data := List.replicate 64 1, clock := 3, stamp := 0, hold := hold }] },
    time := 100 }

theorem witness_QueuePorts :
    (∀ p ∈ [(queued [entry 1] false, 0), (queued [entry 1, entry 2] false, 0), (queued [entry 1] false, 200)],
      let s := offering p.1 p.2
      (0 < Config.cores) ∧ s.launchOf (s.coreAt 0) = some { l0 with queues := [p.1] } ∧
        ({ l0 with queues := [p.1] } : Launch).queues[0]? = some p.1 ∧
        (s.coreAt 0).window = [{ queue := 0, data := List.replicate 64 1, clock := 3, stamp := 0, hold := p.2 }] ∧
        (s.coreAt 0).sq = [] ∧ (s.coreAt 0).vq = [] ∧ (s.coreAt 0).remote = [] ∧ (s.coreAt 0).waits = [] ∧ p.1.holding = []) ∧
    (queued [entry 1] false).entries.length < (queued [entry 1] false).depth ∧
    (queued [entry 1, entry 2] false).depth ≤ (queued [entry 1, entry 2] false).entries.length ∧
    200 ≤ (offering (queued [entry 1] false) 200).cycle 0 := by decide +kernel

theorem witness_HoldingAreaPlaces :
    let k := { queued [entry 1] false with holding := [{ flight := f0, core := 3, stamp := 0, after := [], entry := entry 2 }] }
    (withQueue k).launchAt 1 = some { l0 with queues := [k] } ∧ ({ l0 with queues := [k] } : Launch).queues[0]? = some k ∧
      k.holding = { flight := f0, core := 3, stamp := 0, after := [], entry := entry 2 } :: [] ∧ k.entries.length < k.depth ∧
      (withQueue k).heldReleased { flight := f0, core := 3, stamp := 0, after := [], entry := entry 2 } = true := by decide +kernel

theorem witness_QueueMapping :
    let s : State := { withLaunch l0 with flights := [{ id := f0, place := .parked, order := 0, due := false }] }
    s.launchAt 1 = some l0 ∧ l0.queues[1]? = some (queueOf none (some 0)) ∧
      s.receiversParked 1 (queueOf none (some 0)) = true := by decide +kernel

/-- The launch with x5 based in slot 1 and x6 in slot 0. -/
def handles : State := { launched with core := setX (setX (inFlight 0) 5 0x20008 0x101) 6 pad 0x100,
                                       mem := (State.reset.mem).setMany (place 0x40000 ((oneHeadLine 0x0E00 0).flatMap fun h => toBytes 2 h.toNat)) }

theorem witness_HandleCreate :
    let t : TargetJ := { line := 0x1000 - 1, slot := 1 }
    (handles.goodTarget 0 (handles.core.targetJ { line := 0, slot := 0 }) = false) ∧
    (handles.goodTarget 0 (handles.core.targetJ t) = true ∧
      handles.check (handles.x 6) 0 1 1 .base = .ok { pkg := none, addr := 0x100000000000 } ∧ (handles.x 6).slot = 0) ∧
    (handles.check (handles.x 5) 0 1 1 .base = .ok { pkg := none, addr := 0x20008 } ∧ (handles.x 5).slot ≠ 0 ∧
      handles.nextId ≤ 1048575 ∧ (32 : BitVec 6).toNat ≤ 32) ∧
    (let s : State := { handles with nextId := 1048576 }
     s.goodTarget 0 (s.core.targetJ t) = true ∧
     s.check (s.x 5) 0 1 1 .base = .ok { pkg := none, addr := 0x20008 } ∧ 1048575 < s.nextId ∧ s.freed = []) := by
  decide +kernel

/-- x5 holds a handle of record 1 of this package with exponents e and b. -/
def handleOf (e b : Nat) : Core := setX (inFlight 0) 5 (mkHandle 0 1 e b) 0

theorem witness_HandleSplit :
    ((0 : XName) = 0 ∧ (5 : XName) = 5 ∧ (31 : XName) ≠ 0 ∧ (31 : XName) ≠ 5) ∧
    (let h := ((withCore (setX (running 0) 5 1 0)).x 5).val; h ≠ 0 ∧ hWf h = false) ∧
    (let s : State := { withCore (handleOf 32 32) with nextId := 1048576 }
     hWf (s.x 5).val = true ∧ hE (s.x 5).val = hB (s.x 5).val ∧ 1048575 < s.nextId ∧ s.freed = []) ∧
    ((withCore (running 0)).x 5).val = 0 ∧
    (let h := ((withCore (handleOf 0 32)).x 5).val; hWf h = true ∧ hE h < hB h) ∧
    (let h := ((withCore (handleOf 32 32)).x 5).val; hWf h = true ∧ hE h = hB h) ∧
    (withCore (handleOf 32 32)).nextId ≤ 1048575 := by decide +kernel

def tensor (back : Nat) (dead : Bool) : BallastRecord :=
  { home := 0, id := 1, launch := 1, b := 2, back := back, kind := .tensor 1 8 0 0 0x40002 dead }

theorem witness_HandleDropAndBase :
    (∀ dead ∈ [false, true],
      let s : State := { launched with core := handleOf 0 2, records := [tensor 0 dead] }
      let h := (s.x 5).val
      hWf h = true ∧ s.recordAt (handleKey h) = some (tensor 0 dead) ∧
        (tensor 0 dead).kind = .tensor 1 8 0 0 0x40002 dead ∧ (s.core.slot 1).v = true ∧
        (s.core.slot 1).world = s.core.ctl.world ∧ (s.core.slot 1).rem = false) ∧
    (let s := withCore (handleOf 0 2)
     let h := (s.x 5).val
     hWf h = true ∧ hHome h = s.pkg ∧ s.forwards = [] ∧ s.recordAt (handleKey h) = none) ∧
    (let h := ((withCore (setX (running 0) 5 1 0)).x 5).val; hWf h = false ∧ h ≠ 0) ∧
    hWf (s0.x 5).val = false := by decide +kernel

theorem witness_PostLeaves :
    let e : PostEntry := { handle := mkHandle 0 1 0 2, stamp := 0, old := none }
    let s : State := { launched with core := { inFlight 0 with posts := [e] } }
    0 < Config.cores ∧ (s.coreAt 0).posts = e :: [] ∧ (s.coreAt 0).mayPost e = true ∧ s.ownHandle e.handle = true := by
  decide +kernel

theorem witness_PostLeaves_abroad :
    let e : PostEntry := { handle := mkHandle 2 1 0 2, stamp := 0, old := none }
    let s : State := { launched with core := { inFlight 0 with posts := [e] }, links := plane3.links }
    (s.coreAt 0).posts = e :: [] ∧ (s.coreAt 0).mayPost e = true ∧ s.ownHandle e.handle = false ∧
      s.anyPlane (hHome e.handle) = some 3 ∧ e.old = none := by
  refine ⟨by decide +kernel, by decide +kernel, by decide +kernel, ?_, rfl⟩
  have h : ∀ k < 16, ({ launched with links := plane3.links } : State).remap 2 k = some 3 := by decide +kernel
  exact h _ (Nat.mod_lt _ (by decide))

/-- A packet of the launch from core 4 of package 2 with this body, arrived first of its path. -/
def packet (body : PacketBody) (counts : Option (List (Nat × Nat))) : Packet :=
  { serial := 9, src := 2, dst := 0, core := 4, hart := hart4, plane := 3, counted := 3, vc := body.vc, colour := false, launch := 7,
    interval := none, counts := counts, merged := [], engine := none, parts := [], body := body }
def arrivedWith (p : Packet) : State := { launched with ingress := [p] }

theorem arrived_of_launch {s : State} {k : Nat} {p : Packet} {l : Launch} (h : s.ingress[k]? = some p)
    (a : s.atHead k p = true) (b : s.launchByTag p.launch = some l) (c : p.colour = l.colour) : s.arrived k p :=
  ⟨h, a, fun m e => by rw [b] at e; cases e; exact c⟩

theorem witness_PostPerformed_tensor :
    ∀ back ∈ [0, 2, 3],
      let p := { packet (.post (mkHandle 0 1 1 2)) none with src := 0 }
      let s : State := { arrivedWith p with records := [tensor back false] }
      s.arrived 0 p ∧ p.src = s.pkg ∧ s.forwards.find? (fun f => (f.home, f.id) == handleKey (mkHandle 0 1 1 2)) = none ∧
        s.recordAt (handleKey (mkHandle 0 1 1 2)) = some (tensor back false) ∧
        (tensor back false).kind = .tensor 1 8 0 0 0x40002 false ∧
        (back = 0 → back + hWeight (mkHandle 0 1 1 2) < 2 ^ (tensor back false).b) ∧
        (back = 2 → back + hWeight (mkHandle 0 1 1 2) = 2 ^ (tensor back false).b) ∧
        (back = 3 → 2 ^ (tensor back false).b < back + hWeight (mkHandle 0 1 1 2)) := by
  intro back h
  simp only [List.mem_cons, List.not_mem_nil, or_false] at h
  rcases h with rfl | rfl | rfl <;>
    exact ⟨arrived_of_launch (l := l0) (by decide +kernel) (by decide +kernel) (by decide +kernel) (by decide +kernel),
      by decide +kernel⟩

/-- The post of another package, of a record that a migration moved to package 5. -/
theorem witness_PostPerformed_forwarded :
    let p := packet (.post (mkHandle 0 1 1 2)) none
    let f : Forward := { launch := 1, home := 0, id := 1, target := 5 }
    let s : State := { arrivedWith p with forwards := [f] }
    s.arrived 0 p ∧ p.src ≠ s.pkg ∧ s.forwards.find? (fun f => (f.home, f.id) == handleKey (mkHandle 0 1 1 2)) = some f :=
  ⟨arrived_of_launch (l := l0) (by decide +kernel) (by decide +kernel) (by decide +kernel) (by decide +kernel),
    by decide +kernel⟩

theorem witness_PostPerformed_indirect :
    let p := { packet (.post (mkHandle 0 1 1 2)) none with src := 0 }
    let r : BallastRecord := { home := 0, id := 1, launch := 1, b := 2, back := 2, kind := .indirect (mkHandle 0 5 2 2) }
    let s : State := { arrivedWith p with records := [r] }
    s.arrived 0 p ∧ p.src = s.pkg ∧ s.forwards.find? (fun f => (f.home, f.id) == handleKey (mkHandle 0 1 1 2)) = none ∧
      s.recordAt (handleKey (mkHandle 0 1 1 2)) = some r ∧
      hHome (mkHandle 0 1 1 2) = s.pkg ∧ s.ownHandle (mkHandle 0 5 2 2) = true ∧ s.ownHandle (mkHandle 2 5 2 2) = false ∧ r.back + hWeight (mkHandle 0 1 1 2) = 2 ^ r.b :=
  ⟨arrived_of_launch (l := l0) (by decide +kernel) (by decide +kernel) (by decide +kernel) (by decide +kernel),
    by decide +kernel⟩

theorem witness_RemoteStorePerformed :
    ∀ c ∈ [none, some (List.replicate 16 (1, 0)), some (List.replicate 16 (1, 1))],
      let p := packet (.store [(0x2007E, 1), (0x2007F, 2)]) c
      let s := arrivedWith p
      s.arrived 0 p ∧ (∀ w ∈ ([(0x2007E, 1), (0x2007F, 2)] : List (Nat × Byte)), w.1 / 128 = 0x2007E / 128) ∧
        region 0x2007E = .dram ∧ s.revokedLine (0x2007E / 128) = false ∧ s.writable (0x2007E / 128) = true ∧
        s.flagReady p = (c != some (List.replicate 16 (1, 1))) := by
  intro c h
  simp only [List.mem_cons, List.not_mem_nil, or_false] at h
  rcases h with rfl | rfl | rfl <;>
    exact ⟨arrived_of_launch (l := l0) (by decide +kernel) (by decide +kernel) (by decide +kernel) (by decide +kernel),
      by decide +kernel⟩

theorem witness_PfaddPerformed :
    let p := packet (.pfadd 4 0x1FF8 (-1) false) none
    let s := arrivedWith p
    s.MemOk ∧ s.arrived 0 p ∧ region 0x1FF8 = .dram ∧ region (0x1FF8 + 7) = .dram ∧
      s.revokedLine (0x1FF8 / 128) = false ∧ s.writable (0x1FF8 / 128) = true :=
  ⟨by unfold State.MemOk; decide +kernel,
   arrived_of_launch (l := l0) (by decide +kernel) (by decide +kernel) (by decide +kernel) (by decide +kernel),
   by decide +kernel⟩

theorem witness_GroupRequestPerformed :
    ∀ es ∈ [[], [(8, 0x2007F)], [(8, 0x20080)]],
      let p := packet (.vldr 4 0 ((0, 0x20000) :: es) []) none
      let s := arrivedWith p
      s.arrived 0 p ∧ region (128 * (0x20000 / 128)) = .dram ∧ region (128 * (0x20000 / 128) + 127) = .dram ∧
        s.owned (0x20000 / 128) = false ∧ s.revokedLine (0x20000 / 128) = false ∧
        (∃ e ∈ (0, 0x20000) :: es, e.2 / 128 = 0x20000 / 128) ∧ (∀ e ∈ (0, 0x20000) :: es, 0x20000 / 128 ≤ e.2 / 128) ∧
        ((((0, 0x20000) :: es).filter fun x => x.2 / 128 == 0x20000 / 128).length = ((0, 0x20000) :: es).length ↔
          es ≠ [(8, 0x20080)]) := by
  intro es h
  simp only [List.mem_cons, List.not_mem_nil, or_false] at h
  rcases h with rfl | rfl | rfl <;>
    exact ⟨arrived_of_launch (l := l0) (by decide +kernel) (by decide +kernel) (by decide +kernel) (by decide +kernel),
      by decide +kernel⟩

/-- Core 0, to which p replies, awaits w. -/
def awaiting (p : Packet) (w : Await) : State :=
  { arrivedWith p with core := { inFlight 0 with waits := [w] } }

theorem witness_RepliesArrive :
    (let p := { packet (.pfaddReply 4 5) none with core := 0 }
     let s := awaiting p { rtag := 4, pkg := 2, dest := .xreg false 31 }
     s.arrived 0 p ∧ s.combined = [] ∧ s.core.waits = [{ rtag := 4, pkg := 2, dest := .xreg false 31 }]) ∧
    (let p := { packet (.vldrReply 4 9 (List.replicate 64 1)) none with core := 0 }
     let s := awaiting p { rtag := 4, pkg := 2, dest := .group 4 0 [(0, 1536), (63, 1599)] }
     s.arrived 0 p ∧ s.core.waits = [{ rtag := 4, pkg := 2, dest := .group 4 0 [(0, 1536), (63, 1599)] }]) ∧
    (let p := { packet (.ack 65536) none with core := 0 }
     let s : State := { arrivedWith p with combined := [(0, 5, 3)] }
     s.arrived 0 p ∧ s.combined = [(0, 5, 3)] ∧ 0 % 65536 = 65536 % 65536) := by
  refine ⟨⟨arrived_of_launch (l := l0) ?_ ?_ ?_ ?_, ?_⟩, ⟨arrived_of_launch (l := l0) ?_ ?_ ?_ ?_, ?_⟩,
    ⟨arrived_of_launch (l := l0) ?_ ?_ ?_ ?_, ?_⟩⟩ <;> decide +kernel

/-- The reply to an add of core 0 that a switch combined with one of core 1. -/
def combinedReply : State :=
  { arrivedWith { packet (.pfaddReply 4 5) none with core := 0 } with
    combined := [(4, 6, 7)],
    core := { inFlight 0 with waits := [{ rtag := 4, pkg := 2, dest := .xreg false 31 }] },
    others := [{ inFlight 1 with waits := [{ rtag := 6, pkg := 2, dest := .xreg false 30 }] }] }

theorem witness_RepliesArrive_combined :
    combinedReply.arrived 0 { packet (.pfaddReply 4 5) none with core := 0 } ∧ combinedReply.combined = [(4, 6, 7)] ∧
      4 % 65536 ≠ 6 % 65536 ∧ (combinedReply.coreAt 0).waits = [{ rtag := 4, pkg := 2, dest := .xreg false 31 }] ∧
      (combinedReply.coreAt 1).waits = [{ rtag := 6, pkg := 2, dest := .xreg false 30 }] :=
  ⟨arrived_of_launch (l := l0) (by decide +kernel) (by decide +kernel) (by decide +kernel) (by decide +kernel),
    by decide +kernel⟩

theorem test_combined_reply :
    let t := after (exec (.pfaddReply 0) combinedReply)
    ((t.coreAt 0).readXOf false 31).val = 5 ∧ ((t.coreAt 1).readXOf false 30).val = 12 := by decide +kernel

theorem witness_PfaddCombined :
    let p := { packet (.pfadd 1 0x2008 5 false) none with src := 0, dst := 2 }
    let q := { packet (.pfadd 2 0x2008 6 true) none with src := 0, dst := 2, serial := 10 }
    let s : State := { launched with egress := [p, q] }
    s.egress = p :: q :: [] ∧ p.dst = q.dst ∧ p.plane = q.plane ∧ p.colour = q.colour ∧ p.launch = q.launch ∧
      p.src = s.pkg ∧ q.src = s.pkg ∧ s.answered 1 = false ∧ s.answered 2 = false := by decide +kernel

/-- The launch with its stage one flight short of its maximum; quad 255 is free. -/
def l1 : Launch := { l0 with stages := [{ stage0 with started := 3 }] }

theorem witness_FlightStarts :
    let s : State := { withLaunch { l0 with stages := [{ stage0 with started := 0 }] } with flights := [] }
    let l := { l0 with stages := [{ stage0 with started := 0 }] }
    s.MemOk ∧ s.launchAt f0.launch = some l ∧ l.stage? f0.stage = some { stage0 with started := 0 } ∧
      l.imageOf f0.stage = some image0 ∧ l.state = .running ∧ l.copiedAll = true ∧ l.still = false ∧ stage0.retired = false ∧
      f0.index = 0 ∧ f0.index < stage0.least ∧ s.savedMinimums = [] ∧ s.quadFree 255 = true ∧
      stage0.least ≤ ({ f0 with index := 3 } : FlightId).index := by
  unfold State.MemOk; decide +kernel

theorem witness_FinaliserStarts :
    let s : State := { withLaunch l1 with records := [tensor 4 true], finalisers := [(0, 1)] }
    s.finalisers = (0, 1) :: [] ∧ s.recordAt (0, 1) = some (tensor 4 true) ∧ (tensor 4 true).kind = .tensor 1 8 0 0 0x40002 true ∧
      s.launchAt (tensor 4 true).launch = some l1 ∧ l1.state = .running ∧ l1.still = false ∧ l1.stage? 0 = some { stage0 with started := 3 } ∧
      l1.imageOf 0 = some image0 ∧ s.freeIndex l1 0 4 = some 1 ∧ s.savedMinimums = [] ∧ s.quadFree 255 = true ∧ (1 : BitVec 8) ≠ 0 := by
  decide +kernel

/-- The launch with an entry in the queue from the host, for which its stage wants one more flight. -/
def lWants : Launch :=
  { l0 with stages := [{ stage0 with started := 2 }],
            queues := [queueOf (some 0) (some 0), { queueOf none (some 0) with entries := [entry 1] }] }

/-- Two flights of the stage; that on quad 0 waits with all harts at the empty queue 0. -/
def idling : State :=
  let c (n : Nat) : Core := { inFlight n with run := .waiting (.queue 0 4) }
  { withLaunch lWants with core := c 0, others := [c 1, c 2, c 3],
                           flights := [{ id := f0, place := .quad 0, order := 0, due := false },
                                       { id := { f0 with index := 1 }, place := .quad 1, order := 1, due := false }] }

theorem witness_FlightParksAndResumes_parks :
    idling.flightAt f0 = some { id := f0, place := .quad 0, order := 0, due := false } ∧ idling.launchAt 1 = some lWants ∧
      idling.wantingStages lWants = 0 :: [] ∧ lWants.stage? 0 = some { stage0 with started := 2 } ∧ stage0.pinned = false ∧ stage0.least < idling.runningOf 1 0 ∧
      idling.noOpenBarrier 1 0 = true ∧ idling.idle 0 = true ∧ idling.quiet 0 = true ∧
      ∀ k : Nat, k < 4 → (idling.coreAt (4 * 0 + k)).flight = some f0 := by decide +kernel

/-- A saved hart of flight f0. -/
def saveOf (n : Nat) : Save :=
  { flight := f0, core := { inFlight n with run := .waiting (.queue 0 4) }, pkg := 0, rung := 0, time := 0, owed := [],
    quad := Quad.reset 0, addr := 0, drift := 0, harvest := 0, feats := 0, fwtag := 0 }
/-- Firmware with x8 at offset k of that save, whose hart holds 7 in x5. -/
def readingSave (k : Nat) : State :=
  { fwAt (0x100000 + k) with saves := [{ saveOf 0 with core := setX (inFlight 0) 5 7 0, addr := 0x100000 }] }

theorem witness_SaveLoad :
    let s := readingSave 0x150
    s.promptS ∧ s.core.fw = true ∧ s.landsLocal (s.x 8) (0 : BitVec 32).toInt (Size.bytes .d) .load 0x100150 ∧
      s.owned (0x100150 / 128) = false ∧ s.owned ((0x100150 + 7) / 128) = false ∧
      s.saves = [{ saveOf 0 with core := setX (inFlight 0) 5 7 0, addr := 0x100000 }] ∧ 0x100000 ≤ 0x100150 ∧
      0x100150 + 8 ≤ 0x100000 + 262144 := by
  unfold State.promptS State.landsLocal; decide +kernel

/-- x5 stands at 0x0100 + 16 * 5, the PC at 0x0010. -/
theorem test_save_load : ((after (exec (.ld 9 8 0 .d false) (readingSave 0x150))).x 9).val = 7 ∧
    ((after (exec (.ld 9 8 0 .d false) (readingSave 0x10))).x 9).val = 0x42 := by decide +kernel

def away (place : Place) (due : Bool) : State :=
  { withQueue (queued [entry 1] false) with
    core := running 0, flights := [{ id := f0, place := place, order := 0, due := due }],
    saves := [saveOf 0, saveOf 1, saveOf 2, saveOf 3] }

theorem witness_FlightParksAndResumes_resumes :
    let s := away .parked false
    s.flightAt f0 = some { id := f0, place := .parked, order := 0, due := false } ∧ s.mayResume f0 = true ∧ s.quadFree 255 = true ∧
      s.standsStill 1 = false ∧ s.savedMinimums = [] ∧ s.savesOf f0 = [saveOf 0, saveOf 1, saveOf 2, saveOf 3] ∧ (∀ v ∈ s.savesOf f0, v.owed = []) ∧
      ((s.savesOf f0).map fun v => v.core.num % 4).Nodup := by decide +kernel

/-- A parked flight that may resume while a saved minimum flight waits for a quad. -/
theorem witness_FlightParksAndResumes_behind_minimum :
    let f : FlightId := { f0 with index := 3 }
    let a := away .saved true
    let s : State := { a with flights := { id := f, place := .parked, order := 1, due := false } :: a.flights,
                              saves := { saveOf 0 with flight := f } :: a.saves }
    s.flightAt f = some { id := f, place := .parked, order := 1, due := false } ∧ s.mayResume f = true ∧ s.standsStill 1 = false ∧
      s.quadFree 255 = true ∧ s.savedMinimums ≠ [] := by decide +kernel

theorem witness_FlightRestores :
    let s := away .saved true
    f0 ∈ s.savedMinimums ∧ s.quadFree 255 = true ∧ s.quadFree 256 = false ∧
      (∀ v ∈ s.savesOf f0, v.owed = []) ∧ ((s.savesOf f0).map fun v => v.core.num % 4).Nodup ∧
      f0 ∉ (away .saved false).savedMinimums := by decide +kernel

theorem witness_StagesAndLaunchesEnd :
    (let l := { l0 with queues := [queued [] true, queueOf (some 0) none] }
     let s : State := { withLaunch l with core := Core.reset 0, flights := [] }
     s.launchAt 1 = some l ∧ l.stage? 0 = some stage0 ∧ l.state = .running ∧ stage0.retired = false ∧
       s.stageDone l 0 stage0 = true) ∧
    (let l := { l0 with stages := [{ stage0 with retired := true }], queues := [queued [] true, queueOf (some 0) none] }
     let s : State := { withLaunch l with core := Core.reset 0, flights := [] }
     s.MemOk ∧ s.launchAt 1 = some l ∧ l.state = .running ∧ s.allRetired l = true ∧
       s.storesDone l = true ∧ s.port.room = false) := by unfold State.MemOk; decide +kernel

theorem witness_SchedulerRounds :
    s0.time.toNat < s0.nextRound.toNat ∧
    (let s : State := { s0 with time := 100000 }
     s.nextRound.toNat ≤ s.time.toNat ∧ s.launches = [] ∧ s.savedMinimums = [] ∧ s.unstarted false = []) := by decide +kernel

/-- A launch under number `id` with an entry in the queue from the host and 255 of 256 indices of its stage started. -/
def lMany (id prio started : Nat) (es : List QueueEntry) : Launch :=
  { l0 with id := id, tag := BitVec.ofNat 64 id, prio := prio, stages := [{ stage0 with most := 256, started := started }],
            queues := [{ queueOf none (some 0) with entries := es }] }

/-- Flight i of launch 1 on quad i, for the first n quads. -/
def onQuads (n : Nat) : List Flight :=
  (List.range n).map fun i => { id := { f0 with index := i }, place := .quad i, order := i, due := false }

/-- One launch, which wants a quad, on 255 quads. -/
def oneFree : State :=
  { withLaunch (lMany 1 2 255 [entry 1, entry 2]) with flights := onQuads 255, time := 100000 }

/-- A launch of higher priority wants a quad; the last flight of launch 1 is above its minimum. -/
def noneFree : State :=
  { launched with
    launches := [{ lMany 2 2 1 [entry 1, entry 2] with stages := [{ stage0 with most := 256, started := 1 }] },
                 { lMany 1 1 255 [] with stages := [{ stage0 with least := 254, most := 256, started := 255 }] }],
    flights := onQuads 255 ++ [{ id := { f0 with launch := 2 }, place := .quad 255, order := 255, due := false }],
    time := 100000 }

theorem witness_SchedulerRounds_free :
    let s := oneFree
    let l := lMany 1 2 255 [entry 1, entry 2]
    s.nextRound.toNat ≤ s.time.toNat ∧ s.savedMinimums = [] ∧ s.unstarted false = [] ∧ s.launches = [l] ∧ l.state = .running ∧
      l.prio < 4 ∧ l.weight ≠ 0 ∧ s.wants l = [.stage 1 0] ∧ (∀ f ∈ s.flights, f.id.launch = l.id) ∧ s.grants = [] ∧
      s.freeList = [255] := by decide +kernel

theorem witness_SchedulerRounds_taken :
    let s := noneFree
    s.nextRound.toNat ≤ s.time.toNat ∧ s.savedMinimums = [] ∧ s.unstarted false = [] ∧
      (∃ l v, s.launches = [l, v] ∧ l.id ≠ v.id ∧ l.state = .running ∧ v.state = .running ∧ v.prio < l.prio ∧ l.prio < 4 ∧
        l.weight ≠ 0 ∧ s.wants l = [.stage 2 0] ∧ s.wants v = [] ∧
        s.victims (some l.prio) (fun _ => true) = [{ f0 with index := 254 }] ∧ v.id = 1) ∧
      s.grants = [] ∧ s.preempts = [] ∧ s.freeList = [] ∧
      s.flights.all (fun x => match x.place with
        | .quad q => q < 256
        | _ => true) = true := by
  refine ⟨?_, ?_, ?_, ⟨_, _, rfl, ?_⟩, ?_⟩ <;> decide +kernel

theorem witness_BandwidthRefills : (3 < 4 ∧ s0.time.toNat < 512 * (s0.refilled 3 + 1)) ∧
    (let s : State := { s0 with
        time := 512, buckets := [{ die := 3, world := 0, tokens := 5, active := true },
                                 { die := 3, world := 1, tokens := 5, active := false },
                                 { die := 0, world := 0, tokens := 5, active := true }] }
     ([0x20000, 0x20001] ≠ ([] : List Nat)) ∧ (∀ a ∈ [0x20000, 0x20001], region a = .dram) ∧
       s.buckets.find? (fun b => b.die == (s.coreAt 768).die && b.world == (s.coreAt 768).ctl.world) =
         some { die := 3, world := 0, tokens := 5, active := true } ∧
       512 * (s.refilled 3 + 1) ≤ s.time.toNat ∧ s.buckets[2]? = some { die := 0, world := 0, tokens := 5, active := true }) := by
  decide +kernel

theorem witness_PreemptRequested :
    (∀ r ∈ [Run.running, .waiting (.queue 0 4)],
      let s : State := { launched with core := { inFlight 0 with run := r } }
      s.flights = [{ id := f0, place := .quad 0, order := 0, due := false }] ∧ s.preempts = [] ∧ s.core.flight = some f0 ∧ s.others = [] ∧
        s.core.run = r) := by decide +kernel

/-- A request for f0 at this rung, at tick t. -/
def asked (rung : BitVec 2) : PreemptReq := { launch := 1, flights := [f0], t0 := 0, rung := rung, saved := [] }
def preempting (rung : BitVec 2) (t : Nat) : State :=
  { launched with preempts := [asked rung], time := BitVec.ofNat 64 t }

theorem witness_PreemptSecondRung :
    (∀ t ∈ [199999, 200000], (preempting 1 t).preempts = [asked 1] ∧ (preempting 1 t).launchAt 1 = some l0) ∧
    (preempting 1 199999).time.toNat < (asked 1).t0 + l0.t1 ∧
    (asked 1).t0 + l0.t1 ≤ (preempting 1 200000).time.toNat ∧ (preempting 1 200000).setParked (asked 1) = false ∧
    (preempting 1 200000).coreAt 0 = inFlight 0 ∧ 0 ∈ (preempting 1 200000).coresOf (asked 1).flights ∧
    (preempting 1 200000).pick.stopAt = none ∧
    { preempting 1 199999 with core := { inFlight 0 with run := .stopped none } }.setParked (asked 1) = true := by
  decide +kernel

theorem witness_PreemptThirdRung :
    (∀ t ∈ [2199999, 2200000], (preempting 2 t).preempts = [asked 2] ∧ (preempting 2 t).grants = [] ∧
      (preempting 2 t).homeless = [] ∧
      (preempting 2 t).launchAt 1 = some l0) ∧
    (preempting 2 2199999).time.toNat < (asked 2).t0 + l0.t1 + l0.t2 ∧
    (asked 2).t0 + l0.t1 + l0.t2 ≤ (preempting 2 2200000).time.toNat := by decide +kernel

theorem witness_ContextSaved :
    let s : State := { preempting 2 200000 with core := { inFlight 0 with run := .stopped none } }
    0 < Config.cores ∧ s.preempts = [asked 2] ∧ s.grants = [] ∧ s.homeless = [] ∧ (s.coreAt 0).flight = some f0 ∧
      (s.coreAt 0).run = .stopped none ∧ (s.coreAt 0).cmds = [] ∧ (s.coreAt 0).sq = [] ∧ (s.coreAt 0).vq = [] ∧
      (s.coreAt 0).waits = [] := by decide +kernel

/-- The move of slot 1's region to 0x60000. -/
def aMove (phase : Nat) : MoveRecord := { pkg := 0, old := 0x20000, new := 0x60000, len := 0x10000, phase := phase, begun := 0 }

theorem witness_MoveCopies : launched.MemOk ∧ launched.mayMove (aMove 1) = true := by
  unfold State.MemOk; decide +kernel

theorem witness_MoveParks :
    let s : State := { launched with core := { inFlight 0 with run := .waiting (.queue 0 4) }, moves := [aMove 1] }
    0 < Config.cores ∧ s.moves = [aMove 1] ∧ s.depends (s.coreAt 0) (aMove 1) = true ∧ (s.coreAt 0).flight = some f0 ∧
      (s.coreAt 0).sq = [] ∧ (s.coreAt 0).vq = [] ∧ (s.coreAt 0).run = .waiting (.queue 0 4) := by decide +kernel

theorem witness_MoveRelease :
    let s : State := { launched with core := { setX (inFlight 0) 5 0x20008 0x101 with run := .stopped none },
                                     moves := [aMove 2] }
    s.moves = [aMove 2] ∧ s.mayRelease (aMove 2) = true ∧ (∀ c ∈ s.cores, c.sq = [] ∧ c.vq = []) ∧
      (s.core.readXOf false 5).tagged = true ∧ (s.core.readXOf false 5).slot ≠ 0 ∧
      (aMove 2).dependent s.pkg (s.core.slot 1) = true ∧ s.core.run = .stopped none := by decide +kernel

theorem witness_MoveRelease_remote :
    let mv : MoveRecord := { aMove 2 with pkg := 2 }
    let s : State := { launched with core := { inFlight 0 with run := .stopped none }, moves := [mv] }
    s.moves = [mv] ∧ s.mayRelease mv = true ∧ (∀ c ∈ s.cores, c.sq = [] ∧ c.vq = []) ∧ mv.pkg ≠ s.pkg := by
  decide +kernel

/-- The launch with x5 = 1, the number of its first harvest, or 2. -/
def snapping (n : Word) : State := { launched with core := setX (inFlight 0) 5 n 0 }

theorem witness_SnapTakesCut :
    (∀ s ∈ [snapping 1, snapping 2], s.launchOf s.core = some l0 ∧ ∀ c ∈ s.cores, c.sq = [] ∧ c.vq = []) ∧
    l0.maySnap (((snapping 1).x 5).val.extractLsb' 0 32) = true ∧ l0.snapWaits = false ∧ (snapping 1).moves = [] ∧
    l0.maySnap (((snapping 2).x 5).val.extractLsb' 0 32) = false ∧
    { snapping 1 with moves := [aMove 2] }.moves ≠ [] ∧
    ({ l0 with migration := some { target := 4095, stopped := true, begun := 0 } } : Launch).snapWaits = true := by decide +kernel

def harvest (num : Nat) (manifest : List Nat) (copies : List (Nat × Mem)) : Harvest :=
  { num := num, captures := [], saves := [], flights := [], stages := [stage0], queues := l0.queues, records := [],
    finalisers := [], barriers := [], manifest := manifest, copies := copies, performed := [], channel := [],
    received := [], markers := [], sent := [], unsent := [], combined := [], complete := false }

/-- The launch in its first harvest, whose manifest is one extent, at 0x20000. -/
def l2 : Launch := { l0 with busy := true, colour := true, harvests := [harvest 1 [2] []] }

theorem witness_MarkerKept :
    let p := packet (.marker 1 0) none
    let s : State := { withLaunch l2 with ingress := [p] }
    s.ingress[0]? = some p ∧ s.atHead 0 p = true ∧ s.launchByTag p.launch = some l2 ∧ l2.busy = true ∧
      l2.last.toNat + 1 = 1 := by decide +kernel

/-- That launch with the extent still sealed, and a store to it pending. -/
def sealedState : State :=
  { withLaunch l2 with
    extents := [{ num := 2, world := 0, key := 1, trace := 0, sealed := true, pin := false }],
    core := { inFlight 0 with sq := [{ stamp := 0, op := .store [(0x20000, 1)], sluice := false }] } }

theorem witness_SealedExtentsCopied :
    (sealedState.extentAt 2).sealed = true ∧ sealedState.writeWaits 2 = true ∧ l2 ∈ sealedState.launches ∧ l2.busy = true ∧
      l2.harvests.getLast? = some (harvest 1 [2] []) ∧ 2 ∈ (harvest 1 [2] []).manifest ∧
      ∀ c ∈ (harvest 1 [2] []).copies, c.1 ≠ 2 := by decide +kernel

theorem witness_HarvestCompletes :
    sealedState.launchAt 1 = some l2 ∧ sealedState.harvestDone l2 = false ∧ (withLaunch l2).launchAt 1 = some l2 ∧
      (withLaunch l2).harvestDone l2 = true := by decide +kernel

/-- Two harvests complete everywhere and one that is not; extent 2 is in both manifests, extent 4 in the first alone. -/
theorem witness_RollbackRestores :
    let g := { harvest 1 [2, 4] [(2, [(0, 1)]), (4, [(65535, 9)])] with complete := true }
    let h := { harvest 2 [2] [(2, [(65535, 7)])] with complete := true }
    let l := { l0 with pkgs := [0, 2], admitted := [0, 2], last := 2, everywhere := 2, harvests := [g, h, harvest 3 [2] []] }
    let s : State := { withLaunch l with lost := [2] }
    let hs := l.harvests.filter fun h => h.num ≤ l.everywhere.toNat
    s.MemOk ∧ s.launchAt 1 = some l ∧ l.state = .running ∧ l.everywhere ≠ 0 ∧
      (∃ p ∈ l.pkgs, s.lost.contains p = true) ∧ hs.getLast? = some h ∧ h.channel = [] ∧
      (∀ g ∈ hs, ∀ e ∈ g.manifest, region (e * 65536) = .dram) ∧ (∀ g ∈ hs, ∀ c ∈ g.copies, c.2.wf = true) ∧
      hs.reverse.find? (fun g => g.manifest.contains 2) = some h ∧ hs.reverse.find? (fun g => g.manifest.contains 4) = some g ∧
      h.copies.find? (fun c => c.1 == 2) = some (2, [(65535, 7)]) ∧
      g.copies.find? (fun c => c.1 == 4) = some (4, [(65535, 9)]) := by unfold State.MemOk; decide +kernel

theorem test_rollback_latest :
    let g := { harvest 1 [2, 4] [(2, [(0, 1)]), (4, [(65535, 9)])] with complete := true }
    let h := { harvest 2 [2] [(2, [(65535, 7)])] with complete := true }
    let l := { l0 with pkgs := [0, 2], admitted := [0, 2], last := 2, everywhere := 2, harvests := [g, h, harvest 3 [2] []] }
    let t := after (exec (.rollback 1 []) { withLaunch l with lost := [2] })
    t.mem.get 0x2FFFF = 7 ∧ t.mem.get 0x20000 = 0 ∧ t.mem.get 0x4FFFF = 9 := by decide +kernel

theorem witness_RollbackNotice :
    (∀ k ∈ [false, true],
      let s : State := { s0 with core := { (running 0).rolledBack 1 with ctl := { ((running 0).rolledBack 1).ctl with intrap := k } } }
      s.core.fw = false ∧ s.core.notice = true ∧ s.core.run ≠ .exited ∧ s.core.run ≠ .parked ∧ s.core.ctl.thandler ≠ 0 ∧
        s.core.ctl.intrap = k) := by decide +kernel

/-- The launch with a migration to package 4095 begun, or stopped. -/
def migrating (stopped : Bool) : Launch := { l0 with migration := some { target := 4095, stopped := stopped, begun := 0 } }

theorem witness_MigrationPhases :
    (∀ l ∈ [l0, migrating false], (withLaunch l).launchAt 1 = some l ∧ l.state = .running ∧
      (∀ g, l.migration = some g → g.stopped = false ∧ g.target.toNat = 4095)) ∧
    (4095 < 4096 ∧ 4095 ≠ launched.pkg.toNat) ∧
    ((withLaunch (migrating false)).pick.stopAt = none ∧
      0 ∈ (withLaunch (migrating false)).coresOf ((withLaunch (migrating false)).onQuads 1)) ∧
    (let l := migrating true
     let s : State := { withLaunch l with core := Core.reset 0,
                                          flights := [{ id := f0, place := .saved, order := 0, due := false }],
                                          records := [tensor 0 false] }
     s.launchAt 1 = some l ∧ s.onQuads 1 = [] ∧ l.busy = false ∧ s.remoteQuiet l = true ∧ s.postsGone 1 = true ∧
       (∃ r ∈ s.records, r.launch = 1)) := by
  refine ⟨?_, by decide +kernel⟩
  intro l hl
  simp only [List.mem_cons, List.not_mem_nil, or_false] at hl
  rcases hl with rfl | rfl
  · exact ⟨by decide +kernel, by decide, fun g hg => by cases hg⟩
  · exact ⟨by decide +kernel, by decide, fun g hg => by cases hg; decide⟩

/-! Vector states: 48 elements of eight bytes, none poisoned, or with poison in element 1 of v5. -/

def sv : State := withCore (setX (vcore 48 .e64 .s1) 5 (-1) 0)
def poisonedState : State :=
  withCore { vcore 48 .e64 .s1 with ecc := [{ store := .vector, granule := 5 * 48 + 1, poisoned := true }] }
/-- Group of eight registers, so that v4 is no base of a group. -/
def wide : State := withCore (vcore 3072 .e8 .s8)

theorem witness_VectorInteger : sv.core.ecc = [] ∧ sv.groupsOk (some 31) 5 6 false false noCtrl = true ∧
    sv.groupsOk (some 5) 5 6 true false { noCtrl with nb := .l, edge := .ew, gov := { me := true, m := 7, g := 0 } } = false ∧
    sv.groupsOk (some 4) 5 6 true false { noCtrl with nb := .l, edge := .ew, gov := { me := true, m := 7, g := 0 } } = true ∧
    sv.groupsOk (some 4) 5 5 true false noCtrl = true ∧
    wide.groupsOk (some 24) 8 16 false false { noCtrl with gov := { me := true, m := 0, g := 7 } } = true := by
  decide +kernel

theorem witness_VectorTraps :
    wide.groupsOk (some 4) 8 16 false false noCtrl = false ∧ wide.groupsOk (some 8) 8 16 false true noCtrl = false ∧
    wide.groupsOk none 4 16 false false noCtrl = false ∧
    (poisonedState.groupsOk (some 4) 5 6 false false noCtrl = true ∧
      (∀ x ∈ poisonedState.core.ecc, x.poisoned = true) ∧
      poisonedState.active noGov = [0] ++ 1 :: (List.range 46).map (· + 2) ∧
      poisonedState.core.badIn ([poisonedState.core.elemCell 5 8 0] ++ [poisonedState.core.elemCell 6 8 0]) 8 = none ∧
      (poisonedState.core.badIn ([poisonedState.core.elemCell 5 8 1] ++ [poisonedState.core.elemCell 6 8 1]) 8).isSome = true) := by
  decide +kernel

theorem witness_VectorFloat : sv.core.ecc = [] ∧ sv.groupsOk (some 4) 5 6 false true noCtrl = true ∧
    sv.groupsOk (some 4) 5 5 true true noCtrl = true ∧
    sv.core.mouldOk { d := some 4, a := 5, b := sv.operandB 6 false, c := some 7, old := false, float := true,
                      ctl := noCtrl } = true := by decide +kernel

theorem witness_VectorConvert : sv.core.ecc = [] ∧ sv.core.cvtOk 4 6 .b64 .i8 noGov = true ∧
    sv.core.cvtOk 4 4 .b64 .i8 noGov = false := by decide +kernel

theorem witness_VectorCompareMerge : sv.core.ecc = [] ∧ sv.groupsOk none 5 6 false false noCtrl = true ∧
    aligned (7 : MName).toNat sv.core.maskSpan = true ∧ sv.groupsOk none 5 6 false true noCtrl = true ∧
    wide.groupsOk none 8 16 false false noCtrl = true ∧ aligned (0 : MName).toNat wide.core.maskSpan = true ∧
    (let sel : Sel := { m := 7, g := 2 }
     let c : Ctrl := { noCtrl with gov := { me := false, m := 0, g := 2 } }
     c.gov = { me := false, m := 0, g := sel.g } ∧ sv.groupsOk (some 4) 5 6 false false c = true ∧
       aligned sel.m.toNat sv.core.maskSpan = true) ∧
    aligned (4 : VName).toNat sv.core.spanOf = true ∧ sv.core.govAligned noGov = true := by decide +kernel

theorem witness_FloatOrder :
    (Layout.b32.value false 0x7FC00000).isNan = true ∧ (Layout.b32.value false 0x3F800000).isNan = false ∧
    (∃ g, Layout.b32.value false 0x80000000 = .fin true 0 g) ∧ (∃ h, Layout.b32.value false 0 = .fin false 0 h) :=
  ⟨by decide +kernel, by decide +kernel, ⟨_, rfl⟩, ⟨_, rfl⟩⟩

theorem witness_VectorGroupWrite :
    let c := { vcore 384 .e64 .s8 with ctl := { (vcore 384 .e64 .s8).ctl with rot := 5 } }
    c.vec.wf = true ∧ aligned 24 c.spanOf = true ∧ 24 < 32 ∧
      (∀ e ∈ ([(0, 1), (383, 2 ^ 64 - 1)] : List (Nat × Nat)), e.1 < vlmax c.spanOf 8 ∧ e.2 < 2 ^ (8 * 8)) ∧
      ([(0, 1), (383, 2 ^ 64 - 1)] : List (Nat × Nat)).Pairwise (fun x y => x.1 ≠ y.1) := by decide +kernel

theorem witness_VectorPermute :
    let s := withCore (setX (vcore 48 .e64 .s1) 5 48 0)
    s.core.ecc = [] ∧ s.core.govAligned noGov = true ∧ s.core.apart (4 : VName).toNat [5] = true ∧
      s.core.apart (4 : VName).toNat [5, 6] = true ∧ aligned (4 : VName).toNat s.core.spanOf = true ∧ s.core.ctl.estart = 0 ∧
      (s.x 5).val.toNat ≠ 0 ∧ s.core.vlN % (s.x 5).val.toNat = 0 ∧ s.core.stopAt = none ∧
      aligned (7 : MName).toNat s.core.maskSpan = true ∧ noGov = { me := false, m := 0, g := 0 } ∧
      (let t := withCore (setX { vcore 48 .e64 .s1 with ctl := { (vcore 48 .e64 .s1).ctl with estart := 1 } } 5 48 0)
       t.core.ecc = [] ∧ t.core.govAligned noGov = true ∧ t.core.apart (4 : VName).toNat [5] = true ∧ t.core.ctl.estart ≠ 0) ∧
      (vcore 48 .e64 .s1).ctl.estart = 0 ∧ ((withCore (vcore 48 .e64 .s1)).x 5).val.toNat = 0 ∧
      (let t := withCore (setX (vcore 48 .e64 .s1) 5 7 0)
       t.core.ctl.estart = 0 ∧ t.core.vlN % (t.x 5).val.toNat ≠ 0) := by decide +kernel

theorem witness_VectorCompress : sv.core.ecc = [] ∧ sv.core.ctl.estart = 0 ∧ sv.core.apart (4 : VName).toNat [5] = true ∧
    aligned (7 : MName).toNat sv.core.maskSpan = true := by decide +kernel

theorem witness_VectorReduce :
    (∀ s ∈ [sv, withCore (vcore 0 .e64 .s1)], s.core.ecc = [] ∧ s.core.ctl.estart = 0 ∧
      (aligned (4 : VName).toNat s.core.spanOf && aligned (5 : VName).toNat s.core.spanOf && s.core.govAligned noGov &&
        sameOrApart (s.core.physGroup (4 : VName).toNat s.core.spanOf) (s.core.physGroup (5 : VName).toNat s.core.spanOf) &&
        (!Red.isFloat (.fsum true) || s.core.ctl.ew != .e8)) = true) ∧
    (withCore (vcore 0 .e64 .s1)).core.vlN = 0 ∧ sv.core.vlN ≠ 0 ∧ sv.core.gateOpen noGov.g = true ∧
    (sv.core.activeAll noGov ≠ []) ∧ sv.core.activeAll { me := true, m := 7, g := 0 } = [] := by decide +kernel

theorem witness_ReduceFloat : Red.isFloat .fmax = true := by decide

theorem witness_MaskOperations :
    (∀ s ∈ [sv, wide], s.core.ecc = [] ∧ aligned (0 : MName).toNat s.core.maskSpan = true ∧ s.core.ctl.estart = 0) ∧
    (let c := vcore 48 .e64 .s1
     let s := withCore { c with m := c.m.set 7 1, ctl := { c.ctl with estart := 0 } }
     0 < s.core.vlN ∧ s.core.maskBit 7 0 = true ∧ (∀ j < 0, s.core.maskBit 7 j = false) ∧
       ∀ k < s.core.vlN, s.core.maskBit 6 k = false) ∧
    (withCore { vcore 48 .e64 .s1 with ctl := { (vcore 48 .e64 .s1).ctl with estart := 1 } }).core.ctl.estart ≠ 0 := by
  decide +kernel

theorem witness_MaskAndNeighbour : (0 : MName).toNat + 3071 / 384 < 8 ∧ 3071 < 3072 := by decide

/-! Vector memory: two elements of eight bytes at the end of the scratchpad. -/

/-- x5 16 bytes below the end of the scratchpad, x6 the stride, v6 the indices 0 and 8. -/
def vmem : State :=
  withCore ((setX (setX (vcore 2 .e64 .s1) 5 (pad + 0x1FFFF0) 0x100) 6 8 0).putElems 6 8 [(1, 8)])
def vplace (k : Nat) : Nat := 0x1000001FFFF0 + 8 * k

theorem vmem_lands (kind : AccKind) (off : Nat → Int) (h0 : off 0 = 0) (h1 : off 1 = 8)
    (h : kind = .load ∨ kind = .localStore ∨ kind = .atomic) :
    vmem.landsElems (vmem.x 5) off kind (vmem.active noGov) vplace := by
  have e : vmem.active noGov = [0, 1] := by decide +kernel
  unfold State.landsElems
  rw [e]
  intro k hk
  simp only [List.mem_cons, List.not_mem_nil, or_false] at hk
  rcases hk with rfl | rfl <;> rcases h with rfl | rfl | rfl <;> simp only [h0, h1] <;>
    (refine ⟨by unfold State.landsLocal; decide +kernel, ?_⟩
     rintro a (rfl | rfl) <;> first | decide +kernel | (unfold State.storeAllowed; decide +kernel))

theorem vmem_ready : vmem.core.StoresOk ∧ vmem.MemOk ∧ vmem.core.ecc = [] ∧ vmem.promptV ∧
    vmem.core.govAligned noGov = true ∧ aligned (4 : VName).toNat vmem.core.spanOf = true ∧
    aligned (6 : VName).toNat vmem.core.spanOf = true ∧
    sameOrApart (vmem.core.physGroup 4 vmem.core.spanOf) (vmem.core.physGroup 6 vmem.core.spanOf) = true ∧
    share (vmem.core.physGroup 4 vmem.core.spanOf) (vmem.core.physGroup 6 vmem.core.spanOf) = false ∧ 4 ≤ vmem.core.eb := by
  unfold Core.StoresOk State.MemOk State.promptV; decide +kernel

theorem witness_VectorLoad_unit :
    vmem.landsElems (vmem.x 5) (fun k => (0 : BitVec 16).toInt + (k * vmem.core.eb : Nat)) .load (vmem.active noGov) vplace :=
  vmem_lands _ _ (by decide +kernel) (by decide +kernel) (.inl rfl)
theorem witness_VectorLoad_stride :
    vmem.landsElems (vmem.x 5) (fun k => (0 : BitVec 16).toInt + k * (vmem.x 6).val.toInt) .load (vmem.active noGov) vplace :=
  vmem_lands _ _ (by decide +kernel) (by decide +kernel) (.inl rfl)
theorem witness_VectorLoad_index :
    vmem.landsElems (vmem.x 5) (fun k => (0 : BitVec 16).toInt + (vmem.core.elem (6 : VName).toNat vmem.core.eb k : Nat)) .load
      (vmem.active noGov) vplace :=
  vmem_lands _ _ (by decide +kernel) (by decide +kernel) (.inl rfl)
theorem witness_VectorStore_unit :
    vmem.landsElems (vmem.x 5) (fun k => (0 : BitVec 16).toInt + (k * vmem.core.eb : Nat)) .localStore (vmem.active noGov) vplace :=
  vmem_lands _ _ (by decide +kernel) (by decide +kernel) (.inr (.inl rfl))
theorem witness_VectorStore_stride :
    vmem.landsElems (vmem.x 5) (fun k => (0 : BitVec 16).toInt + k * (vmem.x 6).val.toInt) .localStore (vmem.active noGov) vplace :=
  vmem_lands _ _ (by decide +kernel) (by decide +kernel) (.inr (.inl rfl))
theorem witness_VectorStore_index :
    vmem.landsElems (vmem.x 5) (fun k => (0 : BitVec 16).toInt + (vmem.core.elem (6 : VName).toNat vmem.core.eb k : Nat)) .localStore
      (vmem.active noGov) vplace :=
  vmem_lands _ _ (by decide +kernel) (by decide +kernel) (.inr (.inl rfl))
theorem witness_VectorAtomic :
    vmem.landsElems (vmem.x 5) (fun k => (0 : BitVec 16).toInt + (vmem.core.elem (6 : VName).toNat vmem.core.eb k : Nat)) .atomic
      (vmem.active noGov) vplace :=
  vmem_lands _ _ (by decide +kernel) (by decide +kernel) (.inr (.inr rfl))

/-- Two elements of firmware through its untagged x8, at the end of an extent (R158). -/
def fwVector : State :=
  let s := fwAt 0x2FFFC
  { s with core := { s.core with ctl := (vcore 2 .e64 .s1).ctl } }

theorem witness_VectorLoad_firmware :
    fwVector.core.StoresOk ∧ fwVector.MemOk ∧ fwVector.core.ecc = [] ∧ fwVector.promptV ∧ fwVector.active noGov = [0, 1] ∧
      fwVector.landsElems (fwVector.x 8) (fun k => (0 : BitVec 16).toInt + (k * fwVector.core.eb : Nat)) .remoteLoad [0, 1]
        (fun k => 0x2FFFC + 8 * k) := by
  refine ⟨by unfold Core.StoresOk; decide +kernel, by unfold State.MemOk; decide +kernel, by decide +kernel,
    by unfold State.promptV; decide +kernel, by decide +kernel, fun k hk => ?_⟩
  simp only [List.mem_cons, List.not_mem_nil, or_false] at hk
  rcases hk with rfl | rfl <;> refine ⟨by unfold State.landsLocal; decide +kernel, ?_⟩ <;> rintro a (rfl | rfl) <;>
    (unfold State.storeAllowed; decide +kernel)

theorem witness_VectorStore_firmware :
    fwVector.landsElems (fwVector.x 8) (fun k => (0 : BitVec 16).toInt + (k * fwVector.core.eb : Nat)) .remoteStore [0, 1]
      (fun k => 0x2FFFC + 8 * k) := by
  intro k hk
  simp only [List.mem_cons, List.not_mem_nil, or_false] at hk
  rcases hk with rfl | rfl <;> refine ⟨by unfold State.landsLocal; decide +kernel, ?_⟩ <;> rintro a (rfl | rfl) <;>
    (unfold State.storeAllowed; decide +kernel)

/-- Two elements, the first at the end of a line: a stop at element 1 falls between two lines. -/
theorem witness_VectorLoad_end :
    let c := { setX (vcore 2 .e64 .s1) 5 (pad + 0x78) 0x100 with stopAt := some 1 }
    let s := withCore c
    let at_ (k : Nat) : Int := (k * 8 : Nat)
    vmem.core.stopAt = none ∧ s.loadEnd noGov (s.x 5).val at_ = 1 ∧ 0 ∈ s.active noGov ∧ 1 ∈ s.core.activeAll noGov := by
  decide +kernel

/-- Three elements, of which the last lies past the scratchpad. -/
theorem witness_VectorLoadFault :
    let c := setX (vcore 3 .e64 .s1) 5 (pad + 0x1FFFF0) 0x100
    let s := withCore c
    s.core.StoresOk ∧ s.core.ecc = [] ∧ s.promptV ∧ s.core.govAligned noGov = true ∧
      aligned (4 : VName).toNat s.core.spanOf = true ∧ s.core.stopAt = none ∧ s.active noGov = [0, 1] ++ 2 :: [] ∧
      (∀ k ∈ [0, 1], s.landsLocal (s.x 5) ((0 : BitVec 16).toInt + (k * s.core.eb : Nat)) s.core.eb .load (vplace k) ∧
        s.owned (vplace k / 128) = false ∧ s.owned ((vplace k + (s.core.eb - 1)) / 128) = false) ∧
      s.check (s.x 5) ((0 : BitVec 16).toInt + (2 * s.core.eb : Nat)) s.core.eb s.core.eb .load =
        .error { cause := 0x04, sub := 0x01, val := 0x100000200000 } := by
  unfold Core.StoresOk State.promptV State.landsLocal; decide +kernel

/-! Matrix and engine states. -/

/-- Rows 5 and 63 hold 32-bit integers, row 7 binary32. -/
def rows : State :=
  let c := vcore 384 .e8 .s1
  withCore { c with rowType := ((c.rowType.set 5 .i32).set 63 .i32).set 7 .f32 }

/-- Row steps of either form: the last row with all tiles, sixteen registers on to the last, the last tile and column block. -/
theorem witness_MatrixRowStep :
    (∀ i ∈ [Instr.mrow 63 31 0 .i8 .ui8 0 24 false false, .mrow 63 31 1 .i8 .ui8 0 24 false false,
        .mrow 47 16 23 .b16 .b16 23 16 false false, .mrow 48 16 23 .b16 .b16 23 17 false false], i.wf = true) ∧
    rows.core.StoresOk ∧ rows.core.ecc = [] ∧ rows.core.ctl.estart = 0 ∧
    (0 + 24 ≤ 24 ∧ rows.core.tyOk .i32 63 = true) ∧ 24 < 1 + 24 ∧ rows.core.tyOk .f32 63 = false ∧
    ((23 : TName).toNat ≤ 23 ∧ 47 + 16 ≤ 64 ∧ 16 + (16 - 1) * rows.core.spanOf ≤ 31 ∧ aligned 16 rows.core.spanOf = true ∧
      (16 + (16 - 1) * rows.core.spanOf ≤ 15 ∨ 16 ≤ 16) ∧ ∀ j < 16, rows.core.tyOk .f32 (47 + j) = true) ∧
    64 < 48 + 17 ∧ 31 < 16 + (17 - 1) * rows.core.spanOf ∧ ¬ (24 : TName).toNat ≤ 23 ∧
    (∃ j < 16, rows.core.tyOk .f32 (48 + j) = false) ∧
    (let s := withCore { rows.core with ctl := { rows.core.ctl with estart := 1 } }
     s.core.StoresOk ∧ s.core.ecc = [] ∧ s.core.ctl.estart ≠ 0 ∧ s.core.spanOf = 1) := by
  unfold Core.StoresOk; decide +kernel

/-- The rows read end where those written begin, either way round, or overlap; the last rows; rows of either type. -/
theorem witness_MatrixRowStepAcc :
    (∀ i ∈ [Instr.mrowa 63 5 0 .i8 .i8 0 24 false false false .none 31, .mrowa 5 5 0 .i8 .i8 0 24 false false false .none 0,
        .mrowa 8 32 23 .b16 .b16 23 24 false false true .hi 0, .mrowa 8 31 23 .b16 .b16 23 24 false false true .hi 0], i.wf = true) ∧
    rows.core.StoresOk ∧ rows.core.ecc = [] ∧ rows.core.ctl.estart = 0 ∧
    (0 + 24 ≤ 24 ∧ (63 : AName) ≠ 5 ∧ ∀ j < 1, rows.core.tyOk .i32 (63 + j) = true ∧ rows.core.tyOk .i32 (5 + j) = true) ∧
    ((23 : TName).toNat ≤ 23 ∧ 8 + 24 ≤ 64 ∧ 32 + 24 ≤ 64 ∧ 8 + 24 ≤ 32 ∧
      ∀ j < 24, rows.core.tyOk .f32 (8 + j) = true ∧ rows.core.tyOk .f32 (32 + j) = true) ∧
    (¬ (8 + 24 ≤ 31 ∨ 31 + 24 ≤ 8)) ∧ 40 + 24 ≤ 64 ∧
    (∃ j < 1, rows.core.tyOk .f32 (63 + j) = false) ∧ (∃ j < 24, rows.core.tyOk .f32 (8 + j) = true ∧ rows.core.tyOk .f32 (40 + j) = false) ∧
    (let s := withCore { rows.core with ctl := { rows.core.ctl with estart := 1 } }
     s.core.StoresOk ∧ s.core.ecc = [] ∧ s.core.ctl.estart ≠ 0) := by
  unfold Core.StoresOk; decide +kernel

/-- Two elements of each kind of pair: mixed integers, binary32, and rounded formats of one and two bytes. -/
theorem witness_ColumnSums :
    (∀ p ∈ [(Fmt.i8, Fmt.ui8, 1), (.ui8, .ui8, 1), (.b32, .b32, 4), (.b8p4, .b8p3, 1), (.b16, .b16, 2), (.bf16, .bf16, 2)],
      [1, 0x80].length = [0x80, 0xFF].length ∧ Fmt.pairOk p.1 p.2.1 = true ∧ Fmt.bytes p.1 = p.2.2 ∧
        ∀ v ∈ [1, 0x80] ++ [0x80, 0xFF], v < 256 ^ Fmt.bytes p.1) ∧
    Fmt.isInt .i8 = true ∧ Fmt.isInt .b8p4 = false := by decide +kernel

/-- The values of a sum: of finite ones the exponents have a least; one is not a number; infinities of one sign, and of both. -/
def sumOf (fa : Fmt) (as bs : List Nat) (acc : Nat) : List FNum :=
  Layout.b32.value false acc :: (as.zip bs).map fun p => ((fmtValue fa false p.1).mul (fmtValue fa false p.2)).1

theorem witness_ColumnSums_rounded :
    sumOf .b8p4 [0x40, 0x40] [0x40, 0x40] 0x4B800000 = [.fin false 8388608 1, .fin false 64 (-6), .fin false 64 (-6)] ∧
    (∃ v ∈ sumOf .b16 [0x7E00] [0x3C00] 0, v.isNan = true) ∧
    FNum.inf true ∈ sumOf .b16 [0x7C00] [0xBC00] 0 ∧ (∀ v ∈ sumOf .b16 [0x7C00] [0xBC00] 0, v.isNan = false) ∧
    FNum.inf false ∉ sumOf .b16 [0x7C00] [0xBC00] 0 ∧
    (FNum.inf true ∈ sumOf .b16 [0x7C00] [0xBC00] 0x7F800000 ∧ FNum.inf false ∈ sumOf .b16 [0x7C00] [0xBC00] 0x7F800000) := by
  decide +kernel

/-- 2^24 plus two products 1 is exact in binary32 when rounded once (R117); element by element, each half rounds to even. -/
theorem test_sum_rounds_once : columnSum .b8p4 .b8p4 false [0x40, 0x40] [0x40, 0x40] 0x4B800000 = (0x4B800001, fNone) := by
  decide +kernel
theorem test_sum_b32_each : (columnSum .b32 .b32 false [0x3F800000, 0x3F800000] [0x3F800000, 0x3F800000] 0x4B800000).1 =
    0x4B800000 := by decide +kernel
/-- 127 * 255 added to the largest integer wraps, with sat. -/
theorem test_sum_int_wraps : columnSum .i8 .ui8 false [127] [255] 0x7FFFFFFF = (0x7FFFFFFF + 32385, fSat) := by decide +kernel

theorem witness_AccumulatorRows : rows.core.StoresOk ∧ rows.core.ecc = [] ∧ aligned (28 : VName).toNat 4 = true := by
  unfold Core.StoresOk; decide +kernel

theorem witness_AccumulatorClear :
    rows.core.StoresOk ∧ rows.core.ecc = [] ∧ aligned (29 : VName).toNat 4 = false ∧
      (0 : AName).toNat + (63 : BitVec 6).toNat ≤ 63 ∧ (63 : AName).toNat + (0 : BitVec 6).toNat ≤ 63 := by
  unfold Core.StoresOk; decide +kernel

theorem witness_AccumulatorScale :
    rows.core.StoresOk ∧ rows.core.ecc = [] ∧ aligned (28 : VName).toNat 4 = true ∧ aligned (29 : VName).toNat 4 = false ∧
      (7 : AName) ≠ 5 ∧ rows.core.rowTy (7 : AName).toNat ≠ .i32 ∧ rows.core.rowTy (5 : AName).toNat = .i32 ∧
      ScaleForm.col 29 ≠ .row 5 ∧ ScaleForm.both 5 29 ≠ .row 5 := by
  unfold Core.StoresOk; decide +kernel

/-- An image at the end of the scratchpad, one that begins inside a line, with a stop at column 3, and a tile name too high. -/
theorem witness_TileWrites :
    (∀ e ∈ [(0x1FE800, none), (0x1FE7C0, some 3)],
      let s := withCore { setX (running 0) 5 (pad + BitVec.ofNat 64 e.1) 0x100 with stopAt := e.2 }
      let p := 0x100000000000 + e.1
      s.core.StoresOk ∧ s.core.ecc = [] ∧ (23 : TName).toNat < 24 ∧ s.promptV ∧ s.core.estartN < 16 ∧
        region p = .scratch ∧ region (p + 6143) = .scratch ∧
        s.check (s.x 5) (0 : BitVec 32).toInt 6144 64 .tileLoad = .ok { pkg := none, addr := p } ∧
        s.lines = [] ∧ s.hiOf 16 = e.2.getD 16) ∧
    (∀ k < 6144, (withCore (setX (running 0) 5 (pad + 0x1FE800) 0x100)).owned ((0x1000001FE800 + k) / 128) = false) ∧
    0x1FE7C0 % 128 = 64 ∧ aligned (24 : VName).toNat 8 = true ∧ aligned (31 : VName).toNat 8 = false ∧
    24 ≤ (24 : TName).toNat := by
  refine ⟨?_, fun _ _ => rfl, by decide, by decide, by decide, by decide⟩
  unfold Core.StoresOk State.promptV; decide +kernel

/-- A batch with the COPY above as its last command, at place 47; m1 names it alone. -/
def batch : Core :=
  let c := based.writeVec (place (8 * 384 + 64 * 47) (toBytes 64 copyBits.toNat))
  { c with m := c.m.set 1 (1#384 <<< 47) }
def issuing : State := withCore batch

theorem guarded_of_dram {k : Command} (a : region k.src = .dram) (b : region (k.src + (k.srcBytes - 1)) = .dram)
    (c : region k.dst = .dram) (d : region (k.dst + (k.dstBytes - 1)) = .dram) (r : Res) : k.guarded r = r := by
  unfold Command.guarded guardAddr
  simp only [a, b, c, d]
  split <;> split <;> rfl

theorem issuing_passes : issuing.commandPasses (issuing.batchCommand 8 47) :=
  ⟨by decide +kernel, guarded_of_dram (by decide +kernel) (by decide +kernel) (by decide +kernel) (by decide +kernel)⟩

theorem witness_EngineIssue :
    share (issuing.core.physGroup (8 : VName).toNat 8) (issuing.core.physGroup (2 : VName).toNat 2) = false ∧
      issuing.doneS = true ∧ issuing.core.vq = [] ∧ issuing.core.ecc = [] ∧ issuing.core.StoresOk ∧
      issuing.core.activeBits 1 issuing.core.estartN (issuing.hiOf 48) = [47] ∧
      ∀ i ∈ issuing.core.activeBits 1 issuing.core.estartN (issuing.hiOf 48), issuing.commandPasses (issuing.batchCommand 8 i) := by
  have e : issuing.core.activeBits 1 issuing.core.estartN (issuing.hiOf 48) = [47] := by decide +kernel
  refine ⟨by decide +kernel, by decide, by decide, by decide +kernel, by unfold Core.StoresOk; decide +kernel, e, ?_⟩
  rw [e]
  intro i h
  obtain rfl := List.mem_singleton.1 h
  exact issuing_passes

/-- Its first command that fails a check is the first of the batch, or follows one that passes: a copy at place 46. -/
theorem witness_EngineIssueTraps :
    share (issuing.core.physGroup (8 : VName).toNat 8) (issuing.core.physGroup (14 : VName).toNat 2) = true ∧
    (let s := withCore { batch with m := batch.m.set 1 1 }
     s.doneS = true ∧ s.core.vq = [] ∧ s.core.ecc = [] ∧
       s.core.activeBits 1 s.core.estartN (s.hiOf 48) = [] ++ 0 :: [] ∧
       s.checkCommand (s.batchCommand 8 0) = some (0x01, 0x09)) ∧
    (let c := based.writeVec (place (8 * 384 + 64 * 46) (toBytes 64 copyBits.toNat))
     let s := withCore { c with m := c.m.set 1 (3#384 <<< 46) }
     s.doneS = true ∧ s.core.vq = [] ∧ s.core.ecc = [] ∧ s.core.StoresOk ∧
       s.core.activeBits 1 s.core.estartN (s.hiOf 48) = [46] ++ 47 :: [] ∧ (∀ j ∈ [46], s.commandPasses (s.batchCommand 8 j)) ∧
       s.checkCommand (s.batchCommand 8 47) = some (0x01, 0x09)) := by
  refine ⟨by decide +kernel, by decide +kernel, by decide, by decide, by decide +kernel,
    by unfold Core.StoresOk; decide +kernel, by decide +kernel, ?_, by decide +kernel⟩
  intro j h
  obtain rfl := List.mem_singleton.1 h
  exact ⟨by decide +kernel,
    guarded_of_dram (by decide +kernel) (by decide +kernel) (by decide +kernel) (by decide +kernel)⟩

/-- Core 0 with one receipt, at place 0 of v0 and named by m1, of serial 5; the command is outstanding with its promise at
tick 10, or has ended at clock 7, as the lists say. -/
def waitingFor (cmds : List Command) (refused : List (BitVec 16)) (mismatch : List (BitVec 16 × HartId)) (time : Nat) (run : Run) : State :=
  let c := (running 0).writeVec (place 8 [5])
  { withCore { c with m := c.m.set 1 1, cmds := cmds, ended := if cmds = [] then [(5, 7)] else [],
                      refused := refused, mismatch := mismatch, run := run } with time := BitVec.ofNat 64 time }

theorem witness_EngineWait :
    let mine := [(5#16, (running 0).hartId)]
    let woken : Run := .waiting (.engine 10 0 1)
    (∀ s ∈ [waitingFor [copyCommand] [] [] 9 .running, waitingFor [] [] [] 9 .running,
        waitingFor [copyCommand] [] [] 10 .running, waitingFor [] [5] [] 10 .running, waitingFor [] [] mine 10 .running,
        waitingFor [] [] [] 10 woken, waitingFor [copyCommand] [] [] 10 woken, waitingFor [] [5] [] 10 woken,
        waitingFor [] [] mine 10 woken],
      s.core.fw = false ∧ s.core.num < 1024 ∧ s.core.ecc = [] ∧ s.core.vq = [] ∧ s.core.serials 0 1 = [] ++ (0, 5) :: [] ∧
        (s.core.run = .running ∨ s.core.run = woken ∧ (10 : Word).toNat ≤ s.time.toNat)) ∧
    (let s := waitingFor [copyCommand] [] [] 9 .running
     s.core.latest (s.core.serials 0 1) = some 10 ∧ s.time.toNat < 10) ∧
    (let s := waitingFor [] [] [] 9 .running
     s.core.outstanding 5 = none ∧ s.core.refused.contains 5 = false ∧ s.core.mismatched 5 = false) ∧
    (∀ r ∈ [Run.running, woken],
      (let s := waitingFor [copyCommand] [] [] 10 r
       s.core.latest (s.core.serials 0 1) = some 10 ∧ 10 ≤ s.time.toNat ∧ s.core.outstanding 5 ≠ none) ∧
      (let s := waitingFor [] [5] [] 10 r
       s.core.latest (s.core.serials 0 1) = none ∧ s.core.outstanding 5 = none ∧ s.core.refused.contains 5 = true) ∧
      (let s := waitingFor [] [] mine 10 r
       s.core.outstanding 5 = none ∧ s.core.refused.contains 5 = false ∧ s.core.mismatched 5 = true)) := by decide +kernel

/-- Core n holds the command alone. -/
def engineState (n : Nat) (k : Command) : State :=
  { sb with links := (List.range 16).map Link.reset, others := if n = 0 then [] else [{ running n with cmds := [k] }],
            core := if n = 0 then { based with cmds := [k] } else based }

/-- Bits of a command with an operation and a count, its count and register fields, and its version tag. -/
def bitsOf (op reg count vtag : Nat) : BitVec 512 := BitVec.ofNat 512 (op + reg * 2 ^ 24 + count * 2 ^ 32 + vtag * 2 ^ 256)

/-- The copy with all its source lines loaded. -/
def copyLoaded : Command := { copyCommand with read := List.range (lineCount 0x20000 copyCommand.count) }

theorem witness_EngineCopies :
    (let k := copyCommand
     let s := engineState 1023 k
     s.engineHas 1023 5 1 k ∧ s.mayLoad k (lineCount k.src k.srcBytes - 1)) ∧
    (let k := copyLoaded
     let s := engineState 1023 k
     s.MemOk ∧ s.engineHas 1023 5 1 k ∧ 1 < lineCount k.dst k.count ∧ k.done.contains 1 = false ∧
       region (k.dst + (linePart k.dst k.count 1).1) ≠ .table ∧ s.mayStore k (k.dst / 128 + 1) = true ∧
       k.loaded (linePart k.dst k.count 1).1 (linePart k.dst k.count 1).2 = true ∧ k.dstPkg = none) ∧
    (let k := { copyLoaded with dstPkg := some 2 }
     let s := engineState 0 k
     s.MemOk ∧ s.engineHas 0 5 1 k ∧ s.mayStore k (k.dst / 128 + 1) = true ∧
       k.loaded (linePart k.dst k.count 1).1 (linePart k.dst k.count 1).2 = true ∧ s.anyPlane 2 ≠ none) ∧
    (let k := command (bitsOf 2 0 256 0) 0 0x28000
     let s := engineState 0 k
     s.MemOk ∧ s.engineHas 0 5 2 k ∧ k.dstPkg = none ∧ 0 < lineCount k.dst k.count ∧ k.done.contains 0 = false ∧
       region (k.dst + (linePart k.dst k.count 0).1) ≠ .table ∧ s.mayStore k (k.dst / 128 + 0) = true) := by
  unfold State.MemOk State.engineHas State.mayLoad
  refine ⟨by decide +kernel, by decide +kernel, ?_, by decide +kernel⟩
  have h : ∀ j < 16, (engineState 0 { copyLoaded with dstPkg := some 2 }).remap 2 j ≠ none := by decide +kernel
  exact ⟨by decide +kernel, by decide +kernel, by decide +kernel, by decide +kernel, h _ (Nat.mod_lt _ (by decide))⟩

/-- A STAGE of one block with version tag 9, of which `checked` blocks have matched; it has loaded all lines, the tag as v. -/
def stageCommand (checked v : Nat) : Command :=
  { command (bitsOf 3 0 1 9) 0x20000 0x28000 with
    checked := checked, read := List.range 49, got := [(6144, BitVec.ofNat 8 v)] }
def staging (k : Command) (l720 : List (BitVec 10)) : State := { engineState 0 k with l720 := l720 }

theorem witness_EngineStages :
    (let k := command (bitsOf 3 0 1 9) 0x20000 0x28000
     (staging k []).engineHas 0 5 3 k ∧ (staging k []).mayLoad k 48) ∧
    (∀ p ∈ [(9, []), (8, []), (8, [0])],
      let k := stageCommand 0 p.1
      (staging k p.2).engineHas 0 5 3 k ∧ k.checked < k.count ∧ k.bad = none ∧
        k.loaded (6208 * k.checked + 6144) 8 = true) ∧
    (ofBytes ((stageCommand 0 9).gotBytes 6144 8) = (stageCommand 0 9).vtag.toNat ∧
      ofBytes ((stageCommand 0 8).gotBytes 6144 8) ≠ (stageCommand 0 8).vtag.toNat ∧
      (staging (stageCommand 0 8) [0]).l720.contains ((staging (stageCommand 0 8) [0]).coreAt 0).ctl.world = true) ∧
    (let k := stageCommand 1 9
     let s := staging k []
     s.MemOk ∧ s.engineHas 0 5 3 k ∧ 0 < k.checked ∧ 47 < lineCount (k.dst + 6144 * 0) 6144 ∧
       k.done.contains (64 * 0 + 47) = false ∧
       k.loaded (6208 * 0 + (linePart (k.dst + 6144 * 0) 6144 47).1) (linePart (k.dst + 6144 * 0) 6144 47).2 = true ∧
       k.dstPkg = none ∧ region (k.dst + 6144 * 0 + (linePart (k.dst + 6144 * 0) 6144 47).1) ≠ .table ∧
       s.mayStore k ((k.dst + 6144 * 0) / 128 + 47) = true) := by
  unfold State.MemOk State.engineHas State.mayLoad; decide +kernel

/-- A TLOAD of tile 23 with tag 9 that has loaded its lines, the tag as v, and whose tag has matched `checked` times. -/
def tloadOf (checked v : Nat) : Command :=
  { command (bitsOf 4 23 1 9) 0x20000 0 with
    checked := checked, read := List.range (lineCount 0x20000 (command (bitsOf 4 23 1 9) 0x20000 0).srcBytes),
    got := [(6144, BitVec.ofNat 8 v)] }

theorem witness_EngineLoads_tile :
    (let k := command (bitsOf 4 23 1 9) 0x20000 0
     let s := engineState 0 k
     (s.coreAt 0).StoresOk ∧ s.engineHas 0 5 4 k ∧ k.unread ≠ [] ∧ ∀ i ∈ k.unread, s.mayLoad k i) ∧
    (∀ p ∈ [(8, []), (9, []), (8, [0])], let k := tloadOf 0 p.1
      let s := staging k p.2
      (s.coreAt 0).StoresOk ∧ s.engineHas 0 5 4 k ∧ k.unread = [] ∧ k.bad = none ∧ k.checked = 0 ∧
        k.loaded 6144 8 = true ∧ s.l720.contains (s.coreAt 0).ctl.world = !p.2.isEmpty ∧
        (ofBytes (k.gotBytes 6144 8) = k.vtag.toNat ↔ p.1 = 9)) ∧
    (let k := tloadOf 1 9
     let s := engineState 0 k
     (s.coreAt 0).StoresOk ∧ s.engineHas 0 5 4 k ∧ k.unread = [] ∧ k.checked = 1 ∧ k.done = [] ∧
       (s.coreAt 0).earlierTile k = false ∧ k.reg < 24) := by
  unfold Core.StoresOk State.engineHas State.mayLoad; decide +kernel

theorem witness_EngineLoads_row :
    (let k := command (bitsOf 5 0 64 0) 0x20000 0
     let s := engineState 0 k
     (s.coreAt 0).StoresOk ∧ s.engineHas 0 5 5 k ∧ s.mayLoad k (lineCount k.src k.srcBytes - 1)) ∧
    (let k := { command (bitsOf 5 0 64 0) 0x20000 0 with read := List.range (lineCount 0x20000 (64 * 1536)) }
     let s := engineState 0 k
     (s.coreAt 0).StoresOk ∧ s.engineHas 0 5 5 k ∧ 63 < k.count ∧ k.done.contains 63 = false ∧ k.reg + 63 < 64 ∧
       k.loaded (1536 * 63) 1536 = true ∧ (s.coreAt 0).earlierRow k (k.reg + 63) = false) := by
  unfold Core.StoresOk State.engineHas State.mayLoad; decide +kernel

theorem witness_EngineCommandEnds :
    (∀ k ∈ [copyCommand, { copyCommand with done := [0, 1] }],
      (0 < 1024) ∧ ((engineState 0 k).coreAt 0).ofSerial 5 = [] ++ k :: []) ∧
    (let second : Command := { copyCommand with order := 1, done := [0, 1] }
     let s : State := { s0 with core := { running 0 with cmds := [copyCommand, second] } }
     (s.coreAt 0).ofSerial 5 = [copyCommand] ++ second :: [] ∧ second.allIssued = true ∧ copyCommand.allIssued = false) ∧
    ({ copyCommand with done := [0, 1] } : Command).allIssued = true ∧ copyCommand.allIssued = false ∧
    ((engineState 0 copyCommand).egress.any fun p => p.engine == some copyCommand.order) = false ∧
    (let p := { packet (.store [(0x20000, 1)]) none with engine := some copyCommand.order }
     ({ engineState 0 copyCommand with egress := [p] } : State).egress.any fun p => p.engine == some copyCommand.order) = true ∧
    1023 < 1024 ∧ 1024 ≤ 1024 := by decide +kernel

/-! The fabric, the host, and boot. -/

/-- All links up; the package is running. -/
def up : State := { linked with boot := { stage := .running, measure := 0, fused := 0, root := 0, certified := some deviceKey } }

/-- Header of a store of 32 bytes to core 0 of package 0 at 0x20000, which opens context 5. -/
def header : BitVec 192 :=
  BitVec.ofNat 192 (0x01 + 2 * 2 ^ 8 + 5 * 2 ^ 10 + 2 ^ 16 + 2 * 2 ^ 32 + 0x20000 * 2 ^ 56 + 1 * 2 ^ 104)
def flit (bad : Option Nat) (seq : BitVec 16) (h : FlitHeader) : Flit :=
  { seq := seq, bad := bad, colour := false, hart := hart4, plane := 3, group := 0, before := [], merged := [], launch := 7, header := h,
    payload := List.replicate 32 1 }

/-- A flit out of sequence; a packet of two flits whose second is corrupt; packets with each form of header; a marker. -/
theorem witness_LinkReceives :
    up.linkTakes 15 ∧ (flit none 9 (.full header [])).seq ≠ (up.linkAt 15).rxSeq ∧
    (let f := { flit (some 1) 0 (.full header []) with payload := List.replicate 128 1 }
     f.seq = (up.linkAt 15).rxSeq ∧ f.bad = some 1 ∧ Flit.flits f = 2) ∧
    (∀ h ∈ [FlitHeader.full header [], .escape header []], let f := flit none 0 h
      f.bad = none ∧ f.seq = (up.linkAt 15).rxSeq ∧ (up.linkAt 15).part < Flit.flits f) ∧
    (bodyOf header (hdrAddr header) (hdrLen header) (List.replicate 32 1) = some (.store (place 0x20000 (List.replicate 32 1))) ∧
      hdrOpen header = true ∧ hdrKind header = 1 ∧ hdrDst header = up.pkg) ∧
    (let closed := header &&& ~~~(BitVec.ofNat 192 (2 ^ 16))
     hdrOpen closed = false ∧ hdrKind closed ≠ 7 ∧ hdrKind (BitVec.ofNat 192 7) = 7 ∧
       (bodyOf (BitVec.ofNat 192 7) 0 0 []).isSome = true) ∧
    (let c : LinkCtx := { ctx := 63, bits := header, next := 0x20020 }
     let s : State := up.setLink { Link.reset 15 with ctxs := [c] }
     s.linkTakes 15 ∧ (s.linkAt 15).ctxAt (63 : BitVec 6).toNat = some c ∧
       (flit none 0 (.compact 63 1 0xFFFE)).seq = (s.linkAt 15).rxSeq ∧
       (s.linkAt 15).part < Flit.flits (flit none 0 (.compact 63 1 0xFFFE)) ∧
       (bodyOf c.bits (c.next + 32 * (0xFFFE : Fin 0xFFFF).toNat) (1 : BitVec 8).toNat (List.replicate 32 1)).isSome = true ∧
       hdrKind c.bits ≠ 7) := by
  unfold State.linkTakes; decide +kernel

theorem witness_LinkLanes :
    (15 < 16 ∧ (up.linkAt 15).up = true ∧ 8 < (up.linkAt 15).lanes ∧ (3 : Nat) < 4) ∧
    (let s : State := { up.setLink { Link.reset 15 with retrain := some 100 } with time := 50100 }
     (s.linkAt 15).up = true ∧ (s.linkAt 15).retrain = some 100 ∧ s.time.toNat ≤ (100 : Word).toNat + 50000) ∧
    (let s : State := { up.setLink { Link.reset 15 with retrain := some 100 } with time := 50101 }
     (100 : Word).toNat + 50000 < s.time.toNat) ∧
    (let s : State := up.setLink (Link.down 15)
     (s.linkAt 15).up = false ∧ s.boot.stage = .running) := by decide +kernel

theorem witness_TimeSync : s0.synced = false ∧
    (let s : State := { s0 with synced := true, slewed := 5, time := 10004 }
     s.synced = true ∧ s.time.toNat < s.slewed.toNat + 10000) ∧
    (let s : State := { s0 with synced := true, slewed := 5, time := 10005 }
     s.slewed.toNat + 10000 ≤ s.time.toNat) := by decide +kernel

/-- The launch on packages 0 and 2. -/
def l02 (everywhere : BitVec 32) : Launch := { l0 with pkgs := [0, 2], admitted := [0, 2], everywhere := everywhere }

theorem witness_PackageLoss :
    (∀ s ∈ [{ s0 with time := 999999 }, { s0 with time := 1000000 }, { withLaunch (l02 0) with time := 1000000 },
        { withLaunch (l02 1) with time := 1000000 }], (2 : BitVec 12) ≠ s.pkg ∧ s.lost.contains 2 = false) ∧
    (({ s0 with time := 999999 } : State).time.toNat < ({ s0 with time := 999999 } : State).lastReached 2 + 1000000) ∧
    (let s : State := { s0 with time := 1000000 }
     s.lastReached 2 + 1000000 ≤ s.time.toNat ∧
       ∀ l ∈ s.launches, l.state = .running → l.pkgs.contains 2 = false) ∧
    (∀ e ∈ [l02 0, l02 1],
      let s : State := { withLaunch e with time := 1000000 }
      s.lastReached 2 + 1000000 ≤ s.time.toNat ∧ s.launches = [e] ∧ e.state = .running ∧ e.pkgs.contains 2 = true) ∧
    (l02 0).everywhere = 0 ∧ (l02 1).everywhere ≠ 0 ∧ s0.linkless = none ∧
    (let s : State := { s0 with linkless := some 5, time := 1000004 }
     s.linkless = some 5 ∧ s.time.toNat < (5 : Word).toNat + 1000000) ∧
    (let s : State := { withLaunch (l02 0) with linkless := some 5, time := 1000005 }
     s.linkless = some 5 ∧ (5 : Word).toNat + 1000000 ≤ s.time.toNat ∧ s.launches = [l02 0] ∧ (l02 0).state = .running ∧
       2 ∈ (l02 0).pkgs ∧ 2 ≠ s.pkg) ∧
    (let s : State := { launched with linkless := some 5, time := 1000005 }
     s.launches = [l0] ∧ l0.pkgs = [s.pkg]) := by decide +kernel

/-! The host port. -/

/-- A command entry of sequence number seq: END_LAUNCH of launch 1, with its MAC under the key, or with a byte changed. -/
def key : List Byte := List.replicate 32 7
def body (seq : Nat) : List Byte := toBytes 8 seq ++ toBytes 2 2 ++ toBytes 2 4 ++ toBytes 4 0 ++ toBytes 96 1
def ringEntry (seq : Nat) (forged : Byte) : List Byte :=
  body seq ++ (forged :: ((hmac key (body seq)).take 16).drop 1)

/-- The ring at 0x1000 holds that entry at the last of its 64 places; the counter stands at e. -/
def ringState (seq e : Nat) (forged : Byte) : State :=
  { up with
    host := (State.reset.host).setMany (place (0x1000 + 128 * 63) (ringEntry seq forged)),
    session := some (key, BitVec.ofNat 64 e),
    port := { HostPort.reset with cbase := 0x1000, csize := 6, ssize := 6, ctail := 63, chead := 63, en := true, opened := true } }

def mac1 (seq : Nat) : Byte := ((hmac key (body seq)).take 16).headD 0

theorem ringState_ready (seq e : Nat) (forged : Byte) :
    let s := ringState seq e forged
    s.session = some (key, BitVec.ofNat 64 e) ∧ s.port.en = true ∧ s.port.opened = true ∧ s.boot.stage = .running ∧
      1 ≤ s.port.csize.toNat ∧ s.port.csize.toNat ≤ 16 ∧
      (64 : BitVec 32).toNat % 2 ^ s.port.csize.toNat = (s.port.chead.toNat % 2 ^ s.port.csize.toNat + 1) % 2 ^ s.port.csize.toNat :=
  ⟨rfl, rfl, rfl, rfl, (by decide : 1 ≤ (6 : BitVec 32).toNat), (by decide : (6 : BitVec 32).toNat ≤ 16),
    (by decide : (64 : BitVec 32).toNat % 2 ^ (6 : BitVec 32).toNat =
      ((63 : BitVec 32).toNat % 2 ^ (6 : BitVec 32).toNat + 1) % 2 ^ (6 : BitVec 32).toNat)⟩

theorem witness_CommandRing_mac :
    let b (s : State) := s.host.bytes (s.port.cbase.toNat + 128 * (s.port.chead.toNat % 2 ^ s.port.csize.toNat)) 128
    (let d := b (ringState 5 5 (mac1 5)); (hmac key (d.take 112)).take 16 = (d.drop 112).take 16 ∧ field d 0 8 = 5) ∧
    (let d := b (ringState 5 5 (mac1 5 + 1)); (hmac key (d.take 112)).take 16 ≠ (d.drop 112).take 16) ∧
    (let d := b (ringState (2 ^ 64 - 1) 0 (mac1 (2 ^ 64 - 1)))
     (hmac key (d.take 112)).take 16 = (d.drop 112).take 16 ∧ field d 0 8 = ((-1 : Word)).toNat) := by decide +kernel

/-- The sequence number 5 below, at and above the counter, and the last one. -/
theorem witness_CommandRing_order : 5 < (BitVec.ofNat 64 6).toNat ∧ (BitVec.ofNat 64 4).toNat < 5 ∧
    5 = (BitVec.ofNat 64 5).toNat ∧ (BitVec.ofNat 64 5 : Word) ≠ -1 ∧ BitVec.ofNat 64 (2 ^ 64 - 1) = (-1 : Word) := by decide

/-- Entries of zeros of every operation, and entries with the first unused byte, a reserved byte, the length or the operation
out of range. -/
def payloadEntry (op len : Nat) (p : List (Nat × Byte)) : List Byte :=
  toBytes 8 5 ++ toBytes 2 op ++ toBytes 2 len ++ toBytes 4 0 ++
    (List.range 112).map fun j => ((p.find? fun e => e.1 == j).map fun e => e.2).getD 0

theorem witness_CommandEntries :
    (∀ e ∈ [(1, 48), (2, 4), (3, 6), (4, 4), (5, 32), (6, 5), (7, 4), (8, 72), (9, 20)],
      (let b := payloadEntry e.1 96 []
       let p := (b.drop 16).take 96
       field b 0x0C 4 = 0 ∧ field b 0x0A 2 ≤ 96 ∧ field b 8 2 = e.1 ∧ zeros p e.2 96 = true ∧ zeros p 5 3 = true) ∧
      (let b := payloadEntry e.1 96 [(e.2, 1)]
       field b 8 2 = e.1 ∧ zeros ((b.drop 16).take 96) e.2 96 = false)) ∧
    (∀ op ∈ [8, 9], zeros (((payloadEntry op 96 [(7, 1)]).drop 16).take 96) 5 3 = false) ∧
    96 < field (payloadEntry 2 97 []) 0x0A 2 ∧ 9 < field (payloadEntry 10 0 []) 8 2 ∧ field (payloadEntry 0 0 []) 8 2 = 0 ∧
    field (toBytes 12 0 ++ [1] ++ List.replicate 115 0) 0x0C 4 ≠ 0 := by decide +kernel

def aStatus : Status := { seq := 1, status := 0, kind := 0, launch := 0, count := 0, value := 0 }

theorem witness_StatusRing : s0.posts = [] ∧ s0.port.room = false ∧ (ringState 5 5 0).port.ssize.toNat ≤ 16 ∧
    (let s : State := { s0 with port := { HostPort.reset with ssize := 6, en := true, stail := 62 } }
     s.posts = [] ∧ s.port.room = true) ∧
    (let s : State := { s0 with port := { HostPort.reset with ssize := 6, en := true, stail := 126 }, posts := [aStatus, aStatus] }
     s.port.ssize.toNat ≤ 16 ∧ s.posts = [aStatus, aStatus]) := by decide

theorem witness_HostRegisters : s0.port.en = false ∧
    (let p : HostPort := { HostPort.reset with en := true }; p.en = true) ∧ (0x68 : Nat) ∉ [0, 8, 0x10, 0x20, 0x28, 0x34, 0x60, 0x64] ∧
    (0 : BitVec 32).getLsbD 0 = false ∧ (1 : BitVec 32).getLsbD 0 = true ∧ ¬ 6 ≤ s0.port.csize.toNat ∧
    (let p : HostPort := { HostPort.reset with csize := 6, ssize := 16, cbase := 0x1000, sbase := 0x2000 }
     6 ≤ p.csize.toNat ∧ p.csize.toNat ≤ 16 ∧ 6 ≤ p.ssize.toNat ∧ p.ssize.toNat ≤ 16 ∧ p.cbase.toNat % 4096 = 0 ∧
       p.sbase.toNat % 4096 = 0 ∧ p.en = false ∧
       p.chead.toNat % 2 ^ p.csize.toNat = p.ctail.toNat % 2 ^ p.csize.toNat) := by decide

/-! A descriptor of one stage of one image whose code is EXIT alone, at host address 0x1000; the code lies at 0x8000. -/

def codeBytes : List Byte := (oneHeadLine 0x0E00 0).flatMap fun h => toBytes 2 h.toNat
/-- Nonzero bytes of the descriptor, by offset: header, slot 3 of the table at 256, package list, stage, image. -/
def descriptor (tag : Byte) (pkg2 : Bool) : List (Nat × Byte) :=
  [(0, 1), (3, 1), (4, 1), (6, 1), (8, tag), (0x1A, if pkg2 then 2 else 1)] ++
  [(0x30, 0xE0), (0x31, 0x20), (0x34, 0xE8), (0x35, 0x20), (0x38, 0xF8), (0x39, 0x20)] ++
  [(0x3C, 0xF8), (0x3D, 0x20), (0x40, 0x38), (0x41, 0x21)] ++
  [(256 + 66, 4), (256 + 74, 1), (256 + 82, 0x07), (256 + 86, 1)] ++ (if pkg2 then [(0x20E2, 2)] else []) ++
  [(0x20EA, 1), (0x20EC, 4)] ++
  [(0x20F9, 0x80), (0x2100, 64), (0x2104, 2), (0x2109, 1), (0x210C, 3)] ++ place 0x2110 (sha256 codeBytes)
def hosting (d : List (Nat × Byte)) : State :=
  { up with host := ((State.reset.host).setMany (d.map fun c => (0x1000 + c.1, c.2))).setMany (place 0x8000 codeBytes) }

/-- The descriptor as it is read, its image entry, and what the image is. -/
def dHost (p : Bool) : Mem := (hosting (descriptor 7 p)).host
def dBytes (p : Bool) : List Byte := (dHost p).bytes 0x1000 8504
def dImage (p : Bool) : List Byte := (dHost p).bytes 0x30F8 64
def slot3 : SlotEntry := { slotTo 0x40000 0x10000 with mov := false, at_ := false, eng := false }
def image3 : Image := { entry := 0x40002, codeSlot := 3, codeLen := 64, slots := [(3, slot3)] }
def slotBits : List (BitVec 256) :=
  List.replicate 2 0 ++ [BitVec.ofNat 256 (0x40000 + 0x10000 * 2 ^ 64 + 7 * 2 ^ 144 + 2 ^ 176)] ++ List.replicate 252 0

theorem dBytes_images (p : Bool) : imageTable (dBytes p) = [dImage p] := by
  have h : dImages (dBytes p) = 1 ∧ dOff (dBytes p) 0x3C = 0x20F8 := by cases p <;> decide +kernel
  rw [imageTable, h.1, h.2]
  exact table_bytes _ _ _ _ _ _ (by decide)

theorem dBytes_slots (p : Bool) : imageSlots (dBytes p) (dImage p) = slotBits := by
  have h : field (dImage p) 0x10 4 = 0x100 := by cases p <;> decide +kernel
  have z : ∀ j < 255, j ≠ 2 → ∀ c ∈ dHost p, c.1 < 0x1100 + j * 32 ∨ 0x1100 + j * 32 + 32 ≤ c.1 := by
    cases p <;> decide +kernel
  rw [imageSlots, h, dBytes, table_bytes _ _ _ _ _ _ (by decide), List.map_map,
    List.map_congr_left (g := fun j => if j = 2 then slotBits.getD 2 0 else 0)]
  · decide +kernel
  · intro j hj
    by_cases e : j = 2
    · subst e; cases p <;> decide +kernel
    · have r := Mem.read_of_not_listed (z j (List.mem_range.1 hj) e)
      rw [Mem.read, Nat.add_assoc 0x1000 0x100] at r
      simp only [Function.comp_apply, r, if_neg e]
      rfl

theorem dBytes_image (p : Bool) : imageFrom (dBytes p) (dImage p) = image3 := by
  unfold imageFrom
  simp only [dBytes_slots]
  cases p <;> decide +kernel

/-- A descriptor of one image and no data section is admitted when each of its checks passes. -/
theorem admitted_of {s : State} {d e : List Byte} {i : Image} (h : imageTable d = [e]) (g : imageFrom d e = i)
    (a : imageOk d e s.pkg = true) (b : s.entryOk d e = true)
    (c : (headerOk d && pkgsOk d s.pkg && (stageTable d).all (stageOk d) && (queueTable d).all (queueOk d)) = true)
    (k : dataTable d = [])
    (m : (s.noConflict [i] && s.minimumsFit ((stageTable d).map stageOf) &&
      s.featuresOk d ((stageTable d).map stageOf)) = true)
    (f : (sha256 (s.codeOf e) != (e.drop 0x18).take 32) = false) : s.judgeLaunch d = 0 := by
  simp only [Bool.and_eq_true] at c m
  unfold State.judgeLaunch
  simp only [h, g, a, b, c, k, m, f, List.map_cons, List.map_nil, List.all_cons, List.all_nil, List.any_cons, List.any_nil,
    Bool.and_true, Bool.not_true, Bool.or_false, Bool.false_eq_true, if_false]

theorem dBytes_imageOk (p : Bool) : imageOk (dBytes p) (dImage p) 0 = true := by
  unfold imageOk
  simp only [dBytes_slots, dBytes_image]
  cases p <;> decide +kernel

theorem dBytes_entryOk (p : Bool) : (hosting (descriptor 7 p)).entryOk (dBytes p) (dImage p) = true := by
  unfold State.entryOk
  simp only [dBytes_image]
  cases p <;> decide +kernel

theorem dBytes_tables (p : Bool) : (headerOk (dBytes p) && pkgsOk (dBytes p) 0 &&
    (stageTable (dBytes p)).all (stageOk (dBytes p)) && (queueTable (dBytes p)).all (queueOk (dBytes p))) = true := by
  cases p <;> decide +kernel

theorem dBytes_fits (p : Bool) : ((hosting (descriptor 7 p)).noConflict [image3] &&
    (hosting (descriptor 7 p)).minimumsFit ((stageTable (dBytes p)).map stageOf) &&
    (hosting (descriptor 7 p)).featuresOk (dBytes p) ((stageTable (dBytes p)).map stageOf)) = true := by
  cases p <;> decide +kernel

theorem dBytes_hashed (p : Bool) :
    (sha256 ((hosting (descriptor 7 p)).codeOf (dImage p)) != ((dImage p).drop 0x18).take 32) = false := by
  cases p <;> decide +kernel

theorem dBytes_noData (p : Bool) : dataTable (dBytes p) = [] := by cases p <;> decide +kernel

theorem dBytes_admitted (p : Bool) : (hosting (descriptor 7 p)).judgeLaunch (dBytes p) = 0 :=
  admitted_of (dBytes_images p) (dBytes_image p) (dBytes_imageOk p) (dBytes_entryOk p) (dBytes_tables p) (dBytes_noData p)
    (dBytes_fits p) (dBytes_hashed p)

theorem witness_LaunchCommand_runs :
    let s := hosting (descriptor 7 false)
    let d := s.host.bytes (0x1000 : Word).toNat (8504 : Word).toNat
    256 ≤ (8504 : Word).toNat ∧ (8504 : Word).toNat ≤ 16777216 ∧ s.judgeLaunch d = 0 ∧ s.heard = [] ∧
      (∀ x ∈ s.launches, x.id < s.nextLaunch) ∧ (s.launchFrom d 1).pkgs = [s.pkg] :=
  ⟨by decide, by decide, dBytes_admitted false, rfl, by decide, by decide +kernel⟩

theorem witness_LaunchCommand_waits :
    let s := hosting (descriptor 7 true)
    let d := s.host.bytes (0x1000 : Word).toNat (8504 : Word).toNat
    s.judgeLaunch d = 0 ∧ (s.launchFrom d 1).pkgs = [0, 2] ∧ s.pkg = 0 :=
  ⟨dBytes_admitted true, by decide +kernel, rfl⟩

theorem witness_LaunchCommand_refused :
    (255 : Word).toNat < 256 ∧ 16777216 < (16777217 : Word).toNat ∧
    (let d := s0.host.bytes 0 (256 : Word).toNat
     s0.judgeLaunch d ≠ 0 ∧ digest (sha256 d) ≠ 0) := by decide +kernel

/-- The launch on packages 0 and 2, admitted here at tick 5 and, as the list says, elsewhere. -/
def waitingLaunch (admitted : List (BitVec 12)) : Launch :=
  { l0 with pkgs := [0, 2], admitted := admitted, state := .waiting 1 5 }

theorem witness_Admission :
    (∀ l ∈ [waitingLaunch [0], waitingLaunch [0, 2]], l.state = .waiting 1 5 ∧ (withLaunch l).launches = [l] ∧
      (withLaunch l).heard = [] ∧ l.pkgs = [0, 2]) ∧
    ((waitingLaunch [0]).admitted.contains 0 = true ∧ (waitingLaunch [0]).admitted.contains 2 = false ∧ (2 : BitVec 12) ≠ 0) ∧
    ((5 : Word).toNat + 1000000000 ≤ ({ withLaunch (waitingLaunch [0]) with time := 1000000005 } : State).time.toNat) ∧
    (({ withLaunch (waitingLaunch [0]) with time := 1000000004 } : State).time.toNat < (5 : Word).toNat + 1000000000) := by
  decide +kernel

theorem witness_EndLaunch : launched.launchAt 1 = some l0 ∧ l0.state = .running ∧ launched.runningLaunch 2 = none ∧
    ({ launched with core := running 0 } : State).core.belongs 1 = false := by decide +kernel

theorem witness_HostCommands :
    (∀ (bits : BitVec 256), s0.admittedOnce = false ∧ ((0 : BitVec 256) &&& bits = 0)) ∧
    launched.admittedOnce = true ∧ (1 : BitVec 256) &&& ~~~s0.port.offer ≠ 0 ∧ (1200 ≤ 1200 ∧ 2600 ≤ 2600 ∧ 1199 < 1200 ∧ 2600 < 2601) ∧
    1023 < 1024 ∧ launched.runningLaunch 2 = none ∧ launched.runningLaunch 1 = some l0 ∧
    (let s : State := { launched with others := [{ inFlight 1023 with run := .parked }] }
     1023 ≤ 1023 ∧ (s.coreAt 1023).belongs 1 = true ∧ (s.coreAt 1023).run = .parked) ∧
    ((launched.coreAt 0).run ≠ .parked) ∧
    (let v := { saveOf 1023 with core := { inFlight 1023 with run := .parked } }
     let s : State := { launched with others := [{ inFlight 1023 with run := .parked }], saves := [v] }
     (s.saves.find? fun v => v.core.hartId == (s.coreAt 1023).hartId && v.core.run == .parked) = some v ∧
       v.core.num = 1023 ∧ v.core.notice = false) ∧
    (l0.queues[1]? = some (queueOf none (some 0)) ∧ (queueOf none (some 0)).closed = false ∧
      (List.replicate 64 (1 : Byte)).length = 64 ∧ (queueOf none (some 0)).full = false ∧
      ({ queueOf none (some 0) with entries := [entry 1, entry 2] } : Queue).full = true) ∧
    (l0.queues[2]? = some (queueOf (some 0) none) ∧ 65536 ≤ 65536 ∧ (64 : Word).toNat % 64 = 0) ∧
    ((0 : Nat) = 0 ∧ 65536 < 65537 ∧ (32 : Word).toNat % 64 ≠ 0) := by
  refine ⟨fun bits => ⟨rfl, by simp⟩, ?_⟩
  decide +kernel

/-- A boot image signed under the key whose hash the fuses hold: of any one-time values and paths, the roots are those they
lead to. -/
def lmsSigned : LmsSignature :=
  { leaf := 5, rand := List.replicate 32 1, vals := List.replicate 67 (List.replicate 32 2),
    path := List.replicate 15 (List.replicate 32 3) }
def treeId : List Byte := List.replicate 16 9
def lowerKey : LmsKey := { id := treeId, root := lmsRoot lmsSigned treeId [1, 2, 3] }
def upperKey : LmsKey := { id := treeId, root := lmsRoot lmsSigned treeId (lmsKeyBytes lowerKey) }
def bootImage (version : Nat) : BootImage :=
  { bytes := [1, 2, 3], version := version, key := upperKey,
    signature := { upper := lmsSigned, key := lowerKey, lower := lmsSigned } }
def fused : State := { s0 with boot := { s0.boot with fused := 1, root := digest (sha256 (hssKeyBytes upperKey)) } }

theorem bootImage_verified (n : Nat) : imageVerified (bootImage n) fused.boot.root = true := by
  have h : lmsSized lmsSigned = true := by decide +kernel
  show (_ == _ && (_ && _)) = true
  simp only [fused, bootImage, lmsAccepts, upperKey, lowerKey, h, beq_self_eq_true, Bool.and_true]
  decide

theorem witness_BootAndAttestation :
    (let tries := [none, some (bootImage 0), none] ++ some (bootImage 1) :: [none]
     [none, some (bootImage 0), none].length < 4 ∧ imageVerified (bootImage 1) fused.boot.root = true ∧
       fused.boot.fused ≤ (bootImage 1).version ∧
       (∀ j ∈ [none, some (bootImage 0), none].filterMap id, ¬ fused.boot.fused ≤ j.version) ∧ tries.length = 5) ∧
    (∀ l ∈ [[none, some (bootImage 0), none, none, some (bootImage 1)], [some (bootImage 0)]],
      ∀ i ∈ ((l : List (Option BootImage)).take 4).filterMap id, ¬ fused.boot.fused ≤ i.version) ∧
    up.boot.stage = .running ∧ s0.boot.stage ≠ .running := by
  have v : fused.boot.fused = 1 := rfl
  have n (k : Nat) : (bootImage k).version = k := rfl
  refine ⟨⟨by decide, bootImage_verified 1, by simp [v, n], by simp [v, n], by simp⟩, by simp [v, n], by decide, by decide⟩

theorem witness_ClocksAndTemperature :
    (127 < 128 ∧ 800 ≤ 800 ∧ 2400 ≤ 2400 ∧ 2400 % 100 = 0 ∧ (s0.islandAt 127).throttled = false) ∧
    (let s : State := { s0 with islands := [{ num := 127, mhz := 800, setMhz := 2000, throttled := true, baseTick := 0, baseCycle := 0 }] }
     (s.islandAt 127).throttled = true) ∧ launched.launches = [l0] ∧ l0.state = .running ∧
    (withLaunch (waitingLaunch [0])).launches = [waitingLaunch [0]] ∧ (waitingLaunch [0]).state = .waiting 1 5 := by
  decide +kernel

theorem witness_SoftError : 1023 < 1024 ∧ 6143 < granulesOf .vector ∧ 18431 < granulesOf .tile ∧ 12287 < granulesOf .acc := by
  decide

/-- The first of the ten tests of R157 that fails, numbered from 0. -/
def firstFailing (s : State) (x : XReg) (off : Int) (size align : Nat) (kind : AccKind) : Nat :=
  let e := s.core.slot x.slot
  let ea : Int := x.val.toNat + off
  [decide (x.tagged = false), decide (e.v = false),
   decide (e.world ≠ s.core.ctl.world ∨ (x.slot ≠ 0 ∧ e.rem = false ∧ s.live.getLsbD e.key.toNat = false)),
   decide ((kind.localOnly = true ∧ e.rem = true) ∨ (kind.remoteOnly = true ∧ e.rem = false)),
   decide (kind.reads = true ∧ e.r = false), decide (kind.writes = true ∧ e.w = false),
   decide (kind.isAtomic = true ∧ e.at_ = false), decide (kind = .tileLoad ∧ x.slot ≠ 0),
   decide (ea < e.base.toNat ∨ e.base.toNat + e.limit.toNat < ea + size), decide (ea.toNat % align ≠ 0)].findIdx id

/-- Slot 1 with a changed entry. -/
def slotted (e : SlotEntry) : State := withCore { based with slots := [(1, e)] }

theorem witness_AccessCheck :
    let good := slotTo 0x20000 0x10000
    let r : XReg := { val := 0x20000, tag := 0x101 }
    sb.core.fw = false ∧ firstFailing sb (sb.x 8) 0 8 8 .load = 0 ∧
    firstFailing (slotted { good with v := false }) r 0 8 8 .load = 1 ∧
    firstFailing (slotted { good with world := 1 }) r 0 8 8 .load = 2 ∧
    firstFailing { slotted good with live := ~~~2 } r 0 8 8 .load = 2 ∧
    firstFailing sb r 0 8 8 .remoteAtomic = 3 ∧ firstFailing sb (sb.x 7) 0 8 8 .localStore = 3 ∧
    firstFailing (slotted { good with r := false }) r 0 8 8 .load = 4 ∧
    firstFailing (slotted { good with w := false }) r 0 8 8 .store = 5 ∧
    firstFailing (slotted { good with at_ := false }) r 0 8 8 .atomic = 6 ∧
    firstFailing sb r 0 6144 64 .tileLoad = 7 ∧
    firstFailing sb r (-1) 1 1 .load = 8 ∧ firstFailing sb r 0xFFF9 8 8 .load = 8 ∧
    firstFailing sb r 0xFFF7 8 8 .load = 9 ∧ firstFailing sb r 0xFFF8 8 8 .load = 10 ∧
    firstFailing sb (sb.x 7) 0xFFF8 8 8 .remoteLoad = 10 := by decide +kernel

theorem witness_CanonicalFormKept :
    State.reset.MemOk ∧ State.reset.StoresOk ∧ step State.reset = .next State.reset.tick := by
  refine ⟨by unfold State.MemOk; decide, ?_, rfl⟩
  unfold State.StoresOk Core.StoresOk; decide

theorem test_reset_boot : State.reset.boot.stage = .held := by decide


end Sys2Proof.Tests
end

section
/-! PROOFS. ARD and AWR (R145): what a vector or matrix instruction writes does not change where control goes, what an
instruction that stops part-way does while no granule has an error, and what a row of accumulators holds after its entries are
written. -/

namespace Sys2Proof.Machine

/-! The reel reads of a core its head count and PC alone. -/

/-- The reel sees no difference between two states (R25): their quads agree, and of each core the head count and the PC. -/
def State.ReelAlike (s t : State) : Prop :=
  s.quads = t.quads ∧ ∀ n : Nat, (s.coreAt n).heads = (t.coreAt n).heads ∧ (s.coreAt n).pc = (t.coreAt n).pc

namespace State.ReelAlike
variable {s t : State}

theorem heads (h : s.ReelAlike t) (n : Nat) : (s.coreAt n).heads = (t.coreAt n).heads := (h.2 n).1
theorem pc (h : s.ReelAlike t) (n : Nat) : (s.coreAt n).pc = (t.coreAt n).pc := (h.2 n).2
theorem quadAt (h : s.ReelAlike t) (q : Nat) : s.quadAt q = t.quadAt q := by unfold State.quadAt; rw [h.1]
theorem forkOf (h : s.ReelAlike t) (n : Nat) : s.forkOf n = t.forkOf n := by unfold State.forkOf; rw [h.quadAt]

theorem setQuad (h : s.ReelAlike t) (k : Quad) : (s.setQuad k).ReelAlike (t.setQuad k) :=
  ⟨by unfold State.setQuad; rw [h.1], h.2⟩

theorem dropFork (h : s.ReelAlike t) (n : Nat) : (s.dropFork n).ReelAlike (t.dropFork n) := by
  unfold State.dropFork; rw [h.quadAt]; exact h.setQuad _

theorem dropAttached (h : s.ReelAlike t) (n : Nat) : (s.dropAttached n).ReelAlike (t.dropAttached n) := by
  unfold State.dropAttached; rw [h.quadAt]; exact (h.setQuad _).dropFork n

theorem trimReel (h : s.ReelAlike t) (q : Nat) : (s.trimReel q).ReelAlike (t.trimReel q) := by
  unfold State.trimReel; simp only [h.heads, h.quadAt]; exact h.setQuad _

theorem ite {p : Prop} [Decidable p] {s' t' : State} (h : s.ReelAlike t) (h' : s'.ReelAlike t') :
    (if p then s else s').ReelAlike (if p then t else t') := by
  split
  · exact h
  · exact h'

theorem compareTo (h : s.ReelAlike t) (k : Nat) (pc seq : Word) (x : Bool) (n : Nat) :
    (s.compareTo k pc seq x n).ReelAlike (t.compareTo k pc seq x n) := by
  unfold State.compareTo
  simp only [h.heads, h.pc, h.forkOf]
  cases t.forkOf n with
  | none => exact .ite (h.dropAttached n) h
  | some own => exact .ite (.ite (h.dropAttached n) h) (.ite (h.dropFork n) (h.dropAttached n))

theorem foldl_compareTo (h : s.ReelAlike t) (k : Nat) (pc seq : Word) (x : Bool) (l : List Nat) :
    (l.foldl (fun s m => s.compareTo k pc seq x m) s).ReelAlike (l.foldl (fun s m => s.compareTo k pc seq x m) t) := by
  induction l generalizing s t with
  | nil => exact h
  | cons m l ih => exact ih (h.compareTo k pc seq x m)

theorem lead (h : s.ReelAlike t) (n k : Nat) (seq : Word) (x : Bool) : (s.lead n k seq x).ReelAlike (t.lead n k seq x) := by
  unfold State.lead; simp only [h.pc, h.quadAt]; exact (h.setQuad _).foldl_compareTo ..

theorem takeLead (h : s.ReelAlike t) (q : Nat) : (s.takeLead q).ReelAlike (t.takeLead q) := by
  unfold State.takeLead
  simp only [h.heads, h.pc, h.forkOf, h.quadAt]
  exact .ite h ((h.dropFork _).lead ..)

theorem cutLoose (h : s.ReelAlike t) (n : Nat) : (s.cutLoose n).ReelAlike (t.cutLoose n) :=
  ((h.dropAttached n).takeLead _).trimReel _

theorem reelStep (h : s.ReelAlike t) (n : Nat) (seq : Word) (x : Bool) :
    (s.reelStep n seq x).ReelAlike (t.reelStep n seq x) := by
  unfold State.reelStep
  simp only [h.heads, h.pc, h.quadAt]
  exact .ite h (.ite (.ite (h.trimReel _) (h.cutLoose n)) (.ite ((h.lead ..).trimReel _) (.ite (h.setQuad _) h)))

end State.ReelAlike

/-! The registers that vector and matrix instructions write. -/

/-- The core with the vector and matrix registers of d, their errors, and the fields of d's control registers that the
instructions on them write beside cr.estart (R52 to R67). -/
def Core.withData (c d : Core) : Core :=
  { c with vec := d.vec, m := d.m, tiles := d.tiles, acc := d.acc, rowType := d.rowType, ecc := d.ecc,
           ctl := { c.ctl with flags := d.ctl.flags, fx := d.ctl.fx, cecc := d.ctl.cecc, pcnt := d.ctl.pcnt } }

def State.withData (s : State) (d : Core) : State := { s with core := s.core.withData d }

theorem Core.withData_goto (c d : Core) (pc : Word) (e : Bool) : (c.withData d).goto pc e = (c.goto pc e).withData d := by
  unfold Core.goto; cases h : c.fw <;> simp [Core.withData, h]

theorem Core.withData_iterationEnd (c d : Core) (taken : Bool) :
    (c.withData d).iterationEnd taken = (c.iterationEnd taken).withData d := by
  unfold Core.iterationEnd
  dsimp only
  rw [apply_ite (fun k => Core.withData k d)]
  refine ite_congr rfl (fun _ => ?_) (fun _ => ?_) <;> (rw [← Core.withData_goto]; rfl)

theorem Core.withData_arrive (c d : Core) (pc : Word) (taken : Bool) :
    (c.withData d).arrive pc taken = (c.arrive pc taken).map (Core.withData · d) id := by
  unfold Core.arrive
  dsimp only
  rw [apply_ite (Prod.map (Core.withData · d) id)]
  refine ite_congr rfl (fun _ => ?_) (fun _ => ?_)
  · rw [Prod.map_apply, ← Core.withData_iterationEnd]; rfl
  · rw [Prod.map_apply, ← Core.withData_goto]; rfl

theorem State.withData_reelAlike (s : State) (d : Core) : (s.withData d).ReelAlike s := by
  refine ⟨rfl, fun n => ?_⟩
  by_cases h : s.core.num = n
  · subst h
    rw [State.coreAt_self, show (s.withData d).coreAt s.core.num = s.core.withData d from State.coreAt_self (s.withData d)]
    exact ⟨rfl, rfl⟩
  · rw [show (s.withData d).coreAt n = s.coreAt n from (if_neg h).trans (if_neg h).symm]
    exact ⟨rfl, rfl⟩

theorem State.withData_reelStep (s : State) (d : Core) (n : Nat) (seq : Word) (x : Bool) :
    (s.withData d).reelStep n seq x = (s.reelStep n seq x).withData d := by
  obtain ⟨q, hq⟩ := s.reelStep_shape n seq x
  obtain ⟨q', hq'⟩ := (s.withData d).reelStep_shape n seq x
  obtain ⟨h, -⟩ := (s.withData_reelAlike d).reelStep n seq x
  rw [hq, hq'] at h ⊢
  subst h; rfl

/-- What an instruction writes into vector and matrix registers does not change where control goes after it. -/
theorem State.withData_advance (s : State) (d : Core) : (s.withData d).advance = s.advance.withData d := by
  unfold State.advance State.arrive
  dsimp only
  rw [show (s.withData d).core = s.core.withData d from rfl, Core.withData_arrive,
    apply_ite (State.withData · d), ← State.withData_reelStep]
  rfl

theorem State.withData_endVector (s : State) (d : Core) (hi n : Nat) :
    (s.withData d).endVector hi n = (s.endVector hi n).withData d := by
  unfold State.endVector
  rw [apply_ite (State.withData · d), ← State.withData_advance]
  rfl

/-- The end of an instruction leaves the vector and matrix registers as they are. -/
theorem State.endVector_core_withData (s : State) (hi n : Nat) :
    (s.endVector hi n).core.withData s.core = (s.endVector hi n).core :=
  congrArg State.core (s.withData_endVector s.core hi n).symm

/-- A new vector file is all that the end of the step differs in. -/
theorem State.endVector_withData_vec (s : State) (hi n : Nat) (v : Mem) :
    (s.endVector hi n).withData { s.core with vec := v } =
      { s.endVector hi n with core := { (s.endVector hi n).core with vec := v } } := by
  conv_rhs => rw [← s.endVector_core_withData hi n]
  rfl

theorem State.wroteAcc_withData (s : State) (n : Nat) (a : Mem) (ty : Vector RowType 64) :
    s.wroteAcc ((s.endVector (s.hiOf n) n).withData { s.core with acc := a, rowType := ty }) n := by
  have h : (s.endVector (s.hiOf n) n).withData { s.core with acc := a, rowType := ty } =
      { s.endVector (s.hiOf n) n with core := { (s.endVector (s.hiOf n) n).core with acc := a, rowType := ty } } := by
    conv_rhs => rw [← s.endVector_core_withData (s.hiOf n) n]
    rfl
  unfold State.wroteAcc
  rw [h]

/-! Instructions that stop part-way, while no granule has an error. -/

theorem cut_eq_self {bad : Nat → Option Word} {l : List Nat} (h : ∀ k ∈ l, bad k = none) : cut bad l = (l, none) := by
  induction l with
  | nil => rfl
  | cons k l ih =>
    rw [cut, h k List.mem_cons_self, ih fun j hj => h j (List.mem_cons_of_mem k hj)]

/-- Counting no more poisoned granules leaves the saturating counter as it is (R149). -/
theorem pcnt_add_zero (v : BitVec 16) : BitVec.ofNat 16 (min 0xFFFF (v.toNat + 0)) = v := by
  rw [Nat.add_zero, Nat.min_eq_right (by omega), BitVec.ofNat_toNat, BitVec.setWidth_eq]

section
variable {c : Core} (h : c.ecc = [])
include h

theorem Core.poisonIn_eq_none (store : StoreKind) (cell n : Nat) : c.poisonIn store cell n = none := by
  simp [Core.poisonIn, Core.poisoned, h]

theorem Core.badAt_eq_none (store : StoreKind) (cell n step : Nat) : c.badAt store cell n step = none := by
  rw [Core.badAt, Core.poisonIn_eq_none h]; rfl

theorem Core.badIn_eq_none (l : List Nat) (w : Nat) : c.badIn l w = none := by
  simp [Core.badIn, Core.poisonIn_eq_none h]

theorem Core.noteReads_eq_self (store : StoreKind) (src : Nat → Bool) : c.noteReads store src = c := by
  unfold Core.noteReads Core.correct
  simp only [h, List.filter_nil, List.length_nil, pcnt_add_zero, List.any_nil, Bool.or_false]
  rw [← h]

theorem Core.stopPart_eq_eff (r : List (StoreKind × Nat × Nat)) (eff : Core → Core) : c.stopPart r eff = eff c := by
  unfold Core.stopPart
  simp only [h, List.filter_nil, List.length_nil, pcnt_add_zero, List.any_nil, Bool.or_false]
  rw [← h]

end

/-- While no granule has an error, the elements of this step take effect, and the instruction ends or stops. -/
theorem State.partway_eq {s : State} {act : List Nat} {bad : Nat → Option Word} {note : Core → Core}
    (reads : Nat → List (StoreKind × Nat × Nat)) (eff : List Nat → Core → Core) (hi n : Nat) (hecc : s.core.ecc = [])
    (hbad : ∀ k ∈ act, bad k = none) (hnote : note s.core = s.core) :
    s.partway act bad reads note eff hi n = .next ({ s with core := eff act s.core }.endVector hi n) := by
  unfold State.partway
  rw [cut_eq_self hbad]
  dsimp only
  rw [Core.stopPart_eq_eff hecc, hnote, ite_self]

/-! The elements of a step, and its result in DeliversElems. -/

@[simp] theorem mem_span {lo hi k : Nat} : k ∈ span lo hi ↔ lo ≤ k ∧ k < hi := by
  simp only [span, List.mem_map, List.mem_range]
  exact ⟨fun ⟨j, hj, e⟩ => by omega, fun ⟨h1, h2⟩ => ⟨k - lo, by omega, by omega⟩⟩

theorem State.hiOf_le (s : State) (n : Nat) : s.hiOf n ≤ max s.core.estartN n := by
  unfold State.hiOf
  split <;> omega

theorem foldl_or_fNone (l : List Nat) (v : FlagSet) :
    (l.map fun k => (k, fNone)).foldl (fun v k => v ||| k.2) v = v := by
  induction l generalizing v with
  | nil => rfl
  | cons k l ih => rw [List.map_cons, List.foldl_cons, show v ||| fNone = v from BitVec.or_zero]; exact ih v

theorem raisedAt_fNone (j : Nat) (l : List Nat) : raisedAt j (l.map fun k => (k, fNone)) = none := by
  simp [raisedAt, fNone, List.filter_eq_nil_iff]

theorem mergeIndex_fNone (l : List Nat) (pc : Word) (fx : List Word) :
    (fx.mapIdx fun k old => mergeIndex old pc (raisedAt k (l.map fun k => (k, fNone)))) = fx := by
  simp only [raisedAt_fNone, mergeIndex]
  exact List.ext_getElem (by simp) (by simp)

/-- Elements delivered without flags: the group alone differs from the end of the step. -/
theorem deliversElems_of_no_flags {i : Instr} {s : State} {d w n : Nat} {l : List Nat} {f : Nat → Nat}
    (hecc : s.core.ecc = [])
    (hexec : exec i s = .next
      ({ s with core := s.core.putElems d w (l.map fun k => (k, f k)) }.endVector (s.hiOf n) n)) :
    DeliversElems i s d w n l fun k => (f k, fNone) := by
  have hput : s.core.putElems d w (l.map fun k => (k, f k)) = s.core.withData
      { s.core with vec := (s.core.putElems d w (l.map fun k => (k, f k))).vec } := by
    simp only [Core.putElems, Core.writeVec, clearEcc, Core.withData, hecc, List.filter_nil]
  have hflags : (s.endVector (s.hiOf n) n).core.ctl.flags = s.core.ctl.flags :=
    (congrArg (fun c => c.ctl.flags) (s.endVector_core_withData (s.hiOf n) n)).symm
  have hfx : (s.endVector (s.hiOf n) n).core.ctl.fx = s.core.ctl.fx :=
    (congrArg (fun c => c.ctl.fx) (s.endVector_core_withData (s.hiOf n) n)).symm
  unfold DeliversElems
  dsimp only
  rw [foldl_or_fNone, mergeIndex_fNone, ← hflags, ← hfx, hexec, hput]
  refine congrArg Host.Outcome.next ((s.withData_endVector _ (s.hiOf n) n).trans ?_)
  exact s.endVector_withData_vec ..

/-! Entries of accumulator rows. -/

/-- The four cells of one entry are apart from those of another (R59). -/
theorem accCell_apart {q r j k : Nat} (hj : j < 384) (hk : k < 384) (h : ¬ (q = r ∧ j = k)) :
    accCell q j + 4 ≤ accCell r k ∨ accCell r k + 4 ≤ accCell q j := by
  unfold accCell Config.rowBytes; omega

/-- An entry reads as what was written to it last, and as before when nothing was. -/
theorem Mem.read_setMany_entries {m : Mem} (r : Nat) (l : List Nat) (f : Nat → Nat) (q k : Nat) (hm : m.wf = true)
    (hl : ∀ j ∈ l, j < 384) (hk : k < 384) :
    (m.setMany (l.flatMap fun j => cells (accCell r j) 4 (f j))).read (accCell q k) 4 =
      if q = r ∧ k ∈ l then f k % 2 ^ 32 else m.read (accCell q k) 4 := by
  induction l generalizing m with
  | nil => simp [Mem.setMany]
  | cons j l ih =>
    rw [List.flatMap_cons, Mem.setMany_append, ih (Mem.wf_setMany _ hm) fun i hi => hl i (List.mem_cons_of_mem j hi)]
    by_cases hlast : q = r ∧ k ∈ l
    · rw [if_pos hlast, if_pos ⟨hlast.1, List.mem_cons_of_mem j hlast.2⟩]
    rw [if_neg hlast]
    by_cases hj : q = r ∧ k = j
    · obtain ⟨rfl, rfl⟩ := hj
      rw [Mem.read_setMany_cells _ _ _ hm, if_pos ⟨rfl, List.mem_cons_self⟩, show 256 ^ 4 = 2 ^ 32 by norm_num]
    · rw [if_neg fun h => by simp only [List.mem_cons] at h; tauto]
      exact Mem.read_setMany_place_of_apart _ _ _ _ hm
        (by rw [length_toBytes]; exact accCell_apart hk (hl j List.mem_cons_self) hj)

theorem Core.writeEntries_eq {c : Core} (r : Nat) (l : List Nat) (f : Nat → Nat) (h : c.ecc = []) :
    c.writeEntries r (l.map fun k => (k, f k)) =
      { c with acc := c.acc.setMany (l.flatMap fun k => cells (accCell r k) 4 (f k)) } := by
  unfold Core.writeEntries Core.writeAcc clearEcc
  simp only [h, List.filter_nil, List.flatMap_map]

/-! Types of accumulator rows. -/

theorem Core.setRowTy_eq (c : Core) (r : Nat) (t : RowType) :
    c.setRowTy r t = { c with rowType := (c.setRowTy r t).rowType } := by
  unfold Core.setRowTy; split <;> rfl

theorem Core.rowTy_setRowTy (c : Core) {r : Nat} (t : RowType) (q : Nat) (hr : r < 64) :
    (c.setRowTy r t).rowTy q = if q = r then t else c.rowTy q := by
  unfold Core.setRowTy Core.rowTy
  rw [dif_pos hr]
  by_cases h : q = r
  · subst h; simp [Array.getD, hr]
  · simp [Array.getD_eq_getD_getElem?, h, Ne.symm h]

/-- AWR's row has its type from the first of the instruction's elements on (log 33). -/
def Core.typedRow (c : Core) (r : Nat) (t : RowType) : Core := if c.estartN < 384 then c.setRowTy r t else c

theorem Core.typedRow_eq (c : Core) (r : Nat) (t : RowType) :
    c.typedRow r t = { c with rowType := (c.typedRow r t).rowType } := by
  unfold Core.typedRow; split
  · exact c.setRowTy_eq r t
  · rfl

theorem Core.typedRow_ecc (c : Core) (r : Nat) (t : RowType) : (c.typedRow r t).ecc = c.ecc := by
  rw [Core.typedRow_eq]

theorem Core.rowTy_typedRow (c : Core) {r : Nat} (t : RowType) (q : Nat) (hr : r < 64) :
    (c.typedRow r t).rowTy q = ((if q = r ∧ c.estartN < 384 then some t else none).getD (c.rowTy q)) := by
  unfold Core.typedRow
  by_cases h : c.estartN < 384
  · rw [if_pos h, c.rowTy_setRowTy t q hr]; simp only [h, and_true]; split <;> rfl
  · simp [h]

/-! ARD and AWR. -/

/-- The columns that a step of ARD or AWR acts on (R22). -/
def State.rowCols (s : State) : List Nat := span s.core.estartN (s.hiOf 384)

theorem State.mem_rowCols {s : State} {k : Nat} : k ∈ s.rowCols ↔ s.core.estartN ≤ k ∧ k < s.hiOf 384 := mem_span

theorem State.lt_of_mem_rowCols {s : State} {k : Nat} (hk : k ∈ s.rowCols) : k < 384 := by
  have h := s.hiOf_le 384
  rw [State.mem_rowCols] at hk
  omega

/-- The vector and matrix registers after a step of AWR. -/
def State.awrData (s : State) (row : AName) (d : VName) (int : Bool) : Core :=
  { s.core with
    rowType := (s.core.typedRow row.toNat (if int then .i32 else .f32)).rowType
    acc := s.core.acc.setMany (s.rowCols.flatMap fun k => cells (accCell row.toNat k) 4 (s.core.elem d.toNat 4 k)) }

section
variable {s : State} {d : VName} (row : AName) (hecc : s.core.ecc = []) (hd : aligned d.toNat 4 = true)
include hecc hd

theorem exec_ard : exec (.ard d row) s = .next
    ({ s with core := s.core.putElems d.toNat 4 (s.rowCols.map fun k => (k, s.core.entry row.toNat k)) }.endVector
      (s.hiOf 384) 384) := by
  show execArd d row s = _
  unfold execArd
  rw [if_neg (by simp [hd])]
  exact State.partway_eq _ _ _ _ hecc (fun _ _ => Core.badAt_eq_none hecc ..) (Core.noteReads_eq_self hecc ..)

theorem exec_awr (int : Bool) : exec (.awr row d int) s = .next
    ((s.endVector (s.hiOf 384) 384).withData (s.awrData row d int)) := by
  have htyped : ∀ t, (if s.core.estartN < 384 then { s with core := s.core.setRowTy row.toNat t } else s) =
      { s with core := s.core.typedRow row.toNat t } := by
    intro t; unfold Core.typedRow; split <;> rfl
  have hecc' : ∀ t, (s.core.typedRow row.toNat t).ecc = [] := fun t => (s.core.typedRow_ecc _ t).trans hecc
  show execAwr row d int s = _
  unfold execAwr
  dsimp only
  rw [if_neg (by simp [hd]), htyped]
  refine (State.partway_eq _ _ _ _ (hecc' _) (fun _ _ => Core.badIn_eq_none hecc ..)
    (Core.noteReads_eq_self (hecc' _) ..)).trans ?_
  rw [Core.writeEntries_eq _ _ _ (hecc' _), Core.typedRow_eq, ← State.withData_endVector]
  rfl

end

/-- Settles O50: while no granule has an error, neither finds poison, so the elements of the step move. -/
theorem accumulatorRows : Obligations.AccumulatorRows := by
  unfold Obligations.AccumulatorRows
  intro s d row int from_ upto hstores hecc hd
  obtain ⟨-, -, hacc, -⟩ := hstores
  refine ⟨deliversElems_of_no_flags hecc (exec_ard row hecc hd), _, exec_awr row hecc hd int,
    s.wroteAcc_withData .., rfl, fun r c _ hc => ?_, fun r => s.core.rowTy_typedRow _ r row.isLt⟩
  refine (Mem.read_setMany_entries _ _ _ r c hacc (fun _ => State.lt_of_mem_rowCols) hc).trans ?_
  simp only [State.mem_rowCols]
  by_cases h : r = row.toNat ∧ from_ ≤ c ∧ c < upto
  · rw [if_pos h, if_pos h]
  · rw [if_neg h, if_neg h]

end Sys2Proof.Machine
end

section
/-! PROOFS. DIV and REM, CLZ, LI (R333, R336, R348, R363): an instruction that writes one x register and goes on delivers the
value, division of words is division of the numbers they stand for, and CLZ counts down to the highest 1. -/

namespace Sys2Proof.Machine

/-! Instructions that write one x register and go on. -/

/-- Where control goes does not depend on the x registers, so the write of x d is all that the instruction adds to an advance. -/
theorem delivers_of_exec {i : Instr} {s : State} {d : XName} {v : XReg} (h : exec i s = .next (s.setX d v).advance) :
    Delivers i s d v := by
  rw [State.setX_advance] at h
  refine ⟨_, h, rfl, State.advance_core_fw s, State.advance_core_num s, fun r => ?_,
    fun r => s.core.readXOf_writeXOf_other s.core.fw d r v⟩
  show Core.readXOf _ s.advance.core.fw r = _
  rw [State.advance_core_fw]
  exact s.core.readXOf_writeXOf s.core.fw d r v

theorem deliversWord_of_finishX {i : Instr} {s : State} {d : XName} {w : Word} (h : exec i s = s.finishX d w) :
    DeliversWord i s d w :=
  delivers_of_exec h

section
variable (s : State) (d a b : XName)

theorem deliversWord_div (u : Bool) : DeliversWord (.div d a b u) s d (quotient (s.x a).val (s.x b).val u) :=
  deliversWord_of_finishX rfl

theorem deliversWord_rem (u : Bool) : DeliversWord (.rem d a b u) s d (remainder (s.x a).val (s.x b).val u) :=
  deliversWord_of_finishX rfl

theorem deliversWord_clz : DeliversWord (.clz d a) s d (BitVec.ofNat 64 (leadingZeros (s.x a).val 64)) :=
  deliversWord_of_finishX rfl

theorem deliversWord_li (imm : BitVec 32) : DeliversWord (.li d imm) s d (imm.signExtend 64) :=
  deliversWord_of_finishX rfl

end

/-! Quotients (R336). -/

theorem quotient_unsigned (a b : Word) : quotient a b true = if b = 0 then BitVec.allOnes 64 else a.udiv b := by
  refine ite_congr rfl (fun _ => rfl) fun _ => ?_
  rw [if_pos rfl, ← BitVec.toNat_udiv, BitVec.ofNat_toNat, BitVec.setWidth_eq, BitVec.udiv_eq]

/-- Both sides wrap the one quotient that 64 bits do not hold, that of the most negative value by −1. -/
theorem ofInt_tdiv_eq_sdiv (a b : Word) : BitVec.ofInt 64 (a.toInt.tdiv b.toInt) = a.sdiv b :=
  BitVec.eq_of_toInt_eq ((BitVec.toInt_ofInt ..).trans (BitVec.toInt_sdiv a b).symm)

theorem quotient_signed (a b : Word) : quotient a b false = if b = 0 then BitVec.allOnes 64 else a.sdiv b := by
  refine ite_congr rfl (fun _ => rfl) fun _ => ?_
  rw [if_neg Bool.false_ne_true, ofInt_tdiv_eq_sdiv]

/-! Remainders (R363): the dividend is the remainder and the quotient's multiple of the divisor, first of the numbers, then of
the words. -/

theorem eq_umod_add_udiv_mul (a b : Word) : a = a.umod b + a.udiv b * b :=
  calc a = BitVec.ofNat 64 (a.toNat % b.toNat + a.toNat / b.toNat * b.toNat) := by
        rw [Nat.mod_add_div', BitVec.ofNat_toNat, BitVec.setWidth_eq]
    _ = a.umod b + a.udiv b * b := by
        simp only [BitVec.ofNat_add, BitVec.ofNat_mul, ← BitVec.toNat_umod, ← BitVec.toNat_udiv, BitVec.ofNat_toNat,
          BitVec.setWidth_eq, BitVec.umod_eq, BitVec.udiv_eq]

theorem eq_srem_add_sdiv_mul (a b : Word) : a = a.srem b + a.sdiv b * b :=
  calc a = BitVec.ofInt 64 (a.toInt.tmod b.toInt + a.toInt.tdiv b.toInt * b.toInt) := by
        rw [Int.tmod_add_tdiv_mul, BitVec.ofInt_toInt]
    _ = a.srem b + a.sdiv b * b := by
        rw [BitVec.ofInt_add, BitVec.ofInt_mul, ofInt_tdiv_eq_sdiv, ← BitVec.toInt_srem, BitVec.ofInt_toInt, BitVec.ofInt_toInt]

theorem remainder_unsigned (a b : Word) : remainder a b true = if b = 0 then a else a.umod b := by
  refine ite_congr rfl (fun _ => rfl) fun hb => ?_
  rw [quotient_unsigned, if_neg hb]
  exact sub_eq_of_eq_add (eq_umod_add_udiv_mul a b)

theorem remainder_signed (a b : Word) : remainder a b false = if b = 0 then a else a.srem b := by
  refine ite_congr rfl (fun _ => rfl) fun hb => ?_
  rw [quotient_signed, if_neg hb]
  exact sub_eq_of_eq_add (eq_srem_add_sdiv_mul a b)

/-- The quotient that wraps, and the remainder of that division. -/
theorem intMin_by_neg_one : quotient (BitVec.intMin 64) (-1) false = BitVec.intMin 64 ∧
    remainder (BitVec.intMin 64) (-1) false = 0 := by decide

/-! Leading zeros (R333). -/

theorem leadingZeros_zero (k : Nat) : leadingZeros 0 k = k := by
  induction k with
  | zero => rfl
  | succ k ih => rw [leadingZeros, ih]; simp

/-- CLZ counts the bits above the highest 1 below bit k. -/
theorem leadingZeros_of_highest {w : Word} {j k : Nat} (hjk : j < k) (hj : w.getLsbD j = true)
    (hzero : ∀ i, j < i → w.getLsbD i = false) : leadingZeros w k = k - 1 - j := by
  induction k with
  | zero => omega
  | succ k ih =>
    rcases Nat.lt_succ_iff_lt_or_eq.1 hjk with hlt | rfl
    · rw [leadingZeros, hzero k hlt, ih hlt, if_neg Bool.false_ne_true]; omega
    · rw [leadingZeros, hj, if_pos rfl]; omega

theorem leadingZeros_of_ne_zero {w : Word} (hw : w ≠ 0) : leadingZeros w 64 = 63 - w.toNat.log2 := by
  have hne : w.toNat ≠ 0 := fun h => hw (BitVec.eq_of_toNat_eq h)
  have habove : ∀ i, w.toNat.log2 < i → w.getLsbD i = false := fun i hi =>
    Nat.testBit_lt_two_pow ((Nat.log2_lt hne).1 hi)
  exact leadingZeros_of_highest ((Nat.log2_lt hne).2 w.isLt) (Nat.testBit_log2 hne) habove

/-! The obligation. -/

theorem says_divRem : Says.DivRem := by
  intro s d a b va vb
  refine ⟨?_, ?_, ?_, ?_, fun ha hb => ?_⟩
  · rw [← quotient_unsigned]; exact deliversWord_div s d a b true
  · rw [← remainder_unsigned]; exact deliversWord_rem s d a b true
  · rw [← quotient_signed]; exact deliversWord_div s d a b false
  · rw [← remainder_signed]; exact deliversWord_rem s d a b false
  · obtain ⟨hquot, hrem⟩ := intMin_by_neg_one
    rw [← ha, ← hb] at hquot hrem
    exact ⟨by rw [← hquot]; exact deliversWord_div s d a b false, by rw [← hrem]; exact deliversWord_rem s d a b false⟩

theorem says_leadingZeros : Says.LeadingZeros := by
  intro s d a va
  have h := deliversWord_clz s d a
  by_cases hz : va = 0
  · rw [if_pos hz]; rwa [show (s.x a).val = 0 from hz, leadingZeros_zero] at h
  · rw [if_neg hz]; rwa [leadingZeros_of_ne_zero hz] at h

/-- Settles O11: each of the instructions writes x d and goes on, and the model's quotients, remainders and counts are those
of the statement. -/
theorem divisionCountsConstants : Obligations.DivisionCountsConstants := by
  unfold Obligations.DivisionCountsConstants
  exact ⟨says_divRem, says_leadingZeros, deliversWord_li⟩

end Sys2Proof.Machine
end
